-- ==== Sys2Proof/Word.lean ====
section
/-! DEFINITION. The word types of the block (00_scope R9, R10): bytes of guest memory, 32-bit registers,
voice words and DSP cells, 16-bit voice handles. -/

namespace Sys2Proof

/-- One byte of guest memory (20_memory R80). -/
abbrev Byte := BitVec 8

/-- A register, a voice word, an argument, a guest-physical or linear address, a DSP cell: 32 bits
(10_state R22, R50; 20_memory R81, R87). -/
abbrev Word := BitVec 32

/-- A voice handle: "the 16-bit index of a voice in the voice table" (00_scope R12). -/
abbrev Handle := BitVec 16

end Sys2Proof
end

