-- ==== Sys2Proof/Machine/Bits.lean ====
section
/-! DEFINITION. Bit fields, sign extension and shift helpers of the notation (00_scope R10), shared by the decoder and
the machine. -/

namespace Sys2Proof.Machine

/-- `w[lo + len - 1 : lo]` as an unsigned number (00_scope R10). -/
def field (w : Word) (lo len : Nat) : Nat :=
  (w.extractLsb' lo len).toNat

/-- The word with ones at bits `lo + len - 1 : lo`. -/
def fieldMask (lo len : Nat) : Word :=
  BitVec.ofNat 32 ((2 ^ len - 1) <<< lo)

/-- `w[lo + len - 1 : lo] <- v`: the low `len` bits of `v` replace the field, the other bits of `w` stay
(10_state R50, 44_voice_walker_mixer R382 (h)). -/
def setField (w : Word) (lo len v : Nat) : Word :=
  (w &&& ~~~ fieldMask lo len) ||| ((BitVec.ofNat 32 v <<< lo) &&& fieldMask lo len)

/-- `sext_n(v)`: the low `n` bits of `v` as a two's-complement number (00_scope R10). -/
def sext (n v : Nat) : Int :=
  let low := v % 2 ^ n
  if low < 2 ^ (n - 1) then (low : Int) else (low : Int) - (2 ^ n : Nat)

end Sys2Proof.Machine
end

