-- ==== Sys2Proof/Config.lean ====
section
/-! DEFINITION. What an implementation fixes (00_scope R9): the fixed sizes, the parameters with the values the
spec takes, and the free values, which are opaque constants (log 8, 9, 10, 24). -/

namespace Sys2Proof

/-- The two DSP cores: GP, the global one, and EP, the encode one (00_scope R1). -/
inductive Core where
  | gp
  | ep
  deriving DecidableEq, Repr

/-- The three named address spaces of a DSP core (10_state R62). -/
inductive Space where
  | x
  | y
  | p
  deriving DecidableEq, Repr

/-- The four logical registers of a DMA engine, ids 0 to 3 in this order (10_state R45). -/
inductive DmaReg where
  | configuration
  | control
  | startBlock
  | nextBlock
  deriving DecidableEq, Repr

/-- PAUSE_MODE (41_frontend_commands R226). -/
inductive PauseMode where
  | fromAction
  | invert
  deriving DecidableEq, Repr

/-- MIX_OVERFLOW (44_voice_walker_mixer R371). -/
inductive MixOverflow where
  | wrap
  | saturate
  deriving DecidableEq, Repr

/-- The parameters a model takes as arguments (00_scope R9); a machine carries its values in `State.cfg` and no
operation changes them (log 8). -/
structure Params where
  numVoices : Nat
  pageSize : Nat
  vpMaxSge : Nat
  cellBits : Nat
  xSize : Nat
  ySize : Nat
  pSize : Nat
  mixbufBase : Nat
  pauseMode : PauseMode
  mixOverflow : MixOverflow
  deriving DecidableEq, Repr

/-- The value 00_scope R9 takes for each parameter. -/
def Params.spec : Params where
  numVoices := 0xFFFF
  pageSize := 4096
  vpMaxSge := 0xFFFFFFFF
  cellBits := 32
  xSize := 0x1800
  ySize := 0x800
  pSize := 0x1000
  mixbufBase := 0x1400
  pauseMode := .fromAction
  mixOverflow := .wrap

/-- The parameter values the spec allows: handles below the terminator (D3), a page size that is a power of two
not larger than 2^31 (D2), a 32-bit entry bound (D12), cells of 24 or 32 bits (D4), spaces that hold the Host's and
the DMA engine's windows (30_encoding R123, 45_dma_engine R417), a mix buffer inside X (20_memory R87). -/
abbrev Params.Ok (c : Params) : Prop :=
  c.numVoices ≤ 0xFFFF ∧ (∃ k ∈ List.range 32, c.pageSize = 2 ^ k) ∧ c.vpMaxSge ≤ 0xFFFFFFFF ∧
  (c.cellBits = 24 ∨ c.cellBits = 32) ∧ 0x1800 ≤ c.xSize ∧ 0x800 ≤ c.ySize ∧ 0x1000 ≤ c.pSize ∧
  c.mixbufBase + 1024 ≤ c.xSize

/-- One change of a cell by a DSP engine: space, index, value (44_voice_walker_mixer R377 (a)). -/
structure CellWrite where
  space : Space
  index : Nat
  value : Word
  deriving DecidableEq, Repr

/-- One act of a DSP core's program during its quantum (44_voice_walker_mixer R377): a cell change, or an access to
its own DMA engine. -/
inductive DspAct where
  | cell (w : CellWrite)
  | dmaRead (r : DmaReg)
  | dmaWrite (r : DmaReg) (v : Word)
  deriving DecidableEq, Repr

/-- All that a DSP core can depend on when its engine is called: how many calls came before (its own hidden state),
the budget, its memories, its DMA registers, and the guest memory and scratch table its DMA reaches
(44_voice_walker_mixer R377; log 10). -/
structure OracleView where
  fresh : Nat
  core : Core
  budget : Nat
  x : List (Nat × Word)
  y : List (Nat × Word)
  p : List (Nat × Word)
  dmaRegs : List Word
  eol : Bool
  guest : List (Nat × Byte)
  tableBase : Word
  tableMax : Word
  deriving DecidableEq, Repr

namespace Config

/-- VOICE_SIZE in bytes. -/
def voiceSize : Nat := 128

/-- HANDLE_NIL, the list terminator. -/
def handleNil : Handle := 0xFFFF

/-- FRAME_SAMPLES, output samples per voice per frame. -/
def frameSamples : Nat := 32

/-- NUM_BINS, channel bins. -/
def numBins : Nat := 32

/-- NUM_SLOTS, (bin, volume) pairs of a voice. -/
def numSlots : Nat := 8

/-- VOL_MAX, the inverted 12-bit volume that silences a slot. -/
def volMax : Nat := 0xFFF

/-- ADPCM_SAMPLES_PER_BLOCK. -/
def adpcmSamples : Nat := 65

/-- ADPCM_BLOCK_BYTES per channel. -/
def adpcmBytes : Nat := 36

/-- SGE_ENTRY_BYTES. -/
def sgeBytes : Nat := 8

/-- BUF_CIRCULAR. -/
def bufCircular : Nat := 0xE

/-- The most iterations of one chain walk (45_dma_engine R421; log 13). -/
def chainBound : Nat := 16384

/-- FRAME_PERIOD_MS, timing only: no rule reads it (70_reset_and_hazards R506). -/
def framePeriodMs : Nat := 10

/-- GP_BUDGET, open (D6): no rule depends on it, the engine is given it (log 24). -/
opaque gpBudget : Nat

/-- What EP_BUDGET would be without the bound of D6. -/
opaque epBudgetFree : Nat

/-- EP_BUDGET, open, at most GP_BUDGET (D6). -/
def epBudget : Nat := min epBudgetFree gpBudget

/-- MMIO_BASE, open (D8): where the register window of 0x80000 bytes begins in the Host's address space. No rule reads it
(20_memory R86); a register access carries its offset in the window (log 24). -/
opaque mmioBase : Word

/-- The free part of StepOffset at a rate that is no power of two: how far position `i + 1` stands from position
`i`, by (pitch, pitch scale, filter level, i) (43_sample_fetch_decode R311; log 9). -/
opaque stepIncrement : Int → Int → Nat → Nat → Nat

/-- What `reset(core)` leaves in the core's memory: any cells (40_mmio_registers R196; log 10). -/
opaque dspReset : OracleView → List CellWrite

/-- What `bootstrap(core)` leaves in the core's memory: any cells (40_mmio_registers R196; log 10). -/
opaque dspBootstrap : OracleView → List CellWrite

/-- What `start_frame(core)` and `run(core, budget)` do: any finite list of acts (44_voice_walker_mixer R377;
log 10). -/
opaque dspQuantum : OracleView → List DspAct

end Config

end Sys2Proof
end

