-- ==== Sys2Proof/Syntax.lean ====
section
/-! DEFINITION. The operations of the block: one constructor of `Instr` for each row of spec/opcode_table.json
(30_encoding R166), and `OpWord`, an operation as it is encoded (30_encoding R120). -/

namespace Sys2Proof

/-- A register access: a read, or a write of a 32-bit value (40_mmio_registers R180, 30_encoding R154). -/
inductive Access where
  | read
  | write (v : Word)
  deriving DecidableEq, Repr

/-- The two envelope generators of a voice: amplitude and filter (42_envelope R280). -/
inductive Env where
  | a
  | f
  deriving DecidableEq, Repr

/-- The three voice lists (44_voice_walker_mixer R350). -/
inductive VoiceList where
  | l2d
  | l3d
  | lmp
  deriving DecidableEq, Repr

/-- The scatter-gather tables that have a client: voice data, GP scratch, EP scratch (20_memory R99). -/
inductive SgTable where
  | voice
  | gpScratch
  | epScratch
  deriving DecidableEq, Repr

/-- The width of a Host access to the register window; only words have a meaning (40_mmio_registers R181). -/
inductive Width where
  | byte
  | half
  | word
  deriving DecidableEq, Repr

/-- The operations, one constructor per row of the opcode table. -/
inductive Instr where
  -- Host register operations (40_mmio_registers): one access of the Host to the register window.
  /-- MMIO_ISTS, R184. -/
  | mmioIsts (a : Access)
  /-- MMIO_IEN, R185. -/
  | mmioIen (a : Access)
  /-- MMIO_FECTL, R186. -/
  | mmioFectl (a : Access)
  /-- MMIO_FECV, R182. -/
  | mmioFecv (a : Access)
  /-- MMIO_FEAV, R182. -/
  | mmioFeav (a : Access)
  /-- MMIO_FETFORCE1, R182. -/
  | mmioFetforce1 (a : Access)
  /-- MMIO_SECTL, R187. -/
  | mmioSectl (a : Access)
  /-- MMIO_VPVADDR, R189. -/
  | mmioVpvaddr (a : Access)
  /-- MMIO_VPSGEADDR, R189. -/
  | mmioVpsgeaddr (a : Access)
  /-- MMIO_GPSADDR, R189. -/
  | mmioGpsaddr (a : Access)
  /-- MMIO_GPFADDR, R189. -/
  | mmioGpfaddr (a : Access)
  /-- MMIO_EPSADDR, R189. -/
  | mmioEpsaddr (a : Access)
  /-- MMIO_EPFADDR, R189. -/
  | mmioEpfaddr (a : Access)
  /-- MMIO_TVL2D, R188. -/
  | mmioTvl2d (a : Access)
  /-- MMIO_CVL2D, R188. -/
  | mmioCvl2d (a : Access)
  /-- MMIO_NVL2D, R188. -/
  | mmioNvl2d (a : Access)
  /-- MMIO_TVL3D, R188. -/
  | mmioTvl3d (a : Access)
  /-- MMIO_CVL3D, R188. -/
  | mmioCvl3d (a : Access)
  /-- MMIO_NVL3D, R188. -/
  | mmioNvl3d (a : Access)
  /-- MMIO_TVLMP, R188. -/
  | mmioTvlmp (a : Access)
  /-- MMIO_CVLMP, R188. -/
  | mmioCvlmp (a : Access)
  /-- MMIO_NVLMP, R188. -/
  | mmioNvlmp (a : Access)
  /-- MMIO_GPSMAXSGE, R189. -/
  | mmioGpsmaxsge (a : Access)
  /-- MMIO_GPFMAXSGE, R189. -/
  | mmioGpfmaxsge (a : Access)
  /-- MMIO_EPSMAXSGE, R189. -/
  | mmioEpsmaxsge (a : Access)
  /-- MMIO_EPFMAXSGE, R189. -/
  | mmioEpfmaxsge (a : Access)
  /-- MMIO_GPRST, R196. -/
  | mmioGprst (a : Access)
  /-- MMIO_EPRST, R196. -/
  | mmioEprst (a : Access)
  /-- MMIO_GP.X, R195. -/
  | mmioGpX (idx : BitVec 12) (a : Access)
  /-- MMIO_GP.MIXBUF, R195. -/
  | mmioGpMixbuf (idx : BitVec 10) (a : Access)
  /-- MMIO_GP.Y, R195. -/
  | mmioGpY (idx : BitVec 11) (a : Access)
  /-- MMIO_GP.P_lower_half, R195. -/
  | mmioGpPLower (idx : BitVec 11) (a : Access)
  /-- MMIO_GP.P_upper_half, R195. -/
  | mmioGpPUpper (idx : BitVec 11) (a : Access)
  /-- MMIO_EP.X, R195. -/
  | mmioEpX (idx : BitVec 12) (a : Access)
  /-- MMIO_EP.Y, R195. -/
  | mmioEpY (idx : BitVec 11) (a : Access)
  /-- MMIO_EP.P_lower_half, R195. -/
  | mmioEpPLower (idx : BitVec 11) (a : Access)
  /-- MMIO_EP.P_upper_half, R195. -/
  | mmioEpPUpper (idx : BitVec 11) (a : Access)
  /-- MMIO_CMDPORT, R194. -/
  | mmioCmdport (idx : BitVec 14) (a : Access)
  /-- MMIO_UNMAPPED, R198. -/
  | mmioUnmapped (idx : BitVec 17) (a : Access)
  -- Front-end commands (41_frontend_commands): a write of the argument at 0x20000 + method.
  /-- FE.SET_ANTECEDENT_VOICE, R221. -/
  | feSetAntecedentVoice (arg : Word)
  /-- FE.VOICE_ON, R224. -/
  | feVoiceOn (arg : Word)
  /-- FE.VOICE_OFF, R225. -/
  | feVoiceOff (arg : Word)
  /-- FE.VOICE_PAUSE, R226. -/
  | feVoicePause (arg : Word)
  /-- FE.SET_CURRENT_VOICE, R222. -/
  | feSetCurrentVoice (arg : Word)
  /-- FE.SET_VOICE_CFG_VBIN, R228. -/
  | feSetVoiceCfgVbin (arg : Word)
  /-- FE.SET_VOICE_CFG_FMT, R229. -/
  | feSetVoiceCfgFmt (arg : Word)
  /-- FE.SET_VOICE_CFG_ENV0, R230. -/
  | feSetVoiceCfgEnv0 (arg : Word)
  /-- FE.SET_VOICE_CFG_ENVA, R231. -/
  | feSetVoiceCfgEnva (arg : Word)
  /-- FE.SET_VOICE_CFG_ENV1, R232. -/
  | feSetVoiceCfgEnv1 (arg : Word)
  /-- FE.SET_VOICE_CFG_ENVF, R233. -/
  | feSetVoiceCfgEnvf (arg : Word)
  /-- FE.SET_VOICE_CFG_MISC, R234. -/
  | feSetVoiceCfgMisc (arg : Word)
  /-- FE.SET_VOICE_TAR_VOLA, R235. -/
  | feSetVoiceTarVola (arg : Word)
  /-- FE.SET_VOICE_TAR_VOLB, R236. -/
  | feSetVoiceTarVolb (arg : Word)
  /-- FE.SET_VOICE_TAR_VOLC, R237. -/
  | feSetVoiceTarVolc (arg : Word)
  /-- FE.SET_VOICE_TAR_LFO_ENV, R238. -/
  | feSetVoiceTarLfoEnv (arg : Word)
  /-- FE.SET_VOICE_TAR_PITCH, R239. -/
  | feSetVoiceTarPitch (arg : Word)
  /-- FE.SET_VOICE_CFG_BUF_BASE, R240. -/
  | feSetVoiceCfgBufBase (arg : Word)
  /-- FE.SET_VOICE_CFG_BUF_LBO, R241. -/
  | feSetVoiceCfgBufLbo (arg : Word)
  /-- FE.SET_VOICE_BUF_CBO, R242. -/
  | feSetVoiceBufCbo (arg : Word)
  /-- FE.SET_VOICE_CFG_BUF_EBO, R243. -/
  | feSetVoiceCfgBufEbo (arg : Word)
  /-- FE.SET_CURRENT_INBUF_SGE, R244. -/
  | feSetCurrentInbufSge (arg : Word)
  /-- FE.SET_CURRENT_INBUF_SGE_OFFSET, R245. -/
  | feSetCurrentInbufSgeOffset (arg : Word)
  /-- FE.SET_CURRENT_OUTBUF_SGE, R246. -/
  | feSetCurrentOutbufSge (arg : Word)
  /-- FE.SET_CURRENT_OUTBUF_SGE_OFFSET, R247. -/
  | feSetCurrentOutbufSgeOffset (arg : Word)
  /-- FE.SE2FE_IDLE_VOICE, R250. -/
  | feSe2feIdleVoice (arg : Word)
  /-- FE.UNKNOWN, R252. -/
  | feUnknown (idx : BitVec 14) (arg : Word)
  -- DMA register accesses by core `c`'s program (45_dma_engine R390 to R403); the actions are CONTROL writes, `rest` the
  -- ignored bits 31:3 of the value.
  /-- DMA.CONFIGURATION, R393. -/
  | dmaConfiguration (c : Core) (a : Access)
  /-- DMA.CONTROL, R396. -/
  | dmaControl (c : Core) (a : Access)
  /-- DMA.START_BLOCK, R394. -/
  | dmaStartBlock (c : Core) (a : Access)
  /-- DMA.NEXT_BLOCK, R395. -/
  | dmaNextBlock (c : Core) (a : Access)
  /-- DMA.ACT_NOP, R398. -/
  | dmaActNop (c : Core) (rest : BitVec 29)
  /-- DMA.ACT_START, R399. -/
  | dmaActStart (c : Core) (rest : BitVec 29)
  /-- DMA.ACT_STOP, R400. -/
  | dmaActStop (c : Core) (rest : BitVec 29)
  /-- DMA.ACT_FREEZE, R401. -/
  | dmaActFreeze (c : Core) (rest : BitVec 29)
  /-- DMA.ACT_UNFREEZE, R402. -/
  | dmaActUnfreeze (c : Core) (rest : BitVec 29)
  /-- DMA.ACT_ABORT, R403. -/
  | dmaActAbort (c : Core) (rest : BitVec 29)
  /-- DMA.ACT_RESERVED6, R403. -/
  | dmaActReserved6 (c : Core) (rest : BitVec 29)
  /-- DMA.ACT_RESERVED7, R403. -/
  | dmaActReserved7 (c : Core) (rest : BitVec 29)
  -- Parts of one iteration of core `c`'s chain walk (45_dma_engine R404 to R418), run on the walk's own values (log 2).
  /-- DESC.FORMAT_0, R412. -/
  | descFormat0 (c : Core)
  /-- DESC.FORMAT_1, R412. -/
  | descFormat1 (c : Core)
  /-- DESC.FORMAT_2, R412. -/
  | descFormat2 (c : Core)
  /-- DESC.FORMAT_3, R412. -/
  | descFormat3 (c : Core)
  /-- DESC.FORMAT_4, R412. -/
  | descFormat4 (c : Core)
  /-- DESC.FORMAT_5, R412. -/
  | descFormat5 (c : Core)
  /-- DESC.FORMAT_6, R412. -/
  | descFormat6 (c : Core)
  /-- DESC.FORMAT_7, R412. -/
  | descFormat7 (c : Core)
  /-- DESC.BUF_CIRCULAR, R415. -/
  | descBufCircular (c : Core)
  /-- DESC.BUF_OFFSET, R414. -/
  | descBufOffset (c : Core) (bufId : BitVec 4)
  /-- DESC.DIR_DSP_TO_SCRATCH, R416. -/
  | descDirDspToScratch (c : Core)
  /-- DESC.DIR_SCRATCH_TO_DSP, R416. -/
  | descDirScratchToDsp (c : Core)
  /-- DESC.PTR_EOL, R406. -/
  | descPtrEol (c : Core) (addr : BitVec 14)
  /-- DESC.PTR_BLOCK, R410. -/
  | descPtrBlock (c : Core) (addr : BitVec 14)
  -- The envelope step of voice `h`, envelope `e`, by state code (42_envelope R287 to R295).
  /-- ENV.OFF, R287. -/
  | envOff (h : Handle) (e : Env)
  /-- ENV.DELAY, R288. -/
  | envDelay (h : Handle) (e : Env)
  /-- ENV.ATTACK, R289. -/
  | envAttack (h : Handle) (e : Env)
  /-- ENV.HOLD, R290. -/
  | envHold (h : Handle) (e : Env)
  /-- ENV.DECAY, R291. -/
  | envDecay (h : Handle) (e : Env)
  /-- ENV.SUSTAIN, R292. -/
  | envSustain (h : Handle) (e : Env)
  /-- ENV.RELEASE, R293. -/
  | envRelease (h : Handle) (e : Env)
  /-- ENV.FORCE_RELEASE, R294. -/
  | envForceRelease (h : Handle) (e : Env)
  /-- ENV.BAD_STATE, R295. -/
  | envBadState (h : Handle) (e : Env) (low : BitVec 3)
  -- The fetch of frame `p` of voice `h` by format class, the mixing of sample lane `i` by channel count, the resolution of
  -- position `p`, and the walker's visit of voice `h` by flag (43_sample_fetch_decode, 44_voice_walker_mixer).
  /-- FMT.PCM_B8_U8, R322. -/
  | fmtPcmB8U8 (h : Handle) (p : Word)
  /-- FMT.PCM_B16_U8, R322. -/
  | fmtPcmB16U8 (h : Handle) (p : Word)
  /-- FMT.PCM_B16_S16, R322. -/
  | fmtPcmB16S16 (h : Handle) (p : Word)
  /-- FMT.PCM_B32_U8, R322. -/
  | fmtPcmB32U8 (h : Handle) (p : Word)
  /-- FMT.PCM_B32_S16, R322. -/
  | fmtPcmB32S16 (h : Handle) (p : Word)
  /-- FMT.PCM_B32_S24, R322. -/
  | fmtPcmB32S24 (h : Handle) (p : Word)
  /-- FMT.PCM_B32_S32, R322. -/
  | fmtPcmB32S32 (h : Handle) (p : Word)
  /-- FMT.ADPCM, R331. -/
  | fmtAdpcm (h : Handle) (p : Word) (ss : BitVec 2)
  /-- FMT.ILLEGAL_B8_S16, R319. -/
  | fmtIllegalB8S16 (h : Handle) (p : Word)
  /-- FMT.ILLEGAL_B8_S24, R319. -/
  | fmtIllegalB8S24 (h : Handle) (p : Word)
  /-- FMT.ILLEGAL_B8_S32, R319. -/
  | fmtIllegalB8S32 (h : Handle) (p : Word)
  /-- FMT.ILLEGAL_B16_S24, R319. -/
  | fmtIllegalB16S24 (h : Handle) (p : Word)
  /-- FMT.ILLEGAL_B16_S32, R319. -/
  | fmtIllegalB16S32 (h : Handle) (p : Word)
  /-- FMT.STEREO, R369. -/
  | fmtStereo (h : Handle) (i : BitVec 5)
  /-- FMT.MONO, R369. -/
  | fmtMono (h : Handle) (i : BitVec 5)
  /-- FMT.LOOP, R313. -/
  | fmtLoop (h : Handle) (p : Word)
  /-- FMT.ONESHOT, R313. -/
  | fmtOneshot (h : Handle) (p : Word)
  /-- VOICE.ACTIVE, R353. -/
  | voiceActive (h : Handle)
  /-- VOICE.IDLE, R354. -/
  | voiceIdle (h : Handle)
  /-- VOICE.PAUSED, R356. -/
  | voicePaused (h : Handle)
  -- One firing of the FrameTick agent (44_voice_walker_mixer R367).
  /-- TICK, R367. -/
  | tick
  -- One translation of linear address `lin` through table `t` (20_memory R95).
  /-- SG.TRANSLATE, R95. -/
  | sgTranslate (t : SgTable) (lin : Word)
  deriving DecidableEq, Repr

/-- An operation as an agent presents it: the tuples of 30_encoding R120, and for the parts of an operation the word
each row of the opcode table is matched on, with what the part is applied to (30_encoding R166; log 2). -/
inductive OpWord where
  /-- A Host access to the register window: byte offset, width, access (30_encoding R121 to R125). -/
  | mmio (offset : BitVec 19) (width : Width) (a : Access)
  /-- A DMA register access of core `c`: register id and access (30_encoding R154). -/
  | dma (c : Core) (id : BitVec 2) (a : Access)
  /-- The pointer in NEXT_BLOCK at the head of an iteration (30_encoding R157). -/
  | descPtr (c : Core) (ptr : Word)
  /-- A descriptor's control word, classified by FORMAT (30_encoding R158). -/
  | descFormat (c : Core) (control : Word)
  /-- A descriptor's control word, classified by BUF_ID. -/
  | descBuf (c : Core) (control : Word)
  /-- A descriptor's control word, classified by DIRECTION. -/
  | descDir (c : Core) (control : Word)
  /-- The 4-bit state field of an envelope (30_encoding R142). -/
  | env (h : Handle) (e : Env) (state : BitVec 4)
  /-- Voice word 0x04, classified by container and sample size (30_encoding R133). -/
  | fmtClass (h : Handle) (p : Word) (cfgFmt : Word)
  /-- Voice word 0x04, classified by `stereo`. -/
  | fmtChannels (h : Handle) (i : BitVec 5) (cfgFmt : Word)
  /-- Voice word 0x04, classified by `loop`. -/
  | fmtLoop (h : Handle) (p : Word) (cfgFmt : Word)
  /-- Voice word 0x54, classified by `active` (30_encoding R142). -/
  | voiceActive (h : Handle) (parState : Word)
  /-- Voice word 0x54, classified by `paused`. -/
  | voicePaused (h : Handle) (parState : Word)
  /-- A firing of FrameTick: no bits. -/
  | tick
  /-- A linear address presented to a table's translator. -/
  | sg (t : SgTable) (lin : Word)
  deriving DecidableEq, Repr

end Sys2Proof
end

