-- ==== Sys2Proof/WellFormed.lean ====
section
/-! DEFINITION. Which operations are written in their own encoding: an operation that is not well formed is a second
name for the words of another row (log 27), or names an offset, a method or a buffer id that another row owns. -/

namespace Sys2Proof

/-- The byte offsets of the global register block (30_encoding R121). -/
def registerOffsets : List Nat :=
  [0x1000, 0x1004, 0x1100, 0x1110, 0x1118, 0x1504, 0x2000, 0x202C, 0x2030, 0x2040, 0x2044, 0x2048, 0x204C, 0x2054, 0x2058, 0x205C, 0x2060, 0x2064, 0x2068, 0x206C, 0x2070, 0x2074, 0x20D4, 0x20D8, 0x20DC, 0x20E0]

/-- The method numbers of the front-end commands (30_encoding R152). -/
def feMethods : List Nat :=
  [0x0120, 0x0124, 0x0128, 0x0140, 0x02F8, 0x0300, 0x0304, 0x0308, 0x030C, 0x0310, 0x0314, 0x0318, 0x0360, 0x0364, 0x0368, 0x036C, 0x037C, 0x03A0, 0x03A4, 0x03D8, 0x03DC, 0x0804, 0x0808, 0x1800, 0x1808, 0x8000]

/-- Whether a window offset names no register, no DSP window cell and no command port (30_encoding R121 to R125,
40_mmio_registers R198). -/
def unmappedOffset (o : Nat) : Bool :=
  (o < 0x20000 && !registerOffsets.contains o) ||
  (0x34000 ≤ o && o < 0x35000) || (0x38000 ≤ o && o < 0x3A000) || (0x3E000 ≤ o && o < 0x3FFFC) ||
  (0x40000 ≤ o && o < 0x50000) ||
  (0x54000 ≤ o && o < 0x56000) || (0x58000 ≤ o && o < 0x5A000) || (0x5E000 ≤ o && o < 0x5FFFC) ||
  0x60000 ≤ o

/-- Well-formed operations. The command port is read, a write there is the front-end command of its method
(30_encoding R122); a CONTROL write is the DMA action of its code (30_encoding R166). -/
abbrev Instr.WellFormed (i : Instr) : Prop :=
  match i with
  | .mmioIsts _ => True
  | .mmioIen _ => True
  | .mmioFectl _ => True
  | .mmioFecv _ => True
  | .mmioFeav _ => True
  | .mmioFetforce1 _ => True
  | .mmioSectl _ => True
  | .mmioVpvaddr _ => True
  | .mmioVpsgeaddr _ => True
  | .mmioGpsaddr _ => True
  | .mmioGpfaddr _ => True
  | .mmioEpsaddr _ => True
  | .mmioEpfaddr _ => True
  | .mmioTvl2d _ => True
  | .mmioCvl2d _ => True
  | .mmioNvl2d _ => True
  | .mmioTvl3d _ => True
  | .mmioCvl3d _ => True
  | .mmioNvl3d _ => True
  | .mmioTvlmp _ => True
  | .mmioCvlmp _ => True
  | .mmioNvlmp _ => True
  | .mmioGpsmaxsge _ => True
  | .mmioGpfmaxsge _ => True
  | .mmioEpsmaxsge _ => True
  | .mmioEpfmaxsge _ => True
  | .mmioGprst _ => True
  | .mmioEprst _ => True
  | .mmioGpX _ _ => True
  | .mmioGpMixbuf _ _ => True
  | .mmioGpY _ _ => True
  | .mmioGpPLower _ _ => True
  | .mmioGpPUpper _ _ => True
  | .mmioEpX _ _ => True
  | .mmioEpY _ _ => True
  | .mmioEpPLower _ _ => True
  | .mmioEpPUpper _ _ => True
  | .mmioCmdport _ a => a = .read
  | .mmioUnmapped idx _ => unmappedOffset (4 * idx.toNat) = true
  | .feSetAntecedentVoice _ => True
  | .feVoiceOn _ => True
  | .feVoiceOff _ => True
  | .feVoicePause _ => True
  | .feSetCurrentVoice _ => True
  | .feSetVoiceCfgVbin _ => True
  | .feSetVoiceCfgFmt _ => True
  | .feSetVoiceCfgEnv0 _ => True
  | .feSetVoiceCfgEnva _ => True
  | .feSetVoiceCfgEnv1 _ => True
  | .feSetVoiceCfgEnvf _ => True
  | .feSetVoiceCfgMisc _ => True
  | .feSetVoiceTarVola _ => True
  | .feSetVoiceTarVolb _ => True
  | .feSetVoiceTarVolc _ => True
  | .feSetVoiceTarLfoEnv _ => True
  | .feSetVoiceTarPitch _ => True
  | .feSetVoiceCfgBufBase _ => True
  | .feSetVoiceCfgBufLbo _ => True
  | .feSetVoiceBufCbo _ => True
  | .feSetVoiceCfgBufEbo _ => True
  | .feSetCurrentInbufSge _ => True
  | .feSetCurrentInbufSgeOffset _ => True
  | .feSetCurrentOutbufSge _ => True
  | .feSetCurrentOutbufSgeOffset _ => True
  | .feSe2feIdleVoice _ => True
  | .feUnknown idx _ => 4 * idx.toNat ∉ feMethods
  | .dmaConfiguration _ _ => True
  | .dmaControl _ a => a = .read
  | .dmaStartBlock _ _ => True
  | .dmaNextBlock _ _ => True
  | .dmaActNop _ _ => True
  | .dmaActStart _ _ => True
  | .dmaActStop _ _ => True
  | .dmaActFreeze _ _ => True
  | .dmaActUnfreeze _ _ => True
  | .dmaActAbort _ _ => True
  | .dmaActReserved6 _ _ => True
  | .dmaActReserved7 _ _ => True
  | .descFormat0 _ => True
  | .descFormat1 _ => True
  | .descFormat2 _ => True
  | .descFormat3 _ => True
  | .descFormat4 _ => True
  | .descFormat5 _ => True
  | .descFormat6 _ => True
  | .descFormat7 _ => True
  | .descBufCircular _ => True
  | .descBufOffset _ bufId => bufId.toNat ≠ Config.bufCircular
  | .descDirDspToScratch _ => True
  | .descDirScratchToDsp _ => True
  | .descPtrEol _ _ => True
  | .descPtrBlock _ _ => True
  | .envOff _ _ => True
  | .envDelay _ _ => True
  | .envAttack _ _ => True
  | .envHold _ _ => True
  | .envDecay _ _ => True
  | .envSustain _ _ => True
  | .envRelease _ _ => True
  | .envForceRelease _ _ => True
  | .envBadState _ _ _ => True
  | .fmtPcmB8U8 _ _ => True
  | .fmtPcmB16U8 _ _ => True
  | .fmtPcmB16S16 _ _ => True
  | .fmtPcmB32U8 _ _ => True
  | .fmtPcmB32S16 _ _ => True
  | .fmtPcmB32S24 _ _ => True
  | .fmtPcmB32S32 _ _ => True
  | .fmtAdpcm _ _ _ => True
  | .fmtIllegalB8S16 _ _ => True
  | .fmtIllegalB8S24 _ _ => True
  | .fmtIllegalB8S32 _ _ => True
  | .fmtIllegalB16S24 _ _ => True
  | .fmtIllegalB16S32 _ _ => True
  | .fmtStereo _ _ => True
  | .fmtMono _ _ => True
  | .fmtLoop _ _ => True
  | .fmtOneshot _ _ => True
  | .voiceActive _ => True
  | .voiceIdle _ => True
  | .voicePaused _ => True
  | .tick => True
  | .sgTranslate _ _ => True

end Sys2Proof
end

