-- ==== Sys2Proof/Decode.lean ====
section
/-! DEFINITION. Decoding of an operation as it is presented to the block (30_encoding R121 to R125, R151 to R158, R166),
total, rejecting by name; the encoder; and the reading of a bare word of spec/opcode_table.json (log 3). -/

namespace Sys2Proof

open Sys2Proof.Machine (field)

/-- Why an operation has no decoding. -/
inductive Reject where
  /-- A Host access that is not 32 bits wide (40_mmio_registers R181). -/
  | accessWidth
  /-- A Host access whose offset is no multiple of 4 (40_mmio_registers R181). -/
  | misaligned
  /-- The `paused` flag presented as 0: the table has no row for it, an unpaused voice is the VOICE.ACTIVE row's. -/
  | notPaused
  deriving DecidableEq, Repr

/-- The global register at a byte offset (30_encoding R121). -/
def globalRegister (o : Nat) : Option (Access → Instr) :=
  match o with
  | 0x01000 => some .mmioIsts
  | 0x01004 => some .mmioIen
  | 0x01100 => some .mmioFectl
  | 0x01110 => some .mmioFecv
  | 0x01118 => some .mmioFeav
  | 0x01504 => some .mmioFetforce1
  | 0x02000 => some .mmioSectl
  | 0x0202C => some .mmioVpvaddr
  | 0x02030 => some .mmioVpsgeaddr
  | 0x02040 => some .mmioGpsaddr
  | 0x02044 => some .mmioGpfaddr
  | 0x02048 => some .mmioEpsaddr
  | 0x0204C => some .mmioEpfaddr
  | 0x02054 => some .mmioTvl2d
  | 0x02058 => some .mmioCvl2d
  | 0x0205C => some .mmioNvl2d
  | 0x02060 => some .mmioTvl3d
  | 0x02064 => some .mmioCvl3d
  | 0x02068 => some .mmioNvl3d
  | 0x0206C => some .mmioTvlmp
  | 0x02070 => some .mmioCvlmp
  | 0x02074 => some .mmioNvlmp
  | 0x020D4 => some .mmioGpsmaxsge
  | 0x020D8 => some .mmioGpfmaxsge
  | 0x020DC => some .mmioEpsmaxsge
  | 0x020E0 => some .mmioEpfmaxsge
  | _ => none

/-- The command of a front-end method (30_encoding R152); any other method is `feUnknown` (41_frontend_commands
R252). -/
def decodeFe (m : Nat) (arg : Word) : Instr :=
  match m with
  | 0x0120 => .feSetAntecedentVoice arg
  | 0x0124 => .feVoiceOn arg
  | 0x0128 => .feVoiceOff arg
  | 0x0140 => .feVoicePause arg
  | 0x02F8 => .feSetCurrentVoice arg
  | 0x0300 => .feSetVoiceCfgVbin arg
  | 0x0304 => .feSetVoiceCfgFmt arg
  | 0x0308 => .feSetVoiceCfgEnv0 arg
  | 0x030C => .feSetVoiceCfgEnva arg
  | 0x0310 => .feSetVoiceCfgEnv1 arg
  | 0x0314 => .feSetVoiceCfgEnvf arg
  | 0x0318 => .feSetVoiceCfgMisc arg
  | 0x0360 => .feSetVoiceTarVola arg
  | 0x0364 => .feSetVoiceTarVolb arg
  | 0x0368 => .feSetVoiceTarVolc arg
  | 0x036C => .feSetVoiceTarLfoEnv arg
  | 0x037C => .feSetVoiceTarPitch arg
  | 0x03A0 => .feSetVoiceCfgBufBase arg
  | 0x03A4 => .feSetVoiceCfgBufLbo arg
  | 0x03D8 => .feSetVoiceBufCbo arg
  | 0x03DC => .feSetVoiceCfgBufEbo arg
  | 0x0804 => .feSetCurrentInbufSge arg
  | 0x0808 => .feSetCurrentInbufSgeOffset arg
  | 0x1800 => .feSetCurrentOutbufSge arg
  | 0x1808 => .feSetCurrentOutbufSgeOffset arg
  | 0x8000 => .feSe2feIdleVoice arg
  | _ => .feUnknown (BitVec.ofNat 14 (m / 4)) arg

/-- The cell index of the window offset `o` in the window that begins at `base`, in bytes (30_encoding R123). -/
def windowIndex (n base o : Nat) : BitVec n :=
  BitVec.ofNat n ((o - base) / 4)

/-- The window offset of cell `idx` in the window that begins at `base`. -/
def windowOffset {n : Nat} (base : Nat) (idx : BitVec n) : BitVec 19 :=
  BitVec.ofNat 19 (base + 4 * idx.toNat)

/-- The GP register block (30_encoding R123), by window offset. -/
def decodeGp (o : Nat) (a : Access) : Instr :=
  if o < 0x34000 then .mmioGpX (windowIndex 12 0x30000 o) a
  else if o < 0x35000 then .mmioUnmapped (windowIndex 17 0 o) a
  else if o < 0x36000 then .mmioGpMixbuf (windowIndex 10 0x35000 o) a
  else if o < 0x38000 then .mmioGpY (windowIndex 11 0x36000 o) a
  else if o < 0x3A000 then .mmioUnmapped (windowIndex 17 0 o) a
  else if o < 0x3C000 then .mmioGpPLower (windowIndex 11 0x3A000 o) a
  else if o < 0x3E000 then .mmioGpPUpper (windowIndex 11 0x3C000 o) a
  else if o = 0x3FFFC then .mmioGprst a
  else .mmioUnmapped (windowIndex 17 0 o) a

/-- The EP register block (30_encoding R124), by window offset. -/
def decodeEp (o : Nat) (a : Access) : Instr :=
  if o < 0x54000 then .mmioEpX (windowIndex 12 0x50000 o) a
  else if o < 0x56000 then .mmioUnmapped (windowIndex 17 0 o) a
  else if o < 0x58000 then .mmioEpY (windowIndex 11 0x56000 o) a
  else if o < 0x5A000 then .mmioUnmapped (windowIndex 17 0 o) a
  else if o < 0x5C000 then .mmioEpPLower (windowIndex 11 0x5A000 o) a
  else if o < 0x5E000 then .mmioEpPUpper (windowIndex 11 0x5C000 o) a
  else if o = 0x5FFFC then .mmioEprst a
  else .mmioUnmapped (windowIndex 17 0 o) a

/-- The command port (30_encoding R122): a write is a front-end command, a read is the port's own row. -/
def decodePort (o : Nat) (a : Access) : Instr :=
  match a with
  | .read => .mmioCmdport (windowIndex 14 0x20000 o) .read
  | .write v => decodeFe (o - 0x20000) v

/-- An aligned word access to the register window (30_encoding R125). -/
def decodeMmio (o : Nat) (a : Access) : Instr :=
  if o < 0x20000 then
    match globalRegister o with
    | some mk => mk a
    | none => .mmioUnmapped (windowIndex 17 0 o) a
  else if o < 0x30000 then decodePort o a
  else if o < 0x40000 then decodeGp o a
  else if o < 0x50000 then .mmioUnmapped (windowIndex 17 0 o) a
  else if o < 0x60000 then decodeEp o a
  else .mmioUnmapped (windowIndex 17 0 o) a

/-- A CONTROL write, classified by its action code (30_encoding R155, R166). -/
def decodeAction (c : Core) (v : Word) : Instr :=
  let rest := v.extractLsb' 3 29
  match field v 0 3 with
  | 0 => .dmaActNop c rest
  | 1 => .dmaActStart c rest
  | 2 => .dmaActStop c rest
  | 3 => .dmaActFreeze c rest
  | 4 => .dmaActUnfreeze c rest
  | 5 => .dmaActAbort c rest
  | 6 => .dmaActReserved6 c rest
  | _ => .dmaActReserved7 c rest

/-- A DMA register access, classified by register id (30_encoding R154). -/
def decodeDma (c : Core) (id : BitVec 2) (a : Access) : Instr :=
  match id.toNat, a with
  | 0, a => .dmaConfiguration c a
  | 1, .read => .dmaControl c .read
  | 1, .write v => decodeAction c v
  | 2, a => .dmaStartBlock c a
  | _, a => .dmaNextBlock c a

/-- A control word, classified by FORMAT (30_encoding R158). -/
def decodeFormat (c : Core) (control : Word) : Instr :=
  match field control 10 3 with
  | 0 => .descFormat0 c
  | 1 => .descFormat1 c
  | 2 => .descFormat2 c
  | 3 => .descFormat3 c
  | 4 => .descFormat4 c
  | 5 => .descFormat5 c
  | 6 => .descFormat6 c
  | _ => .descFormat7 c

/-- An envelope state field, classified by its code (30_encoding R160; 42_envelope R295). -/
def decodeEnv (h : Handle) (e : Env) (state : BitVec 4) : Instr :=
  match state.toNat with
  | 0 => .envOff h e
  | 1 => .envDelay h e
  | 2 => .envAttack h e
  | 3 => .envHold h e
  | 4 => .envDecay h e
  | 5 => .envSustain h e
  | 6 => .envRelease h e
  | 7 => .envForceRelease h e
  | _ => .envBadState h e (state.extractLsb' 0 3)

/-- Voice word 0x04, classified by container and sample size (30_encoding R133, 43_sample_fetch_decode R319). -/
def decodeFmt (h : Handle) (p w : Word) : Instr :=
  match field w 28 4 with
  | 0x0 => .fmtPcmB8U8 h p
  | 0x1 => .fmtIllegalB8S16 h p
  | 0x2 => .fmtIllegalB8S24 h p
  | 0x3 => .fmtIllegalB8S32 h p
  | 0x4 => .fmtPcmB16U8 h p
  | 0x5 => .fmtPcmB16S16 h p
  | 0x6 => .fmtIllegalB16S24 h p
  | 0x7 => .fmtIllegalB16S32 h p
  | 0xC => .fmtPcmB32U8 h p
  | 0xD => .fmtPcmB32S16 h p
  | 0xE => .fmtPcmB32S24 h p
  | 0xF => .fmtPcmB32S32 h p
  | _ => .fmtAdpcm h p (w.extractLsb' 28 2)

/-- The operation that an encoded operation stands for, or why it stands for none. -/
def decode (w : OpWord) : Except Reject Instr :=
  match w with
  | .mmio _ .byte _ => .error .accessWidth
  | .mmio _ .half _ => .error .accessWidth
  | .mmio o .word a => if o.toNat % 4 = 0 then .ok (decodeMmio o.toNat a) else .error .misaligned
  | .dma c id a => .ok (decodeDma c id a)
  | .descPtr c ptr =>
    if field ptr 14 1 = 1 then .ok (.descPtrEol c (ptr.extractLsb' 0 14)) else .ok (.descPtrBlock c (ptr.extractLsb' 0 14))
  | .descFormat c control => .ok (decodeFormat c control)
  | .descBuf c control =>
    if field control 5 4 = Config.bufCircular then .ok (.descBufCircular c)
    else .ok (.descBufOffset c (control.extractLsb' 5 4))
  | .descDir c control =>
    if field control 1 1 = 1 then .ok (.descDirDspToScratch c) else .ok (.descDirScratchToDsp c)
  | .env h e state => .ok (decodeEnv h e state)
  | .fmtClass h p cfgFmt => .ok (decodeFmt h p cfgFmt)
  | .fmtChannels h i cfgFmt => if field cfgFmt 27 1 = 1 then .ok (.fmtStereo h i) else .ok (.fmtMono h i)
  | .fmtLoop h p cfgFmt => if field cfgFmt 25 1 = 1 then .ok (.fmtLoop h p) else .ok (.fmtOneshot h p)
  | .voiceActive h parState => if field parState 21 1 = 1 then .ok (.voiceActive h) else .ok (.voiceIdle h)
  | .voicePaused h parState => if field parState 18 1 = 1 then .ok (.voicePaused h) else .error .notPaused
  | .tick => .ok .tick
  | .sg t lin => .ok (.sgTranslate t lin)

/-- The encoding of an operation, bits that its row leaves free being 0 (30_encoding R121 to R158). -/
def encode (i : Instr) : OpWord :=
  match i with
  | .mmioIsts a => .mmio 0x01000 .word a
  | .mmioIen a => .mmio 0x01004 .word a
  | .mmioFectl a => .mmio 0x01100 .word a
  | .mmioFecv a => .mmio 0x01110 .word a
  | .mmioFeav a => .mmio 0x01118 .word a
  | .mmioFetforce1 a => .mmio 0x01504 .word a
  | .mmioSectl a => .mmio 0x02000 .word a
  | .mmioVpvaddr a => .mmio 0x0202C .word a
  | .mmioVpsgeaddr a => .mmio 0x02030 .word a
  | .mmioGpsaddr a => .mmio 0x02040 .word a
  | .mmioGpfaddr a => .mmio 0x02044 .word a
  | .mmioEpsaddr a => .mmio 0x02048 .word a
  | .mmioEpfaddr a => .mmio 0x0204C .word a
  | .mmioTvl2d a => .mmio 0x02054 .word a
  | .mmioCvl2d a => .mmio 0x02058 .word a
  | .mmioNvl2d a => .mmio 0x0205C .word a
  | .mmioTvl3d a => .mmio 0x02060 .word a
  | .mmioCvl3d a => .mmio 0x02064 .word a
  | .mmioNvl3d a => .mmio 0x02068 .word a
  | .mmioTvlmp a => .mmio 0x0206C .word a
  | .mmioCvlmp a => .mmio 0x02070 .word a
  | .mmioNvlmp a => .mmio 0x02074 .word a
  | .mmioGpsmaxsge a => .mmio 0x020D4 .word a
  | .mmioGpfmaxsge a => .mmio 0x020D8 .word a
  | .mmioEpsmaxsge a => .mmio 0x020DC .word a
  | .mmioEpfmaxsge a => .mmio 0x020E0 .word a
  | .mmioGprst a => .mmio 0x3FFFC .word a
  | .mmioEprst a => .mmio 0x5FFFC .word a
  | .mmioGpX idx a => .mmio (windowOffset 0x30000 idx) .word a
  | .mmioGpMixbuf idx a => .mmio (windowOffset 0x35000 idx) .word a
  | .mmioGpY idx a => .mmio (windowOffset 0x36000 idx) .word a
  | .mmioGpPLower idx a => .mmio (windowOffset 0x3A000 idx) .word a
  | .mmioGpPUpper idx a => .mmio (windowOffset 0x3C000 idx) .word a
  | .mmioEpX idx a => .mmio (windowOffset 0x50000 idx) .word a
  | .mmioEpY idx a => .mmio (windowOffset 0x56000 idx) .word a
  | .mmioEpPLower idx a => .mmio (windowOffset 0x5A000 idx) .word a
  | .mmioEpPUpper idx a => .mmio (windowOffset 0x5C000 idx) .word a
  | .mmioCmdport idx a => .mmio (windowOffset 0x20000 idx) .word a
  | .mmioUnmapped idx a => .mmio (windowOffset 0x00000 idx) .word a
  | .feSetAntecedentVoice arg => .mmio 0x20120 .word (.write arg)
  | .feVoiceOn arg => .mmio 0x20124 .word (.write arg)
  | .feVoiceOff arg => .mmio 0x20128 .word (.write arg)
  | .feVoicePause arg => .mmio 0x20140 .word (.write arg)
  | .feSetCurrentVoice arg => .mmio 0x202F8 .word (.write arg)
  | .feSetVoiceCfgVbin arg => .mmio 0x20300 .word (.write arg)
  | .feSetVoiceCfgFmt arg => .mmio 0x20304 .word (.write arg)
  | .feSetVoiceCfgEnv0 arg => .mmio 0x20308 .word (.write arg)
  | .feSetVoiceCfgEnva arg => .mmio 0x2030C .word (.write arg)
  | .feSetVoiceCfgEnv1 arg => .mmio 0x20310 .word (.write arg)
  | .feSetVoiceCfgEnvf arg => .mmio 0x20314 .word (.write arg)
  | .feSetVoiceCfgMisc arg => .mmio 0x20318 .word (.write arg)
  | .feSetVoiceTarVola arg => .mmio 0x20360 .word (.write arg)
  | .feSetVoiceTarVolb arg => .mmio 0x20364 .word (.write arg)
  | .feSetVoiceTarVolc arg => .mmio 0x20368 .word (.write arg)
  | .feSetVoiceTarLfoEnv arg => .mmio 0x2036C .word (.write arg)
  | .feSetVoiceTarPitch arg => .mmio 0x2037C .word (.write arg)
  | .feSetVoiceCfgBufBase arg => .mmio 0x203A0 .word (.write arg)
  | .feSetVoiceCfgBufLbo arg => .mmio 0x203A4 .word (.write arg)
  | .feSetVoiceBufCbo arg => .mmio 0x203D8 .word (.write arg)
  | .feSetVoiceCfgBufEbo arg => .mmio 0x203DC .word (.write arg)
  | .feSetCurrentInbufSge arg => .mmio 0x20804 .word (.write arg)
  | .feSetCurrentInbufSgeOffset arg => .mmio 0x20808 .word (.write arg)
  | .feSetCurrentOutbufSge arg => .mmio 0x21800 .word (.write arg)
  | .feSetCurrentOutbufSgeOffset arg => .mmio 0x21808 .word (.write arg)
  | .feSe2feIdleVoice arg => .mmio 0x28000 .word (.write arg)
  | .feUnknown idx arg => .mmio (windowOffset 0x20000 idx) .word (.write arg)
  | .dmaConfiguration c a => .dma c 0 a
  | .dmaControl c a => .dma c 1 a
  | .dmaStartBlock c a => .dma c 2 a
  | .dmaNextBlock c a => .dma c 3 a
  | .dmaActNop c rest => .dma c 1 (.write (rest ++ (0 : BitVec 3)))
  | .dmaActStart c rest => .dma c 1 (.write (rest ++ (1 : BitVec 3)))
  | .dmaActStop c rest => .dma c 1 (.write (rest ++ (2 : BitVec 3)))
  | .dmaActFreeze c rest => .dma c 1 (.write (rest ++ (3 : BitVec 3)))
  | .dmaActUnfreeze c rest => .dma c 1 (.write (rest ++ (4 : BitVec 3)))
  | .dmaActAbort c rest => .dma c 1 (.write (rest ++ (5 : BitVec 3)))
  | .dmaActReserved6 c rest => .dma c 1 (.write (rest ++ (6 : BitVec 3)))
  | .dmaActReserved7 c rest => .dma c 1 (.write (rest ++ (7 : BitVec 3)))
  | .descFormat0 c => .descFormat c 0x0000
  | .descFormat1 c => .descFormat c 0x0400
  | .descFormat2 c => .descFormat c 0x0800
  | .descFormat3 c => .descFormat c 0x0C00
  | .descFormat4 c => .descFormat c 0x1000
  | .descFormat5 c => .descFormat c 0x1400
  | .descFormat6 c => .descFormat c 0x1800
  | .descFormat7 c => .descFormat c 0x1C00
  | .descBufCircular c => .descBuf c 0x01C0
  | .descBufOffset c bufId => .descBuf c (bufId.setWidth 32 <<< 5)
  | .descDirDspToScratch c => .descDir c 0x0002
  | .descDirScratchToDsp c => .descDir c 0x0000
  | .descPtrEol c addr => .descPtr c ((1 : BitVec 18) ++ addr)
  | .descPtrBlock c addr => .descPtr c ((0 : BitVec 18) ++ addr)
  | .envOff h e => .env h e 0
  | .envDelay h e => .env h e 1
  | .envAttack h e => .env h e 2
  | .envHold h e => .env h e 3
  | .envDecay h e => .env h e 4
  | .envSustain h e => .env h e 5
  | .envRelease h e => .env h e 6
  | .envForceRelease h e => .env h e 7
  | .envBadState h e low => .env h e ((1 : BitVec 1) ++ low)
  | .fmtPcmB8U8 h p => .fmtClass h p 0x00000000
  | .fmtPcmB16U8 h p => .fmtClass h p 0x40000000
  | .fmtPcmB16S16 h p => .fmtClass h p 0x50000000
  | .fmtPcmB32U8 h p => .fmtClass h p 0xC0000000
  | .fmtPcmB32S16 h p => .fmtClass h p 0xD0000000
  | .fmtPcmB32S24 h p => .fmtClass h p 0xE0000000
  | .fmtPcmB32S32 h p => .fmtClass h p 0xF0000000
  | .fmtAdpcm h p ss => .fmtClass h p ((2 : BitVec 2) ++ ss ++ (0 : BitVec 28))
  | .fmtIllegalB8S16 h p => .fmtClass h p 0x10000000
  | .fmtIllegalB8S24 h p => .fmtClass h p 0x20000000
  | .fmtIllegalB8S32 h p => .fmtClass h p 0x30000000
  | .fmtIllegalB16S24 h p => .fmtClass h p 0x60000000
  | .fmtIllegalB16S32 h p => .fmtClass h p 0x70000000
  | .fmtStereo h i => .fmtChannels h i 0x08000000
  | .fmtMono h i => .fmtChannels h i 0x00000000
  | .fmtLoop h p => .fmtLoop h p 0x02000000
  | .fmtOneshot h p => .fmtLoop h p 0x00000000
  | .voiceActive h => .voiceActive h 0x00200000
  | .voiceIdle h => .voiceActive h 0x00000000
  | .voicePaused h => .voicePaused h 0x00040000
  | .tick => .tick
  | .sgTranslate t lin => .sg t lin

/-- The operation a bare word of the opcode table is presented as. A word of the table carries no format, and words of
several formats coincide; so the number of its bits chooses the format, and the row's own bits the field it is
classified by; every operand the table gives no bits is 0, and a window access is a write (log 3). -/
def tableOp (nbits w : Nat) : OpWord :=
  let v := BitVec.ofNat 32 w
  if nbits ≤ 8 then .env 0 .a (BitVec.ofNat 4 w)
  else if nbits ≤ 16 then
    if w.testBit 14 then .descPtr .gp v
    else if w / 0x400 % 8 ≠ 0 then .descFormat .gp v
    else if w / 0x20 % 16 ≠ 0 then .descBuf .gp v
    else .descPtr .gp v
  else if nbits ≤ 24 then
    if w = 0 ∨ w.testBit 21 then .voiceActive 0 v
    else if w = 0x40000 then .voicePaused 0 v
    else .mmio (BitVec.ofNat 19 w) .word (.write 0)
  else if w / 0x10000000 ≠ 0 then .fmtClass 0 0 v
  else if w.testBit 27 then .fmtChannels 0 0 v
  else if w.testBit 25 then .fmtLoop 0 0 v
  else .fmtClass 0 0 v

/-- The operation the decoder reads from a bare word of the opcode table. -/
def decodeTableWord (nbits w : Nat) : Option Instr :=
  match decode (tableOp nbits w) with
  | .ok i => some i
  | .error _ => none

end Sys2Proof
end

