-- ==== Sys2Proof/Machine/Store.lean ====
section
/-! DEFINITION. Memory as plain data: a list of (address, value) pairs in one canonical form, addresses strictly rising
and no entry holding what an unlisted address reads as. Guest memory is `Store 8` (pairs are `Host.Cell`s), a DSP space
and the mix bins are `Store 32` (10_state R61 to R63). -/

namespace Sys2Proof.Machine

/-- A memory of `w`-bit locations. -/
abbrev Store (w : Nat) := List (Nat × BitVec w)

/-- What an unlisted location reads as: 0 (DESIGN CHOICE, unsafe: log 5 for guest memory, log 6 for DSP memory). -/
def Store.unlisted (w : Nat) : BitVec w := 0

/-- The value at address `k`. -/
def Store.get {w : Nat} : Store w → Nat → BitVec w
  | [], _ => Store.unlisted w
  | (a, x) :: r, k => if a = k then x else Store.get r k

/-- The memory without an entry for `k`. -/
def Store.erase {w : Nat} : Store w → Nat → Store w
  | [], _ => []
  | (a, x) :: r, k => if a = k then Store.erase r k else (a, x) :: Store.erase r k

/-- The memory with an entry for `k` before the first larger address; `k` is not listed before. -/
def Store.insert {w : Nat} : Store w → Nat → BitVec w → Store w
  | [], k, v => [(k, v)]
  | (a, x) :: r, k, v => if k < a then (k, v) :: (a, x) :: r else (a, x) :: Store.insert r k v

/-- The memory with `v` at `k`, in canonical form when the memory was: the value an unlisted location reads as is not
listed. -/
def Store.set {w : Nat} (m : Store w) (k : Nat) (v : BitVec w) : Store w :=
  if v = Store.unlisted w then m.erase k else (m.erase k).insert k v

/-- Addresses strictly rise and every listed value differs from what an unlisted location reads as. -/
def Store.wf {w : Nat} : Store w → Bool
  | [] => true
  | [(_, x)] => x != Store.unlisted w
  | (a, x) :: (b, y) :: r => a < b && x != Store.unlisted w && Store.wf ((b, y) :: r)

end Sys2Proof.Machine
end

