-- ==== Sys2Proof/Machine/State.lean ====
section
/-! DEFINITION. The state of the block (10_state R20) as plain data, the fields the model adds (log 1, 2, 7, 8, 10), the
reasons a step can stop, and the state after reset (70_reset_and_hazards R481). -/

namespace Sys2Proof.Machine

/-- The fatal codes (60_exceptions R442). -/
inductive FatalCode where
  | sgeRange
  | dmaBadFormat
  | dmaBadAction
  | dmaBounds
  | envForceRelease
  | envBadState
  | voiceBadFormat
  | voiceBadHandle
  | voiceBadLoop
  | listCycle
  | chainCycle
  deriving DecidableEq, Repr

/-- The halt record (10_state R21). -/
inductive Halt where
  | running
  | halted (code : FatalCode)
  deriving DecidableEq, Repr

/-- Why the machine stops with no next state. -/
inductive Fault where
  /-- Raised by every operation of an agent of the block that is presented to a halted block: "no agent of the block
  has a step" (60_exceptions R441). Safe: nothing is claimed of what comes after. -/
  | halted (code : FatalCode)
  deriving DecidableEq, Repr

/-- Why an operation has no meaning. -/
inductive Refusal where
  /-- Raised by an arm of `exec` whose row has no meaning yet; no arm raises it. Safe. -/
  | notModelled (mnemonic : String)
  /-- Raised by `step` for an operation the decoder rejects: an access to the window that is no aligned 32-bit word,
  which the spec says "the model refuses" (40_mmio_registers R181), or a flag word that names no row. Safe. -/
  | undecoded (why : Reject)
  deriving DecidableEq, Repr

/-- The registers of the global register block (10_state R25). -/
structure GlobalRegs where
  ists : Word
  ien : Word
  fectl : Word
  fecv : Word
  feav : Word
  fetforce1 : Word
  sectl : Word
  vpvaddr : Word
  vpsgeaddr : Word
  gpsaddr : Word
  gpfaddr : Word
  epsaddr : Word
  epfaddr : Word
  gpsmaxsge : Word
  gpfmaxsge : Word
  epsmaxsge : Word
  epfmaxsge : Word
  tvl2d : Word
  cvl2d : Word
  nvl2d : Word
  tvl3d : Word
  cvl3d : Word
  nvl3d : Word
  tvlmp : Word
  cvlmp : Word
  nvlmp : Word
  deriving DecidableEq, Repr

/-- One DMA engine: its four registers and the internal `eol` flag (10_state R45 to R49). -/
structure DmaRegs where
  configuration : Word
  control : Word
  startBlock : Word
  nextBlock : Word
  eol : Bool
  deriving DecidableEq, Repr

/-- The three memory spaces of a DSP core (10_state R62). -/
structure DspMem where
  x : Store 32
  y : Store 32
  p : Store 32
  deriving DecidableEq, Repr

/-- The seven words of a DMA descriptor (10_state R66, 30_encoding R156). -/
structure Descriptor where
  next : Word
  control : Word
  count : Word
  dspOffset : Word
  scratchOffset : Word
  scratchBase : Word
  scratchSizeM1 : Word
  deriving DecidableEq, Repr

/-- The values one iteration of a chain walk holds (45_dma_engine R404): they exist only inside the walk, and here only
for the DESC rows run alone (log 2). -/
structure Walk where
  desc : Descriptor
  itemSize : Nat
  skip : Bool
  target : Word
  deriving DecidableEq, Repr

/-- The values that exist only inside an operation (10_state R20 (g)), here only for the sub-operation rows run alone
(log 2): the translated address, the returned envelope level, the resolved position (`none`: past the end), the fetched
frame, the mix bins (cell `b * 32 + i`), and the two chain walks'. -/
structure SubOp where
  paddr : Word
  level : Nat
  pos : Option Nat
  frame : List Int
  mix : Store 32
  walkGp : Walk
  walkEp : Walk
  deriving DecidableEq, Repr

/-- What comes to the block next (log 1): an operation of one of its agents, or a Host access to guest memory, which is
no operation of the block (40_mmio_registers R200). -/
inductive Input where
  | op (w : OpWord)
  | hostStore (addr : Word) (width : Width) (v : Word)
  | hostLoad (addr : Word) (width : Width)
  deriving DecidableEq, Repr

/-- The state of the machine. -/
structure State where
  /-- The parameters of this machine (00_scope R9); constant (log 8). -/
  cfg : Params
  /-- The global registers (10_state R25). -/
  x : GlobalRegs
  /-- The front-end latches (10_state R40). -/
  inbufSge : BitVec 16
  outbufSge : BitVec 16
  /-- The reset registers of the DSP blocks (10_state R41, R42). -/
  gprst : Word
  eprst : Word
  /-- The level of the interrupt line (10_state R23). -/
  irq : Bool
  /-- The halt record (10_state R21). -/
  halt : Halt
  /-- The DMA engines (10_state R45). -/
  dmaGp : DmaRegs
  dmaEp : DmaRegs
  /-- The DSP cores' memories (10_state R62). -/
  dspGp : DspMem
  dspEp : DspMem
  /-- Guest memory (10_state R61). -/
  mem : Store 8
  /-- The model's: what comes next (log 1). -/
  pending : List Input
  /-- The model's: the datum the last Host read returned (40_mmio_registers R180). -/
  hostData : Word
  /-- The model's: the datum the last DMA register read returned (45_dma_engine R391). -/
  dspData : Word
  /-- The model's: how many DSP engine entry points were called (log 10). -/
  oracle : Nat
  /-- The model's: the values of sub-operations run alone (log 2). -/
  sub : SubOp
  deriving DecidableEq, Repr

/-- All registers 0 (70_reset_and_hazards R481). -/
def GlobalRegs.reset : GlobalRegs :=
  ⟨0, 0, 0, 0, 0, 0, 0, 0, 0, 0, 0, 0, 0, 0, 0, 0, 0, 0, 0, 0, 0, 0, 0, 0, 0, 0⟩

/-- A stopped engine: CONTROL is 0x20, all else 0 (70_reset_and_hazards R481). -/
def DmaRegs.reset : DmaRegs := ⟨0, 0x20, 0, 0, false⟩

/-- Nothing listed: the contents are unspecified (10_state R62; log 6). -/
def DspMem.reset : DspMem := ⟨[], [], []⟩

/-- The values of a walk before any (log 7). -/
def Walk.reset : Walk := ⟨⟨0, 0, 0, 0, 0, 0, 0⟩, 0, false, 0⟩

/-- The values of the sub-operations before any (log 7). -/
def SubOp.reset : SubOp := ⟨0, 0, none, [], [], Walk.reset, Walk.reset⟩

/-- The machine right after reset (70_reset_and_hazards R481), built with the parameter values 00_scope R9 takes. -/
def State.reset : State where
  cfg := Params.spec
  x := GlobalRegs.reset
  inbufSge := 0
  outbufSge := 0
  gprst := 0
  eprst := 0
  irq := false
  halt := .running
  dmaGp := DmaRegs.reset
  dmaEp := DmaRegs.reset
  dspGp := DspMem.reset
  dspEp := DspMem.reset
  mem := []
  pending := []
  hostData := 0
  dspData := 0
  oracle := 0
  sub := SubOp.reset

end Sys2Proof.Machine
end

