-- ==== Sys2Proof/Machine/Flags.lean ====
section
/-! DEFINITION. Every flag the block computes: the interrupt line (60_exceptions R452), the frame enable (10_state
R24), the reset gates (44_voice_walker_mixer R374), the armed trap (10_state R31) and the DMA status bits (45_dma_engine
R397 to R405). No operation sets a carry, overflow or zero flag (10_state R44). -/

namespace Sys2Proof.Machine

/-- The enabled causes: `x[ISTS] and x[IEN] and 0xFFFFFFFE`. -/
def enabledCauses (ists ien : Word) : Word := ists &&& ien &&& 0xFFFFFFFE

/-- The level of the line: the global enable and any enabled cause (60_exceptions R452). -/
def irqLevel (ists ien : Word) : Bool := ien.getLsbD 0 && enabledCauses ists ien != 0

/-- `UpdateIrq()`: the line, and GINTSTS mirrors it (60_exceptions R452). -/
def updateIrq (s : State) : State :=
  let level := irqLevel s.x.ists s.x.ien
  { s with irq := level, x := { s.x with ists := setField s.x.ists 0 1 level.toNat } }

/-- `frame_enabled` is `x[SECTL].XCNTMODE != 0` (10_state R24). -/
def frameEnabled (s : State) : Bool := field s.x.sectl 3 2 != 0

/-- `x[FETFORCE1][15] = 1`: the idle trap is armed (10_state R31). -/
def trapArmed (s : State) : Bool := s.x.fetforce1.getLsbD 15

/-- `rel(w)`: both resets released (40_mmio_registers R196). -/
def released (w : Word) : Bool := w.getLsbD 0 && w.getLsbD 1

/-- CONTROL's FROZEN bit (10_state R47). -/
def frozen (control : Word) : Bool := control.getLsbD 3

/-- CONTROL's RUNNING bit (10_state R47). -/
def running (control : Word) : Bool := control.getLsbD 4

/-- START: `STOPPED <- 0; RUNNING <- 1` (45_dma_engine R399). -/
def statusStart (control : Word) : Word := setField (setField control 5 1 0) 4 1 1

/-- STOP: `RUNNING <- 0; STOPPED <- 1` (45_dma_engine R400). -/
def statusStop (control : Word) : Word := setField (setField control 4 1 0) 5 1 1

/-- FREEZE: `FROZEN <- 1` (45_dma_engine R401). -/
def statusFreeze (control : Word) : Word := setField control 3 1 1

/-- UNFREEZE: `FROZEN <- 0` (45_dma_engine R402). -/
def statusUnfreeze (control : Word) : Word := setField control 3 1 0

/-- The value a read of CONTROL returns: the three status bits, all others 0 (45_dma_engine R391). -/
def controlRead (control : Word) : Word := control &&& 0x38

end Sys2Proof.Machine
end

