-- ==== Sys2Proof/Machine/Ops.lean ====
section
/-! DEFINITION. The named operations over memory and registers that every meaning uses: operations with a fatal
outcome, guest memory (20_memory R80 to R88), the scatter-gather translator (R95 to R99), voice records (10_state R50),
DSP memory (20_memory R87), list registers, and taking a fatal, the front-end trap and its return (60_exceptions R441,
R454, R458). -/

namespace Sys2Proof.Machine

/-! ## Operations -/

/-- A computation on the state that may raise a fatal: a raise stops it where it stands and keeps every write made
before (60_exceptions R441). -/
abbrev Op (α : Type) := EStateM FatalCode State α

/-- `raise Fatal(code)` (00_scope R11). -/
def raise {α : Type} (code : FatalCode) : Op α := fun s => .error code s

/-- A value computed from the state, with no side effect. -/
def reads {α : Type} (f : State → α) : Op α := fun s => .ok (f s) s

/-- A change of the state. -/
def update (f : State → State) : Op Unit := fun s => .ok () (f s)

/-- A computation without side effect that may raise (20_memory R95: "Side effect: none"). -/
def readsOrRaise {α : Type} (f : State → Except FatalCode α) : Op α := fun s =>
  match f s with
  | .ok a => .ok a s
  | .error code => .error code s

/-- Taking a fatal: the block halts with that code, the state it left behind stays, and nothing else is recorded
(60_exceptions R441, R445). -/
def takeFatal (code : FatalCode) (s : State) : State := { s with halt := .halted code }

/-- One atomic operation of an agent of the block (00_scope R8): a halted block has none (60_exceptions R441); a fatal
inside it is taken. -/
def runOp (m : Op Unit) (s : State) : Host.Outcome State Fault Refusal :=
  match s.halt with
  | .halted code => .fault (.halted code)
  | .running =>
    match m s with
    | .ok _ t => .next t
    | .error code t => .next (takeFatal code t)

/-! ## The front-end trap -/

/-- Trap entry, all of it (60_exceptions R454, 41_frontend_commands R250): the mode is trapped, the reason requested,
the cause pending, the line recomputed; nothing is saved and no handler address exists. -/
def takeTrap (s : State) : State :=
  let fectl := setField (setField s.x.fectl 5 3 7) 8 4 0xF
  updateIrq { s with x := { s.x with fectl := fectl, ists := setField s.x.ists 4 1 1 } }

/-- The write to ISTS, write-1-to-clear: written with bit 4 set it is what deasserts the line, the trap's return
(40_mmio_registers R184, 60_exceptions R458). -/
def ackInterrupt (v : Word) (s : State) : State :=
  updateIrq { s with x := { s.x with ists := s.x.ists &&& ~~~ (v &&& 0xFFFFFFFE) } }

/-! ## Updates of the state's parts -/

/-- The state with other global registers. -/
def State.setX (s : State) (x : GlobalRegs) : State := { s with x := x }

/-- The state with another guest memory. -/
def State.setMem (s : State) (m : Store 8) : State := { s with mem := m }

/-- The state with other values of the sub-operations run alone. -/
def State.setSub (s : State) (u : SubOp) : State := { s with sub := u }

/-- The state with another Host datum. -/
def State.setHostData (s : State) (v : Word) : State := { s with hostData := v }

/-- The state with another DMA datum. -/
def State.setDspData (s : State) (v : Word) : State := { s with dspData := v }

/-- The state with another interrupt level. -/
def State.setIrq (s : State) (b : Bool) : State := { s with irq := b }

/-- The state after one more call of a DSP engine. -/
def State.bumpOracle (s : State) : State := { s with oracle := s.oracle + 1 }

/-- The DMA engine of core `c`. -/
def State.dma (s : State) (c : Core) : DmaRegs :=
  match c with
  | .gp => s.dmaGp
  | .ep => s.dmaEp

/-- The state with another DMA engine of core `c`. -/
def State.setDma (s : State) (c : Core) (d : DmaRegs) : State :=
  match c with
  | .gp => { s with dmaGp := d }
  | .ep => { s with dmaEp := d }

/-- The memories of core `c`. -/
def State.dsp (s : State) (c : Core) : DspMem :=
  match c with
  | .gp => s.dspGp
  | .ep => s.dspEp

/-- The state with other memories of core `c`. -/
def State.setDsp (s : State) (c : Core) (d : DspMem) : State :=
  match c with
  | .gp => { s with dspGp := d }
  | .ep => { s with dspEp := d }

/-- The reset register of core `c` (10_state R41, R42). -/
def State.rst (s : State) (c : Core) : Word :=
  match c with
  | .gp => s.gprst
  | .ep => s.eprst

/-- The state with another reset register of core `c`. -/
def State.setRst (s : State) (c : Core) (v : Word) : State :=
  match c with
  | .gp => { s with gprst := v }
  | .ep => { s with eprst := v }

/-- The walk values of core `c` (log 2). -/
def State.walk (s : State) (c : Core) : Walk :=
  match c with
  | .gp => s.sub.walkGp
  | .ep => s.sub.walkEp

/-- The state with other walk values of core `c`. -/
def State.setWalk (s : State) (c : Core) (w : Walk) : State :=
  match c with
  | .gp => s.setSub { s.sub with walkGp := w }
  | .ep => s.setSub { s.sub with walkEp := w }

/-! ## Guest memory -/

/-- The byte at a guest-physical address; every address has one (20_memory R88). -/
def memByte (m : Store 8) (addr : Word) : Byte := m.get addr.toNat

/-- The little-endian number of the `n` bytes from `addr` on, each address modulo 2^32 (20_memory R81, R82). -/
def memReadNat (m : Store 8) (addr : Word) : Nat → Nat
  | 0 => 0
  | n + 1 => (memByte m addr).toNat + 256 * memReadNat m (addr + 1) n

/-- `MemRead(addr, n)` for `n` in 1, 2, 4 (20_memory R82). -/
def memRead (m : Store 8) (addr : Word) (n : Nat) : Word := BitVec.ofNat 32 (memReadNat m addr n)

/-- The bytes of `v`, lowest first, stored from `addr` on (20_memory R82). -/
def memWriteNat (m : Store 8) (addr : Word) : Nat → Nat → Store 8
  | 0, _ => m
  | n + 1, v => memWriteNat (m.set addr.toNat (BitVec.ofNat 8 v)) (addr + 1) n (v / 256)

/-- `MemWrite(addr, n, v)`: the low `8n` bits of `v` (20_memory R82). -/
def memWrite (m : Store 8) (addr : Word) (n : Nat) (v : Word) : Store 8 := memWriteNat m addr n v.toNat

/-- The bytes of an access width. -/
def widthBytes (w : Width) : Nat :=
  match w with
  | .byte => 1
  | .half => 2
  | .word => 4

/-! ## The scatter-gather translator -/

/-- Base and highest valid entry of a table, read at the time of each translation (20_memory R99, 45_dma_engine R420). -/
def sgTable (s : State) (t : SgTable) : Word × Nat :=
  match t with
  | .voice => (s.x.vpsgeaddr, s.cfg.vpMaxSge)
  | .gpScratch => (s.x.gpsaddr, s.x.gpsmaxsge.toNat)
  | .epScratch => (s.x.epsaddr, s.x.epsmaxsge.toNat)

/-- `SgTranslate(base, max, lin)` (20_memory R95): the entry index and its comparison are natural numbers, the `control`
word is not read, the entry is read at the moment of the call (R96). -/
def sgTranslate (pageSize : Nat) (m : Store 8) (base : Word) (max : Nat) (lin : Word) : Except FatalCode Word :=
  let entry := lin.toNat / pageSize
  if max < entry then .error .sgeRange
  else .ok (memRead m (base + BitVec.ofNat 32 (entry * Config.sgeBytes)) 4 + BitVec.ofNat 32 (lin.toNat % pageSize))

/-- One translation through table `t` as the registers stand. -/
def translate (s : State) (t : SgTable) (lin : Word) : Except FatalCode Word :=
  sgTranslate s.cfg.pageSize s.mem (sgTable s t).1 (sgTable s t).2 lin

/-- `SgReadByte` (20_memory R98). -/
def sgReadByte (s : State) (t : SgTable) (lin : Word) : Except FatalCode Byte :=
  match translate s t lin with
  | .ok addr => .ok (memByte s.mem addr)
  | .error code => .error code

/-- `n` bytes at ascending linear addresses, each translated on its own, in that order (20_memory R98,
43_sample_fetch_decode R324). -/
def sgReadBytes (s : State) (t : SgTable) (lin : Word) : Nat → Except FatalCode (List Byte)
  | 0 => .ok []
  | n + 1 =>
    match sgReadByte s t lin with
    | .error code => .error code
    | .ok b =>
      match sgReadBytes s t (lin + 1) n with
      | .error code => .error code
      | .ok bs => .ok (b :: bs)

/-- The little-endian number of a list of bytes (20_memory R82). -/
def leNat : List Byte → Nat
  | [] => 0
  | b :: bs => b.toNat + 256 * leNat bs

/-- `SgRead(base, max, lin, n)` (20_memory R98). -/
def sgRead (s : State) (t : SgTable) (lin : Word) (n : Nat) : Except FatalCode Nat :=
  match sgReadBytes s t lin n with
  | .ok bs => .ok (leNat bs)
  | .error code => .error code

/-- `SgWriteByte` (20_memory R98). -/
def sgWriteByte (t : SgTable) (lin : Word) (b : Byte) : Op Unit := do
  let addr ← readsOrRaise (translate · t lin)
  update fun s => s.setMem (s.mem.set addr.toNat b)

/-- `SgWrite(base, max, lin, n, v)`: the bytes of `v` in ascending order, each translated when it is written
(20_memory R98). -/
def sgWrite (t : SgTable) (lin : Word) : Nat → Nat → Op Unit
  | 0, _ => pure ()
  | n + 1, v => do
    sgWriteByte t lin (BitVec.ofNat 8 v)
    sgWrite t (lin + 1) n (v / 256)

/-! ## Voice records -/

/-- A field of the voice record: word offset, lowest bit, width (30_encoding R131). -/
structure VField where
  off : Nat
  lo : Nat
  len : Nat
  deriving DecidableEq, Repr

/-- `VoiceAddr(h) = (x[VPVADDR] + h * 128) mod 2^32` (10_state R50). -/
def voiceAddr (s : State) (h : Handle) : Word :=
  s.x.vpvaddr + BitVec.ofNat 32 (h.toNat * Config.voiceSize)

/-- The guest-physical address of the word at byte offset `off` of voice `h`. -/
def voiceWordAddr (s : State) (h : Handle) (off : Nat) : Word := voiceAddr s h + BitVec.ofNat 32 off

/-- The word at byte offset `off` of voice `h`. -/
def voiceWord (s : State) (h : Handle) (off : Nat) : Word := memRead s.mem (voiceWordAddr s h off) 4

/-- The state with `v` in the word at byte offset `off` of voice `h`. -/
def State.setVoiceWord (s : State) (h : Handle) (off : Nat) (v : Word) : State :=
  s.setMem (memWrite s.mem (voiceWordAddr s h off) 4 v)

/-- The value of a voice field. -/
def voiceField (s : State) (h : Handle) (f : VField) : Nat := field (voiceWord s h f.off) f.lo f.len

/-- The state with a voice field changed: the read-modify-write of 10_state R50. -/
def State.setVoiceField (s : State) (h : Handle) (f : VField) (v : Nat) : State :=
  s.setVoiceWord h f.off (setField (voiceWord s h f.off) f.lo f.len v)

/-- The bound on handles, tested before a dereference (10_state R50, 44_voice_walker_mixer R358). -/
def checkHandle (h : Handle) : Op Unit := fun s =>
  if h.toNat < s.cfg.numVoices then .ok () s else .error .voiceBadHandle s

/-- `V[h].F` (10_state R50). -/
def readV (h : Handle) (f : VField) : Op Nat := do
  checkHandle h
  reads (voiceField · h f)

/-- `V[h].F <- v` (10_state R50). -/
def writeV (h : Handle) (f : VField) (v : Nat) : Op Unit := do
  checkHandle h
  update (·.setVoiceField h f v)

/-- A whole-word write of a voice, with no read (41_frontend_commands R227). -/
def writeVWord (h : Handle) (off : Nat) (v : Word) : Op Unit := do
  checkHandle h
  update (·.setVoiceWord h off v)

/-! ## DSP memory -/

/-- One space of a core's memory. -/
def DspMem.space (d : DspMem) (sp : Space) : Store 32 :=
  match sp with
  | .x => d.x
  | .y => d.y
  | .p => d.p

/-- A core's memory with another space. -/
def DspMem.setSpace (d : DspMem) (sp : Space) (m : Store 32) : DspMem :=
  match sp with
  | .x => { d with x := m }
  | .y => { d with y := m }
  | .p => { d with p := m }

/-- `DspRead(c, s, i)` (20_memory R87). -/
def dspRead (s : State) (c : Core) (sp : Space) (i : Nat) : Word := ((s.dsp c).space sp).get i

/-- A value reduced to a cell's width (20_memory R87). -/
def cellValue (bits : Nat) (v : Word) : Word := BitVec.ofNat 32 (v.toNat % 2 ^ bits)

/-- `DspWrite(c, s, i, v)`: the cell takes `v mod 2^DSP_CELL_BITS` (20_memory R87). -/
def State.dspWrite (s : State) (c : Core) (sp : Space) (i : Nat) (v : Word) : State :=
  s.setDsp c ((s.dsp c).setSpace sp (((s.dsp c).space sp).set i (cellValue s.cfg.cellBits v)))

/-- The cells of a space (10_state R62). -/
def spaceSize (p : Params) (sp : Space) : Nat :=
  match sp with
  | .x => p.xSize
  | .y => p.ySize
  | .p => p.pSize

/-! ## List registers -/

/-- `x[TVL_L]` (10_state R37). -/
def tvl (s : State) (l : VoiceList) : Word :=
  match l with
  | .l2d => s.x.tvl2d
  | .l3d => s.x.tvl3d
  | .lmp => s.x.tvlmp

/-- `x[CVL_L]` (10_state R38). -/
def cvl (s : State) (l : VoiceList) : Word :=
  match l with
  | .l2d => s.x.cvl2d
  | .l3d => s.x.cvl3d
  | .lmp => s.x.cvlmp

/-- `x[NVL_L]` (10_state R38). -/
def nvl (s : State) (l : VoiceList) : Word :=
  match l with
  | .l2d => s.x.nvl2d
  | .l3d => s.x.nvl3d
  | .lmp => s.x.nvlmp

/-- `x[TVL_L] <- v`. -/
def State.setTvl (s : State) (l : VoiceList) (v : Word) : State :=
  match l with
  | .l2d => s.setX { s.x with tvl2d := v }
  | .l3d => s.setX { s.x with tvl3d := v }
  | .lmp => s.setX { s.x with tvlmp := v }

/-- `x[CVL_L] <- v`. -/
def State.setCvl (s : State) (l : VoiceList) (v : Word) : State :=
  match l with
  | .l2d => s.setX { s.x with cvl2d := v }
  | .l3d => s.setX { s.x with cvl3d := v }
  | .lmp => s.setX { s.x with cvlmp := v }

/-- `x[NVL_L] <- v`. -/
def State.setNvl (s : State) (l : VoiceList) (v : Word) : State :=
  match l with
  | .l2d => s.setX { s.x with nvl2d := v }
  | .l3d => s.setX { s.x with nvl3d := v }
  | .lmp => s.setX { s.x with nvlmp := v }

/-! ## Inputs -/

/-- The next input and the state without it; none when nothing comes (log 1). -/
def fetch (s : State) : Option (Input × State) :=
  match s.pending with
  | [] => none
  | i :: r => some (i, { s with pending := r })

/-- The state whose next input is `i`. -/
def State.present (s : State) (i : Input) : State := { s with pending := i :: s.pending }

/-- A Host store to guest memory (40_mmio_registers R200): atomic, no operation of the block, and still possible when
the block is halted (60_exceptions R441). -/
def hostStore (addr : Word) (width : Width) (v : Word) (s : State) : State :=
  s.setMem (memWrite s.mem addr (widthBytes width) v)

/-- A Host load from guest memory (40_mmio_registers R200). -/
def hostLoad (addr : Word) (width : Width) (s : State) : State :=
  s.setHostData (memRead s.mem addr (widthBytes width))

end Sys2Proof.Machine
end

