-- ==== Sys2Proof/Machine/Operands.lean ====
section
/-! DEFINITION. Operand forms: the fields of a front-end argument (30_encoding R153), the fields of the voice record
(30_encoding R132 to R149), and the two forms of a register access (40_mmio_registers R180, 45_dma_engine R391). -/

namespace Sys2Proof.Machine

/-! ## Arguments of front-end commands -/

/-- HANDLE, bits 15:0. -/
def argHandle (arg : Word) : Handle := arg.extractLsb' 0 16

/-- INDEX, bits 15:0. -/
def argIndex (arg : Word) : BitVec 16 := arg.extractLsb' 0 16

/-- LIST, bits 17:16. -/
def argList (arg : Word) : Nat := field arg 16 2

/-- ACTION, bit 18. -/
def argAction (arg : Word) : Nat := field arg 18 1

/-- STEP, bits 31:16. -/
def argStep (arg : Word) : Nat := field arg 16 16

/-- OFFSET, bits 23:0. -/
def argOffset (arg : Word) : Nat := field arg 0 24

/-- ADDRESS, `argument and 0xFFFFF000`. -/
def argAddress (arg : Word) : Word := arg &&& 0xFFFFF000

/-! ## Fields of the voice record -/

/-- `bin[j]` (30_encoding R132, R133). -/
def vBin (j : Nat) : VField :=
  match j with
  | 0 => ⟨0x00, 0, 5⟩
  | 1 => ⟨0x00, 5, 5⟩
  | 2 => ⟨0x00, 10, 5⟩
  | 3 => ⟨0x00, 16, 5⟩
  | 4 => ⟨0x00, 21, 5⟩
  | 5 => ⟨0x00, 26, 5⟩
  | 6 => ⟨0x04, 0, 5⟩
  | _ => ⟨0x04, 5, 5⟩

/-- `samples_per_block`, named and used by no rule (30_encoding R133). -/
def vSamplesPerBlock : VField := ⟨0x04, 16, 5⟩

/-- `stream`, named and used by no rule (30_encoding R133). -/
def vStream : VField := ⟨0x04, 24, 1⟩

/-- `loop`. -/
def vLoop : VField := ⟨0x04, 25, 1⟩

/-- `stereo`. -/
def vStereo : VField := ⟨0x04, 27, 1⟩

/-- `sample_size`. -/
def vSampleSize : VField := ⟨0x04, 28, 2⟩

/-- `container_size`. -/
def vContainerSize : VField := ⟨0x04, 30, 2⟩

/-- `ef_pitchscale`, signed (30_encoding R134). -/
def vPitchScale : VField := ⟨0x08, 24, 8⟩

/-- `ba` (30_encoding R139). -/
def vBa : VField := ⟨0x20, 0, 24⟩

/-- `lbo` (30_encoding R140). -/
def vLbo : VField := ⟨0x24, 0, 24⟩

/-- `paused` (30_encoding R142). -/
def vPaused : VField := ⟨0x54, 18, 1⟩

/-- `new_voice`, named and used by no rule (30_encoding R142). -/
def vNewVoice : VField := ⟨0x54, 20, 1⟩

/-- `active` (30_encoding R142). -/
def vActive : VField := ⟨0x54, 21, 1⟩

/-- `cbo` (30_encoding R143). -/
def vCbo : VField := ⟨0x58, 0, 24⟩

/-- `ebo` (30_encoding R144). -/
def vEbo : VField := ⟨0x5C, 0, 24⟩

/-- `link` (30_encoding R149). -/
def vLink : VField := ⟨0x7C, 0, 16⟩

/-- `pitch`, signed (30_encoding R149). -/
def vPitch : VField := ⟨0x7C, 16, 16⟩

/-- The state field of an envelope (30_encoding R142). -/
def vState (e : Env) : VField :=
  match e with
  | .a => ⟨0x54, 28, 4⟩
  | .f => ⟨0x54, 24, 4⟩

/-- The counter of an envelope (30_encoding R141). -/
def vCount (e : Env) : VField :=
  match e with
  | .a => ⟨0x34, 0, 16⟩
  | .f => ⟨0x34, 16, 16⟩

/-- The level of an envelope (30_encoding R143, R144). -/
def vLevel (e : Env) : VField :=
  match e with
  | .a => ⟨0x58, 24, 8⟩
  | .f => ⟨0x5C, 24, 8⟩

/-- `attack_rate` (30_encoding R134, R136). -/
def vAttack (e : Env) : VField :=
  match e with
  | .a => ⟨0x08, 0, 12⟩
  | .f => ⟨0x10, 0, 12⟩

/-- `delay_time`, read by no rule (30_encoding R134, R136). -/
def vDelay (e : Env) : VField :=
  match e with
  | .a => ⟨0x08, 12, 12⟩
  | .f => ⟨0x10, 12, 12⟩

/-- `decay_rate` (30_encoding R135, R137). -/
def vDecay (e : Env) : VField :=
  match e with
  | .a => ⟨0x0C, 0, 12⟩
  | .f => ⟨0x14, 0, 12⟩

/-- `hold_time` (30_encoding R135, R137). -/
def vHold (e : Env) : VField :=
  match e with
  | .a => ⟨0x0C, 12, 12⟩
  | .f => ⟨0x14, 12, 12⟩

/-- `sustain_level` (30_encoding R135, R137). -/
def vSustain (e : Env) : VField :=
  match e with
  | .a => ⟨0x0C, 24, 8⟩
  | .f => ⟨0x14, 24, 8⟩

/-- `release_rate` (30_encoding R138, R148). -/
def vRelease (e : Env) : VField :=
  match e with
  | .a => ⟨0x6C, 0, 12⟩
  | .f => ⟨0x18, 0, 12⟩

/-- `vol[j]` from the three volume words (30_encoding R150). -/
def volume (a b c : Word) (j : Nat) : Nat :=
  match j with
  | 0 => field a 4 12
  | 1 => field a 20 12
  | 2 => field b 4 12
  | 3 => field b 20 12
  | 4 => field c 4 12
  | 5 => field c 20 12
  | 6 => field a 0 4 + 16 * field b 0 4 + 256 * field c 0 4
  | _ => field a 16 4 + 16 * field b 16 4 + 256 * field c 16 4

/-- `vol[j]` of voice `h`. -/
def voiceVolume (s : State) (h : Handle) (j : Nat) : Nat :=
  volume (voiceWord s h 0x60) (voiceWord s h 0x64) (voiceWord s h 0x68) j

/-! ## Register accesses -/

/-- A Host read: the datum goes to the Host, nothing else changes (40_mmio_registers R183). -/
def hostRead (f : State → Word) : Op Unit := update fun s => s.setHostData (f s)

/-- A Host access to a register that reads as `f` and whose write is `w` (40_mmio_registers R182, R183). -/
def hostAccess (f : State → Word) (w : Word → Op Unit) (a : Access) : Op Unit :=
  match a with
  | .read => hostRead f
  | .write v => w v

/-- A Host access to a plain global register: a write stores all 32 bits and nothing else (40_mmio_registers R182). -/
def plainRegister (f : GlobalRegs → Word) (w : GlobalRegs → Word → GlobalRegs) (a : Access) : Op Unit :=
  hostAccess (fun s => f s.x) (fun v => update fun s => s.setX (w s.x v)) a

/-- A Host access to a DSP memory window's cell (40_mmio_registers R195); `i` by the configuration. -/
def cellAccess (c : Core) (sp : Space) (i : State → Nat) (a : Access) : Op Unit :=
  hostAccess (fun s => dspRead s c sp (i s)) (fun v => update fun s => s.dspWrite c sp (i s) v) a

/-- A DMA register access by core `c`'s program: a read hands the program the datum and has no side effect
(45_dma_engine R391). -/
def dmaAccess (f : State → Word) (w : Word → Op Unit) (a : Access) : Op Unit :=
  match a with
  | .read => update fun s => s.setDspData (f s)
  | .write v => w v

end Sys2Proof.Machine
end

