-- ==== Sys2Proof/Machine/Dma.lean ====
section
/-! DEFINITION. The DMA descriptor-chain engine (45_dma_engine): register accesses, actions, the chain walk, and the DESC
rows, which are the parts of one iteration of the walk. -/

namespace Sys2Proof.Machine

/-! ## The parts of an iteration -/

/-- The scratch table of core `c` (45_dma_engine R420). -/
def scratchTable (c : Core) : SgTable :=
  match c with
  | .gp => .gpScratch
  | .ep => .epScratch

/-- A change of core `c`'s engine. -/
def dmaUpdate (c : Core) (f : DmaRegs → DmaRegs) : Op Unit := update fun s => s.setDma c (f (s.dma c))

/-- A change of core `c`'s walk values run alone (log 2). -/
def walkUpdate (c : Core) (f : Walk → Walk) : Op Unit := update fun s => s.setWalk c (f (s.walk c))

/-- The EOL bit of a pointer (45_dma_engine R406). -/
def ptrEol (ptr : Word) : Bool := ptr.getLsbD 14

/-- The address of a pointer (45_dma_engine R410). -/
def ptrAddr (ptr : Word) : Nat := field ptr 0 14

/-- End of list: `eol <- true` (45_dma_engine R406). -/
def chainEnd (c : Core) : Op Unit := dmaUpdate c fun d => { d with eol := true }

/-- The seven words of the descriptor at X cells `addr` to `addr + 6` (45_dma_engine R410). -/
def descriptorAt (s : State) (c : Core) (addr : Nat) : Descriptor where
  next := dspRead s c .x addr
  control := dspRead s c .x (addr + 1)
  count := dspRead s c .x (addr + 2)
  dspOffset := dspRead s c .x (addr + 3)
  scratchOffset := dspRead s c .x (addr + 4)
  scratchBase := dspRead s c .x (addr + 5)
  scratchSizeM1 := dspRead s c .x (addr + 6)

/-- The descriptor read and its bound (45_dma_engine R410, R411). -/
def readDescriptor (c : Core) (addr : Nat) : Op Descriptor :=
  readsOrRaise fun s => if addr + 6 ≥ s.cfg.xSize then .error .dmaBounds else .ok (descriptorAt s c addr)

/-- The item size of a format code (45_dma_engine R412). -/
def itemSize (format : Nat) : Op Nat :=
  match format with
  | 1 => pure 2
  | 2 => pure 4
  | 6 => pure 4
  | _ => raise .dmaBadFormat

/-- `scratch_offset + count * item_size < scratch_size`, natural numbers (45_dma_engine R415). -/
def circularFits (d : Descriptor) (size : Nat) : Bool :=
  d.scratchOffset.toNat + d.count.toNat * size < d.scratchSizeM1.toNat + 1

/-- The circular selection: whether the body is skipped, and the target (45_dma_engine R415). -/
def circularBuffer (d : Descriptor) (size : Nat) : Bool × Word :=
  (!circularFits d size, d.scratchBase + d.scratchOffset)

/-- The offset selection, with no bound check (45_dma_engine R414). -/
def offsetBuffer (d : Descriptor) : Bool × Word := (false, d.scratchOffset)

/-- The buffer selection by BUF_ID (45_dma_engine R414, R415). -/
def selectBuffer (d : Descriptor) (size : Nat) : Bool × Word :=
  if field d.control 5 4 = Config.bufCircular then circularBuffer d size else offsetBuffer d

/-- The space and index of a DSP-side offset (45_dma_engine R417). -/
def dspWindow (offset : Nat) : Option (Space × Nat) :=
  if offset < 0x1800 then some (.x, offset)
  else if offset < 0x2000 then some (.y, offset - 0x1800)
  else if 0x2800 ≤ offset ∧ offset < 0x3800 then some (.p, offset - 0x2800)
  else none

/-- The window check, once per unskipped descriptor: the base in a window and the last item, if any, in the same one
(45_dma_engine R417). -/
def checkWindow (offset count : Nat) : Except FatalCode (Space × Nat) :=
  match dspWindow offset with
  | none => .error .dmaBounds
  | some (sp, idx) =>
    if count = 0 ∨ (dspWindow (offset + count - 1)).map Prod.fst = some sp then .ok (sp, idx) else .error .dmaBounds

/-- The bits of an item that move: 16 of a 2-byte item, 24 of a 4-byte item (45_dma_engine R418). -/
def itemMask (size : Nat) : Nat := if size = 2 then 0x10000 else 0x1000000

/-- One item from DSP memory to scratch (45_dma_engine R418). -/
def itemOut (c : Core) (sp : Space) (size idx : Nat) (lin : Word) : Op Unit := do
  let v ← reads fun s => (dspRead s c sp idx).toNat % itemMask size
  sgWrite (scratchTable c) lin size v

/-- One item from scratch to DSP memory (45_dma_engine R418). -/
def itemIn (c : Core) (sp : Space) (size idx : Nat) (lin : Word) : Op Unit := do
  let v ← readsOrRaise fun s => sgRead s (scratchTable c) lin size
  update fun s => s.dspWrite c sp idx (BitVec.ofNat 32 (v % itemMask size))

/-- `n` items from cell `idx` and linear address `lin` on, in ascending order (45_dma_engine R418). -/
def moveItems (item : Nat → Word → Op Unit) (size : Nat) (idx : Nat) (lin : Word) : Nat → Op Unit
  | 0 => pure ()
  | n + 1 => do
    item idx lin
    moveItems item size (idx + 1) (lin + BitVec.ofNat 32 size) n

/-- `Transfer` (45_dma_engine R416 to R418): the window check, then the items. -/
def transfer (c : Core) (toScratch : Bool) (size : Nat) (d : Descriptor) (target : Word) : Op Unit := do
  let w ← readsOrRaise fun _ => checkWindow d.dspOffset.toNat d.count.toNat
  let item := if toScratch then itemOut c w.1 size else itemIn c w.1 size
  moveItems item size w.2 target d.count.toNat

/-- The chain advance: NEXT_BLOCK takes the whole word `next` (45_dma_engine R404). -/
def chainAdvance (c : Core) (next : Word) : Op Unit := dmaUpdate c fun d => { d with nextBlock := next }

/-! ## The chain walk -/

/-- One iteration past the EOL test (45_dma_engine R404). -/
def chainBody (c : Core) (ptr : Word) : Op Unit := do
  let d ← readDescriptor c (ptrAddr ptr)
  let size ← itemSize (field d.control 10 3)
  let b := selectBuffer d size
  if b.1 then pure () else transfer c (d.control.getLsbD 1) size d b.2
  chainAdvance c d.next

/-- The loop of `Run(c)`, bounded (45_dma_engine R404, R421; log 13). -/
def chainLoop (c : Core) : Nat → Op Unit
  | 0 => raise .chainCycle
  | n + 1 => do
    let ptr ← reads fun s => (s.dma c).nextBlock
    if ptrEol ptr then chainEnd c
    else do
      chainBody c ptr
      chainLoop c n

/-- Whether the engine walks: RUNNING and not FROZEN (45_dma_engine R405). -/
def walks (control : Word) : Bool := running control && !frozen control

/-- `Run(c)` (45_dma_engine R404). -/
def runChain (c : Core) : Op Unit := do
  let go ← reads fun s => walks (s.dma c).control
  if go then chainLoop c (Config.chainBound + 1) else pure ()

/-- A status change of CONTROL (45_dma_engine R398 to R402). -/
def setStatus (c : Core) (f : Word → Word) : Op Unit := dmaUpdate c fun d => { d with control := f d.control }

/-- Action NOP, and the walk (45_dma_engine R398). -/
def actNop (c : Core) : Op Unit := runChain c

/-- Action START, and the walk (45_dma_engine R399). -/
def actStart (c : Core) : Op Unit := do
  setStatus c statusStart
  runChain c

/-- Action STOP, and the walk, which it makes a no-op (45_dma_engine R400). -/
def actStop (c : Core) : Op Unit := do
  setStatus c statusStop
  runChain c

/-- Action FREEZE, and the walk, which it makes a no-op (45_dma_engine R401). -/
def actFreeze (c : Core) : Op Unit := do
  setStatus c statusFreeze
  runChain c

/-- Action UNFREEZE, and the walk (45_dma_engine R402). -/
def actUnfreeze (c : Core) : Op Unit := do
  setStatus c statusUnfreeze
  runChain c

/-- Actions 5, 6 and 7: no status bit changes and nothing walks (45_dma_engine R403). -/
def actBad : Op Unit := raise .dmaBadAction

/-- The write of CONTROL: bits 31:3 are ignored (45_dma_engine R396). -/
def controlWrite (c : Core) (v : Word) : Op Unit :=
  match field v 0 3 with
  | 0 => actNop c
  | 1 => actStart c
  | 2 => actStop c
  | 3 => actFreeze c
  | 4 => actUnfreeze c
  | _ => actBad

/-! ## Register accesses -/

/-- An access to CONFIGURATION: stored, no effect (45_dma_engine R391, R393). -/
def accessConfiguration (c : Core) (a : Access) : Op Unit :=
  dmaAccess (fun s => (s.dma c).configuration) (fun v => dmaUpdate c fun d => { d with configuration := v }) a

/-- An access to CONTROL (45_dma_engine R391, R396). -/
def accessControl (c : Core) (a : Access) : Op Unit :=
  dmaAccess (fun s => controlRead (s.dma c).control) (controlWrite c) a

/-- An access to START_BLOCK: stored, no effect (45_dma_engine R391, R394). -/
def accessStartBlock (c : Core) (a : Access) : Op Unit :=
  dmaAccess (fun s => (s.dma c).startBlock) (fun v => dmaUpdate c fun d => { d with startBlock := v }) a

/-- An access to NEXT_BLOCK: a write runs no chain (45_dma_engine R391, R395). -/
def accessNextBlock (c : Core) (a : Access) : Op Unit :=
  dmaAccess (fun s => (s.dma c).nextBlock) (fun v => dmaUpdate c fun d => { d with nextBlock := v }) a

/-- An access of core `c`'s program to a register of its engine (45_dma_engine R390). -/
def accessDma (c : Core) (r : DmaReg) (a : Access) : Op Unit :=
  match r with
  | .configuration => accessConfiguration c a
  | .control => accessControl c a
  | .startBlock => accessStartBlock c a
  | .nextBlock => accessNextBlock c a

/-! ## The parts run alone (log 2) -/

/-- A format class alone: the item size, or the fatal (45_dma_engine R412). -/
def formatAlone (c : Core) (format : Nat) : Op Unit := do
  let n ← itemSize format
  walkUpdate c fun w => { w with itemSize := n }

/-- A buffer class alone. -/
def bufferAlone (c : Core) (choose : Descriptor → Nat → Bool × Word) : Op Unit :=
  walkUpdate c fun w =>
    let b := choose w.desc w.itemSize
    { w with skip := b.1, target := b.2 }

/-- A direction class alone: the transfer unless the body is skipped, then the advance (45_dma_engine R416, R404). -/
def directionAlone (c : Core) (toScratch : Bool) : Op Unit := do
  let w ← reads fun s => s.walk c
  if w.skip then pure () else transfer c toScratch w.itemSize w.desc w.target
  chainAdvance c w.desc.next

/-- A block pointer alone: the descriptor read (45_dma_engine R410, R411). -/
def blockAlone (c : Core) (addr : Nat) : Op Unit := do
  let d ← readDescriptor c addr
  walkUpdate c fun w => { w with desc := d }

/-! ## The rows -/

/-- DMA.CONFIGURATION (45_dma_engine R391, R393). -/
def execDmaConfiguration (c : Core) (a : Access) (s : State) : Host.Outcome State Fault Refusal :=
  runOp (accessConfiguration c a) s

/-- DMA.CONTROL (45_dma_engine R391, R396). -/
def execDmaControl (c : Core) (a : Access) (s : State) : Host.Outcome State Fault Refusal :=
  runOp (accessControl c a) s

/-- DMA.START_BLOCK (45_dma_engine R391, R394). -/
def execDmaStartBlock (c : Core) (a : Access) (s : State) : Host.Outcome State Fault Refusal :=
  runOp (accessStartBlock c a) s

/-- DMA.NEXT_BLOCK (45_dma_engine R391, R395). -/
def execDmaNextBlock (c : Core) (a : Access) (s : State) : Host.Outcome State Fault Refusal :=
  runOp (accessNextBlock c a) s

/-- DMA.ACT_NOP (45_dma_engine R398); bits 31:3 of the value are ignored (R396). -/
def execDmaActNop (c : Core) (_rest : BitVec 29) (s : State) : Host.Outcome State Fault Refusal :=
  runOp (actNop c) s

/-- DMA.ACT_START (45_dma_engine R399); bits 31:3 of the value are ignored (R396). -/
def execDmaActStart (c : Core) (_rest : BitVec 29) (s : State) : Host.Outcome State Fault Refusal :=
  runOp (actStart c) s

/-- DMA.ACT_STOP (45_dma_engine R400); bits 31:3 of the value are ignored (R396). -/
def execDmaActStop (c : Core) (_rest : BitVec 29) (s : State) : Host.Outcome State Fault Refusal :=
  runOp (actStop c) s

/-- DMA.ACT_FREEZE (45_dma_engine R401); bits 31:3 of the value are ignored (R396). -/
def execDmaActFreeze (c : Core) (_rest : BitVec 29) (s : State) : Host.Outcome State Fault Refusal :=
  runOp (actFreeze c) s

/-- DMA.ACT_UNFREEZE (45_dma_engine R402); bits 31:3 of the value are ignored (R396). -/
def execDmaActUnfreeze (c : Core) (_rest : BitVec 29) (s : State) : Host.Outcome State Fault Refusal :=
  runOp (actUnfreeze c) s

/-- DMA.ACT_ABORT (45_dma_engine R403): the fatal is taken. -/
def execDmaActAbort (_c : Core) (_rest : BitVec 29) (s : State) : Host.Outcome State Fault Refusal :=
  runOp (actBad) s

/-- DMA.ACT_RESERVED6 (45_dma_engine R403): the fatal is taken. -/
def execDmaActReserved6 (_c : Core) (_rest : BitVec 29) (s : State) : Host.Outcome State Fault Refusal :=
  runOp (actBad) s

/-- DMA.ACT_RESERVED7 (45_dma_engine R403): the fatal is taken. -/
def execDmaActReserved7 (_c : Core) (_rest : BitVec 29) (s : State) : Host.Outcome State Fault Refusal :=
  runOp (actBad) s

/-- DESC.FORMAT_0 (45_dma_engine R412): the fatal is taken. -/
def execDescFormat0 (c : Core) (s : State) : Host.Outcome State Fault Refusal :=
  runOp (formatAlone c 0) s

/-- DESC.FORMAT_1 (45_dma_engine R412). -/
def execDescFormat1 (c : Core) (s : State) : Host.Outcome State Fault Refusal :=
  runOp (formatAlone c 1) s

/-- DESC.FORMAT_2 (45_dma_engine R412). -/
def execDescFormat2 (c : Core) (s : State) : Host.Outcome State Fault Refusal :=
  runOp (formatAlone c 2) s

/-- DESC.FORMAT_3 (45_dma_engine R412): the fatal is taken. -/
def execDescFormat3 (c : Core) (s : State) : Host.Outcome State Fault Refusal :=
  runOp (formatAlone c 3) s

/-- DESC.FORMAT_4 (45_dma_engine R412): the fatal is taken. -/
def execDescFormat4 (c : Core) (s : State) : Host.Outcome State Fault Refusal :=
  runOp (formatAlone c 4) s

/-- DESC.FORMAT_5 (45_dma_engine R412): the fatal is taken. -/
def execDescFormat5 (c : Core) (s : State) : Host.Outcome State Fault Refusal :=
  runOp (formatAlone c 5) s

/-- DESC.FORMAT_6 (45_dma_engine R412). -/
def execDescFormat6 (c : Core) (s : State) : Host.Outcome State Fault Refusal :=
  runOp (formatAlone c 6) s

/-- DESC.FORMAT_7 (45_dma_engine R412): the fatal is taken. -/
def execDescFormat7 (c : Core) (s : State) : Host.Outcome State Fault Refusal :=
  runOp (formatAlone c 7) s

/-- DESC.BUF_CIRCULAR (45_dma_engine R415). -/
def execDescBufCircular (c : Core) (s : State) : Host.Outcome State Fault Refusal :=
  runOp (bufferAlone c circularBuffer) s

/-- DESC.BUF_OFFSET (45_dma_engine R414), whatever the BUF_ID. -/
def execDescBufOffset (c : Core) (_bufId : BitVec 4) (s : State) : Host.Outcome State Fault Refusal :=
  runOp (bufferAlone c fun d _ => offsetBuffer d) s

/-- DESC.DIR_DSP_TO_SCRATCH (45_dma_engine R416). -/
def execDescDirDspToScratch (c : Core) (s : State) : Host.Outcome State Fault Refusal :=
  runOp (directionAlone c true) s

/-- DESC.DIR_SCRATCH_TO_DSP (45_dma_engine R416). -/
def execDescDirScratchToDsp (c : Core) (s : State) : Host.Outcome State Fault Refusal :=
  runOp (directionAlone c false) s

/-- DESC.PTR_EOL (45_dma_engine R406): the address is not read. -/
def execDescPtrEol (c : Core) (_addr : BitVec 14) (s : State) : Host.Outcome State Fault Refusal :=
  runOp (chainEnd c) s

/-- DESC.PTR_BLOCK (45_dma_engine R410, R411). -/
def execDescPtrBlock (c : Core) (addr : BitVec 14) (s : State) : Host.Outcome State Fault Refusal :=
  runOp (blockAlone c addr.toNat) s

end Sys2Proof.Machine
end

