-- ==== Sys2Proof/Machine/Envelope.lean ====
section
/-! DEFINITION. The voice envelope state machine (42_envelope): the step of each state as a function from the fields it
reads to the fields it writes, the step of an envelope, and the ENV rows. -/

namespace Sys2Proof.Machine

/-- What a step of envelope `e` reads (42_envelope R281, R298). -/
structure EnvIn where
  count : Nat
  level : Nat
  attack : Nat
  hold : Nat
  decay : Nat
  sustain : Nat
  release : Nat
  deriving DecidableEq, Repr

/-- What it writes back, and whether it clears the voice's `active` flag (42_envelope R281). -/
structure EnvOut where
  count : Nat
  level : Nat
  state : Nat
  ends : Bool
  deriving DecidableEq, Repr

/-- The fields of envelope `e` of voice `h`. -/
def envIn (s : State) (h : Handle) (e : Env) : EnvIn where
  count := voiceField s h (vCount e)
  level := voiceField s h (vLevel e)
  attack := voiceField s h (vAttack e)
  hold := voiceField s h (vHold e)
  decay := voiceField s h (vDecay e)
  sustain := voiceField s h (vSustain e)
  release := voiceField s h (vRelease e)

/-- `Dec(c)`, saturating at 0 (42_envelope R283). -/
def envDec (count : Nat) : Nat := count - 1

/-- The base of the decay curve, 99988799 / 10^8 (42_envelope R291). -/
def decayNum : Nat := 99988799

/-- The denominator of the base. -/
def decayDen : Nat := 100000000

/-- The exponent `floor((16*D - count) * 4096 / D)` (42_envelope R291). -/
def decayExponent (decay count : Nat) : Nat := (16 * decay - count) * 4096 / decay

/-- `DecayLevel`: `floor(255 * c^e)`, exact (42_envelope R291; log 19). -/
def decayLevel (e : Nat) : Nat := 255 * decayNum ^ e / decayDen ^ e

/-- `DecayDone`: `255 * c^e <= S + 1/5`, exact (42_envelope R291; log 19). -/
def decayDone (sustain e : Nat) : Bool := 5 * 255 * decayNum ^ e ≤ (5 * sustain + 1) * decayDen ^ e

/-- Off (42_envelope R287). -/
def offStep (_ : EnvIn) : EnvOut := ⟨0, 255, 0, false⟩

/-- Delay (42_envelope R288). -/
def delayStep (i : EnvIn) : EnvOut :=
  let count := envDec i.count
  if count = 0 then ⟨0, 0, 2, false⟩ else ⟨count, 0, 1, false⟩

/-- The level of Attack at counter `count` (42_envelope R289). -/
def attackLevel (attack count : Nat) : Nat := if attack = 0 then 255 else min (count * 255 / attack) 255

/-- Attack (42_envelope R289). -/
def attackStep (i : EnvIn) : EnvOut :=
  let count := (i.count + 1) % 65536
  let level := attackLevel i.attack count
  if count = 16 * i.attack then ⟨16 * i.hold, level, 3, false⟩ else ⟨count, level, 2, false⟩

/-- Hold (42_envelope R290). -/
def holdStep (i : EnvIn) : EnvOut :=
  let count := envDec i.count
  if count = 0 then ⟨16 * i.decay, 255, 4, false⟩ else ⟨count, 255, 3, false⟩

/-- Decay (42_envelope R291). -/
def decayStep (i : EnvIn) : EnvOut :=
  let count := envDec i.count
  if i.decay = 0 then ⟨count, i.sustain, 5, false⟩
  else if 16 * i.decay < count then ⟨count, 255, 5, false⟩
  else
    let e := decayExponent i.decay count
    ⟨count, decayLevel e, if decayDone i.sustain e then 5 else 4, false⟩

/-- Sustain (42_envelope R292). -/
def sustainStep (i : EnvIn) : EnvOut := ⟨0, i.sustain, 5, false⟩

/-- The level of Release at counter `count` after level `prev` (42_envelope R293). -/
def releaseLevel (release count prev : Nat) : Nat :=
  if release = 0 then 0 else min (count * prev / (16 * release)) 255

/-- Release (42_envelope R293): the state stays, the end clears `active`. -/
def releaseStep (i : EnvIn) : EnvOut :=
  let count := envDec i.count
  ⟨count, releaseLevel i.release count i.level, 6, count = 0⟩

/-- The write-back: count, level and state in that order, each a read-modify-write of its word, then the end of the
voice (42_envelope R281, R298). -/
def envWriteBack (h : Handle) (e : Env) (o : EnvOut) (s : State) : State :=
  let t := ((s.setVoiceField h (vCount e) o.count).setVoiceField h (vLevel e) o.level).setVoiceField h (vState e) o.state
  if o.ends then t.setVoiceField h vActive 0 else t

/-- One step of envelope `e` of voice `h` by the rule `f` of its state; returns the level stored (42_envelope R281,
R284). -/
def envRule (f : EnvIn → EnvOut) (h : Handle) (e : Env) : Op Nat := do
  checkHandle h
  let o ← reads fun s => f (envIn s h e)
  update (envWriteBack h e o)
  pure o.level

/-- A state with no rule: nothing of the envelope is written (42_envelope R294, R295). -/
def envFatal (code : FatalCode) (h : Handle) : Op Nat := do
  checkHandle h
  raise code

/-- `EnvStep(h, e)` (42_envelope R281): the rule of the current state. -/
def envStep (h : Handle) (e : Env) : Op Nat := do
  let state ← readV h (vState e)
  match state with
  | 0 => envRule offStep h e
  | 1 => envRule delayStep h e
  | 2 => envRule attackStep h e
  | 3 => envRule holdStep h e
  | 4 => envRule decayStep h e
  | 5 => envRule sustainStep h e
  | 6 => envRule releaseStep h e
  | 7 => envFatal .envForceRelease h
  | _ => envFatal .envBadState h

/-- A step run alone: the returned level goes where no sample is mixed (log 2). -/
def envAlone (m : Op Nat) : Op Unit := do
  let level ← m
  update fun s => s.setSub { s.sub with level := level }

/-! ## The rows -/

/-- ENV.OFF (42_envelope R287). -/
def execEnvOff (h : Handle) (e : Env) (s : State) : Host.Outcome State Fault Refusal :=
  runOp (envAlone (envRule offStep h e)) s

/-- ENV.DELAY (42_envelope R288). -/
def execEnvDelay (h : Handle) (e : Env) (s : State) : Host.Outcome State Fault Refusal :=
  runOp (envAlone (envRule delayStep h e)) s

/-- ENV.ATTACK (42_envelope R289). -/
def execEnvAttack (h : Handle) (e : Env) (s : State) : Host.Outcome State Fault Refusal :=
  runOp (envAlone (envRule attackStep h e)) s

/-- ENV.HOLD (42_envelope R290). -/
def execEnvHold (h : Handle) (e : Env) (s : State) : Host.Outcome State Fault Refusal :=
  runOp (envAlone (envRule holdStep h e)) s

/-- ENV.DECAY (42_envelope R291). -/
def execEnvDecay (h : Handle) (e : Env) (s : State) : Host.Outcome State Fault Refusal :=
  runOp (envAlone (envRule decayStep h e)) s

/-- ENV.SUSTAIN (42_envelope R292). -/
def execEnvSustain (h : Handle) (e : Env) (s : State) : Host.Outcome State Fault Refusal :=
  runOp (envAlone (envRule sustainStep h e)) s

/-- ENV.RELEASE (42_envelope R293). -/
def execEnvRelease (h : Handle) (e : Env) (s : State) : Host.Outcome State Fault Refusal :=
  runOp (envAlone (envRule releaseStep h e)) s

/-- ENV.FORCE_RELEASE (42_envelope R294): the fatal is taken. -/
def execEnvForceRelease (h : Handle) (_e : Env) (s : State) : Host.Outcome State Fault Refusal :=
  runOp (envAlone (envFatal .envForceRelease h)) s

/-- ENV.BAD_STATE (42_envelope R295): the fatal is taken, whatever the code's low bits. -/
def execEnvBadState (h : Handle) (_e : Env) (_low : BitVec 3) (s : State) : Host.Outcome State Fault Refusal :=
  runOp (envAlone (envFatal .envBadState h)) s

end Sys2Proof.Machine
end

