-- ==== Sys2Proof/Machine/FrontEnd.lean ====
section
/-! DEFINITION. The front-end commands (41_frontend_commands). A command is applied at once and completely, in every
mode (R220): FEMETHMODE gates nothing (log 17). -/

namespace Sys2Proof.Machine

/-! ## What the commands do -/

/-- The list a selector 1 to 3 names (41_frontend_commands R224). -/
def selectedList (lst : Nat) : VoiceList :=
  match lst with
  | 1 => .l2d
  | 2 => .l3d
  | _ => .lmp

/-- A handle zero-extended to 32 bits. -/
def handleWord (h : Handle) : Word := h.setWidth 32

/-- Insertion of `h` after the antecedent voice `a` (41_frontend_commands R224). -/
def insertAfter (a h : Handle) : Op Unit := do
  let t ← readV a vLink
  writeV h vLink t
  writeV a vLink h.toNat

/-- Insertion of `h` at the head of list `l` (41_frontend_commands R224). -/
def insertHead (l : VoiceList) (h : Handle) : Op Unit := do
  let t ← reads fun s => field (tvl s l) 0 16
  writeV h vLink t
  update fun s => s.setTvl l (handleWord h)

/-- VOICE_ON (41_frontend_commands R224): link by FEAV's selector, then `active <- 1`. -/
def feVoiceOn (arg : Word) : Op Unit := do
  let h := argHandle arg
  let feav ← reads fun s => s.x.feav
  match argList feav with
  | 0 => insertAfter (argHandle feav) h
  | lst => insertHead (selectedList lst) h
  writeV h vActive 1

/-- VOICE_OFF (41_frontend_commands R225): `active <- 0`, no list removal. -/
def feVoiceOff (arg : Word) : Op Unit := writeV (argHandle arg) vActive 0

/-- VOICE_PAUSE (41_frontend_commands R226), in both modes of PAUSE_MODE. -/
def feVoicePause (arg : Word) : Op Unit := do
  let mode ← reads fun s => s.cfg.pauseMode
  match mode with
  | .fromAction => writeV (argHandle arg) vPaused (argAction arg)
  | .invert => do
    let p ← readV (argHandle arg) vPaused
    writeV (argHandle arg) vPaused (1 - p)

/-- SET_ANTECEDENT_VOICE: `x[FEAV] <- arg` (41_frontend_commands R221). -/
def feSetAntecedentVoice (arg : Word) : Op Unit := update fun s => s.setX { s.x with feav := arg }

/-- SET_CURRENT_VOICE: `x[FECV] <- arg and 0x0000FFFF` (41_frontend_commands R222). -/
def feSetCurrentVoice (arg : Word) : Op Unit := update fun s => s.setX { s.x with fecv := arg &&& 0x0000FFFF }

/-- `cv`, the voice that parameter writes go to (41_frontend_commands R227). -/
def currentVoice (s : State) : Handle := argHandle s.x.fecv

/-- A whole-word parameter write (41_frontend_commands R227). -/
def paramWord (off : Nat) (arg : Word) : Op Unit := do
  let cv ← reads currentVoice
  writeVWord cv off arg

/-- A field parameter write: the word's other bits stay (41_frontend_commands R227). -/
def paramField (f : VField) (v : Nat) : Op Unit := do
  let cv ← reads currentVoice
  writeV cv f v

/-- The guest-physical address of the `address` word of entry `n` of the voice-data table (41_frontend_commands
R245). -/
def voiceEntryAddr (s : State) (n : BitVec 16) : Word :=
  s.x.vpsgeaddr + BitVec.ofNat 32 (n.toNat * Config.sgeBytes)

/-- A scatter-gather offset write to the entry a latch names; the entry index is not compared with any maximum
(41_frontend_commands R245, R247). -/
def entryWrite (latch : State → BitVec 16) (arg : Word) : Op Unit :=
  update fun s => s.setMem (memWrite s.mem (voiceEntryAddr s (latch s)) 4 (argAddress arg))

/-- SET_CURRENT_INBUF_SGE (41_frontend_commands R244). -/
def feSetInbufSge (arg : Word) : Op Unit := update fun s => { s with inbufSge := argIndex arg }

/-- SET_CURRENT_OUTBUF_SGE (41_frontend_commands R246). -/
def feSetOutbufSge (arg : Word) : Op Unit := update fun s => { s with outbufSge := argIndex arg }

/-- The idle notification (41_frontend_commands R250): the trap is taken if it is armed; otherwise nothing (log 17). The
handle is stored nowhere. -/
def feIdleVoice (_arg : Word) : Op Unit := update fun s => if trapArmed s then takeTrap s else s

/-- The command a method selects (30_encoding R152; 41_frontend_commands R220); an unknown method is discarded
(R252). -/
def feCommand (method : Nat) (arg : Word) : Op Unit :=
  match method with
  | 0x0120 => feSetAntecedentVoice arg
  | 0x0124 => feVoiceOn arg
  | 0x0128 => feVoiceOff arg
  | 0x0140 => feVoicePause arg
  | 0x02F8 => feSetCurrentVoice arg
  | 0x0300 => paramWord 0x00 arg
  | 0x0304 => paramWord 0x04 arg
  | 0x0308 => paramWord 0x08 arg
  | 0x030C => paramWord 0x0C arg
  | 0x0310 => paramWord 0x10 arg
  | 0x0314 => paramWord 0x14 arg
  | 0x0318 => paramField (vRelease .f) (field arg 0 12)
  | 0x0360 => paramWord 0x60 arg
  | 0x0364 => paramWord 0x64 arg
  | 0x0368 => paramWord 0x68 arg
  | 0x036C => paramField (vRelease .a) (field arg 0 12)
  | 0x037C => paramField vPitch (argStep arg)
  | 0x03A0 => paramField vBa (argOffset arg)
  | 0x03A4 => paramField vLbo (argOffset arg)
  | 0x03D8 => paramField vCbo (argOffset arg)
  | 0x03DC => paramField vEbo (argOffset arg)
  | 0x0804 => feSetInbufSge arg
  | 0x0808 => entryWrite State.inbufSge arg
  | 0x1800 => feSetOutbufSge arg
  | 0x1808 => entryWrite State.outbufSge arg
  | 0x8000 => feIdleVoice arg
  | _ => pure ()

/-! ## The rows -/

/-- FE.SET_ANTECEDENT_VOICE (41_frontend_commands R221). -/
def execFeSetAntecedentVoice (arg : Word) (s : State) : Host.Outcome State Fault Refusal :=
  runOp (feSetAntecedentVoice arg) s

/-- FE.VOICE_ON (41_frontend_commands R224). -/
def execFeVoiceOn (arg : Word) (s : State) : Host.Outcome State Fault Refusal :=
  runOp (feVoiceOn arg) s

/-- FE.VOICE_OFF (41_frontend_commands R225). -/
def execFeVoiceOff (arg : Word) (s : State) : Host.Outcome State Fault Refusal :=
  runOp (feVoiceOff arg) s

/-- FE.VOICE_PAUSE (41_frontend_commands R226). -/
def execFeVoicePause (arg : Word) (s : State) : Host.Outcome State Fault Refusal :=
  runOp (feVoicePause arg) s

/-- FE.SET_CURRENT_VOICE (41_frontend_commands R222). -/
def execFeSetCurrentVoice (arg : Word) (s : State) : Host.Outcome State Fault Refusal :=
  runOp (feSetCurrentVoice arg) s

/-- FE.SET_VOICE_CFG_VBIN (41_frontend_commands R228). -/
def execFeSetVoiceCfgVbin (arg : Word) (s : State) : Host.Outcome State Fault Refusal :=
  runOp (paramWord 0x00 arg) s

/-- FE.SET_VOICE_CFG_FMT (41_frontend_commands R229). -/
def execFeSetVoiceCfgFmt (arg : Word) (s : State) : Host.Outcome State Fault Refusal :=
  runOp (paramWord 0x04 arg) s

/-- FE.SET_VOICE_CFG_ENV0 (41_frontend_commands R230). -/
def execFeSetVoiceCfgEnv0 (arg : Word) (s : State) : Host.Outcome State Fault Refusal :=
  runOp (paramWord 0x08 arg) s

/-- FE.SET_VOICE_CFG_ENVA (41_frontend_commands R231). -/
def execFeSetVoiceCfgEnva (arg : Word) (s : State) : Host.Outcome State Fault Refusal :=
  runOp (paramWord 0x0C arg) s

/-- FE.SET_VOICE_CFG_ENV1 (41_frontend_commands R232). -/
def execFeSetVoiceCfgEnv1 (arg : Word) (s : State) : Host.Outcome State Fault Refusal :=
  runOp (paramWord 0x10 arg) s

/-- FE.SET_VOICE_CFG_ENVF (41_frontend_commands R233). -/
def execFeSetVoiceCfgEnvf (arg : Word) (s : State) : Host.Outcome State Fault Refusal :=
  runOp (paramWord 0x14 arg) s

/-- FE.SET_VOICE_CFG_MISC (41_frontend_commands R234). -/
def execFeSetVoiceCfgMisc (arg : Word) (s : State) : Host.Outcome State Fault Refusal :=
  runOp (paramField (vRelease .f) (field arg 0 12)) s

/-- FE.SET_VOICE_TAR_VOLA (41_frontend_commands R235). -/
def execFeSetVoiceTarVola (arg : Word) (s : State) : Host.Outcome State Fault Refusal :=
  runOp (paramWord 0x60 arg) s

/-- FE.SET_VOICE_TAR_VOLB (41_frontend_commands R236). -/
def execFeSetVoiceTarVolb (arg : Word) (s : State) : Host.Outcome State Fault Refusal :=
  runOp (paramWord 0x64 arg) s

/-- FE.SET_VOICE_TAR_VOLC (41_frontend_commands R237). -/
def execFeSetVoiceTarVolc (arg : Word) (s : State) : Host.Outcome State Fault Refusal :=
  runOp (paramWord 0x68 arg) s

/-- FE.SET_VOICE_TAR_LFO_ENV (41_frontend_commands R238). -/
def execFeSetVoiceTarLfoEnv (arg : Word) (s : State) : Host.Outcome State Fault Refusal :=
  runOp (paramField (vRelease .a) (field arg 0 12)) s

/-- FE.SET_VOICE_TAR_PITCH (41_frontend_commands R239). -/
def execFeSetVoiceTarPitch (arg : Word) (s : State) : Host.Outcome State Fault Refusal :=
  runOp (paramField vPitch (argStep arg)) s

/-- FE.SET_VOICE_CFG_BUF_BASE (41_frontend_commands R240). -/
def execFeSetVoiceCfgBufBase (arg : Word) (s : State) : Host.Outcome State Fault Refusal :=
  runOp (paramField vBa (argOffset arg)) s

/-- FE.SET_VOICE_CFG_BUF_LBO (41_frontend_commands R241). -/
def execFeSetVoiceCfgBufLbo (arg : Word) (s : State) : Host.Outcome State Fault Refusal :=
  runOp (paramField vLbo (argOffset arg)) s

/-- FE.SET_VOICE_BUF_CBO (41_frontend_commands R242). -/
def execFeSetVoiceBufCbo (arg : Word) (s : State) : Host.Outcome State Fault Refusal :=
  runOp (paramField vCbo (argOffset arg)) s

/-- FE.SET_VOICE_CFG_BUF_EBO (41_frontend_commands R243). -/
def execFeSetVoiceCfgBufEbo (arg : Word) (s : State) : Host.Outcome State Fault Refusal :=
  runOp (paramField vEbo (argOffset arg)) s

/-- FE.SET_CURRENT_INBUF_SGE (41_frontend_commands R244). -/
def execFeSetCurrentInbufSge (arg : Word) (s : State) : Host.Outcome State Fault Refusal :=
  runOp (feSetInbufSge arg) s

/-- FE.SET_CURRENT_INBUF_SGE_OFFSET (41_frontend_commands R245). -/
def execFeSetCurrentInbufSgeOffset (arg : Word) (s : State) : Host.Outcome State Fault Refusal :=
  runOp (entryWrite State.inbufSge arg) s

/-- FE.SET_CURRENT_OUTBUF_SGE (41_frontend_commands R246). -/
def execFeSetCurrentOutbufSge (arg : Word) (s : State) : Host.Outcome State Fault Refusal :=
  runOp (feSetOutbufSge arg) s

/-- FE.SET_CURRENT_OUTBUF_SGE_OFFSET (41_frontend_commands R247). -/
def execFeSetCurrentOutbufSgeOffset (arg : Word) (s : State) : Host.Outcome State Fault Refusal :=
  runOp (entryWrite State.outbufSge arg) s

/-- FE.SE2FE_IDLE_VOICE (41_frontend_commands R250). -/
def execFeSe2feIdleVoice (arg : Word) (s : State) : Host.Outcome State Fault Refusal :=
  runOp (feIdleVoice arg) s

/-- FE.UNKNOWN (R252): a method with no row is discarded: no state changes. -/
def execFeUnknown (_idx : BitVec 14) (_arg : Word) (s : State) : Host.Outcome State Fault Refusal :=
  runOp (pure ()) s

end Sys2Proof.Machine
end

