-- ==== Sys2Proof/Machine/Mmio.lean ====
section
/-! DEFINITION. The Host register operations (40_mmio_registers). -/

namespace Sys2Proof.Machine

/-! ## What the accesses do -/

/-- ISTS: write-1-to-clear and recompute (40_mmio_registers R184). -/
def accessIsts (a : Access) : Op Unit :=
  hostAccess (fun s => s.x.ists) (fun v => update (ackInterrupt v)) a

/-- IEN: store and recompute (40_mmio_registers R185). -/
def accessIen (a : Access) : Op Unit :=
  hostAccess (fun s => s.x.ien) (fun v => update fun s => updateIrq (s.setX { s.x with ien := v })) a

/-- What core `c`'s engine can depend on at a call (44_voice_walker_mixer R377; log 10). -/
def oracleView (c : Core) (budget : Nat) (s : State) : OracleView where
  fresh := s.oracle
  core := c
  budget := budget
  x := (s.dsp c).x
  y := (s.dsp c).y
  p := (s.dsp c).p
  dmaRegs := [(s.dma c).configuration, controlRead (s.dma c).control, (s.dma c).startBlock, (s.dma c).nextBlock]
  eol := (s.dma c).eol
  guest := s.mem
  tableBase := match c with
    | .gp => s.x.gpsaddr
    | .ep => s.x.epsaddr
  tableMax := match c with
    | .gp => s.x.gpsmaxsge
    | .ep => s.x.epsmaxsge

/-- One cell of core `c` as its engine leaves it; an index outside the space is no cell (20_memory R87). -/
def engineCell (c : Core) (s : State) (w : CellWrite) : State :=
  if w.index < spaceSize s.cfg w.space then s.dspWrite c w.space w.index w.value else s

/-- `DspReset(c)` or `DspBootstrap(c)`: "may change any cell of that core's X, Y, P memory and nothing else of this
spec's state" (40_mmio_registers R196; log 10). -/
def engineCall (answer : OracleView → List CellWrite) (c : Core) : Op Unit :=
  update fun s => (answer (oracleView c 0 s)).foldl (engineCell c) s.bumpOracle

/-- The reset register of core `c` (40_mmio_registers R196). -/
def accessRst (c : Core) (a : Access) : Op Unit :=
  hostAccess (fun s => s.rst c)
    (fun v => do
      let old ← reads fun s => s.rst c
      if released v = false then engineCall Config.dspReset c
      else if released old = false then engineCall Config.dspBootstrap c
      else pure ()
      update fun s => s.setRst c v) a

/-- The command port: a read returns 0, a write is the front-end command of its method (40_mmio_registers R194). -/
def accessPort (method : Nat) (a : Access) : Op Unit :=
  hostAccess (fun _ => 0) (feCommand method) a

/-- An unmapped offset: a read returns 0, a write changes nothing (40_mmio_registers R198). -/
def accessUnmapped (a : Access) : Op Unit :=
  hostAccess (fun _ => 0) (fun _ => pure ()) a

/-! ## The rows -/

/-- MMIO_ISTS (40_mmio_registers R184). -/
def execMmioIsts (a : Access) (s : State) : Host.Outcome State Fault Refusal :=
  runOp (accessIsts a) s

/-- MMIO_IEN (40_mmio_registers R185). -/
def execMmioIen (a : Access) (s : State) : Host.Outcome State Fault Refusal :=
  runOp (accessIen a) s

/-- MMIO_FECTL (40_mmio_registers R186). -/
def execMmioFectl (a : Access) (s : State) : Host.Outcome State Fault Refusal :=
  runOp (plainRegister (fun x => x.fectl) (fun x v => { x with fectl := v }) a) s

/-- MMIO_FECV (40_mmio_registers R182). -/
def execMmioFecv (a : Access) (s : State) : Host.Outcome State Fault Refusal :=
  runOp (plainRegister (fun x => x.fecv) (fun x v => { x with fecv := v }) a) s

/-- MMIO_FEAV (40_mmio_registers R182). -/
def execMmioFeav (a : Access) (s : State) : Host.Outcome State Fault Refusal :=
  runOp (plainRegister (fun x => x.feav) (fun x v => { x with feav := v }) a) s

/-- MMIO_FETFORCE1 (40_mmio_registers R182). -/
def execMmioFetforce1 (a : Access) (s : State) : Host.Outcome State Fault Refusal :=
  runOp (plainRegister (fun x => x.fetforce1) (fun x v => { x with fetforce1 := v }) a) s

/-- MMIO_SECTL (40_mmio_registers R187). -/
def execMmioSectl (a : Access) (s : State) : Host.Outcome State Fault Refusal :=
  runOp (plainRegister (fun x => x.sectl) (fun x v => { x with sectl := v }) a) s

/-- MMIO_VPVADDR (40_mmio_registers R189). -/
def execMmioVpvaddr (a : Access) (s : State) : Host.Outcome State Fault Refusal :=
  runOp (plainRegister (fun x => x.vpvaddr) (fun x v => { x with vpvaddr := v }) a) s

/-- MMIO_VPSGEADDR (40_mmio_registers R189). -/
def execMmioVpsgeaddr (a : Access) (s : State) : Host.Outcome State Fault Refusal :=
  runOp (plainRegister (fun x => x.vpsgeaddr) (fun x v => { x with vpsgeaddr := v }) a) s

/-- MMIO_GPSADDR (40_mmio_registers R189). -/
def execMmioGpsaddr (a : Access) (s : State) : Host.Outcome State Fault Refusal :=
  runOp (plainRegister (fun x => x.gpsaddr) (fun x v => { x with gpsaddr := v }) a) s

/-- MMIO_GPFADDR (40_mmio_registers R189). -/
def execMmioGpfaddr (a : Access) (s : State) : Host.Outcome State Fault Refusal :=
  runOp (plainRegister (fun x => x.gpfaddr) (fun x v => { x with gpfaddr := v }) a) s

/-- MMIO_EPSADDR (40_mmio_registers R189). -/
def execMmioEpsaddr (a : Access) (s : State) : Host.Outcome State Fault Refusal :=
  runOp (plainRegister (fun x => x.epsaddr) (fun x v => { x with epsaddr := v }) a) s

/-- MMIO_EPFADDR (40_mmio_registers R189). -/
def execMmioEpfaddr (a : Access) (s : State) : Host.Outcome State Fault Refusal :=
  runOp (plainRegister (fun x => x.epfaddr) (fun x v => { x with epfaddr := v }) a) s

/-- MMIO_TVL2D (40_mmio_registers R188). -/
def execMmioTvl2d (a : Access) (s : State) : Host.Outcome State Fault Refusal :=
  runOp (plainRegister (fun x => x.tvl2d) (fun x v => { x with tvl2d := v }) a) s

/-- MMIO_CVL2D (40_mmio_registers R188). -/
def execMmioCvl2d (a : Access) (s : State) : Host.Outcome State Fault Refusal :=
  runOp (plainRegister (fun x => x.cvl2d) (fun x v => { x with cvl2d := v }) a) s

/-- MMIO_NVL2D (40_mmio_registers R188). -/
def execMmioNvl2d (a : Access) (s : State) : Host.Outcome State Fault Refusal :=
  runOp (plainRegister (fun x => x.nvl2d) (fun x v => { x with nvl2d := v }) a) s

/-- MMIO_TVL3D (40_mmio_registers R188). -/
def execMmioTvl3d (a : Access) (s : State) : Host.Outcome State Fault Refusal :=
  runOp (plainRegister (fun x => x.tvl3d) (fun x v => { x with tvl3d := v }) a) s

/-- MMIO_CVL3D (40_mmio_registers R188). -/
def execMmioCvl3d (a : Access) (s : State) : Host.Outcome State Fault Refusal :=
  runOp (plainRegister (fun x => x.cvl3d) (fun x v => { x with cvl3d := v }) a) s

/-- MMIO_NVL3D (40_mmio_registers R188). -/
def execMmioNvl3d (a : Access) (s : State) : Host.Outcome State Fault Refusal :=
  runOp (plainRegister (fun x => x.nvl3d) (fun x v => { x with nvl3d := v }) a) s

/-- MMIO_TVLMP (40_mmio_registers R188). -/
def execMmioTvlmp (a : Access) (s : State) : Host.Outcome State Fault Refusal :=
  runOp (plainRegister (fun x => x.tvlmp) (fun x v => { x with tvlmp := v }) a) s

/-- MMIO_CVLMP (40_mmio_registers R188). -/
def execMmioCvlmp (a : Access) (s : State) : Host.Outcome State Fault Refusal :=
  runOp (plainRegister (fun x => x.cvlmp) (fun x v => { x with cvlmp := v }) a) s

/-- MMIO_NVLMP (40_mmio_registers R188). -/
def execMmioNvlmp (a : Access) (s : State) : Host.Outcome State Fault Refusal :=
  runOp (plainRegister (fun x => x.nvlmp) (fun x v => { x with nvlmp := v }) a) s

/-- MMIO_GPSMAXSGE (40_mmio_registers R189). -/
def execMmioGpsmaxsge (a : Access) (s : State) : Host.Outcome State Fault Refusal :=
  runOp (plainRegister (fun x => x.gpsmaxsge) (fun x v => { x with gpsmaxsge := v }) a) s

/-- MMIO_GPFMAXSGE (40_mmio_registers R189). -/
def execMmioGpfmaxsge (a : Access) (s : State) : Host.Outcome State Fault Refusal :=
  runOp (plainRegister (fun x => x.gpfmaxsge) (fun x v => { x with gpfmaxsge := v }) a) s

/-- MMIO_EPSMAXSGE (40_mmio_registers R189). -/
def execMmioEpsmaxsge (a : Access) (s : State) : Host.Outcome State Fault Refusal :=
  runOp (plainRegister (fun x => x.epsmaxsge) (fun x v => { x with epsmaxsge := v }) a) s

/-- MMIO_EPFMAXSGE (40_mmio_registers R189). -/
def execMmioEpfmaxsge (a : Access) (s : State) : Host.Outcome State Fault Refusal :=
  runOp (plainRegister (fun x => x.epfmaxsge) (fun x v => { x with epfmaxsge := v }) a) s

/-- MMIO_GPRST (40_mmio_registers R196). -/
def execMmioGprst (a : Access) (s : State) : Host.Outcome State Fault Refusal :=
  runOp (accessRst .gp a) s

/-- MMIO_EPRST (40_mmio_registers R196). -/
def execMmioEprst (a : Access) (s : State) : Host.Outcome State Fault Refusal :=
  runOp (accessRst .ep a) s

/-- MMIO_GP.X (40_mmio_registers R195). -/
def execMmioGpX (idx : BitVec 12) (a : Access) (s : State) : Host.Outcome State Fault Refusal :=
  runOp (cellAccess .gp .x (fun _ => idx.toNat) a) s

/-- MMIO_GP.MIXBUF (40_mmio_registers R195). -/
def execMmioGpMixbuf (idx : BitVec 10) (a : Access) (s : State) : Host.Outcome State Fault Refusal :=
  runOp (cellAccess .gp .x (fun s => s.cfg.mixbufBase + idx.toNat) a) s

/-- MMIO_GP.Y (40_mmio_registers R195). -/
def execMmioGpY (idx : BitVec 11) (a : Access) (s : State) : Host.Outcome State Fault Refusal :=
  runOp (cellAccess .gp .y (fun _ => idx.toNat) a) s

/-- MMIO_GP.P_lower_half (40_mmio_registers R195). -/
def execMmioGpPLower (idx : BitVec 11) (a : Access) (s : State) : Host.Outcome State Fault Refusal :=
  runOp (cellAccess .gp .p (fun _ => idx.toNat) a) s

/-- MMIO_GP.P_upper_half (40_mmio_registers R195). -/
def execMmioGpPUpper (idx : BitVec 11) (a : Access) (s : State) : Host.Outcome State Fault Refusal :=
  runOp (cellAccess .gp .p (fun _ => 0x800 + idx.toNat) a) s

/-- MMIO_EP.X (40_mmio_registers R195). -/
def execMmioEpX (idx : BitVec 12) (a : Access) (s : State) : Host.Outcome State Fault Refusal :=
  runOp (cellAccess .ep .x (fun _ => idx.toNat) a) s

/-- MMIO_EP.Y (40_mmio_registers R195). -/
def execMmioEpY (idx : BitVec 11) (a : Access) (s : State) : Host.Outcome State Fault Refusal :=
  runOp (cellAccess .ep .y (fun _ => idx.toNat) a) s

/-- MMIO_EP.P_lower_half (40_mmio_registers R195). -/
def execMmioEpPLower (idx : BitVec 11) (a : Access) (s : State) : Host.Outcome State Fault Refusal :=
  runOp (cellAccess .ep .p (fun _ => idx.toNat) a) s

/-- MMIO_EP.P_upper_half (40_mmio_registers R195). -/
def execMmioEpPUpper (idx : BitVec 11) (a : Access) (s : State) : Host.Outcome State Fault Refusal :=
  runOp (cellAccess .ep .p (fun _ => 0x800 + idx.toNat) a) s

/-- MMIO_CMDPORT (40_mmio_registers R194). -/
def execMmioCmdport (idx : BitVec 14) (a : Access) (s : State) : Host.Outcome State Fault Refusal :=
  runOp (accessPort (4 * idx.toNat) a) s

/-- MMIO_UNMAPPED (40_mmio_registers R198). -/
def execMmioUnmapped (_idx : BitVec 17) (a : Access) (s : State) : Host.Outcome State Fault Refusal :=
  runOp (accessUnmapped a) s

end Sys2Proof.Machine
end

