-- ==== Sys2Proof/Machine/Sample.lean ====
section
/-! DEFINITION. Sample position, fetch and decode (43_sample_fetch_decode): the resample rate, end and loop handling, PCM
and ADPCM, and the FMT rows of formats and loops. -/

namespace Sys2Proof.Machine

/-! ## Positions -/

/-- `E = pitch*255 + ps*32*f` (43_sample_fetch_decode R311). -/
def rateExponent (pitch ps : Int) (f : Nat) : Int := pitch * 255 + ps * 32 * f

/-- `floor(i * 2^k)` (43_sample_fetch_decode R311 (d)). -/
def scalePow (k : Int) (i : Nat) : Nat := if 0 ≤ k then i * 2 ^ k.toNat else i / 2 ^ (-k).toNat

/-- A free function with the properties (a), (b) and (e) of 43_sample_fetch_decode R311, and no other (log 9). -/
def freeOffset (pitch ps : Int) (f : Nat) : Nat → Nat
  | 0 => 0
  | i + 1 => min (512 * (i + 1)) (freeOffset pitch ps f i + Config.stepIncrement pitch ps f i)

/-- `StepOffset(pitch, ps, f, i)` (43_sample_fetch_decode R311): exact where the rate is a power of two, free elsewhere
(log 9). -/
def stepOffset (pitch ps : Int) (f i : Nat) : Nat :=
  let e := rateExponent pitch ps f
  if e % (255 * 4096) = 0 then scalePow (e / (255 * 4096)) i else freeOffset pitch ps f i

/-- What is read once at the start of a voice's frame (44_voice_walker_mixer R357), but for the slots. -/
structure VoiceCfg where
  container : Nat
  sampleSize : Nat
  stereo : Bool
  loop : Bool
  ba : Nat
  lbo : Nat
  ebo : Nat
  cbo : Nat
  pitch : Int
  pitchScale : Int
  deriving DecidableEq, Repr

/-- The fields of voice `h` read once (43_sample_fetch_decode R312). -/
def voiceCfg (s : State) (h : Handle) : VoiceCfg where
  container := voiceField s h vContainerSize
  sampleSize := voiceField s h vSampleSize
  stereo := voiceField s h vStereo = 1
  loop := voiceField s h vLoop = 1
  ba := voiceField s h vBa
  lbo := voiceField s h vLbo
  ebo := voiceField s h vEbo
  cbo := voiceField s h vCbo
  pitch := sext 16 (voiceField s h vPitch)
  pitchScale := sext 8 (voiceField s h vPitchScale)

/-- `Wrap(p)` (43_sample_fetch_decode R313); the remainder is the non-negative one (44_voice_walker_mixer R382 (e)). -/
def wrapPos (lbo ebo p : Nat) : Nat := lbo + (((p : Int) - lbo) % ((ebo : Int) - lbo + 1)).toNat

/-- The wrap of a position past the end of a looping voice (43_sample_fetch_decode R313, R318). -/
def loopPos (lbo ebo p : Nat) : Except FatalCode Nat :=
  if ebo < lbo then .error .voiceBadLoop else .ok (wrapPos lbo ebo p)

/-- End and loop handling of a position: none when a voice that does not loop is past its end (43_sample_fetch_decode
R313). -/
def resolvePos (loop : Bool) (lbo ebo p : Nat) : Except FatalCode (Option Nat) :=
  if p ≤ ebo then .ok (some p)
  else if loop then (loopPos lbo ebo p).map some
  else .ok none

/-- The end-of-frame value of `cbo`, before it is reduced to its field (43_sample_fetch_decode R318). -/
def endCbo (loop : Bool) (lbo ebo new : Nat) : Except FatalCode Nat :=
  if loop ∧ ebo < new then loopPos lbo ebo new else .ok new

/-! ## Formats -/

/-- The kind of a sample (43_sample_fetch_decode R319). -/
inductive SampleKind where
  /-- Container bytes `C` and sample bits `W`; `W = 8` is unsigned. -/
  | pcm (container width : Nat)
  | adpcm
  | illegal
  deriving DecidableEq, Repr

/-- Format classification by container and sample size (43_sample_fetch_decode R319). -/
def sampleKind (container sampleSize : Nat) : SampleKind :=
  match container, sampleSize with
  | 0, 0 => .pcm 1 8
  | 0, _ => .illegal
  | 1, 0 => .pcm 2 8
  | 1, 1 => .pcm 2 16
  | 1, _ => .illegal
  | 2, _ => .adpcm
  | _, 0 => .pcm 4 8
  | _, 1 => .pcm 4 16
  | _, 2 => .pcm 4 24
  | _, _ => .pcm 4 32

/-- The channels of a voice (43_sample_fetch_decode R319). -/
def channels (stereo : Bool) : Nat := if stereo then 2 else 1

/-! ## PCM -/

/-- The linear address of a container (43_sample_fetch_decode R320). -/
def pcmAddr (ba container nch p ch : Nat) : Word := BitVec.ofNat 32 (ba + p * container * nch + ch * container)

/-- PCM conversion: the low `W` bits, 8 bits unsigned with offset 128, others signed (43_sample_fetch_decode R322). -/
def pcmValue (width raw : Nat) : Int := if width = 8 then ((raw % 256 : Nat) : Int) - 128 else sext width raw

/-- The sample of frame `p`, channel `ch` (43_sample_fetch_decode R320 to R322). -/
def pcmSample (s : State) (container width ba nch p ch : Nat) : Except FatalCode Int :=
  (sgRead s .voice (pcmAddr ba container nch p ch) container).map (pcmValue width)

/-! ## ADPCM -/

/-- STEP_TABLE (43_sample_fetch_decode R330). -/
def stepTable : List Nat :=
  [7, 8, 9, 10, 11, 12, 13, 14, 16, 17, 19, 21, 23, 25, 28, 31, 34, 37, 41, 45, 50, 55, 60, 66, 73, 80, 88, 97, 107, 118,
    130, 143, 157, 173, 190, 209, 230, 253, 279, 307] ++
  [337, 371, 408, 449, 494, 544, 598, 658, 724, 796, 876, 963, 1060, 1166, 1282, 1411, 1552, 1707, 1878, 2066, 2272, 2499,
    2749, 3024, 3327, 3660, 4026, 4428, 4871, 5358] ++
  [5894, 6484, 7132, 7845, 8630, 9493, 10442, 11487, 12635, 13899, 15289, 16818, 18500, 20350, 22385, 24623, 27086, 29794,
    32767]

/-- INDEX_TABLE (43_sample_fetch_decode R329). -/
def indexTable (code : Nat) : Int :=
  match code with
  | 4 => 2
  | 5 => 4
  | 6 => 6
  | 7 => 8
  | _ => -1

/-- The magnitude of a code's delta at step size `step` (43_sample_fetch_decode R328). -/
def adpcmDelta (step c : Nat) : Nat :=
  step / 8 + (if c.testBit 0 then step / 4 else 0) + (if c.testBit 1 then step / 2 else 0) +
    (if c.testBit 2 then step else 0)

/-- One code with channel state (predictor, index) (43_sample_fetch_decode R328). -/
def adpcmCode (st : Int × Nat) (c : Nat) : Int × Nat :=
  let delta : Int := adpcmDelta (stepTable.getD st.2 0) c
  let signed := if c.testBit 3 then -delta else delta
  (max (-32768) (min (st.1 + signed) 32767), (max 0 (min ((st.2 : Int) + indexTable (c % 8)) 88)).toNat)

/-- The byte of a block at offset `n`. -/
def blockByte (bytes : List Byte) (n : Nat) : Nat := (bytes.getD n 0).toNat

/-- Predictor and step index of a channel's header (43_sample_fetch_decode R326). -/
def adpcmHeader (bytes : List Byte) (ch : Nat) : Int × Nat :=
  (sext 16 (blockByte bytes (4 * ch) + 256 * blockByte bytes (4 * ch + 1)), min (blockByte bytes (4 * ch + 2)) 88)

/-- The byte that holds code `n` of channel `ch` (43_sample_fetch_decode R327). -/
def codeOffset (nch ch n : Nat) : Nat := if nch = 1 then 4 + n / 2 else 8 + n / 8 * 8 + ch * 4 + n % 8 / 2

/-- Code `n` of channel `ch`: the low nibble is the earlier (43_sample_fetch_decode R327). -/
def blockCode (bytes : List Byte) (nch ch n : Nat) : Nat :=
  let b := blockByte bytes (codeOffset nch ch n)
  if n % 2 = 0 then b % 16 else b / 16

/-- The channel state after the header and the first `n` codes (43_sample_fetch_decode R331). -/
def adpcmState (bytes : List Byte) (nch ch : Nat) : Nat → Int × Nat
  | 0 => adpcmHeader bytes ch
  | n + 1 => adpcmCode (adpcmState bytes nch ch n) (blockCode bytes nch ch n)

/-- `AdpcmDecodeBlock(bytes, nch)[w][ch]` (43_sample_fetch_decode R331; log 19). -/
def adpcmSample (bytes : List Byte) (nch w ch : Nat) : Int := (adpcmState bytes nch ch w).1

/-- The linear address of the block of frame `p` (43_sample_fetch_decode R323). -/
def adpcmAddr (ba nch p : Nat) : Word :=
  BitVec.ofNat 32 (ba + p / Config.adpcmSamples * (Config.adpcmBytes * nch))

/-- The block of frame `p` (43_sample_fetch_decode R324). -/
def adpcmBlock (s : State) (ba nch p : Nat) : Except FatalCode (List Byte) :=
  sgReadBytes s .voice (adpcmAddr ba nch p) (Config.adpcmBytes * nch)

/-! ## The fetch -/

/-- The frame of samples one per channel that `f` gives, in channel order. -/
def framed (nch : Nat) (f : Nat → Except FatalCode Int) : Except FatalCode (List Int) :=
  match f 0 with
  | .error code => .error code
  | .ok x =>
    if nch = 1 then .ok [x]
    else
      match f 1 with
      | .error code => .error code
      | .ok y => .ok [x, y]

/-- `FetchFrame(h, p)` for a kind, base and channel count (43_sample_fetch_decode R333). -/
def fetchFrame (s : State) (k : SampleKind) (ba nch p : Nat) : Except FatalCode (List Int) :=
  match k with
  | .pcm container width => framed nch (pcmSample s container width ba nch p)
  | .adpcm =>
    match adpcmBlock s ba nch p with
    | .error code => .error code
    | .ok bytes => framed nch fun ch => .ok (adpcmSample bytes nch (p % Config.adpcmSamples) ch)
  | .illegal => .error .voiceBadFormat

/-! ## The parts run alone (log 2) -/

/-- The fetch of frame `p` of voice `h` in a given kind. -/
def fetchAlone (k : SampleKind) (h : Handle) (p : Word) : Op Unit := do
  checkHandle h
  let frame ← readsOrRaise fun s =>
    fetchFrame s k (voiceField s h vBa) (channels (voiceField s h vStereo = 1)) p.toNat
  update fun s => s.setSub { s.sub with frame := frame }

/-- A position past the end of a voice that does not loop clears `active` (43_sample_fetch_decode R313). -/
def stopVoice (h : Handle) : Op Unit := update fun s => s.setVoiceField h vActive 0

/-- The resolution of position `p` of voice `h`, looping or not. -/
def resolveAlone (loop : Bool) (h : Handle) (p : Word) : Op Unit := do
  checkHandle h
  let pos ← readsOrRaise fun s => resolvePos loop (voiceField s h vLbo) (voiceField s h vEbo) p.toNat
  if pos = none then stopVoice h else pure ()
  update fun s => s.setSub { s.sub with pos := pos }

/-! ## The rows -/

/-- FMT.PCM_B8_U8 (43_sample_fetch_decode R320 to R322). -/
def execFmtPcmB8U8 (h : Handle) (p : Word) (s : State) : Host.Outcome State Fault Refusal :=
  runOp (fetchAlone (.pcm 1 8) h p) s

/-- FMT.PCM_B16_U8 (43_sample_fetch_decode R320 to R322). -/
def execFmtPcmB16U8 (h : Handle) (p : Word) (s : State) : Host.Outcome State Fault Refusal :=
  runOp (fetchAlone (.pcm 2 8) h p) s

/-- FMT.PCM_B16_S16 (43_sample_fetch_decode R320 to R322). -/
def execFmtPcmB16S16 (h : Handle) (p : Word) (s : State) : Host.Outcome State Fault Refusal :=
  runOp (fetchAlone (.pcm 2 16) h p) s

/-- FMT.PCM_B32_U8 (43_sample_fetch_decode R320 to R322). -/
def execFmtPcmB32U8 (h : Handle) (p : Word) (s : State) : Host.Outcome State Fault Refusal :=
  runOp (fetchAlone (.pcm 4 8) h p) s

/-- FMT.PCM_B32_S16 (43_sample_fetch_decode R320 to R322). -/
def execFmtPcmB32S16 (h : Handle) (p : Word) (s : State) : Host.Outcome State Fault Refusal :=
  runOp (fetchAlone (.pcm 4 16) h p) s

/-- FMT.PCM_B32_S24 (43_sample_fetch_decode R320 to R322). -/
def execFmtPcmB32S24 (h : Handle) (p : Word) (s : State) : Host.Outcome State Fault Refusal :=
  runOp (fetchAlone (.pcm 4 24) h p) s

/-- FMT.PCM_B32_S32 (43_sample_fetch_decode R320 to R322). -/
def execFmtPcmB32S32 (h : Handle) (p : Word) (s : State) : Host.Outcome State Fault Refusal :=
  runOp (fetchAlone (.pcm 4 32) h p) s

/-- FMT.ADPCM (43_sample_fetch_decode R331); the sample size is ignored (R319). -/
def execFmtAdpcm (h : Handle) (p : Word) (_ss : BitVec 2) (s : State) : Host.Outcome State Fault Refusal :=
  runOp (fetchAlone .adpcm h p) s

/-- FMT.ILLEGAL_B8_S16 (43_sample_fetch_decode R319): the fatal is taken. -/
def execFmtIllegalB8S16 (h : Handle) (p : Word) (s : State) : Host.Outcome State Fault Refusal :=
  runOp (fetchAlone .illegal h p) s

/-- FMT.ILLEGAL_B8_S24 (43_sample_fetch_decode R319): the fatal is taken. -/
def execFmtIllegalB8S24 (h : Handle) (p : Word) (s : State) : Host.Outcome State Fault Refusal :=
  runOp (fetchAlone .illegal h p) s

/-- FMT.ILLEGAL_B8_S32 (43_sample_fetch_decode R319): the fatal is taken. -/
def execFmtIllegalB8S32 (h : Handle) (p : Word) (s : State) : Host.Outcome State Fault Refusal :=
  runOp (fetchAlone .illegal h p) s

/-- FMT.ILLEGAL_B16_S24 (43_sample_fetch_decode R319): the fatal is taken. -/
def execFmtIllegalB16S24 (h : Handle) (p : Word) (s : State) : Host.Outcome State Fault Refusal :=
  runOp (fetchAlone .illegal h p) s

/-- FMT.ILLEGAL_B16_S32 (43_sample_fetch_decode R319): the fatal is taken. -/
def execFmtIllegalB16S32 (h : Handle) (p : Word) (s : State) : Host.Outcome State Fault Refusal :=
  runOp (fetchAlone .illegal h p) s

/-- FMT.LOOP (43_sample_fetch_decode R313). -/
def execFmtLoop (h : Handle) (p : Word) (s : State) : Host.Outcome State Fault Refusal :=
  runOp (resolveAlone true h p) s

/-- FMT.ONESHOT (43_sample_fetch_decode R313). -/
def execFmtOneshot (h : Handle) (p : Word) (s : State) : Host.Outcome State Fault Refusal :=
  runOp (resolveAlone false h p) s

end Sys2Proof.Machine
end

