-- ==== Sys2Proof/Machine/Voice.lean ====
section
/-! DEFINITION. Mixing and the walker's visit of one voice (44_voice_walker_mixer R351 to R357, R368 to R371), and the
rows of channel count and voice flags. -/

namespace Sys2Proof.Machine

/-! ## Mixing -/

/-- `Contrib(s, la, v)`: exact product, one division toward zero (44_voice_walker_mixer R370). -/
def contrib (x : Int) (la v : Nat) : Int := Int.tdiv (x * la * (4095 - (v : Int))) (255 * 4095)

/-- `Acc(m, c)` in both modes of MIX_OVERFLOW (44_voice_walker_mixer R371). -/
def acc (mode : MixOverflow) (m : Word) (c : Int) : Word :=
  match mode with
  | .wrap => BitVec.ofInt 32 (m.toInt + c)
  | .saturate => BitVec.ofInt 32 (max (-2147483648) (min (m.toInt + c) 2147483647))

/-- The index of bin `b`, sample `i` (44_voice_walker_mixer R372). -/
def mixIndex (b i : Nat) : Nat := b * 32 + i

/-- A slot of a voice: its bin and its volume, read once at the start of its frame (44_voice_walker_mixer R357). -/
structure Slot where
  bin : Nat
  vol : Nat
  deriving DecidableEq, Repr

/-- The eight slots of voice `h`, in ascending `j`. -/
def slots (s : State) (h : Handle) : List Slot :=
  (List.range Config.numSlots).map fun j => ⟨voiceField s h (vBin j), voiceVolume s h j⟩

/-- The sample slot `j` takes (44_voice_walker_mixer R369). -/
def slotSample (frame : List Int) (nch j : Nat) : Int := frame.getD (j % nch) 0

/-- The slots of one sample lane from slot `j` on, in ascending order (44_voice_walker_mixer R357). -/
def mixSlots (mode : MixOverflow) (frame : List Int) (nch la i : Nat) : List Slot → Nat → Store 32 → Store 32
  | [], _, mix => mix
  | sl :: r, j, mix =>
    let k := mixIndex sl.bin i
    mixSlots mode frame nch la i r (j + 1)
      (mix.set k (acc mode (mix.get k) (contrib (slotSample frame nch j) la sl.vol)))

/-! ## One voice -/

/-- Sample lanes `i` to `i + n - 1` of a voice's frame (44_voice_walker_mixer R357): ascending, ended early by a voice
that stops (43_sample_fetch_decode R313). -/
def voiceLanes (h : Handle) (v : VoiceCfg) (sl : List Slot) (la lf : Nat) : Nat → Nat → Store 32 → Op (Store 32)
  | 0, _, mix => pure mix
  | n + 1, i, mix => do
    let pos ← readsOrRaise fun _ => resolvePos v.loop v.lbo v.ebo (v.cbo + stepOffset v.pitch v.pitchScale lf i)
    match pos with
    | none => do
      stopVoice h
      pure mix
    | some p => do
      let nch := channels v.stereo
      let frame ← readsOrRaise fun s => fetchFrame s (sampleKind v.container v.sampleSize) v.ba nch p
      let mode ← reads fun s => s.cfg.mixOverflow
      voiceLanes h v sl la lf n (i + 1) (mixSlots mode frame nch la i sl 0 mix)

/-- The end-of-frame update of `cbo` (43_sample_fetch_decode R318). -/
def updateCbo (h : Handle) (v : VoiceCfg) (lf : Nat) : Op Unit := do
  let new ← readsOrRaise fun _ =>
    endCbo v.loop v.lbo v.ebo (v.cbo + stepOffset v.pitch v.pitchScale lf Config.frameSamples)
  update fun s => s.setVoiceField h vCbo new

/-- `VoiceFrame(h, la, lf)` (44_voice_walker_mixer R357) on the bins `mix`. -/
def voiceFrame (h : Handle) (la lf : Nat) (mix : Store 32) : Op (Store 32) := do
  let v ← reads fun s => voiceCfg s h
  let sl ← reads fun s => slots s h
  let out ← voiceLanes h v sl la lf Config.frameSamples 0 mix
  updateCbo h v lf
  pure out

/-- The visit of an active voice: both envelopes, then its frame unless it is paused (44_voice_walker_mixer R353, R355,
R356). -/
def visitActive (h : Handle) (mix : Store 32) : Op (Store 32) := do
  let la ← envStep h .a
  let lf ← envStep h .f
  let paused ← readV h vPaused
  if paused = 0 then voiceFrame h la lf mix else pure mix

/-- The visit of an inactive voice: the idle notification (44_voice_walker_mixer R354). -/
def visitIdle (h : Handle) : Op Unit := feIdleVoice (handleWord h)

/-- The visit of voice `h` by its `active` flag (44_voice_walker_mixer R351). -/
def visit (h : Handle) (mix : Store 32) : Op (Store 32) := do
  let active ← readV h vActive
  if active = 0 then do
    visitIdle h
    pure mix
  else visitActive h mix

/-! ## The parts run alone (log 2) -/

/-- The bins kept for parts run alone with the fetched frame mixed into lane `i` of voice `h`, at the level its amplitude
envelope stored. -/
def mixedLane (stereo : Bool) (h : Handle) (i : Nat) (s : State) : Store 32 :=
  mixSlots s.cfg.mixOverflow s.sub.frame (channels stereo) (voiceField s h (vLevel .a)) i (slots s h) 0 s.sub.mix

/-- The mixing of the fetched frame into lane `i`. -/
def mixAlone (stereo : Bool) (h : Handle) (i : Nat) : Op Unit := do
  checkHandle h
  update fun s => s.setSub { s.sub with mix := mixedLane stereo h i s }

/-- The visit of an active voice on the bins kept for parts run alone. -/
def activeAlone (h : Handle) : Op Unit := do
  let mix ← reads fun s => s.sub.mix
  let out ← visitActive h mix
  update fun s => s.setSub { s.sub with mix := out }

/-- The notification of an inactive voice, whose record has been read. -/
def idleAlone (h : Handle) : Op Unit := do
  checkHandle h
  visitIdle h

/-- The visit of an active paused voice: the envelopes are stepped and nothing else happens. -/
def pausedAlone (h : Handle) : Op Unit := do
  let _ ← envStep h .a
  let _ ← envStep h .f
  pure ()

/-! ## The rows -/

/-- FMT.STEREO (44_voice_walker_mixer R369). -/
def execFmtStereo (h : Handle) (i : BitVec 5) (s : State) : Host.Outcome State Fault Refusal :=
  runOp (mixAlone true h i.toNat) s

/-- FMT.MONO (44_voice_walker_mixer R369). -/
def execFmtMono (h : Handle) (i : BitVec 5) (s : State) : Host.Outcome State Fault Refusal :=
  runOp (mixAlone false h i.toNat) s

/-- VOICE.ACTIVE (44_voice_walker_mixer R353). -/
def execVoiceActive (h : Handle) (s : State) : Host.Outcome State Fault Refusal :=
  runOp (activeAlone h) s

/-- VOICE.IDLE (44_voice_walker_mixer R354). -/
def execVoiceIdle (h : Handle) (s : State) : Host.Outcome State Fault Refusal :=
  runOp (idleAlone h) s

/-- VOICE.PAUSED (44_voice_walker_mixer R356). -/
def execVoicePaused (h : Handle) (s : State) : Host.Outcome State Fault Refusal :=
  runOp (pausedAlone h) s

end Sys2Proof.Machine
end

