-- ==== Sys2Proof/Machine/Tick.lean ====
section
/-! DEFINITION. The frame tick (44_voice_walker_mixer R350 to R352, R367 to R380): the three list passes, the mix-buffer
write and the DSP quanta. -/

namespace Sys2Proof.Machine

/-- The loop of `ListPass(L)`, bounded (44_voice_walker_mixer R351, R352, R359; log 12). -/
def listLoop (l : VoiceList) : Nat → Store 32 → Op (Store 32)
  | 0, mix => do
    let h ← reads fun s => argHandle (cvl s l)
    if h = Config.handleNil then pure mix else raise .listCycle
  | n + 1, mix => do
    let h ← reads fun s => argHandle (cvl s l)
    if h = Config.handleNil then pure mix
    else do
      let link ← readV h vLink
      update fun s => s.setNvl l (BitVec.ofNat 32 link)
      let out ← visit h mix
      update fun s => s.setCvl l (nvl s l)
      listLoop l n out

/-- `ListPass(L)` (44_voice_walker_mixer R351). -/
def listPass (l : VoiceList) (mix : Store 32) : Op (Store 32) := do
  update fun s => s.setCvl l (handleWord (argHandle (tvl s l)))
  let bound ← reads fun s => s.cfg.numVoices + 1
  listLoop l bound mix

/-- The mix-buffer write, bin by bin, ascending (44_voice_walker_mixer R372). -/
def mixWrite (mix : Store 32) (s : State) : State :=
  (List.range (Config.numBins * Config.frameSamples)).foldl
    (fun t k => t.dspWrite .gp .x (t.cfg.mixbufBase + k) (mix.get k)) s

/-- One act of core `c`'s program (44_voice_walker_mixer R377). -/
def dspAct (c : Core) (act : DspAct) : Op Unit :=
  match act with
  | .cell w => update fun s => engineCell c s w
  | .dmaRead r => accessDma c r .read
  | .dmaWrite r v => accessDma c r (.write v)

/-- A finite sequence of acts. -/
def dspActs (c : Core) : List DspAct → Op Unit
  | [] => pure ()
  | act :: r => do
    dspAct c act
    dspActs c r

/-- The instruction budget of a core's quantum (44_voice_walker_mixer R374; log 24). -/
def coreBudget (c : Core) : Nat :=
  match c with
  | .gp => Config.gpBudget
  | .ep => Config.epBudget

/-- `DspStartFrame(c)` then `DspRun(c, budget)`: any finite sequence of acts (44_voice_walker_mixer R377; log 10). -/
def dspQuantum (c : Core) : Op Unit := do
  let acts ← reads fun s => Config.dspQuantum (oracleView c (coreBudget c) s)
  update State.bumpOracle
  dspActs c acts

/-- The hand-off to a core, if both its resets are released (44_voice_walker_mixer R374). -/
def handOff (c : Core) : Op Unit := do
  let go ← reads fun s => released (s.rst c)
  if go then dspQuantum c else pure ()

/-- The body of `TICK` (44_voice_walker_mixer R367): the bins start at 0 (R368). -/
def tickBody : Op Unit := do
  let m1 ← listPass .l2d []
  let m2 ← listPass .l3d m1
  let m3 ← listPass .lmp m2
  update (mixWrite m3)
  handOff .gp
  handOff .ep

/-- A firing of FrameTick: nothing while frame processing is off (44_voice_walker_mixer R367; log 14). -/
def frameTick : Op Unit := do
  let on ← reads frameEnabled
  if on then tickBody else pure ()

/-- TICK (44_voice_walker_mixer R367). -/
def execTick (s : State) : Host.Outcome State Fault Refusal :=
  runOp frameTick s

end Sys2Proof.Machine
end

