-- ==== Sys2Proof/Machine/Translate.lean ====
section
/-! DEFINITION. The translator's row (20_memory R95). -/

namespace Sys2Proof.Machine

/-- A translation run alone: the address goes to no access (log 2). -/
def translateAlone (t : SgTable) (lin : Word) : Op Unit := do
  let addr ← readsOrRaise (translate · t lin)
  update fun s => s.setSub { s.sub with paddr := addr }

/-- SG.TRANSLATE (20_memory R95): the physical address of linear address `lin` through table `t`, or
`Fatal(SGE_RANGE)`. -/
def execSgTranslate (t : SgTable) (lin : Word) (s : State) : Host.Outcome State Fault Refusal :=
  runOp (translateAlone t lin) s

end Sys2Proof.Machine
end

