-- ==== Sys2Proof/Machine/Dispatch.lean ====
section
/-! DEFINITION. The meaning of every operation: one arm per row of the opcode table, each one call of a meaning. -/

namespace Sys2Proof.Machine

def exec (i : Instr) (s : State) : Host.Outcome State Fault Refusal :=
  match i with
  | .mmioIsts a => Sys2Proof.Machine.execMmioIsts a s
  | .mmioIen a => Sys2Proof.Machine.execMmioIen a s
  | .mmioFectl a => Sys2Proof.Machine.execMmioFectl a s
  | .mmioFecv a => Sys2Proof.Machine.execMmioFecv a s
  | .mmioFeav a => Sys2Proof.Machine.execMmioFeav a s
  | .mmioFetforce1 a => Sys2Proof.Machine.execMmioFetforce1 a s
  | .mmioSectl a => Sys2Proof.Machine.execMmioSectl a s
  | .mmioVpvaddr a => Sys2Proof.Machine.execMmioVpvaddr a s
  | .mmioVpsgeaddr a => Sys2Proof.Machine.execMmioVpsgeaddr a s
  | .mmioGpsaddr a => Sys2Proof.Machine.execMmioGpsaddr a s
  | .mmioGpfaddr a => Sys2Proof.Machine.execMmioGpfaddr a s
  | .mmioEpsaddr a => Sys2Proof.Machine.execMmioEpsaddr a s
  | .mmioEpfaddr a => Sys2Proof.Machine.execMmioEpfaddr a s
  | .mmioTvl2d a => Sys2Proof.Machine.execMmioTvl2d a s
  | .mmioCvl2d a => Sys2Proof.Machine.execMmioCvl2d a s
  | .mmioNvl2d a => Sys2Proof.Machine.execMmioNvl2d a s
  | .mmioTvl3d a => Sys2Proof.Machine.execMmioTvl3d a s
  | .mmioCvl3d a => Sys2Proof.Machine.execMmioCvl3d a s
  | .mmioNvl3d a => Sys2Proof.Machine.execMmioNvl3d a s
  | .mmioTvlmp a => Sys2Proof.Machine.execMmioTvlmp a s
  | .mmioCvlmp a => Sys2Proof.Machine.execMmioCvlmp a s
  | .mmioNvlmp a => Sys2Proof.Machine.execMmioNvlmp a s
  | .mmioGpsmaxsge a => Sys2Proof.Machine.execMmioGpsmaxsge a s
  | .mmioGpfmaxsge a => Sys2Proof.Machine.execMmioGpfmaxsge a s
  | .mmioEpsmaxsge a => Sys2Proof.Machine.execMmioEpsmaxsge a s
  | .mmioEpfmaxsge a => Sys2Proof.Machine.execMmioEpfmaxsge a s
  | .mmioGprst a => Sys2Proof.Machine.execMmioGprst a s
  | .mmioEprst a => Sys2Proof.Machine.execMmioEprst a s
  | .mmioGpX idx a => Sys2Proof.Machine.execMmioGpX idx a s
  | .mmioGpMixbuf idx a => Sys2Proof.Machine.execMmioGpMixbuf idx a s
  | .mmioGpY idx a => Sys2Proof.Machine.execMmioGpY idx a s
  | .mmioGpPLower idx a => Sys2Proof.Machine.execMmioGpPLower idx a s
  | .mmioGpPUpper idx a => Sys2Proof.Machine.execMmioGpPUpper idx a s
  | .mmioEpX idx a => Sys2Proof.Machine.execMmioEpX idx a s
  | .mmioEpY idx a => Sys2Proof.Machine.execMmioEpY idx a s
  | .mmioEpPLower idx a => Sys2Proof.Machine.execMmioEpPLower idx a s
  | .mmioEpPUpper idx a => Sys2Proof.Machine.execMmioEpPUpper idx a s
  | .mmioCmdport idx a => Sys2Proof.Machine.execMmioCmdport idx a s
  | .mmioUnmapped idx a => Sys2Proof.Machine.execMmioUnmapped idx a s
  | .feSetAntecedentVoice arg => Sys2Proof.Machine.execFeSetAntecedentVoice arg s
  | .feVoiceOn arg => Sys2Proof.Machine.execFeVoiceOn arg s
  | .feVoiceOff arg => Sys2Proof.Machine.execFeVoiceOff arg s
  | .feVoicePause arg => Sys2Proof.Machine.execFeVoicePause arg s
  | .feSetCurrentVoice arg => Sys2Proof.Machine.execFeSetCurrentVoice arg s
  | .feSetVoiceCfgVbin arg => Sys2Proof.Machine.execFeSetVoiceCfgVbin arg s
  | .feSetVoiceCfgFmt arg => Sys2Proof.Machine.execFeSetVoiceCfgFmt arg s
  | .feSetVoiceCfgEnv0 arg => Sys2Proof.Machine.execFeSetVoiceCfgEnv0 arg s
  | .feSetVoiceCfgEnva arg => Sys2Proof.Machine.execFeSetVoiceCfgEnva arg s
  | .feSetVoiceCfgEnv1 arg => Sys2Proof.Machine.execFeSetVoiceCfgEnv1 arg s
  | .feSetVoiceCfgEnvf arg => Sys2Proof.Machine.execFeSetVoiceCfgEnvf arg s
  | .feSetVoiceCfgMisc arg => Sys2Proof.Machine.execFeSetVoiceCfgMisc arg s
  | .feSetVoiceTarVola arg => Sys2Proof.Machine.execFeSetVoiceTarVola arg s
  | .feSetVoiceTarVolb arg => Sys2Proof.Machine.execFeSetVoiceTarVolb arg s
  | .feSetVoiceTarVolc arg => Sys2Proof.Machine.execFeSetVoiceTarVolc arg s
  | .feSetVoiceTarLfoEnv arg => Sys2Proof.Machine.execFeSetVoiceTarLfoEnv arg s
  | .feSetVoiceTarPitch arg => Sys2Proof.Machine.execFeSetVoiceTarPitch arg s
  | .feSetVoiceCfgBufBase arg => Sys2Proof.Machine.execFeSetVoiceCfgBufBase arg s
  | .feSetVoiceCfgBufLbo arg => Sys2Proof.Machine.execFeSetVoiceCfgBufLbo arg s
  | .feSetVoiceBufCbo arg => Sys2Proof.Machine.execFeSetVoiceBufCbo arg s
  | .feSetVoiceCfgBufEbo arg => Sys2Proof.Machine.execFeSetVoiceCfgBufEbo arg s
  | .feSetCurrentInbufSge arg => Sys2Proof.Machine.execFeSetCurrentInbufSge arg s
  | .feSetCurrentInbufSgeOffset arg => Sys2Proof.Machine.execFeSetCurrentInbufSgeOffset arg s
  | .feSetCurrentOutbufSge arg => Sys2Proof.Machine.execFeSetCurrentOutbufSge arg s
  | .feSetCurrentOutbufSgeOffset arg => Sys2Proof.Machine.execFeSetCurrentOutbufSgeOffset arg s
  | .feSe2feIdleVoice arg => Sys2Proof.Machine.execFeSe2feIdleVoice arg s
  | .feUnknown idx arg => Sys2Proof.Machine.execFeUnknown idx arg s
  | .dmaConfiguration c a => Sys2Proof.Machine.execDmaConfiguration c a s
  | .dmaControl c a => Sys2Proof.Machine.execDmaControl c a s
  | .dmaStartBlock c a => Sys2Proof.Machine.execDmaStartBlock c a s
  | .dmaNextBlock c a => Sys2Proof.Machine.execDmaNextBlock c a s
  | .dmaActNop c rest => Sys2Proof.Machine.execDmaActNop c rest s
  | .dmaActStart c rest => Sys2Proof.Machine.execDmaActStart c rest s
  | .dmaActStop c rest => Sys2Proof.Machine.execDmaActStop c rest s
  | .dmaActFreeze c rest => Sys2Proof.Machine.execDmaActFreeze c rest s
  | .dmaActUnfreeze c rest => Sys2Proof.Machine.execDmaActUnfreeze c rest s
  | .dmaActAbort c rest => Sys2Proof.Machine.execDmaActAbort c rest s
  | .dmaActReserved6 c rest => Sys2Proof.Machine.execDmaActReserved6 c rest s
  | .dmaActReserved7 c rest => Sys2Proof.Machine.execDmaActReserved7 c rest s
  | .descFormat0 c => Sys2Proof.Machine.execDescFormat0 c s
  | .descFormat1 c => Sys2Proof.Machine.execDescFormat1 c s
  | .descFormat2 c => Sys2Proof.Machine.execDescFormat2 c s
  | .descFormat3 c => Sys2Proof.Machine.execDescFormat3 c s
  | .descFormat4 c => Sys2Proof.Machine.execDescFormat4 c s
  | .descFormat5 c => Sys2Proof.Machine.execDescFormat5 c s
  | .descFormat6 c => Sys2Proof.Machine.execDescFormat6 c s
  | .descFormat7 c => Sys2Proof.Machine.execDescFormat7 c s
  | .descBufCircular c => Sys2Proof.Machine.execDescBufCircular c s
  | .descBufOffset c bufId => Sys2Proof.Machine.execDescBufOffset c bufId s
  | .descDirDspToScratch c => Sys2Proof.Machine.execDescDirDspToScratch c s
  | .descDirScratchToDsp c => Sys2Proof.Machine.execDescDirScratchToDsp c s
  | .descPtrEol c addr => Sys2Proof.Machine.execDescPtrEol c addr s
  | .descPtrBlock c addr => Sys2Proof.Machine.execDescPtrBlock c addr s
  | .envOff h e => Sys2Proof.Machine.execEnvOff h e s
  | .envDelay h e => Sys2Proof.Machine.execEnvDelay h e s
  | .envAttack h e => Sys2Proof.Machine.execEnvAttack h e s
  | .envHold h e => Sys2Proof.Machine.execEnvHold h e s
  | .envDecay h e => Sys2Proof.Machine.execEnvDecay h e s
  | .envSustain h e => Sys2Proof.Machine.execEnvSustain h e s
  | .envRelease h e => Sys2Proof.Machine.execEnvRelease h e s
  | .envForceRelease h e => Sys2Proof.Machine.execEnvForceRelease h e s
  | .envBadState h e low => Sys2Proof.Machine.execEnvBadState h e low s
  | .fmtPcmB8U8 h p => Sys2Proof.Machine.execFmtPcmB8U8 h p s
  | .fmtPcmB16U8 h p => Sys2Proof.Machine.execFmtPcmB16U8 h p s
  | .fmtPcmB16S16 h p => Sys2Proof.Machine.execFmtPcmB16S16 h p s
  | .fmtPcmB32U8 h p => Sys2Proof.Machine.execFmtPcmB32U8 h p s
  | .fmtPcmB32S16 h p => Sys2Proof.Machine.execFmtPcmB32S16 h p s
  | .fmtPcmB32S24 h p => Sys2Proof.Machine.execFmtPcmB32S24 h p s
  | .fmtPcmB32S32 h p => Sys2Proof.Machine.execFmtPcmB32S32 h p s
  | .fmtAdpcm h p ss => Sys2Proof.Machine.execFmtAdpcm h p ss s
  | .fmtIllegalB8S16 h p => Sys2Proof.Machine.execFmtIllegalB8S16 h p s
  | .fmtIllegalB8S24 h p => Sys2Proof.Machine.execFmtIllegalB8S24 h p s
  | .fmtIllegalB8S32 h p => Sys2Proof.Machine.execFmtIllegalB8S32 h p s
  | .fmtIllegalB16S24 h p => Sys2Proof.Machine.execFmtIllegalB16S24 h p s
  | .fmtIllegalB16S32 h p => Sys2Proof.Machine.execFmtIllegalB16S32 h p s
  | .fmtStereo h sample => Sys2Proof.Machine.execFmtStereo h sample s
  | .fmtMono h sample => Sys2Proof.Machine.execFmtMono h sample s
  | .fmtLoop h p => Sys2Proof.Machine.execFmtLoop h p s
  | .fmtOneshot h p => Sys2Proof.Machine.execFmtOneshot h p s
  | .voiceActive h => Sys2Proof.Machine.execVoiceActive h s
  | .voiceIdle h => Sys2Proof.Machine.execVoiceIdle h s
  | .voicePaused h => Sys2Proof.Machine.execVoicePaused h s
  | .tick => Sys2Proof.Machine.execTick s
  | .sgTranslate t lin => Sys2Proof.Machine.execSgTranslate t lin s

end Sys2Proof.Machine
end

