-- ==== Sys2Proof/Machine/Step.lean ====
section
/-! DEFINITION. One step: the next input is taken and run (log 1). -/

namespace Sys2Proof.Machine

/-- One step of the machine. With nothing to come the block does nothing by itself (70_reset_and_hazards R483). -/
def step (s : State) : Host.Outcome State Fault Refusal :=
  match fetch s with
  | none => .next s
  | some (.op w, t) =>
    match decode w with
    | .ok i => exec i t
    | .error why => .refused (.undecoded why)
  | some (.hostStore addr width v, t) => .next (hostStore addr width v t)
  | some (.hostLoad addr width, t) => .next (hostLoad addr width t)

/-- The state whose next step fetches and runs the operation a bare word of the opcode table is presented as (log 1,
log 3). -/
def State.withFetchWord (s : State) (nbits w : Nat) : State := s.present (.op (tableOp nbits w))

end Sys2Proof.Machine
end

