-- ==== Sys2Proof/Safety.lean ====
section
/-! DEFINITION. What counts as a good state, a prepared structure and a safe run, in the terms the statements use. -/

namespace Sys2Proof.Machine

/-- The interrupt line and GINTSTS agree with the formula (60_exceptions R452: "the invariant ... holds in every
reachable state"). -/
abbrev State.IrqOk (s : State) : Prop :=
  s.irq = irqLevel s.x.ists s.x.ien ∧ s.x.ists.getLsbD 0 = s.irq

/-- CONTROL is one of the four values a read can show (45_dma_engine R397). -/
abbrev DmaRegs.ControlOk (d : DmaRegs) : Prop :=
  d.control = 0x20 ∨ d.control = 0x10 ∨ d.control = 0x18 ∨ d.control = 0x28

/-- The three spaces of a core are in canonical form. -/
abbrev DspMem.Canonical (d : DspMem) : Prop :=
  d.x.wf = true ∧ d.y.wf = true ∧ d.p.wf = true

/-- Every memory of the state is in canonical form. -/
abbrev State.Canonical (s : State) : Prop :=
  s.mem.wf = true ∧ s.dspGp.Canonical ∧ s.dspEp.Canonical ∧ s.sub.mix.wf = true

/-- The invariant of the block that every step keeps. -/
abbrev State.Good (s : State) : Prop :=
  s.IrqOk ∧ s.dmaGp.ControlOk ∧ s.dmaEp.ControlOk ∧ s.Canonical

/-- The inputs that agents of the spec's block fire on their own, and the Host's memory accesses: no row of a
sub-operation run alone (00_scope R8; log 2). -/
def Input.agents (i : Input) : Bool :=
  match i with
  | .op (.mmio _ _ _) => true
  | .op (.dma _ _ _) => true
  | .op .tick => true
  | .op _ => false
  | .hostStore _ _ _ => true
  | .hostLoad _ _ => true

/-- A state whose whole future is the block's own agents and the Host. -/
def State.AgentsOnly (s : State) : Bool := s.pending.all Input.agents

/-- A safe run of `k` steps: no fault, no refusal, and the block still runs at its end. -/
def SafeRun (k : Nat) (s : State) : Prop :=
  match Host.Core.run ⟨State, Fault, Refusal, step, State.reset⟩ k s with
  | .next t => t.halt = .running
  | .fault _ => False
  | .refused _ => False

/-! ## Voice records -/

/-- Two fields of the record stand apart: in different words, or at different bits of one word. -/
abbrev VField.apart (f g : VField) : Prop :=
  g.lo + g.len ≤ 32 ∧ f.off < 128 ∧ g.off < 128 ∧
  (g.off + 4 ≤ f.off ∨ f.off + 4 ≤ g.off ∨ (g.off = f.off ∧ (g.lo + g.len ≤ f.lo ∨ f.lo + f.len ≤ g.lo)))

/-- An address outside the word at byte offset `off` of voice `h`. -/
abbrev outsideWord (s : State) (h : Handle) (off : Nat) (a : Word) : Prop := 4 ≤ (a - voiceWordAddr s h off).toNat

/-- From `s` to `t` cell `i` of space `sp` of core `c` took `v` reduced to the cell's width, and nothing else changed: no
other cell of either core, no other part of the state (20_memory R87). -/
def CellWritten (s t : State) (c : Core) (sp : Space) (i : Nat) (v : Word) : Prop :=
  (∀ d sq j, dspRead t d sq j =
    if d = c ∧ sq = sp ∧ j = i then BitVec.ofNat 32 (v.toNat % 2 ^ s.cfg.cellBits) else dspRead s d sq j) ∧
  { t with dspGp := s.dspGp, dspEp := s.dspEp } = s

/-- From `s` to `t` only guest memory may change. -/
abbrev State.OnlyMem (s t : State) : Prop := { t with mem := s.mem } = s

/-- From `s` to `t` only guest memory and the values of parts run alone may change. -/
abbrev State.OnlyMemSub (s t : State) : Prop := { t with mem := s.mem, sub := s.sub } = s

/-- From `s` to `t` the envelope `e` of voice `h` was written, its level returned, `active` cleared if `ends`, and nothing
else happened: no other field of the record, no other byte, no register changed. -/
def EnvWritten (s t : State) (h : Handle) (e : Env) (count level state : Nat) (ends : Bool) : Prop :=
  voiceField t h (vCount e) = count ∧ voiceField t h (vLevel e) = level ∧ voiceField t h (vState e) = state ∧
  voiceField t h vActive = (if ends then 0 else voiceField s h vActive) ∧
  t.sub = { s.sub with level := level } ∧ s.OnlyMemSub t ∧
  (∀ g : VField, (vCount e).apart g → (vLevel e).apart g → (vState e).apart g → vActive.apart g →
    voiceField t h g = voiceField s h g) ∧
  (∀ a, outsideWord s h (vCount e).off a → outsideWord s h (vLevel e).off a → outsideWord s h 0x54 a →
    memByte t.mem a = memByte s.mem a)

/-- `n` runs of one operation, one after the other. -/
def execTimes (i : Instr) : Nat → State → Host.Outcome State Fault Refusal
  | 0, s => .next s
  | n + 1, s =>
    match exec i s with
    | .next t => execTimes i n t
    | .fault r => .fault r
    | .refused r => .refused r

/-! ## Numbers, samples and lanes -/

/-- The little-endian number of `n` bytes: byte `k` counts `256 ^ k` (20_memory R82). -/
def littleEndian (n : Nat) (byte : Nat → Byte) : Nat :=
  ((List.range n).map fun k => (byte k).toNat * 256 ^ k).sum

/-- Code `n` of channel `ch` in a block of bytes `b`: the low nibble of its byte is the earlier code
(43_sample_fetch_decode R327). -/
def adpcmNibble (b : Nat → Nat) (nch ch n : Nat) : Nat :=
  (if nch = 1 then b (4 + n / 2) else b (8 + n / 8 * 8 + ch * 4 + n % 8 / 2)) / (if n % 2 = 0 then 1 else 16) % 16

/-- The channel states of a block of bytes `b`, as the rules give them: `pred n` and `index n` after the header and the
first `n` codes (43_sample_fetch_decode R326 to R331). -/
def AdpcmChannel (b : Nat → Nat) (nch ch : Nat) (pred index : Nat → Int) : Prop :=
  (pred 0 = if b (4 * ch + 1) < 128 then (b (4 * ch) + 256 * b (4 * ch + 1) : Int)
    else (b (4 * ch) + 256 * b (4 * ch + 1) : Int) - 65536) ∧
  index 0 = min (b (4 * ch + 2)) 88 ∧
  ∀ n, n < 64 → ∀ c step delta : Nat, c = adpcmNibble b nch ch n → step = stepTable.getD (index n).toNat 0 →
    delta = step / 8 + (if c % 2 = 1 then step / 4 else 0) + (if c / 2 % 2 = 1 then step / 2 else 0) +
      (if c / 4 % 2 = 1 then step else 0) →
    pred (n + 1) = max (-32768) (min (pred n + if c / 8 = 1 then -(delta : Int) else delta) 32767) ∧
    index (n + 1) = max 0 (min (index n + if c % 8 < 4 then -1 else 2 * (c % 8 : Int) - 6) 88)

/-- The value of bin `b` in a lane of voice `h` that held `m`: its slots in ascending order, each adding its contribution
to the bin it names (44_voice_walker_mixer R357, R369). -/
def laneBin (s : State) (h : Handle) (la : Nat) (frame : List Int) (nch b : Nat) (m : Word) : Word :=
  (List.range 8).foldl (fun m j => if voiceField s h (vBin j) = b then
    acc s.cfg.mixOverflow m (contrib (frame.getD (j % nch) 0) la (voiceVolume s h j)) else m) m

/-- Position `q` is what the sum `p` of a voice resolves to: itself up to the end, wrapped past it into a loop that does not
end before it begins (43_sample_fetch_decode R313). -/
def Resolves (s : State) (h : Handle) (p q : Nat) : Prop :=
  (p ≤ voiceField s h vEbo ∧ q = p) ∨
  (voiceField s h vEbo < p ∧ voiceField s h vLoop = 1 ∧ voiceField s h vLbo ≤ voiceField s h vEbo ∧
    q = voiceField s h vLbo + (p - voiceField s h vLbo) % (voiceField s h vEbo - voiceField s h vLbo + 1))

/-- The sum `cbo + StepOffset` of sample `i` of a voice's frame, at filter level `lf` (43_sample_fetch_decode R312). -/
def framePosition (s : State) (h : Handle) (lf i : Nat) : Nat :=
  voiceField s h vCbo +
    stepOffset (sext 16 (voiceField s h vPitch)) (sext 8 (voiceField s h vPitchScale)) lf i

/-! ## Visits by their rows -/

/-- The row that steps envelope `e` of voice `h`, by the state it is in (42_envelope R281). -/
def envRow (s : State) (h : Handle) (e : Env) : Instr := decodeEnv h e (BitVec.ofNat 4 (voiceField s h (vState e)))

/-- The row that fetches position `q` of voice `h`, by its format (43_sample_fetch_decode R319). -/
def fetchRow (s : State) (h : Handle) (q : Nat) : Instr := decodeFmt h (BitVec.ofNat 32 q) (voiceWord s h 0x04)

/-- The first `n` lanes of the frame of voice `h` are fetched, lane `k` as `frame k`, each at its resolved position; `w` is
`s` after both envelope steps (44_voice_walker_mixer R357, 43_sample_fetch_decode R312, R313). -/
def LanesFetched (s w : State) (h : Handle) (n : Nat) (frame : Nat → List Int) : Prop :=
  n ≤ 32 ∧ ∀ k, k < n → ∃ q v, Resolves s h (framePosition s h (voiceField w h (vLevel .f)) k) q ∧
    exec (fetchRow s h q) w = .next v ∧ v.halt = .running ∧ v.sub.frame = frame k

/-- The lanes end before lane `n`: all 32 are done, or a voice that does not loop is past its end
(43_sample_fetch_decode R313). -/
def LanesEnd (s w : State) (h : Handle) (n : Nat) : Prop :=
  n = 32 ∨ (n < 32 ∧ voiceField s h vLoop = 0 ∧
    voiceField s h vEbo < framePosition s h (voiceField w h (vLevel .f)) n)

/-- The end-of-frame position: the sum of 32 samples, resolved in a voice that loops (43_sample_fetch_decode R318). -/
def NewCbo (s w : State) (h : Handle) (q : Nat) : Prop :=
  if voiceField s h vLoop = 0 then q = framePosition s h (voiceField w h (vLevel .f)) 32
  else Resolves s h (framePosition s h (voiceField w h (vLevel .f)) 32) q

/-- `t` is `w` after a frame of `n` lanes of voice `h` that began on the bins of `s`: `cbo` is `q`, `active` is cleared if a
lane was missing, the lanes gained their contributions at the stored level, and nothing else happened
(44_voice_walker_mixer R357, R369, 43_sample_fetch_decode R313, R318). -/
def FrameEnded (s w t : State) (h : Handle) (n q : Nat) (frame : Nat → List Int) : Prop :=
  { t with mem := s.mem, sub := s.sub } = s ∧ { t.sub with mix := s.sub.mix } = s.sub ∧
  voiceField t h vCbo = q % 2 ^ 24 ∧ voiceField t h vActive = (if n = 32 then voiceField w h vActive else 0) ∧
  (∀ g : VField, vCbo.apart g → vActive.apart g → voiceField t h g = voiceField w h g) ∧
  (∀ a, outsideWord s h 0x58 a → (n < 32 → outsideWord s h 0x54 a) → memByte t.mem a = memByte w.mem a) ∧
  ∀ b k, b < 32 → k < 32 → t.sub.mix.get (b * 32 + k) = if k < n then
    laneBin s h (voiceField w h (vLevel .a)) (frame k) (if voiceField s h vStereo = 1 then 2 else 1) b
      (s.sub.mix.get (b * 32 + k))
    else s.sub.mix.get (b * 32 + k)

/-! ## Walks -/

/-- The row a voice's visit begins with, by its `active` flag (44_voice_walker_mixer R351, R353, R354). -/
def visitRow (s : State) (h : Handle) : Instr := if voiceField s h vActive = 0 then .voiceIdle h else .voiceActive h

/-- The visits of some voices, one after the other (44_voice_walker_mixer R351). -/
def visits : List Handle → State → Host.Outcome State Fault Refusal
  | [], s => .next s
  | h :: r, s =>
    match exec (visitRow s h) s with
    | .next t => visits r t
    | .fault why => .fault why
    | .refused why => .refused why

/-- The lists walked before a list (44_voice_walker_mixer R350). -/
def listsBefore (l : VoiceList) : List VoiceList :=
  match l with
  | .l2d => []
  | .l3d => [.l2d]
  | .lmp => [.l2d, .l3d]

/-- `t` with the bins and the other kept values, the list registers and the halt record of `s`: what a walk is compared by
(44_voice_walker_mixer R351, R352). -/
def State.asWalked (t s : State) : State :=
  { t with halt := s.halt, sub := s.sub, x := { t.x with
    cvl2d := s.x.cvl2d, nvl2d := s.x.nvl2d, cvl3d := s.x.cvl3d, nvl3d := s.x.nvl3d, cvlmp := s.x.cvlmp,
    nvlmp := s.x.nvlmp } }

/-- Some rows, one after the other, up to one that halts the block. -/
def execRows : List Instr → State → Host.Outcome State Fault Refusal
  | [], s => .next s
  | i :: r, s =>
    match exec i s with
    | .next t => if t.halt = .running then execRows r t else .next t
    | .fault why => .fault why
    | .refused why => .refused why

/-- The rows of a descriptor's body, by its control word: format, buffer, direction (45_dma_engine R404, 60_exceptions
R444 (c)). -/
def bodyRows (c : Core) (control : Word) : List Instr :=
  [decodeFormat c control,
    if field control 5 4 = 0xE then .descBufCircular c else .descBufOffset c (control.extractLsb' 5 4),
    if control.getLsbD 1 then .descDirDspToScratch c else .descDirScratchToDsp c]

/-- One descriptor of a walk by its rows: the block pointer in NEXT_BLOCK, then the body of the descriptor read
(45_dma_engine R404, R410). -/
def descriptorRows (c : Core) (s : State) : Host.Outcome State Fault Refusal :=
  match exec (.descPtrBlock c ((s.dma c).nextBlock.extractLsb' 0 14)) s with
  | .next t => if t.halt = .running then execRows (bodyRows c (t.walk c).desc.control) t else .next t
  | .fault why => .fault why
  | .refused why => .refused why

/-- The rows of `n` descriptors, at pointers without the EOL bit, lead from `s` to `t` (45_dma_engine R404). -/
def WalksTo (c : Core) : Nat → State → State → Prop
  | 0, s, t => t = s
  | n + 1, s, t => ptrEol (s.dma c).nextBlock = false ∧
    ∃ u, descriptorRows c s = .next u ∧ u.halt = .running ∧ WalksTo c n u t

/-- From `s` to `t` nothing changed but what the quanta of released cores can reach and the halt record: guest memory, the
cores' cells and engines, and the model's datum and counter (44_voice_walker_mixer R377). -/
abbrev State.OnlyEngines (s t : State) : Prop :=
  { t with halt := s.halt, mem := s.mem, dspGp := s.dspGp, dspEp := s.dspEp, dmaGp := s.dmaGp, dmaEp := s.dmaEp,
           dspData := s.dspData, oracle := s.oracle } = s

/-! ## Prepared structures -/

/-- A table whose maximum is the largest covers every linear address: no translation of it can be out of range (20_memory
R95). -/
abbrev fullTable (s : State) (t : SgTable) : Prop := 0xFFFFFFFF ≤ (sgTable s t).2

/-- A format with a kind (43_sample_fetch_decode R319). -/
abbrev legalFormat (s : State) (h : Handle) : Prop :=
  sampleKind (voiceField s h vContainerSize) (voiceField s h vSampleSize) ≠ .illegal

/-- Both envelopes of voice `h` are in a state with a step (42_envelope R294, R295). -/
abbrev steppable (s : State) (h : Handle) : Prop := voiceField s h (vState .a) < 7 ∧ voiceField s h (vState .f) < 7

/-- A voice a tick can visit without a fatal: inactive; or active with steppable envelopes and, unless paused, a legal
format and a loop that does not end before it begins (60_exceptions R444). -/
abbrev VoiceReady (s : State) (h : Handle) : Prop :=
  h.toNat < s.cfg.numVoices ∧
  (voiceField s h vActive = 0 ∨
    (steppable s h ∧ (voiceField s h vPaused = 1 ∨
      (legalFormat s h ∧ (voiceField s h vLoop = 0 ∨ voiceField s h vLbo ≤ voiceField s h vEbo)))))

/-- The list that begins at handle `h` leads, past the voices given in order, to handle `last` (44_voice_walker_mixer
R351). -/
def LinkedTo (s : State) (h last : Handle) : List Handle → Prop
  | [] => h = last
  | k :: r => h = k ∧ h ≠ Config.handleNil ∧ LinkedTo s (BitVec.ofNat 16 (voiceField s h vLink)) last r

/-- The list that begins at handle `h`: its voices in order, ended by the terminator (44_voice_walker_mixer R351). -/
abbrev Linked (s : State) (h : Handle) (l : List Handle) : Prop := LinkedTo s h Config.handleNil l

/-- The chain that begins at pointer `ptr` and ends at the EOL pointer `last`: its descriptors in order (45_dma_engine
R404, R406). -/
def ChainTo (s : State) (c : Core) (last : Word) (ptr : Word) : List Descriptor → Prop
  | [] => ptr = last ∧ ptrEol ptr = true
  | d :: r => ptrEol ptr = false ∧ ptrAddr ptr + 6 < s.cfg.xSize ∧ descriptorAt s c (ptrAddr ptr) = d ∧
    ChainTo s c last d.next r

/-- The item size of a descriptor's format, 0 where it has none (45_dma_engine R412). -/
def descriptorItem (d : Descriptor) : Nat :=
  match field d.control 10 3 with
  | 1 => 2
  | 2 => 4
  | 6 => 4
  | _ => 0

/-- The body of a descriptor is skipped: a circular buffer that its items do not end strictly inside (45_dma_engine
R415). -/
abbrev Descriptor.skipped (d : Descriptor) : Prop :=
  field d.control 5 4 = 0xE ∧
    d.scratchSizeM1.toNat + 1 ≤ d.scratchOffset.toNat + d.count.toNat * descriptorItem d

/-- The windows of a DSP-side offset: the space, its first offset and the offset past its last (45_dma_engine R417). -/
def dspSides : List (Space × Nat × Nat) := [(.x, 0, 0x1800), (.y, 0x1800, 0x2000), (.p, 0x2800, 0x3800)]

/-- The DSP side of a descriptor is its `count` cells from cell `idx` of space `sp` on, all in one window (45_dma_engine
R417). -/
abbrev Descriptor.names (d : Descriptor) (sp : Space) (idx : Nat) : Prop :=
  ∃ w ∈ dspSides, sp = w.1 ∧ d.dspOffset.toNat = w.2.1 + idx ∧ w.2.1 + idx < w.2.2 ∧ w.2.1 + idx + d.count.toNat ≤ w.2.2

/-- The body of a descriptor overwrites cell `j` of space `sp` (45_dma_engine R416 to R418). -/
def Descriptor.fills (d : Descriptor) (sp : Space) (j : Nat) : Prop :=
  d.control.getLsbD 1 = false ∧ ¬ d.skipped ∧ ∃ idx, d.names sp idx ∧ idx ≤ j ∧ j < idx + d.count.toNat

/-- A descriptor the walk runs without a fatal in a full table: a legal format, and its DSP side in one window or its body
skipped, in either direction (45_dma_engine R412, R415, R417). -/
abbrev Descriptor.runs (d : Descriptor) : Prop :=
  descriptorItem d ≠ 0 ∧ (d.skipped ∨ ∃ w ∈ dspSides, d.names w.1 (d.dspOffset.toNat - w.2.1))

/-- No body of the chain at pointer `ptr` overwrites a cell of one of its descriptors (20_memory R103). -/
def SteadyChain (ptr : Word) (chain : List Descriptor) : Prop :=
  ∀ d ∈ chain, ∀ p ∈ ptr :: chain.map Descriptor.next, ptrEol p = false →
    ∀ j, d.fills .x j → ¬ (ptrAddr p ≤ j ∧ j < ptrAddr p + 7)

end Sys2Proof.Machine
end

