-- ==== Sys2Proof/Certificates/Slice0/Obligations.lean ====
section
/-! DEFINITION. The statements for the provers. `exec i s = .next t` is the completion of operation `i`; where a statement
gives the whole state `t`, that equation is its frame. -/

open Sys2Proof Sys2Proof.Machine

/-! ## Encoding and stepping -/

/-- Words written out from 30_encoding R121, R123, R133, R142, R152, R154, R155, R157, R158 decode to what they stand
for. -/
def Obligations.words_decode : Prop :=
  decode (.mmio 0x01004 .word (.write 0x11)) = .ok (.mmioIen (.write 0x11)) ∧
  decode (.mmio 0x35280 .word .read) = .ok (.mmioGpMixbuf 160 .read) ∧
  decode (.mmio 0x5DFFC .word (.write 9)) = .ok (.mmioEpPUpper 0x7FF (.write 9)) ∧
  decode (.mmio 0x40000 .word .read) = .ok (.mmioUnmapped 0x10000 .read) ∧
  decode (.mmio 0x20124 .word (.write 5)) = .ok (.feVoiceOn 5) ∧
  decode (.mmio 0x2012C .word (.write 5)) = .ok (.feUnknown 0x4B 5) ∧
  decode (.mmio 0x20124 .half (.write 5)) = .error .accessWidth ∧
  decode (.mmio 0x20126 .word (.write 5)) = .error .misaligned ∧
  decode (.dma .gp 1 (.write 0xFFFFFFF9)) = .ok (.dmaActStart .gp 0x1FFFFFFF) ∧
  decode (.descPtr .ep 0x4123) = .ok (.descPtrEol .ep 0x123) ∧
  decode (.descFormat .gp 0x5C2) = .ok (.descFormat1 .gp) ∧
  decode (.descBuf .gp 0x5C2) = .ok (.descBufCircular .gp) ∧
  decode (.env 7 .f 6) = .ok (.envRelease 7 .f) ∧
  decode (.fmtClass 3 9 0x50000000) = .ok (.fmtPcmB16S16 3 9) ∧
  decode (.voiceActive 3 0x00200000) = .ok (.voiceActive 3)

/-- Decode and encode agree: every well-formed operation, with every operand at every value, is what its encoding decodes
to (30_encoding R166). -/
def Obligations.decode_encode : Prop := ∀ i : Instr, i.WellFormed → decode (encode i) = .ok i

/-- The decoder gives only well-formed operations, so each encoded operation has one name (30_encoding R166; the model's
choice of which name, log 27). -/
def Obligations.decode_wellformed : Prop := ∀ (w : OpWord) (i : Instr), decode w = .ok i → i.WellFormed

/-- When the input that comes next decodes to `i`, a step is `i` run on the state without that input; when it decodes to
nothing, the step is refused with the decoder's reason, and so is every register access that is no aligned 32-bit word
(40_mmio_registers R181; the form of a step is the model's, log 1, and that such an access is presented at all is its
reading, log 16). -/
def Obligations.step_runs_decoded : Prop :=
  ∀ (s : State) (w : OpWord) (r : List Input), s.pending = .op w :: r →
    (∀ i, decode w = .ok i → step s = exec i { s with pending := r }) ∧
    (∀ why, decode w = .error why → step s = .refused (.undecoded why)) ∧
    (∀ off width a, w = .mmio off width a → (width ≠ .word → step s = .refused (.undecoded .accessWidth)) ∧
      (width = .word → off.toNat % 4 ≠ 0 → step s = .refused (.undecoded .misaligned)) ∧
      (width = .word → off.toNat % 4 = 0 → ∃ i, decode w = .ok i))

/-- A step with nothing to come changes nothing; a Host store or load is a step of its own, halted or not. A load gives the
little-endian number of its bytes, a store puts byte `k` of the value at address `a + k` and leaves every other byte, the
addresses modulo 2^32 (the form of a step is the model's, log 1; 40_mmio_registers R200, 60_exceptions R441, 20_memory R81,
R82). -/
def Obligations.step_host_access : Prop :=
  ∀ s : State,
    (s.pending = [] → step s = .next s) ∧
    (∀ a width v r, s.pending = .hostStore a width v :: r → ∃ t, step s = .next t ∧
      (∀ b, memByte t.mem b = if (b - a).toNat < widthBytes width then
        BitVec.ofNat 8 (v.toNat / 256 ^ (b - a).toNat) else memByte s.mem b) ∧
      t = { s with pending := r, mem := memWrite s.mem a (widthBytes width) v }) ∧
    (∀ a width r, s.pending = .hostLoad a width :: r →
      step s = .next { s with pending := r, hostData := BitVec.ofNat 32 (littleEndian (widthBytes width) fun k =>
        memByte s.mem (a + BitVec.ofNat 32 k)) }) ∧
    (∀ (m : Store 8) (a v b : Word) (n : Nat), n ≤ 4 →
      memRead m a n = BitVec.ofNat 32 (littleEndian n fun k => memByte m (a + BitVec.ofNat 32 k)) ∧
      memByte (memWrite m a n v) b =
        if (b - a).toNat < n then BitVec.ofNat 8 (v.toNat / 256 ^ (b - a).toNat) else memByte m b)

/-- The second names mean what the first do: a write at the command port is the front-end command of its method, a write of
CONTROL the action of its low three bits (40_mmio_registers R194, 45_dma_engine R396; log 27). -/
def Obligations.second_names_agree : Prop :=
  (∀ (s : State) (idx : BitVec 14) (v : Word),
    exec (.mmioCmdport idx (.write v)) s = exec (decodeFe (4 * idx.toNat) v) s) ∧
  ∀ (s : State) (c : Core) (v : Word), exec (.dmaControl c (.write v)) s = exec (decodeAction c v) s

/-! ## Invariants, faults, reset -/

/-- The machine after reset is good (70_reset_and_hazards R481; that the registers are 0 at reset is the spec's own decision
with no source, log 4, and the empty memories are the model's choice, logs 5, 6). -/
def Obligations.good_at_reset : Prop := State.reset.Good

/-- Every step keeps the interrupt line at its formula, CONTROL at one of its four values, and every memory in canonical
form (60_exceptions R452, 45_dma_engine R397; the canonical form is the model's). -/
def Obligations.good_kept : Prop := ∀ s t : State, s.Good → step s = .next t → t.Good

/-- No step changes a parameter (00_scope R9). -/
def Obligations.parameters_constant : Prop := ∀ s t : State, step s = .next t → t.cfg = s.cfg

/-- A halted block has no operation (60_exceptions R441; that it is a fault of the model is the model's form, log 11). -/
def Obligations.halted_has_no_operation : Prop :=
  ∀ (i : Instr) (s : State) (code : FatalCode), s.halt = .halted code → exec i s = .fault (.halted code)

/-- Taking a fatal keeps every write made before it and changes the halt record and nothing else (60_exceptions R441,
R445; log 11). -/
def Obligations.fatal_keeps_writes : Prop :=
  ∀ (m : Op Unit) (s t : State) (code : FatalCode), s.halt = .running → m s = .error code t →
    ∃ u, runOp m s = .next u ∧ u.halt = .halted code ∧ { u with halt := t.halt } = t

/-- The reset values of every element of the state (70_reset_and_hazards R481: the register values are the spec's own
decision with no source, log 4; memory contents are the model's choice, logs 5, 6, and are not stated). -/
def Obligations.reset_values : Prop :=
  State.reset.halt = .running ∧ State.reset.irq = false ∧ State.reset.x = GlobalRegs.mk 0 0 0 0 0 0 0 0 0 0 0 0 0 0 0 0 0 0
    0 0 0 0 0 0 0 0 ∧ State.reset.inbufSge = 0 ∧ State.reset.outbufSge = 0 ∧ State.reset.gprst = 0 ∧
  State.reset.eprst = 0 ∧ State.reset.dmaGp = ⟨0, 0x20, 0, 0, false⟩ ∧ State.reset.dmaEp = ⟨0, 0x20, 0, 0, false⟩

/-! ## Host register operations -/

/-- A write of a plain register stores all 32 bits and changes nothing else (40_mmio_registers R182, R186 to R189). -/
def Obligations.plain_register_written : Prop :=
  ∀ (s : State) (v : Word), s.halt = .running →
    exec (.mmioFectl (.write v)) s = .next { s with x := { s.x with fectl := v } } ∧
    exec (.mmioFecv (.write v)) s = .next { s with x := { s.x with fecv := v } } ∧
    exec (.mmioFeav (.write v)) s = .next { s with x := { s.x with feav := v } } ∧
    exec (.mmioFetforce1 (.write v)) s = .next { s with x := { s.x with fetforce1 := v } } ∧
    exec (.mmioSectl (.write v)) s = .next { s with x := { s.x with sectl := v } } ∧
    exec (.mmioVpvaddr (.write v)) s = .next { s with x := { s.x with vpvaddr := v } } ∧
    exec (.mmioVpsgeaddr (.write v)) s = .next { s with x := { s.x with vpsgeaddr := v } } ∧
    exec (.mmioGpsaddr (.write v)) s = .next { s with x := { s.x with gpsaddr := v } } ∧
    exec (.mmioGpfaddr (.write v)) s = .next { s with x := { s.x with gpfaddr := v } } ∧
    exec (.mmioEpsaddr (.write v)) s = .next { s with x := { s.x with epsaddr := v } } ∧
    exec (.mmioEpfaddr (.write v)) s = .next { s with x := { s.x with epfaddr := v } } ∧
    exec (.mmioTvl2d (.write v)) s = .next { s with x := { s.x with tvl2d := v } } ∧
    exec (.mmioCvl2d (.write v)) s = .next { s with x := { s.x with cvl2d := v } } ∧
    exec (.mmioNvl2d (.write v)) s = .next { s with x := { s.x with nvl2d := v } } ∧
    exec (.mmioTvl3d (.write v)) s = .next { s with x := { s.x with tvl3d := v } } ∧
    exec (.mmioCvl3d (.write v)) s = .next { s with x := { s.x with cvl3d := v } } ∧
    exec (.mmioNvl3d (.write v)) s = .next { s with x := { s.x with nvl3d := v } } ∧
    exec (.mmioTvlmp (.write v)) s = .next { s with x := { s.x with tvlmp := v } } ∧
    exec (.mmioCvlmp (.write v)) s = .next { s with x := { s.x with cvlmp := v } } ∧
    exec (.mmioNvlmp (.write v)) s = .next { s with x := { s.x with nvlmp := v } } ∧
    exec (.mmioGpsmaxsge (.write v)) s = .next { s with x := { s.x with gpsmaxsge := v } } ∧
    exec (.mmioGpfmaxsge (.write v)) s = .next { s with x := { s.x with gpfmaxsge := v } } ∧
    exec (.mmioEpsmaxsge (.write v)) s = .next { s with x := { s.x with epsmaxsge := v } } ∧
    exec (.mmioEpfmaxsge (.write v)) s = .next { s with x := { s.x with epfmaxsge := v } }

/-- A read of a register hands the Host its 32 bits and changes nothing (40_mmio_registers R183). -/
def Obligations.register_read : Prop :=
  ∀ s : State, s.halt = .running →
    ∀ p ∈ [(Instr.mmioIsts .read, s.x.ists), (.mmioIen .read, s.x.ien), (.mmioFectl .read, s.x.fectl),
      (.mmioFecv .read, s.x.fecv), (.mmioFeav .read, s.x.feav), (.mmioFetforce1 .read, s.x.fetforce1),
      (.mmioSectl .read, s.x.sectl), (.mmioVpvaddr .read, s.x.vpvaddr), (.mmioVpsgeaddr .read, s.x.vpsgeaddr),
      (.mmioGpsaddr .read, s.x.gpsaddr), (.mmioGpfaddr .read, s.x.gpfaddr), (.mmioEpsaddr .read, s.x.epsaddr),
      (.mmioEpfaddr .read, s.x.epfaddr), (.mmioTvl2d .read, s.x.tvl2d), (.mmioCvl2d .read, s.x.cvl2d),
      (.mmioNvl2d .read, s.x.nvl2d), (.mmioTvl3d .read, s.x.tvl3d), (.mmioCvl3d .read, s.x.cvl3d),
      (.mmioNvl3d .read, s.x.nvl3d), (.mmioTvlmp .read, s.x.tvlmp), (.mmioCvlmp .read, s.x.cvlmp),
      (.mmioNvlmp .read, s.x.nvlmp), (.mmioGpsmaxsge .read, s.x.gpsmaxsge), (.mmioGpfmaxsge .read, s.x.gpfmaxsge),
      (.mmioEpsmaxsge .read, s.x.epsmaxsge), (.mmioEpfmaxsge .read, s.x.epfmaxsge), (.mmioGprst .read, s.gprst),
      (.mmioEprst .read, s.eprst)],
      exec p.1 s = .next { s with hostData := p.2 }

/-- A write of ISTS clears the bits written 1, bit 0 apart, and recomputes the line and GINTSTS (40_mmio_registers R184,
60_exceptions R452, R458). -/
def Obligations.ists_written : Prop :=
  ∀ (s : State) (v : Word), s.halt = .running → ∃ t, exec (.mmioIsts (.write v)) s = .next t ∧
    (∀ k, 1 ≤ k → k < 32 → t.x.ists.getLsbD k = (s.x.ists.getLsbD k && !v.getLsbD k)) ∧
    t.x.ists.getLsbD 0 = t.irq ∧
    t.irq = (s.x.ien.getLsbD 0 && (t.x.ists &&& s.x.ien &&& 0xFFFFFFFE != 0)) ∧
    { t with irq := s.irq, x := { t.x with ists := s.x.ists } } = s

/-- A write of IEN stores it and recomputes the line and GINTSTS (40_mmio_registers R185, 60_exceptions R452). -/
def Obligations.ien_written : Prop :=
  ∀ (s : State) (v : Word), s.halt = .running → ∃ t, exec (.mmioIen (.write v)) s = .next t ∧ t.x.ien = v ∧
    (∀ k, 1 ≤ k → k < 32 → t.x.ists.getLsbD k = s.x.ists.getLsbD k) ∧
    t.x.ists.getLsbD 0 = t.irq ∧
    t.irq = (v.getLsbD 0 && (s.x.ists &&& v &&& 0xFFFFFFFE != 0)) ∧
    { t with irq := s.irq, x := { t.x with ists := s.x.ists, ien := s.x.ien } } = s

/-- A write through a DSP memory window changes the one cell it names, to the value reduced to the cell's width
(40_mmio_registers R195, 20_memory R87). -/
def Obligations.window_cell_written : Prop :=
  ∀ (s : State) (v : Word), s.halt = .running →
    (∀ n : BitVec 12, ∃ t, exec (.mmioGpX n (.write v)) s = .next t ∧ CellWritten s t .gp .x n.toNat v) ∧
    (∀ n : BitVec 10, ∃ t, exec (.mmioGpMixbuf n (.write v)) s = .next t ∧ CellWritten s t .gp .x (s.cfg.mixbufBase + n.toNat) v) ∧
    (∀ n : BitVec 11, ∃ t, exec (.mmioGpY n (.write v)) s = .next t ∧ CellWritten s t .gp .y n.toNat v) ∧
    (∀ n : BitVec 11, ∃ t, exec (.mmioGpPLower n (.write v)) s = .next t ∧ CellWritten s t .gp .p n.toNat v) ∧
    (∀ n : BitVec 11, ∃ t, exec (.mmioGpPUpper n (.write v)) s = .next t ∧ CellWritten s t .gp .p (0x800 + n.toNat) v) ∧
    (∀ n : BitVec 12, ∃ t, exec (.mmioEpX n (.write v)) s = .next t ∧ CellWritten s t .ep .x n.toNat v) ∧
    (∀ n : BitVec 11, ∃ t, exec (.mmioEpY n (.write v)) s = .next t ∧ CellWritten s t .ep .y n.toNat v) ∧
    (∀ n : BitVec 11, ∃ t, exec (.mmioEpPLower n (.write v)) s = .next t ∧ CellWritten s t .ep .p n.toNat v) ∧
    (∀ n : BitVec 11, ∃ t, exec (.mmioEpPUpper n (.write v)) s = .next t ∧ CellWritten s t .ep .p (0x800 + n.toNat) v)

/-- A read through a DSP memory window hands the Host the cell, a read of the command port 0; nothing else changes
(40_mmio_registers R194, R195). -/
def Obligations.window_cell_read : Prop :=
  ∀ s : State, s.halt = .running →
    (∀ n : BitVec 12, exec (.mmioGpX n .read) s = .next { s with hostData := dspRead s .gp .x n.toNat }) ∧
    (∀ n : BitVec 10, exec (.mmioGpMixbuf n .read) s =
      .next { s with hostData := dspRead s .gp .x (s.cfg.mixbufBase + n.toNat) }) ∧
    (∀ n : BitVec 11, exec (.mmioGpY n .read) s = .next { s with hostData := dspRead s .gp .y n.toNat }) ∧
    (∀ n : BitVec 11, exec (.mmioGpPLower n .read) s = .next { s with hostData := dspRead s .gp .p n.toNat }) ∧
    (∀ n : BitVec 11, exec (.mmioGpPUpper n .read) s = .next { s with hostData := dspRead s .gp .p (0x800 + n.toNat) }) ∧
    (∀ n : BitVec 12, exec (.mmioEpX n .read) s = .next { s with hostData := dspRead s .ep .x n.toNat }) ∧
    (∀ n : BitVec 11, exec (.mmioEpY n .read) s = .next { s with hostData := dspRead s .ep .y n.toNat }) ∧
    (∀ n : BitVec 11, exec (.mmioEpPLower n .read) s = .next { s with hostData := dspRead s .ep .p n.toNat }) ∧
    (∀ n : BitVec 11, exec (.mmioEpPUpper n .read) s = .next { s with hostData := dspRead s .ep .p (0x800 + n.toNat) }) ∧
    (∀ n : BitVec 14, exec (.mmioCmdport n .read) s = .next { s with hostData := 0 })

/-- A write of a reset register stores the value; with both releases held before and after, nothing else; otherwise only
the cells that the core's own answer names may change, and no DMA register does (40_mmio_registers R196, 45_dma_engine
R392; the answer is free, log 10). -/
def Obligations.reset_register_written : Prop :=
  ∀ (s : State) (v : Word) (c : Core) (i : Instr), s.halt = .running →
    (c = .gp ∧ i = .mmioGprst (.write v)) ∨ (c = .ep ∧ i = .mmioEprst (.write v)) →
    (released v = true → released (s.rst c) = true → exec i s = .next (s.setRst c v)) ∧
    ∀ answer, (released v = false ∧ answer = Config.dspReset (oracleView c 0 s)) ∨
        (released v = true ∧ released (s.rst c) = false ∧ answer = Config.dspBootstrap (oracleView c 0 s)) →
      ∃ t, exec i s = .next t ∧ t.rst c = v ∧ (∀ d, d ≠ c → t.rst d = s.rst d) ∧
        (∀ d sp j, (d ≠ c ∨ ∀ w ∈ answer, ¬ (w.space = sp ∧ w.index = j ∧ j < spaceSize s.cfg sp)) →
          dspRead t d sp j = dspRead s d sp j) ∧
        { t with gprst := s.gprst, eprst := s.eprst, dspGp := s.dspGp, dspEp := s.dspEp, oracle := s.oracle } = s

/-- An unmapped offset reads 0 and drops writes, and an unknown method is discarded (40_mmio_registers R198,
41_frontend_commands R252; that an unknown method does nothing is the spec's own decision, log 17). -/
def Obligations.unmapped_and_unknown : Prop :=
  ∀ (s : State) (idx : BitVec 17) (m : BitVec 14) (v : Word), s.halt = .running →
    exec (.mmioUnmapped idx .read) s = .next { s with hostData := 0 } ∧
    exec (.mmioUnmapped idx (.write v)) s = .next s ∧ exec (.feUnknown m v) s = .next s

/-! ## Front-end commands -/

/-- The commands that set a latch or a context register (41_frontend_commands R221, R222, R244, R246). -/
def Obligations.contexts_set : Prop :=
  ∀ (s : State) (arg : Word), s.halt = .running →
    exec (.feSetAntecedentVoice arg) s = .next { s with x := { s.x with feav := arg } } ∧
    exec (.feSetCurrentVoice arg) s = .next { s with x := { s.x with fecv := arg &&& 0x0000FFFF } } ∧
    exec (.feSetCurrentInbufSge arg) s = .next { s with inbufSge := BitVec.ofNat 16 arg.toNat } ∧
    exec (.feSetCurrentOutbufSge arg) s = .next { s with outbufSge := BitVec.ofNat 16 arg.toNat }

/-- The whole-word parameter commands write the argument to their word of the current voice and nothing else
(41_frontend_commands R227 to R233, R235 to R237). -/
def Obligations.voice_word_written : Prop :=
  ∀ (s : State) (arg : Word) (cv : Handle), s.halt = .running → cv = BitVec.ofNat 16 s.x.fecv.toNat →
    cv.toNat < s.cfg.numVoices →
    ∀ p ∈ [(Instr.feSetVoiceCfgVbin arg, 0x00), (.feSetVoiceCfgFmt arg, 0x04), (.feSetVoiceCfgEnv0 arg, 0x08),
      (.feSetVoiceCfgEnva arg, 0x0C), (.feSetVoiceCfgEnv1 arg, 0x10), (.feSetVoiceCfgEnvf arg, 0x14),
      (.feSetVoiceTarVola arg, 0x60), (.feSetVoiceTarVolb arg, 0x64), (.feSetVoiceTarVolc arg, 0x68)],
      ∃ t, exec p.1 s = .next t ∧ voiceWord t cv p.2 = arg ∧ s.OnlyMem t ∧
        ∀ a, outsideWord s cv p.2 a → memByte t.mem a = memByte s.mem a

/-- The field parameter commands write their field of the current voice: the word's other bits and all other memory stay
(41_frontend_commands R227, R234, R238 to R243). -/
def Obligations.voice_field_written : Prop :=
  ∀ (s : State) (arg : Word) (cv : Handle), s.halt = .running → cv = BitVec.ofNat 16 s.x.fecv.toNat →
    cv.toNat < s.cfg.numVoices →
    ∀ p ∈ [(Instr.feSetVoiceCfgMisc arg, VField.mk 0x18 0 12, arg.toNat % 4096),
      (.feSetVoiceTarLfoEnv arg, ⟨0x6C, 0, 12⟩, arg.toNat % 4096),
      (.feSetVoiceTarPitch arg, ⟨0x7C, 16, 16⟩, arg.toNat / 65536),
      (.feSetVoiceCfgBufBase arg, ⟨0x20, 0, 24⟩, arg.toNat % 2 ^ 24),
      (.feSetVoiceCfgBufLbo arg, ⟨0x24, 0, 24⟩, arg.toNat % 2 ^ 24),
      (.feSetVoiceBufCbo arg, ⟨0x58, 0, 24⟩, arg.toNat % 2 ^ 24),
      (.feSetVoiceCfgBufEbo arg, ⟨0x5C, 0, 24⟩, arg.toNat % 2 ^ 24)],
      ∃ t, exec p.1 s = .next t ∧ voiceField t cv p.2.1 = p.2.2 ∧ s.OnlyMem t ∧
        (∀ k, k < 32 → k < p.2.1.lo ∨ p.2.1.lo + p.2.1.len ≤ k →
          (voiceWord t cv p.2.1.off).getLsbD k = (voiceWord s cv p.2.1.off).getLsbD k) ∧
        ∀ a, outsideWord s cv p.2.1.off a → memByte t.mem a = memByte s.mem a

/-- A voice command whose handle is outside the table takes VOICE_BAD_HANDLE and writes nothing, and so does a VOICE_ON after
an antecedent voice that is outside the table, whatever its own handle (10_state R50, 41_frontend_commands R224 to R227). -/
def Obligations.bad_handle_taken : Prop :=
  ∀ (s : State) (arg : Word), s.halt = .running →
    (s.cfg.numVoices ≤ s.x.fecv.toNat % 65536 →
      ∀ i ∈ [Instr.feSetVoiceCfgVbin arg, .feSetVoiceCfgFmt arg, .feSetVoiceCfgEnv0 arg, .feSetVoiceCfgEnva arg,
        .feSetVoiceCfgEnv1 arg, .feSetVoiceCfgEnvf arg, .feSetVoiceCfgMisc arg, .feSetVoiceTarVola arg,
        .feSetVoiceTarVolb arg, .feSetVoiceTarVolc arg, .feSetVoiceTarLfoEnv arg, .feSetVoiceTarPitch arg,
        .feSetVoiceCfgBufBase arg, .feSetVoiceCfgBufLbo arg, .feSetVoiceBufCbo arg, .feSetVoiceCfgBufEbo arg],
        exec i s = .next { s with halt := .halted .voiceBadHandle }) ∧
    (s.cfg.numVoices ≤ arg.toNat % 65536 → ∀ i ∈ [Instr.feVoiceOn arg, .feVoiceOff arg, .feVoicePause arg],
      exec i s = .next { s with halt := .halted .voiceBadHandle }) ∧
    (s.x.feav.toNat / 65536 % 4 = 0 → s.cfg.numVoices ≤ s.x.feav.toNat % 65536 →
      exec (.feVoiceOn arg) s = .next { s with halt := .halted .voiceBadHandle })

/-- VOICE_ON at the head of a list: the voice's link takes the old head, the list's head the voice, its `active` flag is
set, and nothing else changes (41_frontend_commands R224). -/
def Obligations.voice_on_at_head : Prop :=
  ∀ (s : State) (arg : Word) (h : Handle) (l : VoiceList), s.halt = .running → h = BitVec.ofNat 16 arg.toNat →
    h.toNat < s.cfg.numVoices →
    s.x.feav.toNat / 65536 % 4 = (match l with | .l2d => 1 | .l3d => 2 | .lmp => 3) →
    ∃ t, exec (.feVoiceOn arg) s = .next t ∧
      tvl t l = BitVec.ofNat 32 h.toNat ∧ voiceField t h vLink = (tvl s l).toNat % 65536 ∧ voiceField t h vActive = 1 ∧
      { t with mem := s.mem, x := s.x } = s ∧ t.x = (s.setTvl l (BitVec.ofNat 32 h.toNat)).x ∧
      (∀ g : VField, vLink.apart g → vActive.apart g → voiceField t h g = voiceField s h g) ∧
      ∀ a, outsideWord s h 0x54 a → outsideWord s h 0x7C a → memByte t.mem a = memByte s.mem a

/-- VOICE_ON after an antecedent voice: the new voice takes the antecedent's link, the antecedent links to it, its
`active` flag is set, no register changes (41_frontend_commands R224). -/
def Obligations.voice_on_after_antecedent : Prop :=
  ∀ (s : State) (arg : Word) (h a : Handle), s.halt = .running → h = BitVec.ofNat 16 arg.toNat →
    a = BitVec.ofNat 16 s.x.feav.toNat → h.toNat < s.cfg.numVoices → a.toNat < s.cfg.numVoices →
    s.x.feav.toNat / 65536 % 4 = 0 →
    ∃ t, exec (.feVoiceOn arg) s = .next t ∧
      voiceField t a vLink = h.toNat ∧ (h ≠ a → voiceField t h vLink = voiceField s a vLink) ∧
      voiceField t h vActive = 1 ∧ s.OnlyMem t ∧
      (∀ g : VField, vLink.apart g → vActive.apart g → g.off + 4 ≤ 128 →
        voiceField t h g = voiceField s h g ∧ voiceField t a g = voiceField s a g) ∧
      ∀ b, outsideWord s h 0x54 b → outsideWord s h 0x7C b → outsideWord s a 0x7C b → memByte t.mem b = memByte s.mem b

/-- VOICE_OFF clears `active`, VOICE_PAUSE sets `paused` from bit 18 or inverts it by PAUSE_MODE; nothing else changes, no
list either (41_frontend_commands R225, R226). -/
def Obligations.voice_off_and_pause : Prop :=
  ∀ (s : State) (arg : Word) (h : Handle), s.halt = .running → h = BitVec.ofNat 16 arg.toNat →
    h.toNat < s.cfg.numVoices →
    (∃ t, exec (.feVoiceOff arg) s = .next t ∧ voiceField t h vActive = 0 ∧ s.OnlyMem t ∧
      (∀ g : VField, vActive.apart g → voiceField t h g = voiceField s h g) ∧
      ∀ a, outsideWord s h 0x54 a → memByte t.mem a = memByte s.mem a) ∧
    (∃ t, exec (.feVoicePause arg) s = .next t ∧
      (s.cfg.pauseMode = .fromAction → voiceField t h vPaused = (arg.getLsbD 18).toNat) ∧
      (s.cfg.pauseMode = .invert → voiceField t h vPaused = 1 - voiceField s h vPaused) ∧ s.OnlyMem t ∧
      (∀ g : VField, vPaused.apart g → voiceField t h g = voiceField s h g) ∧
      ∀ a, outsideWord s h 0x54 a → memByte t.mem a = memByte s.mem a)

/-- The offset commands store the page address in the address word of the entry their latch names, whatever the entry
(41_frontend_commands R245, R247). -/
def Obligations.entry_address_written : Prop :=
  ∀ (s : State) (arg : Word), s.halt = .running →
    ∀ p ∈ [(Instr.feSetCurrentInbufSgeOffset arg, s.inbufSge), (.feSetCurrentOutbufSgeOffset arg, s.outbufSge)],
      ∃ t, exec p.1 s = .next t ∧
        memRead t.mem (s.x.vpsgeaddr + BitVec.ofNat 32 (p.2.toNat * 8)) 4 = arg - BitVec.ofNat 32 (arg.toNat % 4096) ∧
        s.OnlyMem t ∧
        ∀ a, 4 ≤ (a - (s.x.vpsgeaddr + BitVec.ofNat 32 (p.2.toNat * 8))).toNat → memByte t.mem a = memByte s.mem a

/-- The idle notification, from the Host or from the walker, enters the trap when it is armed and does nothing when it is
not (41_frontend_commands R250, 60_exceptions R454; that an unarmed one does nothing is the spec's own decision, log 17, and
the walker's notification run as an operation of its own is the model's choice, log 2). -/
def Obligations.idle_trap_taken : Prop :=
  ∀ (s : State) (i : Instr), s.halt = .running →
    (∃ arg, i = .feSe2feIdleVoice arg) ∨ (∃ h : Handle, h.toNat < s.cfg.numVoices ∧ i = .voiceIdle h) →
      (s.x.fetforce1.getLsbD 15 = false → exec i s = .next s) ∧
      (s.x.fetforce1.getLsbD 15 = true → ∃ t, exec i s = .next t ∧
        (∀ k, k < 32 → t.x.fectl.getLsbD k = (s.x.fectl.getLsbD k || decide (5 ≤ k ∧ k < 12))) ∧
        (∀ k, 1 ≤ k → k < 32 → t.x.ists.getLsbD k = (s.x.ists.getLsbD k || decide (k = 4))) ∧
        t.x.ists.getLsbD 0 = t.irq ∧ t.irq = (s.x.ien.getLsbD 0 && (t.x.ists &&& s.x.ien &&& 0xFFFFFFFE != 0)) ∧
        { t with irq := s.irq, x := { t.x with ists := s.x.ists, fectl := s.x.fectl } } = s)

/-! ## The translator -/

/-- A translation: the entry's address plus the offset, or the range fatal (20_memory R95, R99; the translation run as an
operation of its own, its address kept, is the model's choice, log 2). -/
def Obligations.translation : Prop :=
  ∀ (s : State) (lin : Word), s.halt = .running →
    ∀ p ∈ [(SgTable.voice, s.x.vpsgeaddr, s.cfg.vpMaxSge), (.gpScratch, s.x.gpsaddr, s.x.gpsmaxsge.toNat),
      (.epScratch, s.x.epsaddr, s.x.epsmaxsge.toNat)],
      (lin.toNat / s.cfg.pageSize ≤ p.2.2 → exec (.sgTranslate p.1 lin) s = .next { s with sub := { s.sub with
        paddr := memRead s.mem (p.2.1 + BitVec.ofNat 32 (lin.toNat / s.cfg.pageSize * 8)) 4 +
          BitVec.ofNat 32 (lin.toNat % s.cfg.pageSize) } }) ∧
      (p.2.2 < lin.toNat / s.cfg.pageSize → exec (.sgTranslate p.1 lin) s = .next { s with halt := .halted .sgeRange })

/-- The round trip: offset `j` of page `k` translates to entry `k`'s address plus `j` (20_memory R95). -/
def Obligations.translation_round_trip : Prop :=
  ∀ (s : State) (t : SgTable) (k j : Nat), k ≤ (sgTable s t).2 → j < s.cfg.pageSize →
    k * s.cfg.pageSize + j < 2 ^ 32 →
    translate s t (BitVec.ofNat 32 (k * s.cfg.pageSize + j)) =
      .ok (memRead s.mem ((sgTable s t).1 + BitVec.ofNat 32 (8 * k)) 4 + BitVec.ofNat 32 j)

/-! ## Envelopes -/

/-- One step of each state that has one: the counter is changed first, the level follows from the new counter, the
transition is decided on both; the write-back is the step's only effect (42_envelope R281 to R293; the step run as an
operation of its own, its level kept, is the model's choice, log 2). -/
def Obligations.envelope_stepped : Prop :=
  ∀ (s : State) (h : Handle) (e : Env) (C L A H D S R : Nat), s.halt = .running → h.toNat < s.cfg.numVoices →
    voiceField s h (vCount e) = C → voiceField s h (vLevel e) = L → voiceField s h (vAttack e) = A →
    voiceField s h (vHold e) = H → voiceField s h (vDecay e) = D → voiceField s h (vSustain e) = S →
    voiceField s h (vRelease e) = R →
    (∃ t, exec (.envOff h e) s = .next t ∧ EnvWritten s t h e 0 255 0 false) ∧
    (∃ t, exec (.envDelay h e) s = .next t ∧ EnvWritten s t h e (C - 1) 0 (if C - 1 = 0 then 2 else 1) false) ∧
    (∃ t, exec (.envAttack h e) s = .next t ∧
      EnvWritten s t h e (if (C + 1) % 65536 = 16 * A then 16 * H else (C + 1) % 65536)
        (if A = 0 then 255 else min ((C + 1) % 65536 * 255 / A) 255)
        (if (C + 1) % 65536 = 16 * A then 3 else 2) false) ∧
    (∃ t, exec (.envHold h e) s = .next t ∧
      EnvWritten s t h e (if C - 1 = 0 then 16 * D else C - 1) 255 (if C - 1 = 0 then 4 else 3) false) ∧
    (∃ t, exec (.envSustain h e) s = .next t ∧ EnvWritten s t h e 0 S 5 false) ∧
    (∃ t, exec (.envRelease h e) s = .next t ∧
      EnvWritten s t h e (C - 1) (if R = 0 then 0 else min ((C - 1) * L / (16 * R)) 255) 6 (decide (C - 1 = 0)))

/-- One step of Decay, by the exact rational curve (42_envelope R291; that the curve is exact is the spec's own decision,
log 19, and the step run as an operation of its own is the model's choice, log 2). -/
def Obligations.decay_stepped : Prop :=
  ∀ (s : State) (h : Handle) (e : Env) (C D S x : Nat), s.halt = .running → h.toNat < s.cfg.numVoices →
    voiceField s h (vCount e) = C → voiceField s h (vDecay e) = D → voiceField s h (vSustain e) = S →
    x = (16 * D - (C - 1)) * 4096 / D →
    (D = 0 → ∃ t, exec (.envDecay h e) s = .next t ∧ EnvWritten s t h e (C - 1) S 5 false) ∧
    (0 < D → 16 * D < C - 1 → ∃ t, exec (.envDecay h e) s = .next t ∧ EnvWritten s t h e (C - 1) 255 5 false) ∧
    (0 < D → C - 1 ≤ 16 * D → ∃ t, exec (.envDecay h e) s = .next t ∧
      EnvWritten s t h e (C - 1) (255 * 99988799 ^ x / 100000000 ^ x)
        (if 5 * (255 * 99988799 ^ x) ≤ (5 * S + 1) * 100000000 ^ x then 5 else 4) false)

/-- A Decay enters Sustain at the latest on the step that brings its counter to 0 (42_envelope R291; by the exact curve of
log 19, the step run as an operation of its own, log 2). -/
def Obligations.decay_ends : Prop :=
  ∀ (s : State) (h : Handle) (e : Env), s.halt = .running → h.toNat < s.cfg.numVoices →
    voiceField s h (vCount e) ≤ 1 → ∃ t, exec (.envDecay h e) s = .next t ∧ voiceField t h (vState e) = 5

/-- An Attack entered with counter 0 lasts exactly `16 * A` steps: before that the state stays Attack, the counter counts
the steps and the level is the ramp's, and the last step enters Hold with the hold time (42_envelope R282, R289; the steps
run as operations of their own are the model's choice, log 2). -/
def Obligations.attack_lasts : Prop :=
  ∀ (s : State) (h : Handle) (e : Env) (A : Nat), s.halt = .running → h.toNat < s.cfg.numVoices →
    voiceField s h (vAttack e) = A → 0 < A → voiceField s h (vCount e) = 0 → voiceField s h (vState e) = 2 →
    (∀ n, 0 < n → n < 16 * A → ∃ t, execTimes (.envAttack h e) n s = .next t ∧ t.halt = .running ∧
      voiceField t h (vState e) = 2 ∧ voiceField t h (vCount e) = n ∧
      voiceField t h (vLevel e) = min (n * 255 / A) 255) ∧
    ∃ t, execTimes (.envAttack h e) (16 * A) s = .next t ∧ t.halt = .running ∧ voiceField t h (vState e) = 3 ∧
      voiceField t h (vCount e) = 16 * voiceField s h (vHold e) ∧ voiceField t h (vLevel e) = 255

/-- A Release entered with counter `16 * R` clears `active` on exactly its `16 * R`-th step (42_envelope R282, R293; the
steps run as operations of their own are the model's choice, log 2). -/
def Obligations.release_lasts : Prop :=
  ∀ (s : State) (h : Handle) (e : Env) (R : Nat), s.halt = .running → h.toNat < s.cfg.numVoices →
    voiceField s h (vRelease e) = R → 0 < R → voiceField s h (vCount e) = 16 * R → voiceField s h vActive = 1 →
    (∀ n, n < 16 * R → ∃ t, execTimes (.envRelease h e) n s = .next t ∧ t.halt = .running ∧
      voiceField t h vActive = 1 ∧ voiceField t h (vCount e) = 16 * R - n) ∧
    ∃ t, execTimes (.envRelease h e) (16 * R) s = .next t ∧ t.halt = .running ∧ voiceField t h vActive = 0 ∧
      voiceField t h (vCount e) = 0

/-! ## Sample positions, fetch and decode -/

/-- What one position of a voice becomes: itself up to the end; past it, wrapped into the loop, or the end of the voice
(43_sample_fetch_decode R313; the resolution run as an operation of its own, its position kept, is the model's choice,
log 2). -/
def Obligations.position_resolved : Prop :=
  ∀ (s : State) (h : Handle) (p : Word) (lbo ebo : Nat), s.halt = .running → h.toNat < s.cfg.numVoices →
    voiceField s h vLbo = lbo → voiceField s h vEbo = ebo →
    (p.toNat ≤ ebo → ∀ i ∈ [Instr.fmtLoop h p, .fmtOneshot h p],
      exec i s = .next { s with sub := { s.sub with pos := some p.toNat } }) ∧
    (ebo < p.toNat → lbo ≤ ebo →
      exec (.fmtLoop h p) s =
        .next { s with sub := { s.sub with pos := some (lbo + (p.toNat - lbo) % (ebo - lbo + 1)) } } ∧
      lbo + (p.toNat - lbo) % (ebo - lbo + 1) ≤ ebo) ∧
    (ebo < p.toNat → ebo < lbo → exec (.fmtLoop h p) s = .next { s with halt := .halted .voiceBadLoop }) ∧
    (ebo < p.toNat → ∃ t, exec (.fmtOneshot h p) s = .next t ∧ voiceField t h vActive = 0 ∧ t.sub = { s.sub with pos := none } ∧
      s.OnlyMemSub t ∧ (∀ g : VField, vActive.apart g → voiceField t h g = voiceField s h g) ∧
      ∀ a, outsideWord s h 0x54 a → memByte t.mem a = memByte s.mem a)

/-- The properties a model may assume of StepOffset, for every pitch, pitch scale and filter level (43_sample_fetch_decode
R311 (a) to (e); that nothing more is assumed is the model's reading, log 9). -/
def Obligations.step_offset_properties : Prop :=
  ∀ (pitch ps : Int) (f i : Nat), -32768 ≤ pitch → pitch ≤ 32767 → -128 ≤ ps → ps ≤ 127 → f ≤ 255 →
    stepOffset pitch ps f 0 = 0 ∧ stepOffset pitch ps f i ≤ stepOffset pitch ps f (i + 1) ∧
    (pitch * 255 + ps * 32 * f = 0 → stepOffset pitch ps f i = i) ∧
    (∀ k : Nat, pitch * 255 + ps * 32 * f = k * (255 * 4096) → stepOffset pitch ps f i = i * 2 ^ k) ∧
    (∀ k : Nat, pitch * 255 + ps * 32 * f = -(k * (255 * 4096) : Int) → stepOffset pitch ps f i = i / 2 ^ k) ∧
    stepOffset pitch ps f i ≤ 512 * i

/-- A PCM fetch: byte `j` of a channel's container is the byte at the address that `lin + j` translates to, the container is
the little-endian number of its bytes, and the sample its low bits as a signed number, or as an unsigned byte less 128; a
container with a byte that does not translate takes SGE_RANGE, which a full table never gives (43_sample_fetch_decode R319
to R322, R334, 20_memory R98; the fetch run as an operation of its own, its frame kept, is the model's choice, log 2). -/
def Obligations.pcm_fetched : Prop :=
  ∀ (s : State) (h : Handle) (p : Word) (i : Instr) (C W nch : Nat) (lin : Nat → Word) (conv : Nat → Int),
    s.halt = .running → h.toNat < s.cfg.numVoices →
    (i, C, W) ∈ [(Instr.fmtPcmB8U8 h p, 1, 8), (.fmtPcmB16U8 h p, 2, 8), (.fmtPcmB16S16 h p, 2, 16),
      (.fmtPcmB32U8 h p, 4, 8), (.fmtPcmB32S16 h p, 4, 16), (.fmtPcmB32S24 h p, 4, 24), (.fmtPcmB32S32 h p, 4, 32)] →
    nch = (if voiceField s h vStereo = 1 then 2 else 1) →
    (∀ ch, lin ch = BitVec.ofNat 32 (voiceField s h vBa + p.toNat * C * nch + ch * C)) →
    (∀ r, conv r = if W = 8 then ((r % 256 : Nat) : Int) - 128
      else if r % 2 ^ W < 2 ^ (W - 1) then ((r % 2 ^ W : Nat) : Int) else ((r % 2 ^ W : Nat) : Int) - (2 ^ W : Nat)) →
    (fullTable s .voice → ∀ a, ∃ addr, translate s .voice a = .ok addr) ∧
    (∀ (addr : Nat → Nat → Word) (raw : Nat → Nat) (frame : List Int),
      (∀ ch j, ch < nch → j < C → translate s .voice (lin ch + BitVec.ofNat 32 j) = .ok (addr ch j)) →
      (∀ ch, raw ch = littleEndian C fun j => memByte s.mem (addr ch j)) →
      frame = (if nch = 2 then [conv (raw 0), conv (raw 1)] else [conv (raw 0)]) →
      exec i s = .next { s with sub := { s.sub with frame := frame } }) ∧
    ((∃ ch j, ch < nch ∧ j < C ∧ translate s .voice (lin ch + BitVec.ofNat 32 j) = .error .sgeRange) →
      exec i s = .next { s with halt := .halted .sgeRange })

/-- An ADPCM fetch: byte `j` of the block of the frame is the byte at the address that `lin + j` translates to, and the
frame is, channel by channel, the predictor that the header and the codes up to the frame give; a block with a byte that
does not translate takes SGE_RANGE, which a full table never gives (43_sample_fetch_decode R323, R324, R326 to R331, R333,
R334; the algorithm is the one the spec supplies, log 19, and the fetch run as an operation of its own is the model's
choice, log 2). -/
def Obligations.adpcm_fetched : Prop :=
  ∀ (s : State) (h : Handle) (p : Word) (ss : BitVec 2) (nch : Nat) (lin : Word), s.halt = .running →
    h.toNat < s.cfg.numVoices → nch = (if voiceField s h vStereo = 1 then 2 else 1) →
    lin = BitVec.ofNat 32 (voiceField s h vBa + p.toNat / 65 * (36 * nch)) →
    (fullTable s .voice → ∀ a, ∃ addr, translate s .voice a = .ok addr) ∧
    (∀ (addr : Nat → Word) (pred index : Nat → Nat → Int),
      (∀ j, j < 36 * nch → translate s .voice (lin + BitVec.ofNat 32 j) = .ok (addr j)) →
      (∀ ch, ch < nch → AdpcmChannel (fun j => (memByte s.mem (addr j)).toNat) nch ch (pred ch) (index ch)) →
      exec (.fmtAdpcm h p ss) s = .next { s with sub := { s.sub with
        frame := (List.range nch).map fun ch => pred ch (p.toNat % 65) } }) ∧
    ((∃ j, j < 36 * nch ∧ translate s .voice (lin + BitVec.ofNat 32 j) = .error .sgeRange) →
      exec (.fmtAdpcm h p ss) s = .next { s with halt := .halted .sgeRange })

/-- Every decoded sample is a signed 16-bit number and every step index stays in its table of 89 steps, which rise from 7 to
32767, whatever the block; the states of a block are those of the rules, and the rules have no others
(43_sample_fetch_decode R326 to R331; the algorithm is the one the spec supplies, log 19). -/
def Obligations.adpcm_in_range : Prop :=
  stepTable = [7, 8, 9, 10, 11, 12, 13, 14, 16, 17, 19, 21, 23, 25, 28, 31, 34, 37, 41, 45, 50, 55, 60, 66, 73, 80, 88, 97,
    107, 118, 130, 143, 157, 173, 190, 209, 230, 253, 279, 307, 337, 371, 408, 449, 494, 544, 598, 658, 724, 796, 876, 963,
    1060, 1166, 1282, 1411, 1552, 1707, 1878, 2066, 2272, 2499, 2749, 3024, 3327, 3660, 4026, 4428, 4871, 5358, 5894, 6484,
    7132, 7845, 8630, 9493, 10442, 11487, 12635, 13899, 15289, 16818, 18500, 20350, 22385, 24623, 27086, 29794, 32767] ∧
  ∀ (bytes : List Byte) (nch ch : Nat),
    AdpcmChannel (fun j => (bytes.getD j 0).toNat) nch ch (fun n => (adpcmState bytes nch ch n).1)
      (fun n => (adpcmState bytes nch ch n).2) ∧
    (∀ pred index, AdpcmChannel (fun j => (bytes.getD j 0).toNat) nch ch pred index → ∀ w, w < 65 →
      pred w = adpcmSample bytes nch w ch ∧ index w = (adpcmState bytes nch ch w).2) ∧
    ∀ w, -32768 ≤ adpcmSample bytes nch w ch ∧ adpcmSample bytes nch w ch ≤ 32767 ∧ (adpcmState bytes nch ch w).2 ≤ 88

/-! ## The mixer and the visits -/

/-- A contribution is the exact product divided once toward zero: never larger than its sample, the sample itself at full
level and volume, 0 at either silence. An accumulation adds it to the signed bin, wrapped to 32 bits or clamped to them
(44_voice_walker_mixer R370, R371). -/
def Obligations.contribution_bounds : Prop :=
  (∀ (x : Int) (la v : Nat), la ≤ 255 → v ≤ 4095 →
    contrib x la v = (if 0 ≤ x then (x * la * (4095 - v)) / (255 * 4095) else -((-x * la * (4095 - v)) / (255 * 4095))) ∧
    (contrib x la v).natAbs ≤ x.natAbs ∧ contrib x 255 0 = x ∧ contrib x la 4095 = 0 ∧ contrib x 0 v = 0 ∧
    contrib (-x) la v = -contrib x la v) ∧
  ∀ (m : Word) (c : Int),
    (∃ k : Int, (acc .wrap m c).toInt = m.toInt + c + k * 2 ^ 32) ∧
    (acc .saturate m c).toInt = (if m.toInt + c < -2 ^ 31 then -2 ^ 31 else if 2 ^ 31 ≤ m.toInt + c then 2 ^ 31 - 1
      else m.toInt + c)

/-- A sample lane of a mono or stereo voice: every bin of the lane takes the contributions of the slots that name it, in
ascending order, added with wrap-around or each clamped; no other lane and no other part of the state changes
(44_voice_walker_mixer R357, R369 to R371, R384; the mixing of the kept frame at the stored level as an operation of its own
is the model's choice, log 2, and both modes are kept, log 20). -/
def Obligations.lane_mixed : Prop :=
  ∀ (s : State) (h : Handle) (i : BitVec 5), s.halt = .running → h.toNat < s.cfg.numVoices →
    ∀ p ∈ [(Instr.fmtMono h i, 1), (.fmtStereo h i, 2)],
      ∃ t, exec p.1 s = .next t ∧
        (s.cfg.mixOverflow = .wrap → ∀ b, b < 32 →
          t.sub.mix.get (b * 32 + i.toNat) = s.sub.mix.get (b * 32 + i.toNat) + BitVec.ofInt 32
            ((List.range 8).map fun j => if voiceField s h (vBin j) = b then
              contrib (s.sub.frame.getD (j % p.2) 0) (voiceField s h (vLevel .a)) (voiceVolume s h j) else 0).sum) ∧
        (s.cfg.mixOverflow = .saturate → ∀ b, b < 32 →
          (t.sub.mix.get (b * 32 + i.toNat)).toInt =
            (List.range 8).foldl (fun m j => if voiceField s h (vBin j) = b then
              max (-2 ^ 31) (min (m + contrib (s.sub.frame.getD (j % p.2) 0) (voiceField s h (vLevel .a))
                (voiceVolume s h j)) (2 ^ 31 - 1)) else m) (s.sub.mix.get (b * 32 + i.toNat)).toInt) ∧
        (∀ b, b < 32 → t.sub.mix.get (b * 32 + i.toNat) = laneBin s h (voiceField s h (vLevel .a)) s.sub.frame p.2 b
          (s.sub.mix.get (b * 32 + i.toNat))) ∧
        (∀ b k, k < 32 → k ≠ i.toNat → t.sub.mix.get (b * 32 + k) = s.sub.mix.get (b * 32 + k)) ∧
        { t with sub := { t.sub with mix := s.sub.mix } } = s

/-- A paused voice's visit is its two envelope steps, each by the row of the state found, A first, and nothing else. The
visit of an active voice, paused or not, stops at an envelope that has no step: at A with nothing changed, at F with A's step
written back. A handle outside the table takes VOICE_BAD_HANDLE (44_voice_walker_mixer R355, R356, 42_envelope R280, R294,
R295, 60_exceptions R444, 10_state R50; the rows run as operations of their own are the model's choice, log 2). -/
def Obligations.paused_visit : Prop :=
  ∀ (s : State) (h : Handle), s.halt = .running →
    (s.cfg.numVoices ≤ h.toNat → ∀ i ∈ [Instr.voiceActive h, .voicePaused h, .voiceIdle h],
      exec i s = .next { s with halt := .halted .voiceBadHandle }) ∧
    (h.toNat < s.cfg.numVoices →
      (steppable s h → ∃ t u, exec (envRow s h .a) s = .next t ∧ t.halt = .running ∧
        exec (envRow s h .f) t = .next u ∧ u.halt = .running ∧ exec (.voicePaused h) s = .next { u with sub := s.sub }) ∧
      ∀ i ∈ [Instr.voiceActive h, .voicePaused h],
        (voiceField s h (vState .a) = 7 → exec i s = .next { s with halt := .halted .envForceRelease }) ∧
        (7 < voiceField s h (vState .a) → exec i s = .next { s with halt := .halted .envBadState }) ∧
        (voiceField s h (vState .a) < 7 → ∃ t, exec (envRow s h .a) s = .next t ∧ t.halt = .running ∧
          (voiceField s h (vState .f) = 7 →
            exec i s = .next { t with sub := s.sub, halt := .halted .envForceRelease }) ∧
          (7 < voiceField s h (vState .f) →
            exec i s = .next { t with sub := s.sub, halt := .halted .envBadState })))

/-- The visit of an active voice with steppable envelopes is its two envelope steps, A first, which lead to `w`; paused, that
is all. Unpaused, it completes in a full table when the format is legal and the loop, if it loops, does not end before it
begins; in every table, its lanes are fetched in `w` one after the other, and it completes where they end: each fetched lane
gains its contributions at the level A stored, no other lane gains anything, `cbo` takes its new value, a voice that stops is
made inactive, and nothing else of `w` changes. It stops with `w`'s memory at the first lane whose position, or at the frame's
end whose new `cbo`, meets a loop that ends before it begins (VOICE_BAD_LOOP), and at the first fetch that takes a fatal:
VOICE_BAD_FORMAT of a format that is not legal, or SGE_RANGE (44_voice_walker_mixer R353 to R357, R369,
43_sample_fetch_decode R312, R313, R318, R319, R334, 60_exceptions R444; the rows run as operations of their own, on kept
bins, are the model's choice, log 2). -/
def Obligations.active_visit_completes : Prop :=
  ∀ (s : State) (h : Handle), s.halt = .running → h.toNat < s.cfg.numVoices → steppable s h →
    ∃ u w, exec (envRow s h .a) s = .next u ∧ u.halt = .running ∧ exec (envRow s h .f) u = .next w ∧ w.halt = .running ∧
      (voiceField s h vPaused = 1 → exec (.voiceActive h) s = .next { w with sub := s.sub }) ∧
      (voiceField s h vPaused = 0 → fullTable s .voice → legalFormat s h →
        voiceField s h vLoop = 0 ∨ voiceField s h vLbo ≤ voiceField s h vEbo →
        ∃ n q frame t, LanesFetched s w h n frame ∧ LanesEnd s w h n ∧ NewCbo s w h q ∧
          exec (.voiceActive h) s = .next t ∧ FrameEnded s w t h n q frame) ∧
      (voiceField s h vPaused = 0 → ∀ n frame, LanesFetched s w h n frame →
        (LanesEnd s w h n → ∀ q, NewCbo s w h q →
          ∃ t, exec (.voiceActive h) s = .next t ∧ FrameEnded s w t h n q frame) ∧
        (voiceField s h vLoop = 1 → voiceField s h vEbo < voiceField s h vLbo →
          voiceField s h vEbo < framePosition s h (voiceField w h (vLevel .f)) n →
          exec (.voiceActive h) s = .next { w with sub := s.sub, halt := .halted .voiceBadLoop }) ∧
        (n < 32 → ∀ q, Resolves s h (framePosition s h (voiceField w h (vLevel .f)) n) q →
          (¬ legalFormat s h → exec (.voiceActive h) s = .next { w with sub := s.sub, halt := .halted .voiceBadFormat }) ∧
          ∀ v code, exec (fetchRow s h q) w = .next v → v.halt = .halted code →
            exec (.voiceActive h) s = .next { w with sub := s.sub, halt := .halted code }))

/-! ## The frame tick -/

/-- While frame processing is off a firing changes nothing (44_voice_walker_mixer R367: it is not enabled; that it may be
presented at all is the model's form, log 14). -/
def Obligations.tick_while_disabled : Prop :=
  ∀ s : State, s.halt = .running → s.x.sectl.toNat / 8 % 4 = 0 → exec .tick s = .next s

/-- A tick over three empty lists: each list's current voice is the terminator and no other register changes. A core held
in reset keeps its cells and its engine, but that the mix buffer is overwritten with 0; a released core's quantum reaches
guest memory and its own core's cells and engine, and neither the global registers, nor the interrupt line, nor the other
core (44_voice_walker_mixer R352, R367, R372, R374, R377; what a quantum does there is free, log 10). -/
def Obligations.empty_tick : Prop :=
  ∀ s : State, s.halt = .running → s.x.sectl.toNat / 8 % 4 ≠ 0 →
    (∀ l, argHandle (tvl s l) = Config.handleNil) →
    ∃ t, exec .tick s = .next t ∧ (∀ l, cvl t l = 0xFFFF) ∧
      s.OnlyEngines { t with x := { t.x with cvl2d := s.x.cvl2d, cvl3d := s.x.cvl3d, cvlmp := s.x.cvlmp } } ∧
      (∀ d, released (s.rst d) = false → t.dma d = s.dma d ∧ ∀ sp j, dspRead t d sp j =
        if d = .gp ∧ sp = .x ∧ s.cfg.mixbufBase ≤ j ∧ j < s.cfg.mixbufBase + 1024 then 0 else dspRead s d sp j) ∧
      ((∀ d, released (s.rst d) = false) → t.dspGp.y = s.dspGp.y ∧ t.dspGp.p = s.dspGp.p ∧
        { t with dspGp := s.dspGp, x := { t.x with cvl2d := s.x.cvl2d, cvl3d := s.x.cvl3d, cvlmp := s.x.cvlmp } } = s)

/-- A tick over three finite lists of ready voices walks every list to its terminator and is the visits of their voices, in
the order 2D, 3D, MP, run one after the other on bins that begin at 0, then the mix-buffer write and the quanta: CVL names
the terminator, and NVL too where the list had a voice, an empty list leaving its own; the mix buffer of a core held in reset
holds the bins the last visit left, cut to the cell's width, and nothing but what the visits did, the list registers and a
released core's quantum is changed (44_voice_walker_mixer R350 to R359, R367, R368, R372,
R374, R377; the visits as rows of their own are the model's choice, log 2, and what a quantum does is free, log 10). -/
def Obligations.tick_completes : Prop :=
  ∀ (s : State) (voices : VoiceList → List Handle), s.halt = .running → s.x.sectl.toNat / 8 % 4 ≠ 0 →
    fullTable s .voice →
    (∀ l, Linked s (argHandle (tvl s l)) (voices l) ∧ (voices l).length ≤ s.cfg.numVoices ∧
      ∀ h ∈ voices l, VoiceReady s h) →
    ∃ t u, exec .tick s = .next t ∧
      visits (voices .l2d ++ voices .l3d ++ voices .lmp) { s with sub := { s.sub with mix := [] } } = .next u ∧
      u.halt = .running ∧ (u.asWalked t).OnlyEngines t ∧ t.sub = s.sub ∧
      (∀ l, tvl t l = tvl s l ∧ cvl t l = 0xFFFF ∧ nvl t l = if voices l = [] then nvl s l else 0xFFFF) ∧
      s.OnlyEngines { t.asWalked s with
        irq := s.irq, x := { (t.asWalked s).x with ists := s.x.ists, fectl := s.x.fectl } } ∧
      (∀ d, released (s.rst d) = false → t.dma d = s.dma d ∧ ∀ sp j, dspRead t d sp j =
        if d = .gp ∧ sp = .x ∧ s.cfg.mixbufBase ≤ j ∧ j < s.cfg.mixbufBase + 1024 then
          BitVec.ofNat 32 ((u.sub.mix.get (j - s.cfg.mixbufBase)).toNat % 2 ^ s.cfg.cellBits)
        else dspRead s d sp j) ∧
      ((∀ d, released (s.rst d) = false) → t.halt = .running ∧ t.mem = u.mem ∧ t.oracle = s.oracle ∧
        t.dspData = s.dspData ∧ t.dspGp.y = s.dspGp.y ∧ t.dspGp.p = s.dspGp.p ∧ t.dspEp = s.dspEp)

/-- A tick stops where its walk does: the lists before list `l` end, and `l` leads past ready voices to `last`. A `last`
outside the table takes VOICE_BAD_HANDLE, a voice whose visit takes a fatal takes that one. All that the visits wrote stays,
CVL names `last` and NVL, where `last` is a voice, its link; the later lists are not walked, no core has a quantum, and no
cell is written, so that the mix buffer keeps the previous tick's values (44_voice_walker_mixer R351, R358, R380; the visits
as rows of their own are the model's choice, log 2). -/
def Obligations.tick_stopped : Prop :=
  ∀ (s : State) (l : VoiceList) (last : Handle) (voices : VoiceList → List Handle), s.halt = .running →
    s.x.sectl.toNat / 8 % 4 ≠ 0 → fullTable s .voice → last ≠ Config.handleNil →
    (∀ k, k ∈ listsBefore l ∨ k = l →
      LinkedTo s (argHandle (tvl s k)) (if k = l then last else Config.handleNil) (voices k) ∧
      (voices k).length ≤ s.cfg.numVoices ∧ ∀ h ∈ voices k, VoiceReady s h) →
    ∃ u, visits ((listsBefore l).flatMap voices ++ voices l) { s with sub := { s.sub with mix := [] } } = .next u ∧
      u.halt = .running ∧
      (s.cfg.numVoices ≤ last.toNat → ∃ t, exec .tick s = .next t ∧ t.halt = .halted .voiceBadHandle ∧
        t.asWalked u = u ∧ t.sub = s.sub ∧ t.dspGp = s.dspGp ∧ t.dspEp = s.dspEp ∧
        cvl t l = BitVec.ofNat 32 last.toNat ∧
        nvl t l = (if voices l = [] then nvl s l else BitVec.ofNat 32 last.toNat) ∧
        ∀ k, k ∉ listsBefore l → k ≠ l → cvl t k = cvl s k ∧ nvl t k = nvl s k) ∧
      ∀ w code, last.toNat < s.cfg.numVoices → exec (visitRow u last) u = .next w → w.halt = .halted code →
        ∃ t, exec .tick s = .next t ∧ t.halt = .halted code ∧
          t.asWalked w = w ∧ t.sub = s.sub ∧ t.dspGp = s.dspGp ∧ t.dspEp = s.dspEp ∧
          cvl t l = BitVec.ofNat 32 last.toNat ∧ nvl t l = BitVec.ofNat 32 (voiceField u last vLink) ∧
          ∀ k, k ∉ listsBefore l → k ≠ l → cvl t k = cvl s k ∧ nvl t k = nvl s k

/-! ## The DMA engine -/

/-- CONFIGURATION, START_BLOCK and NEXT_BLOCK store what is written and run no chain; a read gives the stored word, of
CONTROL its three status bits, and changes nothing (45_dma_engine R391, R393 to R395). -/
def Obligations.dma_register_accessed : Prop :=
  ∀ (s : State) (c : Core) (v : Word), s.halt = .running →
    exec (.dmaConfiguration c (.write v)) s = .next (s.setDma c { s.dma c with configuration := v }) ∧
    exec (.dmaStartBlock c (.write v)) s = .next (s.setDma c { s.dma c with startBlock := v }) ∧
    exec (.dmaNextBlock c (.write v)) s = .next (s.setDma c { s.dma c with nextBlock := v }) ∧
    exec (.dmaConfiguration c .read) s = .next { s with dspData := (s.dma c).configuration } ∧
    exec (.dmaControl c .read) s = .next { s with dspData := (s.dma c).control &&& 0x38 } ∧
    exec (.dmaStartBlock c .read) s = .next { s with dspData := (s.dma c).startBlock } ∧
    exec (.dmaNextBlock c .read) s = .next { s with dspData := (s.dma c).nextBlock }

/-- The table of actions, wherever no walk follows: only CONTROL changes, from each of its four values to the table's
(45_dma_engine R397 to R402, R405). -/
def Obligations.action_without_walk : Prop :=
  ∀ (s : State) (c : Core) (rest : BitVec 29), s.halt = .running →
    ∀ p ∈ [(Instr.dmaActNop c rest, (0x20 : Word), (0x20 : Word)), (.dmaActNop c rest, 0x18, 0x18),
      (.dmaActNop c rest, 0x28, 0x28), (.dmaActStart c rest, 0x18, 0x18), (.dmaActStart c rest, 0x28, 0x18),
      (.dmaActStop c rest, 0x20, 0x20), (.dmaActStop c rest, 0x10, 0x20), (.dmaActStop c rest, 0x18, 0x28),
      (.dmaActStop c rest, 0x28, 0x28), (.dmaActFreeze c rest, 0x20, 0x28), (.dmaActFreeze c rest, 0x10, 0x18),
      (.dmaActFreeze c rest, 0x18, 0x18), (.dmaActFreeze c rest, 0x28, 0x28), (.dmaActUnfreeze c rest, 0x20, 0x20),
      (.dmaActUnfreeze c rest, 0x28, 0x20)],
      (s.dma c).control = p.2.1 → exec p.1 s = .next (s.setDma c { s.dma c with control := p.2.2 })

/-- The entries of the table that walk, at an end-of-list pointer: `eol` is set, the engine runs on, nothing is read or
moved (45_dma_engine R397 to R399, R402, R406). -/
def Obligations.action_at_end_of_list : Prop :=
  ∀ (s : State) (c : Core) (rest : BitVec 29), s.halt = .running → (s.dma c).nextBlock.getLsbD 14 = true →
    ∀ p ∈ [(Instr.dmaActNop c rest, (0x10 : Word)), (.dmaActStart c rest, 0x20), (.dmaActStart c rest, 0x10),
      (.dmaActUnfreeze c rest, 0x10), (.dmaActUnfreeze c rest, 0x18)],
      (s.dma c).control = p.2 → exec p.1 s = .next (s.setDma c { s.dma c with control := 0x10, eol := true })

/-- The operations that are fatal on every operand take their fatal and change nothing else: actions 5 to 7, force-release
and the bad state codes, the illegal formats (45_dma_engine R403, 42_envelope R294, R295, 43_sample_fetch_decode R319; the
envelope and format rows run as operations of their own are the model's choice, log 2). -/
def Obligations.fatal_operations_taken : Prop :=
  ∀ (s : State) (c : Core) (rest : BitVec 29) (h : Handle) (e : Env) (low : BitVec 3) (p : Word), s.halt = .running →
    (∀ i ∈ [Instr.dmaActAbort c rest, .dmaActReserved6 c rest, .dmaActReserved7 c rest],
      exec i s = .next { s with halt := .halted .dmaBadAction }) ∧
    (h.toNat < s.cfg.numVoices →
      exec (.envForceRelease h e) s = .next { s with halt := .halted .envForceRelease } ∧
      exec (.envBadState h e low) s = .next { s with halt := .halted .envBadState } ∧
      ∀ i ∈ [Instr.fmtIllegalB8S16 h p, .fmtIllegalB8S24 h p, .fmtIllegalB8S32 h p, .fmtIllegalB16S24 h p,
        .fmtIllegalB16S32 h p],
        exec i s = .next { s with halt := .halted .voiceBadFormat })

/-- An action that walks is the rows of its descriptors, one descriptor after the other from CONTROL running on. At a
pointer with the EOL bit it returns with `eol` set; at a descriptor whose rows take a fatal it stops there, NEXT_BLOCK at that
descriptor's pointer, RUNNING 1, all that the rows wrote kept; past 16384 descriptors it takes CHAIN_CYCLE. A finite chain
ends: over descriptors in either direction or skipped, which no body rewrites and whose last pointer carries the EOL bit, in a
full table, the walk passes each of them and returns with NEXT_BLOCK at that pointer. The cells that no body fills, the other
core and its engine and every register are as before; where no body moves data into DSP memory both cores' memories are, where
none moves data to scratch guest memory is (45_dma_engine R397 to R399, R402, R404, R406, R411, R412, R417, R418, R421 to
R423; the bound is the model's, log 13, and the rows as operations of their own are its choice, log 2). -/
def Obligations.chain_terminates : Prop :=
  ∀ (s z : State) (c : Core) (rest : BitVec 29), s.halt = .running → z = s.setDma c { s.dma c with control := 0x10 } →
    ∀ p ∈ [(Instr.dmaActNop c rest, (0x10 : Word)), (.dmaActStart c rest, 0x20), (.dmaActStart c rest, 0x10),
      (.dmaActUnfreeze c rest, 0x10), (.dmaActUnfreeze c rest, 0x18)],
      (s.dma c).control = p.2 →
      (∀ n u, WalksTo c n z u →
        u.halt = .running ∧ u.dma c = { s.dma c with control := 0x10, nextBlock := (u.dma c).nextBlock } ∧
        (n ≤ 16384 → ptrEol (u.dma c).nextBlock = true →
          exec p.1 s = .next { u.setDma c { u.dma c with eol := true } with sub := s.sub }) ∧
        (n ≤ 16384 → ptrEol (u.dma c).nextBlock = false → ∀ v code, descriptorRows c u = .next v →
          v.halt = .halted code → exec p.1 s = .next { v with sub := s.sub } ∧ v.dma c = u.dma c) ∧
        (n = 16385 → exec p.1 s = .next { u with sub := s.sub, halt := .halted .chainCycle })) ∧
      ∀ (chain : List Descriptor) (last : Word), fullTable s (scratchTable c) →
        ChainTo s c last (s.dma c).nextBlock chain → chain.length ≤ 16384 → (∀ d ∈ chain, d.runs) →
        SteadyChain (s.dma c).nextBlock chain →
        ∃ u t, WalksTo c chain.length z u ∧ (u.dma c).nextBlock = last ∧ exec p.1 s = .next t ∧
          t = { u.setDma c { u.dma c with eol := true } with sub := s.sub } ∧ t.halt = .running ∧
          t.dma c = { s.dma c with control := 0x10, nextBlock := last, eol := true } ∧
          (∀ e, e ≠ c → t.dma e = s.dma e) ∧
          (∀ e sp j, ¬ (e = c ∧ ∃ d ∈ chain, d.fills sp j) → dspRead t e sp j = dspRead s e sp j) ∧
          ((∀ d ∈ chain, d.control.getLsbD 1 = true ∨ d.skipped) → t.dspGp = s.dspGp ∧ t.dspEp = s.dspEp) ∧
          ((∀ d ∈ chain, d.control.getLsbD 1 = false ∨ d.skipped) → t.mem = s.mem) ∧
          { t with mem := s.mem, dspGp := s.dspGp, dspEp := s.dspEp, dmaGp := s.dmaGp, dmaEp := s.dmaEp } = s

/-- A format class gives its item size, or takes DMA_BAD_FORMAT (45_dma_engine R412; the class run as an operation of its
own, on kept walk values, is the model's choice, log 2). -/
def Obligations.format_classified : Prop :=
  ∀ (s : State) (c : Core), s.halt = .running →
    (∀ p ∈ [(Instr.descFormat1 c, 2), (.descFormat2 c, 4), (.descFormat6 c, 4)],
      exec p.1 s = .next (s.setWalk c { s.walk c with itemSize := p.2 })) ∧
    ∀ i ∈ [Instr.descFormat0 c, .descFormat3 c, .descFormat4 c, .descFormat5 c, .descFormat7 c],
      exec i s = .next { s with halt := .halted .dmaBadFormat }

/-- The buffer classes: circular is skipped unless the items end strictly before the buffer's end and targets base plus
offset; any other targets the offset with no check (45_dma_engine R414, R415; the class run as an operation of its own, on
kept walk values, is the model's choice, log 2). -/
def Obligations.buffer_selected : Prop :=
  ∀ (s : State) (c : Core) (bufId : BitVec 4) (w : Walk), s.halt = .running → s.walk c = w →
    exec (.descBufCircular c) s = .next (s.setWalk c { w with
      skip := decide (w.desc.scratchSizeM1.toNat + 1 ≤ w.desc.scratchOffset.toNat + w.desc.count.toNat * w.itemSize)
      target := w.desc.scratchBase + w.desc.scratchOffset }) ∧
    exec (.descBufOffset c bufId) s = .next (s.setWalk c { w with skip := false, target := w.desc.scratchOffset })

/-- The pointer classes: an end-of-list pointer sets `eol`; a block pointer reads the seven cells, or takes DMA_BOUNDS where
they do not lie in X (45_dma_engine R406, R410, R411; the class run as an operation of its own, its descriptor kept, is the
model's choice, log 2). -/
def Obligations.pointer_followed : Prop :=
  ∀ (s : State) (c : Core) (addr : BitVec 14), s.halt = .running →
    exec (.descPtrEol c addr) s = .next (s.setDma c { s.dma c with eol := true }) ∧
    (addr.toNat + 6 < s.cfg.xSize → exec (.descPtrBlock c addr) s = .next (s.setWalk c { s.walk c with desc :=
      { next := dspRead s c .x addr.toNat, control := dspRead s c .x (addr.toNat + 1),
        count := dspRead s c .x (addr.toNat + 2), dspOffset := dspRead s c .x (addr.toNat + 3),
        scratchOffset := dspRead s c .x (addr.toNat + 4), scratchBase := dspRead s c .x (addr.toNat + 5),
        scratchSizeM1 := dspRead s c .x (addr.toNat + 6) } })) ∧
    (s.cfg.xSize ≤ addr.toNat + 6 → exec (.descPtrBlock c addr) s = .next { s with halt := .halted .dmaBounds })

/-- A skipped body only advances the chain; an unskipped one outside the windows takes DMA_BOUNDS with nothing moved
(45_dma_engine R404, R415, R417; the class run as an operation of its own, on kept walk values, is the model's choice,
log 2). -/
def Obligations.direction_skipped_or_bounded : Prop :=
  ∀ (s : State) (c : Core) (w : Walk), s.halt = .running → s.walk c = w →
    ∀ i ∈ [Instr.descDirDspToScratch c, .descDirScratchToDsp c],
      (w.skip = true → exec i s = .next (s.setDma c { s.dma c with nextBlock := w.desc.next })) ∧
      (w.skip = false →
        (∀ lo hi, (lo, hi) ∈ [(0, 0x1800), (0x1800, 0x2000), (0x2800, 0x3800)] →
          ¬ (lo ≤ w.desc.dspOffset.toNat ∧ w.desc.dspOffset.toNat < hi ∧
            w.desc.dspOffset.toNat + w.desc.count.toNat ≤ hi)) →
        exec i s = .next { s with halt := .halted .dmaBounds })

/-- Scratch to DSP: cell `idx + k` of the space that the offset names takes item `k`, the little-endian number of its bytes,
each read where its linear address translates to, cut to the item's bits; no other cell, no guest byte and no register but
NEXT_BLOCK changes. Where a byte of item `m` is the first that does not translate, the `m` items before it are moved and
SGE_RANGE is taken with NEXT_BLOCK where it was; a full table has none (45_dma_engine R416 to R418, R423, 20_memory R98; the
class run as an operation of its own, on kept walk values, is the model's choice, log 2). -/
def Obligations.scratch_to_dsp_moved : Prop :=
  ∀ (s : State) (c : Core) (w : Walk) (sp : Space) (lo hi idx m : Nat) (addr : Nat → Word), s.halt = .running →
    s.walk c = w → w.skip = false → (w.itemSize = 2 ∨ w.itemSize = 4) →
    (sp, lo, hi) ∈ [(Space.x, 0, 0x1800), (.y, 0x1800, 0x2000), (.p, 0x2800, 0x3800)] →
    w.desc.dspOffset.toNat = lo + idx → lo + idx < hi → lo + idx + w.desc.count.toNat ≤ hi → m ≤ w.desc.count.toNat →
    (∀ j, j < m * w.itemSize → translate s (scratchTable c) (w.target + BitVec.ofNat 32 j) = .ok (addr j)) →
    (fullTable s (scratchTable c) → ∀ a, ∃ b, translate s (scratchTable c) a = .ok b) ∧
    ((m = w.desc.count.toNat ∨ (m < w.desc.count.toNat ∧ ∃ j, m * w.itemSize ≤ j ∧ j < (m + 1) * w.itemSize ∧
        translate s (scratchTable c) (w.target + BitVec.ofNat 32 j) = .error .sgeRange)) →
      ∃ t, exec (.descDirScratchToDsp c) s = .next t ∧
        (∀ k, k < m → dspRead t c sp (idx + k) = BitVec.ofNat 32
          (littleEndian w.itemSize (fun b => memByte s.mem (addr (k * w.itemSize + b))) %
            (if w.itemSize = 2 then 2 ^ 16 else 2 ^ 24) % 2 ^ s.cfg.cellBits)) ∧
        (∀ d sq j, ¬ (d = c ∧ sq = sp ∧ idx ≤ j ∧ j < idx + m) → dspRead t d sq j = dspRead s d sq j) ∧
        (m = w.desc.count.toNat → t.halt = .running ∧ t.dma c = { s.dma c with nextBlock := w.desc.next }) ∧
        (m < w.desc.count.toNat → t.halt = .halted .sgeRange ∧ t.dma c = s.dma c) ∧
        (∀ d, d ≠ c → t.dma d = s.dma d) ∧
        { t with halt := s.halt, dspGp := s.dspGp, dspEp := s.dspEp, dmaGp := s.dmaGp, dmaEp := s.dmaEp } = s)

/-- DSP to scratch: byte `j` of the items, each cut to its bits, is stored where linear address `target + j` translates to
in the guest memory its turn finds, `mem j` being guest memory once `j` bytes are stored; no cell and no register but
NEXT_BLOCK changes. Where byte `n` of the transfer is the first that does not translate, the bytes before it stay stored and
SGE_RANGE is taken with NEXT_BLOCK where it was. A transfer of `n` bytes that writes none of its own entries stores each byte
at its own translation, and no other guest byte changes (45_dma_engine R416 to R418, R423, 20_memory R98; the class run as
an operation of its own, on kept walk values, is the model's choice, log 2). -/
def Obligations.dsp_to_scratch_moved : Prop :=
  ∀ (s : State) (c : Core) (w : Walk) (sp : Space) (lo hi idx n : Nat) (addr : Nat → Word) (byte : Nat → Byte),
    s.halt = .running → s.walk c = w → w.skip = false → (w.itemSize = 2 ∨ w.itemSize = 4) →
    (sp, lo, hi) ∈ [(Space.x, 0, 0x1800), (.y, 0x1800, 0x2000), (.p, 0x2800, 0x3800)] →
    w.desc.dspOffset.toNat = lo + idx → lo + idx < hi → lo + idx + w.desc.count.toNat ≤ hi →
    n ≤ w.desc.count.toNat * w.itemSize →
    (∀ j, byte j = BitVec.ofNat 8 (((dspRead s c sp (idx + j / w.itemSize)).toNat %
      if w.itemSize = 2 then 2 ^ 16 else 2 ^ 24) / 256 ^ (j % w.itemSize))) →
    (∀ mem : Nat → Store 8, mem 0 = s.mem →
      (∀ j, j < n → translate { s with mem := mem j } (scratchTable c) (w.target + BitVec.ofNat 32 j) = .ok (addr j) ∧
        mem (j + 1) = (mem j).set (addr j).toNat (byte j)) →
      (n = w.desc.count.toNat * w.itemSize → exec (.descDirDspToScratch c) s =
        .next (State.setDma { s with mem := mem n } c { s.dma c with nextBlock := w.desc.next })) ∧
      (n < w.desc.count.toNat * w.itemSize →
        translate { s with mem := mem n } (scratchTable c) (w.target + BitVec.ofNat 32 n) = .error .sgeRange →
        exec (.descDirDspToScratch c) s = .next { s with mem := mem n, halt := .halted .sgeRange })) ∧
    ((∀ j, j < n → translate s (scratchTable c) (w.target + BitVec.ofNat 32 j) = .ok (addr j)) →
      (∀ j k, j < w.desc.count.toNat * w.itemSize → k < n → 4 ≤ (addr k - ((sgTable s (scratchTable c)).1 +
        BitVec.ofNat 32 ((w.target + BitVec.ofNat 32 j).toNat / s.cfg.pageSize * 8))).toNat) →
      (n = w.desc.count.toNat * w.itemSize ∨ (n < w.desc.count.toNat * w.itemSize ∧
        translate s (scratchTable c) (w.target + BitVec.ofNat 32 n) = .error .sgeRange)) →
      ∃ t, exec (.descDirDspToScratch c) s = .next t ∧
        ((∀ j k, j < n → k < n → addr j = addr k → j = k) → ∀ j, j < n → memByte t.mem (addr j) = byte j) ∧
        (∀ a, (∀ j, j < n → a ≠ addr j) → memByte t.mem a = memByte s.mem a) ∧
        (n = w.desc.count.toNat * w.itemSize → t.halt = .running ∧ t.dma c = { s.dma c with nextBlock := w.desc.next }) ∧
        (n < w.desc.count.toNat * w.itemSize → t.halt = .halted .sgeRange ∧ t.dma c = s.dma c) ∧
        (∀ d, d ≠ c → t.dma d = s.dma d) ∧
        { t with halt := s.halt, mem := s.mem, dmaGp := s.dmaGp, dmaEp := s.dmaEp } = s)
end

