-- ==== Sys2Proof/Laws/Memory.lean ====
section
/-! SUPPORT. The laws of memory: a read after a write, and the canonical form every write keeps (10_state R61, R62;
20_memory R81, R82). -/

namespace Sys2Proof.Machine

/-! ## One location -/

theorem Store.get_erase {w : Nat} (m : Store w) (k j : Nat) :
    (m.erase k).get j = if j = k then Store.unlisted w else m.get j := by
  induction m with
  | nil => simp [Store.erase, Store.get]
  | cons p r ih =>
    obtain ⟨a, x⟩ := p
    simp only [Store.erase, Store.get]
    by_cases ha : a = k
    · rw [if_pos ha, ih]
      by_cases hj : j = k
      · simp [hj]
      · rw [if_neg hj, if_neg hj, if_neg (by omega)]
    · rw [if_neg ha]
      simp only [Store.get, ih]
      by_cases hj : j = k
      · simp [hj, ha]
      · simp [hj]

theorem Store.get_insert {w : Nat} (m : Store w) (k j : Nat) (v : BitVec w) (h : ∀ p ∈ m, p.1 ≠ k) :
    (m.insert k v).get j = if j = k then v else m.get j := by
  induction m with
  | nil => simp [Store.insert, Store.get, eq_comm]
  | cons p r ih =>
    obtain ⟨a, x⟩ := p
    have ha : a ≠ k := h (a, x) (by simp)
    have hr := ih fun p hp => h p (by simp [hp])
    simp only [Store.insert]
    split
    · simp only [Store.get, eq_comm (a := k)]
    · simp only [Store.get, hr]
      split <;> simp_all

theorem Store.erase_ne {w : Nat} (m : Store w) (k : Nat) : ∀ p ∈ m.erase k, p.1 ≠ k := by
  induction m with
  | nil => simp [Store.erase]
  | cons p r ih =>
    obtain ⟨a, x⟩ := p
    simp only [Store.erase]
    split
    · exact ih
    · rename_i hne
      intro p hp
      rcases List.mem_cons.mp hp with rfl | hp
      · exact hne
      · exact ih p hp

/-- A read after a write: the written value there, the old value everywhere else. -/
theorem Store.get_set {w : Nat} (m : Store w) (k j : Nat) (v : BitVec w) :
    (m.set k v).get j = if j = k then v else m.get j := by
  unfold Store.set
  split
  · rename_i hv
    rw [Store.get_erase, hv]
  · rw [Store.get_insert _ _ _ _ (Store.erase_ne m k), Store.get_erase]
    split <;> rfl

@[simp] theorem Store.get_set_same {w : Nat} (m : Store w) (k : Nat) (v : BitVec w) : (m.set k v).get k = v := by
  simp [Store.get_set]

theorem Store.get_set_other {w : Nat} (m : Store w) {k j : Nat} (h : j ≠ k) (v : BitVec w) :
    (m.set k v).get j = m.get j := by
  simp [Store.get_set, h]

/-! ## The canonical form -/

/-- Every address of the memory is above `k`. -/
def Store.above {w : Nat} (k : Nat) (m : Store w) : Prop := ∀ p ∈ m, k < p.1

theorem Store.wf_cons {w : Nat} (a : Nat) (x : BitVec w) (r : Store w) :
    Store.wf ((a, x) :: r) = true ↔ x ≠ Store.unlisted w ∧ Store.above a r ∧ r.wf = true := by
  induction r generalizing a x with
  | nil => simp [Store.wf, Store.above]
  | cons p r ih =>
    obtain ⟨b, y⟩ := p
    simp only [Store.wf, Bool.and_eq_true, decide_eq_true_eq, bne_iff_ne, Store.above]
    constructor
    · rintro ⟨⟨hab, hx⟩, hr⟩
      refine ⟨hx, ?_, hr⟩
      intro p hp
      rcases List.mem_cons.mp hp with rfl | hp
      · exact hab
      · exact Nat.lt_trans hab (((ih b y).mp hr).2.1 p hp)
    · rintro ⟨hx, hab, hr⟩
      exact ⟨⟨hab (b, y) (by simp), hx⟩, hr⟩

theorem Store.above_erase {w : Nat} {a : Nat} {m : Store w} (h : m.above a) (k : Nat) : (m.erase k).above a := by
  induction m with
  | nil => simpa [Store.erase] using h
  | cons p r ih =>
    obtain ⟨b, y⟩ := p
    have hr : Store.above a r := fun p hp => h p (by simp [hp])
    simp only [Store.erase]
    split
    · exact ih hr
    · intro p hp
      rcases List.mem_cons.mp hp with rfl | hp
      · exact h (b, y) (by simp)
      · exact ih hr p hp

theorem Store.above_insert {w : Nat} {a k : Nat} {m : Store w} (h : m.above a) (hk : a < k) (v : BitVec w) :
    (m.insert k v).above a := by
  induction m with
  | nil => simp [Store.insert, Store.above, hk]
  | cons p r ih =>
    obtain ⟨b, y⟩ := p
    have hr : Store.above a r := fun p hp => h p (by simp [hp])
    simp only [Store.insert]
    split
    · intro p hp
      rcases List.mem_cons.mp hp with rfl | hp
      · exact hk
      · exact h p hp
    · intro p hp
      rcases List.mem_cons.mp hp with rfl | hp
      · exact h (b, y) (by simp)
      · exact ih hr p hp

theorem Store.wf_erase {w : Nat} {m : Store w} (h : m.wf = true) (k : Nat) : (m.erase k).wf = true := by
  induction m with
  | nil => rfl
  | cons p r ih =>
    obtain ⟨a, x⟩ := p
    obtain ⟨hx, ha, hr⟩ := (Store.wf_cons a x r).mp h
    simp only [Store.erase]
    split
    · exact ih hr
    · exact (Store.wf_cons _ _ _).mpr ⟨hx, Store.above_erase ha k, ih hr⟩

theorem Store.wf_insert {w : Nat} {m : Store w} (h : m.wf = true) {k : Nat} (hk : ∀ p ∈ m, p.1 ≠ k) {v : BitVec w}
    (hv : v ≠ Store.unlisted w) : (m.insert k v).wf = true := by
  induction m with
  | nil => simp [Store.insert, Store.wf, hv]
  | cons p r ih =>
    obtain ⟨a, x⟩ := p
    obtain ⟨hx, ha, hr⟩ := (Store.wf_cons a x r).mp h
    have hne : a ≠ k := hk (a, x) (by simp)
    simp only [Store.insert]
    split
    · rename_i hlt
      refine (Store.wf_cons _ _ _).mpr ⟨hv, ?_, h⟩
      intro p hp
      rcases List.mem_cons.mp hp with rfl | hp
      · exact hlt
      · exact Nat.lt_trans hlt (ha p hp)
    · refine (Store.wf_cons _ _ _).mpr ⟨hx, Store.above_insert ha (by omega) v, ih hr fun p hp => hk p (by simp [hp])⟩

/-- Every write of one location keeps the canonical form. -/
theorem Store.wf_set {w : Nat} {m : Store w} (h : m.wf = true) (k : Nat) (v : BitVec w) : (m.set k v).wf = true := by
  unfold Store.set
  split
  · exact Store.wf_erase h k
  · exact Store.wf_insert (Store.wf_erase h k) (Store.erase_ne m k) ‹_›

/-! ## Bytes of guest memory -/

/-- A multi-byte write keeps the canonical form. -/
theorem wf_memWriteNat {m : Store 8} (h : m.wf = true) (a : Word) (n v : Nat) : (memWriteNat m a n v).wf = true := by
  induction n generalizing m a v with
  | zero => exact h
  | succ n ih => exact ih (Store.wf_set h _ _) _ _

theorem wf_memWrite {m : Store 8} (h : m.wf = true) (a : Word) (n : Nat) (v : Word) : (memWrite m a n v).wf = true :=
  wf_memWriteNat h a n v.toNat

theorem memByte_set (m : Store 8) (a b : Word) (v : Byte) :
    memByte (m.set a.toNat v) b = if b = a then v else memByte m b := by
  simp only [memByte, Store.get_set, BitVec.toNat_inj]

/-- Byte `k` of a write of `n` bytes (20_memory R82). -/
theorem memByte_memWriteNat (m : Store 8) (a b : Word) (n v : Nat) (hn : n ≤ 2 ^ 32) :
    memByte (memWriteNat m a n v) b =
      if (b - a).toNat < n then BitVec.ofNat 8 (v / 256 ^ (b - a).toNat) else memByte m b := by
  induction n generalizing m a v with
  | zero => simp [memWriteNat]
  | succ n ih =>
    rw [memWriteNat, ih _ _ _ (by omega), memByte_set]
    by_cases hba : b = a
    · subst hba
      have h0 : ¬ (b - (b + 1)).toNat < n := by
        have : (b - (b + 1)).toNat = 2 ^ 32 - 1 := by bv_omega
        omega
      rw [if_neg h0, if_pos rfl, BitVec.sub_self, if_pos (by simp)]
      simp
    · have hd : (b - a).toNat = (b - (a + 1)).toNat + 1 := by bv_omega
      rw [hd, if_neg hba]
      by_cases h1 : (b - (a + 1)).toNat < n
      · rw [if_pos h1, if_pos (by omega), Nat.div_div_eq_div_mul, Nat.pow_succ, Nat.mul_comm 256]
      · rw [if_neg h1, if_neg (by omega)]

/-- Bytes outside a write keep their value. -/
theorem memByte_memWrite_other (m : Store 8) (a b : Word) (n : Nat) (v : Word) (hn : n ≤ 2 ^ 32)
    (h : n ≤ (b - a).toNat) : memByte (memWrite m a n v) b = memByte m b := by
  rw [memWrite, memByte_memWriteNat _ _ _ _ _ hn, if_neg (by omega)]

/-- A read depends on its bytes only. -/
theorem memReadNat_congr (m m' : Store 8) (a : Word) (n : Nat)
    (h : ∀ k, k < n → memByte m (a + BitVec.ofNat 32 k) = memByte m' (a + BitVec.ofNat 32 k)) :
    memReadNat m a n = memReadNat m' a n := by
  induction n generalizing a with
  | zero => rfl
  | succ n ih =>
    have h0 := h 0 (by omega)
    have h0' : memByte m a = memByte m' a := by simpa using h0
    rw [memReadNat, memReadNat, h0', ih]
    intro k hk
    have := h (k + 1) (by omega)
    have e : a + BitVec.ofNat 32 (k + 1) = a + 1 + BitVec.ofNat 32 k := by
      rw [BitVec.add_assoc]
      congr 1
      rw [show (1 : BitVec 32) = BitVec.ofNat 32 1 from rfl, ← BitVec.ofNat_add, Nat.add_comm]
    rwa [e] at this

/-- A read of `n` bytes just written gives the low `8n` bits (20_memory R82). -/
theorem memReadNat_memWriteNat (m : Store 8) (a : Word) (n v : Nat) (hn : n ≤ 2 ^ 32) :
    memReadNat (memWriteNat m a n v) a n = v % 256 ^ n := by
  induction n generalizing m a v with
  | zero => simp [memReadNat, Nat.mod_one]
  | succ n ih =>
    have hb : memByte (memWriteNat m a (n + 1) v) a = BitVec.ofNat 8 v := by
      rw [memByte_memWriteNat _ _ _ _ _ hn]
      simp
    rw [memReadNat, hb]
    have : memReadNat (memWriteNat m a (n + 1) v) (a + 1) n = (v / 256) % 256 ^ n := by
      rw [memWriteNat]
      exact ih _ _ _ (by omega)
    rw [this, Nat.pow_succ]
    simp only [BitVec.toNat_ofNat]
    rw [Nat.mul_comm (256 ^ n) 256, Nat.mod_mul]

/-- A word just written reads back (20_memory R82). -/
@[simp] theorem memRead_memWrite_same (m : Store 8) (a v : Word) : memRead (memWrite m a 4 v) a 4 = v := by
  rw [memRead, memWrite, memReadNat_memWriteNat _ _ _ _ (by omega), Nat.mod_eq_of_lt (by have := v.isLt; omega)]
  simp

/-- A word read away from a written word is as before. -/
theorem memRead_memWrite_other (m : Store 8) (a b v : Word) (h1 : 4 ≤ (b - a).toNat) (h2 : 4 ≤ (a - b).toNat) :
    memRead (memWrite m a 4 v) b 4 = memRead m b 4 := by
  rw [memRead, memRead, memReadNat_congr]
  intro k hk
  apply memByte_memWrite_other _ _ _ _ _ (by omega)
  have : k = 0 ∨ k = 1 ∨ k = 2 ∨ k = 3 := by omega
  rcases this with rfl | rfl | rfl | rfl <;> bv_omega

end Sys2Proof.Machine
end

