-- ==== Sys2Proof/Laws/State.lean ====
section
/-! SUPPORT. What each update of the state does to each field, once, so that no later proof unfolds a record update. -/

namespace Sys2Proof.Machine

/-! ### setX -/

@[simp] theorem setX_cfg (s : State) (v : GlobalRegs) : (s.setX v).cfg = s.cfg := rfl
@[simp] theorem setX_x (s : State) (v : GlobalRegs) : (s.setX v).x = v := rfl
@[simp] theorem setX_inbufSge (s : State) (v : GlobalRegs) : (s.setX v).inbufSge = s.inbufSge := rfl
@[simp] theorem setX_outbufSge (s : State) (v : GlobalRegs) : (s.setX v).outbufSge = s.outbufSge := rfl
@[simp] theorem setX_gprst (s : State) (v : GlobalRegs) : (s.setX v).gprst = s.gprst := rfl
@[simp] theorem setX_eprst (s : State) (v : GlobalRegs) : (s.setX v).eprst = s.eprst := rfl
@[simp] theorem setX_irq (s : State) (v : GlobalRegs) : (s.setX v).irq = s.irq := rfl
@[simp] theorem setX_halt (s : State) (v : GlobalRegs) : (s.setX v).halt = s.halt := rfl
@[simp] theorem setX_dmaGp (s : State) (v : GlobalRegs) : (s.setX v).dmaGp = s.dmaGp := rfl
@[simp] theorem setX_dmaEp (s : State) (v : GlobalRegs) : (s.setX v).dmaEp = s.dmaEp := rfl
@[simp] theorem setX_dspGp (s : State) (v : GlobalRegs) : (s.setX v).dspGp = s.dspGp := rfl
@[simp] theorem setX_dspEp (s : State) (v : GlobalRegs) : (s.setX v).dspEp = s.dspEp := rfl
@[simp] theorem setX_mem (s : State) (v : GlobalRegs) : (s.setX v).mem = s.mem := rfl
@[simp] theorem setX_pending (s : State) (v : GlobalRegs) : (s.setX v).pending = s.pending := rfl
@[simp] theorem setX_hostData (s : State) (v : GlobalRegs) : (s.setX v).hostData = s.hostData := rfl
@[simp] theorem setX_dspData (s : State) (v : GlobalRegs) : (s.setX v).dspData = s.dspData := rfl
@[simp] theorem setX_oracle (s : State) (v : GlobalRegs) : (s.setX v).oracle = s.oracle := rfl
@[simp] theorem setX_sub (s : State) (v : GlobalRegs) : (s.setX v).sub = s.sub := rfl

/-! ### setMem -/

@[simp] theorem setMem_cfg (s : State) (v : Store 8) : (s.setMem v).cfg = s.cfg := rfl
@[simp] theorem setMem_x (s : State) (v : Store 8) : (s.setMem v).x = s.x := rfl
@[simp] theorem setMem_inbufSge (s : State) (v : Store 8) : (s.setMem v).inbufSge = s.inbufSge := rfl
@[simp] theorem setMem_outbufSge (s : State) (v : Store 8) : (s.setMem v).outbufSge = s.outbufSge := rfl
@[simp] theorem setMem_gprst (s : State) (v : Store 8) : (s.setMem v).gprst = s.gprst := rfl
@[simp] theorem setMem_eprst (s : State) (v : Store 8) : (s.setMem v).eprst = s.eprst := rfl
@[simp] theorem setMem_irq (s : State) (v : Store 8) : (s.setMem v).irq = s.irq := rfl
@[simp] theorem setMem_halt (s : State) (v : Store 8) : (s.setMem v).halt = s.halt := rfl
@[simp] theorem setMem_dmaGp (s : State) (v : Store 8) : (s.setMem v).dmaGp = s.dmaGp := rfl
@[simp] theorem setMem_dmaEp (s : State) (v : Store 8) : (s.setMem v).dmaEp = s.dmaEp := rfl
@[simp] theorem setMem_dspGp (s : State) (v : Store 8) : (s.setMem v).dspGp = s.dspGp := rfl
@[simp] theorem setMem_dspEp (s : State) (v : Store 8) : (s.setMem v).dspEp = s.dspEp := rfl
@[simp] theorem setMem_mem (s : State) (v : Store 8) : (s.setMem v).mem = v := rfl
@[simp] theorem setMem_pending (s : State) (v : Store 8) : (s.setMem v).pending = s.pending := rfl
@[simp] theorem setMem_hostData (s : State) (v : Store 8) : (s.setMem v).hostData = s.hostData := rfl
@[simp] theorem setMem_dspData (s : State) (v : Store 8) : (s.setMem v).dspData = s.dspData := rfl
@[simp] theorem setMem_oracle (s : State) (v : Store 8) : (s.setMem v).oracle = s.oracle := rfl
@[simp] theorem setMem_sub (s : State) (v : Store 8) : (s.setMem v).sub = s.sub := rfl

/-! ### setSub -/

@[simp] theorem setSub_cfg (s : State) (v : SubOp) : (s.setSub v).cfg = s.cfg := rfl
@[simp] theorem setSub_x (s : State) (v : SubOp) : (s.setSub v).x = s.x := rfl
@[simp] theorem setSub_inbufSge (s : State) (v : SubOp) : (s.setSub v).inbufSge = s.inbufSge := rfl
@[simp] theorem setSub_outbufSge (s : State) (v : SubOp) : (s.setSub v).outbufSge = s.outbufSge := rfl
@[simp] theorem setSub_gprst (s : State) (v : SubOp) : (s.setSub v).gprst = s.gprst := rfl
@[simp] theorem setSub_eprst (s : State) (v : SubOp) : (s.setSub v).eprst = s.eprst := rfl
@[simp] theorem setSub_irq (s : State) (v : SubOp) : (s.setSub v).irq = s.irq := rfl
@[simp] theorem setSub_halt (s : State) (v : SubOp) : (s.setSub v).halt = s.halt := rfl
@[simp] theorem setSub_dmaGp (s : State) (v : SubOp) : (s.setSub v).dmaGp = s.dmaGp := rfl
@[simp] theorem setSub_dmaEp (s : State) (v : SubOp) : (s.setSub v).dmaEp = s.dmaEp := rfl
@[simp] theorem setSub_dspGp (s : State) (v : SubOp) : (s.setSub v).dspGp = s.dspGp := rfl
@[simp] theorem setSub_dspEp (s : State) (v : SubOp) : (s.setSub v).dspEp = s.dspEp := rfl
@[simp] theorem setSub_mem (s : State) (v : SubOp) : (s.setSub v).mem = s.mem := rfl
@[simp] theorem setSub_pending (s : State) (v : SubOp) : (s.setSub v).pending = s.pending := rfl
@[simp] theorem setSub_hostData (s : State) (v : SubOp) : (s.setSub v).hostData = s.hostData := rfl
@[simp] theorem setSub_dspData (s : State) (v : SubOp) : (s.setSub v).dspData = s.dspData := rfl
@[simp] theorem setSub_oracle (s : State) (v : SubOp) : (s.setSub v).oracle = s.oracle := rfl
@[simp] theorem setSub_sub (s : State) (v : SubOp) : (s.setSub v).sub = v := rfl

/-! ### setHostData -/

@[simp] theorem setHostData_cfg (s : State) (v : Word) : (s.setHostData v).cfg = s.cfg := rfl
@[simp] theorem setHostData_x (s : State) (v : Word) : (s.setHostData v).x = s.x := rfl
@[simp] theorem setHostData_inbufSge (s : State) (v : Word) : (s.setHostData v).inbufSge = s.inbufSge := rfl
@[simp] theorem setHostData_outbufSge (s : State) (v : Word) : (s.setHostData v).outbufSge = s.outbufSge := rfl
@[simp] theorem setHostData_gprst (s : State) (v : Word) : (s.setHostData v).gprst = s.gprst := rfl
@[simp] theorem setHostData_eprst (s : State) (v : Word) : (s.setHostData v).eprst = s.eprst := rfl
@[simp] theorem setHostData_irq (s : State) (v : Word) : (s.setHostData v).irq = s.irq := rfl
@[simp] theorem setHostData_halt (s : State) (v : Word) : (s.setHostData v).halt = s.halt := rfl
@[simp] theorem setHostData_dmaGp (s : State) (v : Word) : (s.setHostData v).dmaGp = s.dmaGp := rfl
@[simp] theorem setHostData_dmaEp (s : State) (v : Word) : (s.setHostData v).dmaEp = s.dmaEp := rfl
@[simp] theorem setHostData_dspGp (s : State) (v : Word) : (s.setHostData v).dspGp = s.dspGp := rfl
@[simp] theorem setHostData_dspEp (s : State) (v : Word) : (s.setHostData v).dspEp = s.dspEp := rfl
@[simp] theorem setHostData_mem (s : State) (v : Word) : (s.setHostData v).mem = s.mem := rfl
@[simp] theorem setHostData_pending (s : State) (v : Word) : (s.setHostData v).pending = s.pending := rfl
@[simp] theorem setHostData_hostData (s : State) (v : Word) : (s.setHostData v).hostData = v := rfl
@[simp] theorem setHostData_dspData (s : State) (v : Word) : (s.setHostData v).dspData = s.dspData := rfl
@[simp] theorem setHostData_oracle (s : State) (v : Word) : (s.setHostData v).oracle = s.oracle := rfl
@[simp] theorem setHostData_sub (s : State) (v : Word) : (s.setHostData v).sub = s.sub := rfl

/-! ### setDspData -/

@[simp] theorem setDspData_cfg (s : State) (v : Word) : (s.setDspData v).cfg = s.cfg := rfl
@[simp] theorem setDspData_x (s : State) (v : Word) : (s.setDspData v).x = s.x := rfl
@[simp] theorem setDspData_inbufSge (s : State) (v : Word) : (s.setDspData v).inbufSge = s.inbufSge := rfl
@[simp] theorem setDspData_outbufSge (s : State) (v : Word) : (s.setDspData v).outbufSge = s.outbufSge := rfl
@[simp] theorem setDspData_gprst (s : State) (v : Word) : (s.setDspData v).gprst = s.gprst := rfl
@[simp] theorem setDspData_eprst (s : State) (v : Word) : (s.setDspData v).eprst = s.eprst := rfl
@[simp] theorem setDspData_irq (s : State) (v : Word) : (s.setDspData v).irq = s.irq := rfl
@[simp] theorem setDspData_halt (s : State) (v : Word) : (s.setDspData v).halt = s.halt := rfl
@[simp] theorem setDspData_dmaGp (s : State) (v : Word) : (s.setDspData v).dmaGp = s.dmaGp := rfl
@[simp] theorem setDspData_dmaEp (s : State) (v : Word) : (s.setDspData v).dmaEp = s.dmaEp := rfl
@[simp] theorem setDspData_dspGp (s : State) (v : Word) : (s.setDspData v).dspGp = s.dspGp := rfl
@[simp] theorem setDspData_dspEp (s : State) (v : Word) : (s.setDspData v).dspEp = s.dspEp := rfl
@[simp] theorem setDspData_mem (s : State) (v : Word) : (s.setDspData v).mem = s.mem := rfl
@[simp] theorem setDspData_pending (s : State) (v : Word) : (s.setDspData v).pending = s.pending := rfl
@[simp] theorem setDspData_hostData (s : State) (v : Word) : (s.setDspData v).hostData = s.hostData := rfl
@[simp] theorem setDspData_dspData (s : State) (v : Word) : (s.setDspData v).dspData = v := rfl
@[simp] theorem setDspData_oracle (s : State) (v : Word) : (s.setDspData v).oracle = s.oracle := rfl
@[simp] theorem setDspData_sub (s : State) (v : Word) : (s.setDspData v).sub = s.sub := rfl

/-! ### setIrq -/

@[simp] theorem setIrq_cfg (s : State) (v : Bool) : (s.setIrq v).cfg = s.cfg := rfl
@[simp] theorem setIrq_x (s : State) (v : Bool) : (s.setIrq v).x = s.x := rfl
@[simp] theorem setIrq_inbufSge (s : State) (v : Bool) : (s.setIrq v).inbufSge = s.inbufSge := rfl
@[simp] theorem setIrq_outbufSge (s : State) (v : Bool) : (s.setIrq v).outbufSge = s.outbufSge := rfl
@[simp] theorem setIrq_gprst (s : State) (v : Bool) : (s.setIrq v).gprst = s.gprst := rfl
@[simp] theorem setIrq_eprst (s : State) (v : Bool) : (s.setIrq v).eprst = s.eprst := rfl
@[simp] theorem setIrq_irq (s : State) (v : Bool) : (s.setIrq v).irq = v := rfl
@[simp] theorem setIrq_halt (s : State) (v : Bool) : (s.setIrq v).halt = s.halt := rfl
@[simp] theorem setIrq_dmaGp (s : State) (v : Bool) : (s.setIrq v).dmaGp = s.dmaGp := rfl
@[simp] theorem setIrq_dmaEp (s : State) (v : Bool) : (s.setIrq v).dmaEp = s.dmaEp := rfl
@[simp] theorem setIrq_dspGp (s : State) (v : Bool) : (s.setIrq v).dspGp = s.dspGp := rfl
@[simp] theorem setIrq_dspEp (s : State) (v : Bool) : (s.setIrq v).dspEp = s.dspEp := rfl
@[simp] theorem setIrq_mem (s : State) (v : Bool) : (s.setIrq v).mem = s.mem := rfl
@[simp] theorem setIrq_pending (s : State) (v : Bool) : (s.setIrq v).pending = s.pending := rfl
@[simp] theorem setIrq_hostData (s : State) (v : Bool) : (s.setIrq v).hostData = s.hostData := rfl
@[simp] theorem setIrq_dspData (s : State) (v : Bool) : (s.setIrq v).dspData = s.dspData := rfl
@[simp] theorem setIrq_oracle (s : State) (v : Bool) : (s.setIrq v).oracle = s.oracle := rfl
@[simp] theorem setIrq_sub (s : State) (v : Bool) : (s.setIrq v).sub = s.sub := rfl

/-! ### bumpOracle -/

@[simp] theorem bumpOracle_cfg (s : State) : (s.bumpOracle).cfg = s.cfg := rfl
@[simp] theorem bumpOracle_x (s : State) : (s.bumpOracle).x = s.x := rfl
@[simp] theorem bumpOracle_inbufSge (s : State) : (s.bumpOracle).inbufSge = s.inbufSge := rfl
@[simp] theorem bumpOracle_outbufSge (s : State) : (s.bumpOracle).outbufSge = s.outbufSge := rfl
@[simp] theorem bumpOracle_gprst (s : State) : (s.bumpOracle).gprst = s.gprst := rfl
@[simp] theorem bumpOracle_eprst (s : State) : (s.bumpOracle).eprst = s.eprst := rfl
@[simp] theorem bumpOracle_irq (s : State) : (s.bumpOracle).irq = s.irq := rfl
@[simp] theorem bumpOracle_halt (s : State) : (s.bumpOracle).halt = s.halt := rfl
@[simp] theorem bumpOracle_dmaGp (s : State) : (s.bumpOracle).dmaGp = s.dmaGp := rfl
@[simp] theorem bumpOracle_dmaEp (s : State) : (s.bumpOracle).dmaEp = s.dmaEp := rfl
@[simp] theorem bumpOracle_dspGp (s : State) : (s.bumpOracle).dspGp = s.dspGp := rfl
@[simp] theorem bumpOracle_dspEp (s : State) : (s.bumpOracle).dspEp = s.dspEp := rfl
@[simp] theorem bumpOracle_mem (s : State) : (s.bumpOracle).mem = s.mem := rfl
@[simp] theorem bumpOracle_pending (s : State) : (s.bumpOracle).pending = s.pending := rfl
@[simp] theorem bumpOracle_hostData (s : State) : (s.bumpOracle).hostData = s.hostData := rfl
@[simp] theorem bumpOracle_dspData (s : State) : (s.bumpOracle).dspData = s.dspData := rfl
@[simp] theorem bumpOracle_oracle (s : State) : (s.bumpOracle).oracle = s.oracle + 1 := rfl
@[simp] theorem bumpOracle_sub (s : State) : (s.bumpOracle).sub = s.sub := rfl

/-! ### takeFatal -/

@[simp] theorem takeFatal_cfg (s : State) (v : FatalCode) : (takeFatal v s).cfg = s.cfg := rfl
@[simp] theorem takeFatal_x (s : State) (v : FatalCode) : (takeFatal v s).x = s.x := rfl
@[simp] theorem takeFatal_inbufSge (s : State) (v : FatalCode) : (takeFatal v s).inbufSge = s.inbufSge := rfl
@[simp] theorem takeFatal_outbufSge (s : State) (v : FatalCode) : (takeFatal v s).outbufSge = s.outbufSge := rfl
@[simp] theorem takeFatal_gprst (s : State) (v : FatalCode) : (takeFatal v s).gprst = s.gprst := rfl
@[simp] theorem takeFatal_eprst (s : State) (v : FatalCode) : (takeFatal v s).eprst = s.eprst := rfl
@[simp] theorem takeFatal_irq (s : State) (v : FatalCode) : (takeFatal v s).irq = s.irq := rfl
@[simp] theorem takeFatal_halt (s : State) (v : FatalCode) : (takeFatal v s).halt = .halted v := rfl
@[simp] theorem takeFatal_dmaGp (s : State) (v : FatalCode) : (takeFatal v s).dmaGp = s.dmaGp := rfl
@[simp] theorem takeFatal_dmaEp (s : State) (v : FatalCode) : (takeFatal v s).dmaEp = s.dmaEp := rfl
@[simp] theorem takeFatal_dspGp (s : State) (v : FatalCode) : (takeFatal v s).dspGp = s.dspGp := rfl
@[simp] theorem takeFatal_dspEp (s : State) (v : FatalCode) : (takeFatal v s).dspEp = s.dspEp := rfl
@[simp] theorem takeFatal_mem (s : State) (v : FatalCode) : (takeFatal v s).mem = s.mem := rfl
@[simp] theorem takeFatal_pending (s : State) (v : FatalCode) : (takeFatal v s).pending = s.pending := rfl
@[simp] theorem takeFatal_hostData (s : State) (v : FatalCode) : (takeFatal v s).hostData = s.hostData := rfl
@[simp] theorem takeFatal_dspData (s : State) (v : FatalCode) : (takeFatal v s).dspData = s.dspData := rfl
@[simp] theorem takeFatal_oracle (s : State) (v : FatalCode) : (takeFatal v s).oracle = s.oracle := rfl
@[simp] theorem takeFatal_sub (s : State) (v : FatalCode) : (takeFatal v s).sub = s.sub := rfl

/-! ### present -/

@[simp] theorem present_cfg (s : State) (v : Input) : (s.present v).cfg = s.cfg := rfl
@[simp] theorem present_x (s : State) (v : Input) : (s.present v).x = s.x := rfl
@[simp] theorem present_inbufSge (s : State) (v : Input) : (s.present v).inbufSge = s.inbufSge := rfl
@[simp] theorem present_outbufSge (s : State) (v : Input) : (s.present v).outbufSge = s.outbufSge := rfl
@[simp] theorem present_gprst (s : State) (v : Input) : (s.present v).gprst = s.gprst := rfl
@[simp] theorem present_eprst (s : State) (v : Input) : (s.present v).eprst = s.eprst := rfl
@[simp] theorem present_irq (s : State) (v : Input) : (s.present v).irq = s.irq := rfl
@[simp] theorem present_halt (s : State) (v : Input) : (s.present v).halt = s.halt := rfl
@[simp] theorem present_dmaGp (s : State) (v : Input) : (s.present v).dmaGp = s.dmaGp := rfl
@[simp] theorem present_dmaEp (s : State) (v : Input) : (s.present v).dmaEp = s.dmaEp := rfl
@[simp] theorem present_dspGp (s : State) (v : Input) : (s.present v).dspGp = s.dspGp := rfl
@[simp] theorem present_dspEp (s : State) (v : Input) : (s.present v).dspEp = s.dspEp := rfl
@[simp] theorem present_mem (s : State) (v : Input) : (s.present v).mem = s.mem := rfl
@[simp] theorem present_pending (s : State) (v : Input) : (s.present v).pending = v :: s.pending := rfl
@[simp] theorem present_hostData (s : State) (v : Input) : (s.present v).hostData = s.hostData := rfl
@[simp] theorem present_dspData (s : State) (v : Input) : (s.present v).dspData = s.dspData := rfl
@[simp] theorem present_oracle (s : State) (v : Input) : (s.present v).oracle = s.oracle := rfl
@[simp] theorem present_sub (s : State) (v : Input) : (s.present v).sub = s.sub := rfl

/-! ### setDma -/

@[simp] theorem setDma_cfg (s : State) (c : Core) (v : DmaRegs) : (s.setDma c v).cfg = s.cfg := by cases c <;> rfl
@[simp] theorem setDma_x (s : State) (c : Core) (v : DmaRegs) : (s.setDma c v).x = s.x := by cases c <;> rfl
@[simp] theorem setDma_inbufSge (s : State) (c : Core) (v : DmaRegs) : (s.setDma c v).inbufSge = s.inbufSge := by cases c <;> rfl
@[simp] theorem setDma_outbufSge (s : State) (c : Core) (v : DmaRegs) : (s.setDma c v).outbufSge = s.outbufSge := by cases c <;> rfl
@[simp] theorem setDma_gprst (s : State) (c : Core) (v : DmaRegs) : (s.setDma c v).gprst = s.gprst := by cases c <;> rfl
@[simp] theorem setDma_eprst (s : State) (c : Core) (v : DmaRegs) : (s.setDma c v).eprst = s.eprst := by cases c <;> rfl
@[simp] theorem setDma_irq (s : State) (c : Core) (v : DmaRegs) : (s.setDma c v).irq = s.irq := by cases c <;> rfl
@[simp] theorem setDma_halt (s : State) (c : Core) (v : DmaRegs) : (s.setDma c v).halt = s.halt := by cases c <;> rfl
@[simp] theorem setDma_dspGp (s : State) (c : Core) (v : DmaRegs) : (s.setDma c v).dspGp = s.dspGp := by cases c <;> rfl
@[simp] theorem setDma_dspEp (s : State) (c : Core) (v : DmaRegs) : (s.setDma c v).dspEp = s.dspEp := by cases c <;> rfl
@[simp] theorem setDma_mem (s : State) (c : Core) (v : DmaRegs) : (s.setDma c v).mem = s.mem := by cases c <;> rfl
@[simp] theorem setDma_pending (s : State) (c : Core) (v : DmaRegs) : (s.setDma c v).pending = s.pending := by cases c <;> rfl
@[simp] theorem setDma_hostData (s : State) (c : Core) (v : DmaRegs) : (s.setDma c v).hostData = s.hostData := by cases c <;> rfl
@[simp] theorem setDma_dspData (s : State) (c : Core) (v : DmaRegs) : (s.setDma c v).dspData = s.dspData := by cases c <;> rfl
@[simp] theorem setDma_oracle (s : State) (c : Core) (v : DmaRegs) : (s.setDma c v).oracle = s.oracle := by cases c <;> rfl
@[simp] theorem setDma_sub (s : State) (c : Core) (v : DmaRegs) : (s.setDma c v).sub = s.sub := by cases c <;> rfl
@[simp] theorem setDma_gp_dmaGp (s : State) (v : DmaRegs) : (s.setDma .gp v).dmaGp = v := rfl
@[simp] theorem setDma_gp_dmaEp (s : State) (v : DmaRegs) : (s.setDma .gp v).dmaEp = s.dmaEp := rfl
@[simp] theorem setDma_ep_dmaGp (s : State) (v : DmaRegs) : (s.setDma .ep v).dmaGp = s.dmaGp := rfl
@[simp] theorem setDma_ep_dmaEp (s : State) (v : DmaRegs) : (s.setDma .ep v).dmaEp = v := rfl

/-! ### setDsp -/

@[simp] theorem setDsp_cfg (s : State) (c : Core) (v : DspMem) : (s.setDsp c v).cfg = s.cfg := by cases c <;> rfl
@[simp] theorem setDsp_x (s : State) (c : Core) (v : DspMem) : (s.setDsp c v).x = s.x := by cases c <;> rfl
@[simp] theorem setDsp_inbufSge (s : State) (c : Core) (v : DspMem) : (s.setDsp c v).inbufSge = s.inbufSge := by cases c <;> rfl
@[simp] theorem setDsp_outbufSge (s : State) (c : Core) (v : DspMem) : (s.setDsp c v).outbufSge = s.outbufSge := by cases c <;> rfl
@[simp] theorem setDsp_gprst (s : State) (c : Core) (v : DspMem) : (s.setDsp c v).gprst = s.gprst := by cases c <;> rfl
@[simp] theorem setDsp_eprst (s : State) (c : Core) (v : DspMem) : (s.setDsp c v).eprst = s.eprst := by cases c <;> rfl
@[simp] theorem setDsp_irq (s : State) (c : Core) (v : DspMem) : (s.setDsp c v).irq = s.irq := by cases c <;> rfl
@[simp] theorem setDsp_halt (s : State) (c : Core) (v : DspMem) : (s.setDsp c v).halt = s.halt := by cases c <;> rfl
@[simp] theorem setDsp_dmaGp (s : State) (c : Core) (v : DspMem) : (s.setDsp c v).dmaGp = s.dmaGp := by cases c <;> rfl
@[simp] theorem setDsp_dmaEp (s : State) (c : Core) (v : DspMem) : (s.setDsp c v).dmaEp = s.dmaEp := by cases c <;> rfl
@[simp] theorem setDsp_mem (s : State) (c : Core) (v : DspMem) : (s.setDsp c v).mem = s.mem := by cases c <;> rfl
@[simp] theorem setDsp_pending (s : State) (c : Core) (v : DspMem) : (s.setDsp c v).pending = s.pending := by cases c <;> rfl
@[simp] theorem setDsp_hostData (s : State) (c : Core) (v : DspMem) : (s.setDsp c v).hostData = s.hostData := by cases c <;> rfl
@[simp] theorem setDsp_dspData (s : State) (c : Core) (v : DspMem) : (s.setDsp c v).dspData = s.dspData := by cases c <;> rfl
@[simp] theorem setDsp_oracle (s : State) (c : Core) (v : DspMem) : (s.setDsp c v).oracle = s.oracle := by cases c <;> rfl
@[simp] theorem setDsp_sub (s : State) (c : Core) (v : DspMem) : (s.setDsp c v).sub = s.sub := by cases c <;> rfl
@[simp] theorem setDsp_gp_dspGp (s : State) (v : DspMem) : (s.setDsp .gp v).dspGp = v := rfl
@[simp] theorem setDsp_gp_dspEp (s : State) (v : DspMem) : (s.setDsp .gp v).dspEp = s.dspEp := rfl
@[simp] theorem setDsp_ep_dspGp (s : State) (v : DspMem) : (s.setDsp .ep v).dspGp = s.dspGp := rfl
@[simp] theorem setDsp_ep_dspEp (s : State) (v : DspMem) : (s.setDsp .ep v).dspEp = v := rfl

/-! ### setRst -/

@[simp] theorem setRst_cfg (s : State) (c : Core) (v : Word) : (s.setRst c v).cfg = s.cfg := by cases c <;> rfl
@[simp] theorem setRst_x (s : State) (c : Core) (v : Word) : (s.setRst c v).x = s.x := by cases c <;> rfl
@[simp] theorem setRst_inbufSge (s : State) (c : Core) (v : Word) : (s.setRst c v).inbufSge = s.inbufSge := by cases c <;> rfl
@[simp] theorem setRst_outbufSge (s : State) (c : Core) (v : Word) : (s.setRst c v).outbufSge = s.outbufSge := by cases c <;> rfl
@[simp] theorem setRst_irq (s : State) (c : Core) (v : Word) : (s.setRst c v).irq = s.irq := by cases c <;> rfl
@[simp] theorem setRst_halt (s : State) (c : Core) (v : Word) : (s.setRst c v).halt = s.halt := by cases c <;> rfl
@[simp] theorem setRst_dmaGp (s : State) (c : Core) (v : Word) : (s.setRst c v).dmaGp = s.dmaGp := by cases c <;> rfl
@[simp] theorem setRst_dmaEp (s : State) (c : Core) (v : Word) : (s.setRst c v).dmaEp = s.dmaEp := by cases c <;> rfl
@[simp] theorem setRst_dspGp (s : State) (c : Core) (v : Word) : (s.setRst c v).dspGp = s.dspGp := by cases c <;> rfl
@[simp] theorem setRst_dspEp (s : State) (c : Core) (v : Word) : (s.setRst c v).dspEp = s.dspEp := by cases c <;> rfl
@[simp] theorem setRst_mem (s : State) (c : Core) (v : Word) : (s.setRst c v).mem = s.mem := by cases c <;> rfl
@[simp] theorem setRst_pending (s : State) (c : Core) (v : Word) : (s.setRst c v).pending = s.pending := by cases c <;> rfl
@[simp] theorem setRst_hostData (s : State) (c : Core) (v : Word) : (s.setRst c v).hostData = s.hostData := by cases c <;> rfl
@[simp] theorem setRst_dspData (s : State) (c : Core) (v : Word) : (s.setRst c v).dspData = s.dspData := by cases c <;> rfl
@[simp] theorem setRst_oracle (s : State) (c : Core) (v : Word) : (s.setRst c v).oracle = s.oracle := by cases c <;> rfl
@[simp] theorem setRst_sub (s : State) (c : Core) (v : Word) : (s.setRst c v).sub = s.sub := by cases c <;> rfl
@[simp] theorem setRst_gp_gprst (s : State) (v : Word) : (s.setRst .gp v).gprst = v := rfl
@[simp] theorem setRst_gp_eprst (s : State) (v : Word) : (s.setRst .gp v).eprst = s.eprst := rfl
@[simp] theorem setRst_ep_gprst (s : State) (v : Word) : (s.setRst .ep v).gprst = s.gprst := rfl
@[simp] theorem setRst_ep_eprst (s : State) (v : Word) : (s.setRst .ep v).eprst = v := rfl

/-! ### setWalk -/

@[simp] theorem setWalk_cfg (s : State) (c : Core) (v : Walk) : (s.setWalk c v).cfg = s.cfg := by cases c <;> rfl
@[simp] theorem setWalk_x (s : State) (c : Core) (v : Walk) : (s.setWalk c v).x = s.x := by cases c <;> rfl
@[simp] theorem setWalk_inbufSge (s : State) (c : Core) (v : Walk) : (s.setWalk c v).inbufSge = s.inbufSge := by cases c <;> rfl
@[simp] theorem setWalk_outbufSge (s : State) (c : Core) (v : Walk) : (s.setWalk c v).outbufSge = s.outbufSge := by cases c <;> rfl
@[simp] theorem setWalk_gprst (s : State) (c : Core) (v : Walk) : (s.setWalk c v).gprst = s.gprst := by cases c <;> rfl
@[simp] theorem setWalk_eprst (s : State) (c : Core) (v : Walk) : (s.setWalk c v).eprst = s.eprst := by cases c <;> rfl
@[simp] theorem setWalk_irq (s : State) (c : Core) (v : Walk) : (s.setWalk c v).irq = s.irq := by cases c <;> rfl
@[simp] theorem setWalk_halt (s : State) (c : Core) (v : Walk) : (s.setWalk c v).halt = s.halt := by cases c <;> rfl
@[simp] theorem setWalk_dmaGp (s : State) (c : Core) (v : Walk) : (s.setWalk c v).dmaGp = s.dmaGp := by cases c <;> rfl
@[simp] theorem setWalk_dmaEp (s : State) (c : Core) (v : Walk) : (s.setWalk c v).dmaEp = s.dmaEp := by cases c <;> rfl
@[simp] theorem setWalk_dspGp (s : State) (c : Core) (v : Walk) : (s.setWalk c v).dspGp = s.dspGp := by cases c <;> rfl
@[simp] theorem setWalk_dspEp (s : State) (c : Core) (v : Walk) : (s.setWalk c v).dspEp = s.dspEp := by cases c <;> rfl
@[simp] theorem setWalk_mem (s : State) (c : Core) (v : Walk) : (s.setWalk c v).mem = s.mem := by cases c <;> rfl
@[simp] theorem setWalk_pending (s : State) (c : Core) (v : Walk) : (s.setWalk c v).pending = s.pending := by cases c <;> rfl
@[simp] theorem setWalk_hostData (s : State) (c : Core) (v : Walk) : (s.setWalk c v).hostData = s.hostData := by cases c <;> rfl
@[simp] theorem setWalk_dspData (s : State) (c : Core) (v : Walk) : (s.setWalk c v).dspData = s.dspData := by cases c <;> rfl
@[simp] theorem setWalk_oracle (s : State) (c : Core) (v : Walk) : (s.setWalk c v).oracle = s.oracle := by cases c <;> rfl
@[simp] theorem setWalk_walk (s : State) (c : Core) (v : Walk) : (s.setWalk c v).walk c = v := by cases c <;> rfl

/-! ### The accessors by core -/

@[simp] theorem setDma_dma_same (s : State) (c : Core) (v : DmaRegs) : (s.setDma c v).dma c = v := by cases c <;> rfl
theorem setDma_dma_other (s : State) {c d : Core} (h : d ≠ c) (v : DmaRegs) : (s.setDma c v).dma d = s.dma d := by
  cases c <;> cases d <;> first | rfl | exact absurd rfl h
@[simp] theorem setDma_dsp (s : State) (c d : Core) (v : DmaRegs) : (s.setDma c v).dsp d = s.dsp d := by
  cases c <;> cases d <;> rfl
@[simp] theorem setDma_rst (s : State) (c d : Core) (v : DmaRegs) : (s.setDma c v).rst d = s.rst d := by
  cases c <;> cases d <;> rfl
@[simp] theorem setDsp_dsp_same (s : State) (c : Core) (v : DspMem) : (s.setDsp c v).dsp c = v := by cases c <;> rfl
theorem setDsp_dsp_other (s : State) {c d : Core} (h : d ≠ c) (v : DspMem) : (s.setDsp c v).dsp d = s.dsp d := by
  cases c <;> cases d <;> first | rfl | exact absurd rfl h
@[simp] theorem setDsp_dma (s : State) (c d : Core) (v : DspMem) : (s.setDsp c v).dma d = s.dma d := by
  cases c <;> cases d <;> rfl
@[simp] theorem setDsp_rst (s : State) (c d : Core) (v : DspMem) : (s.setDsp c v).rst d = s.rst d := by
  cases c <;> cases d <;> rfl
@[simp] theorem setRst_rst_same (s : State) (c : Core) (v : Word) : (s.setRst c v).rst c = v := by cases c <;> rfl
theorem setRst_rst_other (s : State) {c d : Core} (h : d ≠ c) (v : Word) : (s.setRst c v).rst d = s.rst d := by
  cases c <;> cases d <;> first | rfl | exact absurd rfl h
@[simp] theorem setRst_dma (s : State) (c d : Core) (v : Word) : (s.setRst c v).dma d = s.dma d := by
  cases c <;> cases d <;> rfl
@[simp] theorem setRst_dsp (s : State) (c d : Core) (v : Word) : (s.setRst c v).dsp d = s.dsp d := by
  cases c <;> cases d <;> rfl
@[simp] theorem setX_dma (s : State) (v : GlobalRegs) (c : Core) : (s.setX v).dma c = s.dma c := by cases c <;> rfl
@[simp] theorem setX_dsp (s : State) (v : GlobalRegs) (c : Core) : (s.setX v).dsp c = s.dsp c := by cases c <;> rfl
@[simp] theorem setX_rst (s : State) (v : GlobalRegs) (c : Core) : (s.setX v).rst c = s.rst c := by cases c <;> rfl
@[simp] theorem setMem_dma (s : State) (v : Store 8) (c : Core) : (s.setMem v).dma c = s.dma c := by cases c <;> rfl
@[simp] theorem setMem_dsp (s : State) (v : Store 8) (c : Core) : (s.setMem v).dsp c = s.dsp c := by cases c <;> rfl
@[simp] theorem setMem_rst (s : State) (v : Store 8) (c : Core) : (s.setMem v).rst c = s.rst c := by cases c <;> rfl
@[simp] theorem setSub_dma (s : State) (v : SubOp) (c : Core) : (s.setSub v).dma c = s.dma c := by cases c <;> rfl
@[simp] theorem setSub_dsp (s : State) (v : SubOp) (c : Core) : (s.setSub v).dsp c = s.dsp c := by cases c <;> rfl
@[simp] theorem setSub_rst (s : State) (v : SubOp) (c : Core) : (s.setSub v).rst c = s.rst c := by cases c <;> rfl
@[simp] theorem setHostData_dma (s : State) (v : Word) (c : Core) : (s.setHostData v).dma c = s.dma c := by cases c <;> rfl
@[simp] theorem setHostData_dsp (s : State) (v : Word) (c : Core) : (s.setHostData v).dsp c = s.dsp c := by cases c <;> rfl
@[simp] theorem setHostData_rst (s : State) (v : Word) (c : Core) : (s.setHostData v).rst c = s.rst c := by cases c <;> rfl
@[simp] theorem setDspData_dma (s : State) (v : Word) (c : Core) : (s.setDspData v).dma c = s.dma c := by cases c <;> rfl
@[simp] theorem setDspData_dsp (s : State) (v : Word) (c : Core) : (s.setDspData v).dsp c = s.dsp c := by cases c <;> rfl
@[simp] theorem setDspData_rst (s : State) (v : Word) (c : Core) : (s.setDspData v).rst c = s.rst c := by cases c <;> rfl
@[simp] theorem setIrq_dma (s : State) (v : Bool) (c : Core) : (s.setIrq v).dma c = s.dma c := by cases c <;> rfl
@[simp] theorem setIrq_dsp (s : State) (v : Bool) (c : Core) : (s.setIrq v).dsp c = s.dsp c := by cases c <;> rfl
@[simp] theorem setIrq_rst (s : State) (v : Bool) (c : Core) : (s.setIrq v).rst c = s.rst c := by cases c <;> rfl
@[simp] theorem bumpOracle_dma (s : State) (c : Core) : (s.bumpOracle).dma c = s.dma c := by cases c <;> rfl
@[simp] theorem bumpOracle_dsp (s : State) (c : Core) : (s.bumpOracle).dsp c = s.dsp c := by cases c <;> rfl
@[simp] theorem bumpOracle_rst (s : State) (c : Core) : (s.bumpOracle).rst c = s.rst c := by cases c <;> rfl
@[simp] theorem takeFatal_dma (s : State) (v : FatalCode) (c : Core) : (takeFatal v s).dma c = s.dma c := by cases c <;> rfl
@[simp] theorem takeFatal_dsp (s : State) (v : FatalCode) (c : Core) : (takeFatal v s).dsp c = s.dsp c := by cases c <;> rfl
@[simp] theorem takeFatal_rst (s : State) (v : FatalCode) (c : Core) : (takeFatal v s).rst c = s.rst c := by cases c <;> rfl
@[simp] theorem present_dma (s : State) (v : Input) (c : Core) : (s.present v).dma c = s.dma c := by cases c <;> rfl
@[simp] theorem present_dsp (s : State) (v : Input) (c : Core) : (s.present v).dsp c = s.dsp c := by cases c <;> rfl
@[simp] theorem present_rst (s : State) (v : Input) (c : Core) : (s.present v).rst c = s.rst c := by cases c <;> rfl

/-! ### The list registers -/

@[simp] theorem setTvl_cfg (s : State) (l : VoiceList) (v : Word) : (s.setTvl l v).cfg = s.cfg := by cases l <;> rfl
@[simp] theorem setTvl_inbufSge (s : State) (l : VoiceList) (v : Word) : (s.setTvl l v).inbufSge = s.inbufSge := by cases l <;> rfl
@[simp] theorem setTvl_outbufSge (s : State) (l : VoiceList) (v : Word) : (s.setTvl l v).outbufSge = s.outbufSge := by cases l <;> rfl
@[simp] theorem setTvl_gprst (s : State) (l : VoiceList) (v : Word) : (s.setTvl l v).gprst = s.gprst := by cases l <;> rfl
@[simp] theorem setTvl_eprst (s : State) (l : VoiceList) (v : Word) : (s.setTvl l v).eprst = s.eprst := by cases l <;> rfl
@[simp] theorem setTvl_irq (s : State) (l : VoiceList) (v : Word) : (s.setTvl l v).irq = s.irq := by cases l <;> rfl
@[simp] theorem setTvl_halt (s : State) (l : VoiceList) (v : Word) : (s.setTvl l v).halt = s.halt := by cases l <;> rfl
@[simp] theorem setTvl_dmaGp (s : State) (l : VoiceList) (v : Word) : (s.setTvl l v).dmaGp = s.dmaGp := by cases l <;> rfl
@[simp] theorem setTvl_dmaEp (s : State) (l : VoiceList) (v : Word) : (s.setTvl l v).dmaEp = s.dmaEp := by cases l <;> rfl
@[simp] theorem setTvl_dspGp (s : State) (l : VoiceList) (v : Word) : (s.setTvl l v).dspGp = s.dspGp := by cases l <;> rfl
@[simp] theorem setTvl_dspEp (s : State) (l : VoiceList) (v : Word) : (s.setTvl l v).dspEp = s.dspEp := by cases l <;> rfl
@[simp] theorem setTvl_mem (s : State) (l : VoiceList) (v : Word) : (s.setTvl l v).mem = s.mem := by cases l <;> rfl
@[simp] theorem setTvl_pending (s : State) (l : VoiceList) (v : Word) : (s.setTvl l v).pending = s.pending := by cases l <;> rfl
@[simp] theorem setTvl_hostData (s : State) (l : VoiceList) (v : Word) : (s.setTvl l v).hostData = s.hostData := by cases l <;> rfl
@[simp] theorem setTvl_dspData (s : State) (l : VoiceList) (v : Word) : (s.setTvl l v).dspData = s.dspData := by cases l <;> rfl
@[simp] theorem setTvl_oracle (s : State) (l : VoiceList) (v : Word) : (s.setTvl l v).oracle = s.oracle := by cases l <;> rfl
@[simp] theorem setTvl_sub (s : State) (l : VoiceList) (v : Word) : (s.setTvl l v).sub = s.sub := by cases l <;> rfl
@[simp] theorem setTvl_tvl_same (s : State) (l : VoiceList) (v : Word) : tvl (s.setTvl l v) l = v := by cases l <;> rfl
theorem setTvl_tvl_other (s : State) {l k : VoiceList} (h : k ≠ l) (v : Word) : tvl (s.setTvl l v) k = tvl s k := by
  cases l <;> cases k <;> first | rfl | exact absurd rfl h
@[simp] theorem setTvl_cvl (s : State) (l k : VoiceList) (v : Word) : cvl (s.setTvl l v) k = cvl s k := by
  cases l <;> cases k <;> rfl
@[simp] theorem setTvl_nvl (s : State) (l k : VoiceList) (v : Word) : nvl (s.setTvl l v) k = nvl s k := by
  cases l <;> cases k <;> rfl
@[simp] theorem setTvl_x_ists (s : State) (l : VoiceList) (v : Word) : (s.setTvl l v).x.ists = s.x.ists := by cases l <;> rfl
@[simp] theorem setTvl_x_ien (s : State) (l : VoiceList) (v : Word) : (s.setTvl l v).x.ien = s.x.ien := by cases l <;> rfl
@[simp] theorem setTvl_x_fectl (s : State) (l : VoiceList) (v : Word) : (s.setTvl l v).x.fectl = s.x.fectl := by cases l <;> rfl
@[simp] theorem setTvl_x_fecv (s : State) (l : VoiceList) (v : Word) : (s.setTvl l v).x.fecv = s.x.fecv := by cases l <;> rfl
@[simp] theorem setTvl_x_feav (s : State) (l : VoiceList) (v : Word) : (s.setTvl l v).x.feav = s.x.feav := by cases l <;> rfl
@[simp] theorem setTvl_x_fetforce1 (s : State) (l : VoiceList) (v : Word) : (s.setTvl l v).x.fetforce1 = s.x.fetforce1 := by cases l <;> rfl
@[simp] theorem setTvl_x_sectl (s : State) (l : VoiceList) (v : Word) : (s.setTvl l v).x.sectl = s.x.sectl := by cases l <;> rfl
@[simp] theorem setTvl_x_vpvaddr (s : State) (l : VoiceList) (v : Word) : (s.setTvl l v).x.vpvaddr = s.x.vpvaddr := by cases l <;> rfl
@[simp] theorem setTvl_x_vpsgeaddr (s : State) (l : VoiceList) (v : Word) : (s.setTvl l v).x.vpsgeaddr = s.x.vpsgeaddr := by cases l <;> rfl
@[simp] theorem setTvl_x_gpsaddr (s : State) (l : VoiceList) (v : Word) : (s.setTvl l v).x.gpsaddr = s.x.gpsaddr := by cases l <;> rfl
@[simp] theorem setTvl_x_gpsmaxsge (s : State) (l : VoiceList) (v : Word) : (s.setTvl l v).x.gpsmaxsge = s.x.gpsmaxsge := by cases l <;> rfl
@[simp] theorem setTvl_x_epsaddr (s : State) (l : VoiceList) (v : Word) : (s.setTvl l v).x.epsaddr = s.x.epsaddr := by cases l <;> rfl
@[simp] theorem setTvl_x_epsmaxsge (s : State) (l : VoiceList) (v : Word) : (s.setTvl l v).x.epsmaxsge = s.x.epsmaxsge := by cases l <;> rfl

@[simp] theorem setCvl_cfg (s : State) (l : VoiceList) (v : Word) : (s.setCvl l v).cfg = s.cfg := by cases l <;> rfl
@[simp] theorem setCvl_inbufSge (s : State) (l : VoiceList) (v : Word) : (s.setCvl l v).inbufSge = s.inbufSge := by cases l <;> rfl
@[simp] theorem setCvl_outbufSge (s : State) (l : VoiceList) (v : Word) : (s.setCvl l v).outbufSge = s.outbufSge := by cases l <;> rfl
@[simp] theorem setCvl_gprst (s : State) (l : VoiceList) (v : Word) : (s.setCvl l v).gprst = s.gprst := by cases l <;> rfl
@[simp] theorem setCvl_eprst (s : State) (l : VoiceList) (v : Word) : (s.setCvl l v).eprst = s.eprst := by cases l <;> rfl
@[simp] theorem setCvl_irq (s : State) (l : VoiceList) (v : Word) : (s.setCvl l v).irq = s.irq := by cases l <;> rfl
@[simp] theorem setCvl_halt (s : State) (l : VoiceList) (v : Word) : (s.setCvl l v).halt = s.halt := by cases l <;> rfl
@[simp] theorem setCvl_dmaGp (s : State) (l : VoiceList) (v : Word) : (s.setCvl l v).dmaGp = s.dmaGp := by cases l <;> rfl
@[simp] theorem setCvl_dmaEp (s : State) (l : VoiceList) (v : Word) : (s.setCvl l v).dmaEp = s.dmaEp := by cases l <;> rfl
@[simp] theorem setCvl_dspGp (s : State) (l : VoiceList) (v : Word) : (s.setCvl l v).dspGp = s.dspGp := by cases l <;> rfl
@[simp] theorem setCvl_dspEp (s : State) (l : VoiceList) (v : Word) : (s.setCvl l v).dspEp = s.dspEp := by cases l <;> rfl
@[simp] theorem setCvl_mem (s : State) (l : VoiceList) (v : Word) : (s.setCvl l v).mem = s.mem := by cases l <;> rfl
@[simp] theorem setCvl_pending (s : State) (l : VoiceList) (v : Word) : (s.setCvl l v).pending = s.pending := by cases l <;> rfl
@[simp] theorem setCvl_hostData (s : State) (l : VoiceList) (v : Word) : (s.setCvl l v).hostData = s.hostData := by cases l <;> rfl
@[simp] theorem setCvl_dspData (s : State) (l : VoiceList) (v : Word) : (s.setCvl l v).dspData = s.dspData := by cases l <;> rfl
@[simp] theorem setCvl_oracle (s : State) (l : VoiceList) (v : Word) : (s.setCvl l v).oracle = s.oracle := by cases l <;> rfl
@[simp] theorem setCvl_sub (s : State) (l : VoiceList) (v : Word) : (s.setCvl l v).sub = s.sub := by cases l <;> rfl
@[simp] theorem setCvl_tvl (s : State) (l k : VoiceList) (v : Word) : tvl (s.setCvl l v) k = tvl s k := by
  cases l <;> cases k <;> rfl
@[simp] theorem setCvl_cvl_same (s : State) (l : VoiceList) (v : Word) : cvl (s.setCvl l v) l = v := by cases l <;> rfl
theorem setCvl_cvl_other (s : State) {l k : VoiceList} (h : k ≠ l) (v : Word) : cvl (s.setCvl l v) k = cvl s k := by
  cases l <;> cases k <;> first | rfl | exact absurd rfl h
@[simp] theorem setCvl_nvl (s : State) (l k : VoiceList) (v : Word) : nvl (s.setCvl l v) k = nvl s k := by
  cases l <;> cases k <;> rfl
@[simp] theorem setCvl_x_ists (s : State) (l : VoiceList) (v : Word) : (s.setCvl l v).x.ists = s.x.ists := by cases l <;> rfl
@[simp] theorem setCvl_x_ien (s : State) (l : VoiceList) (v : Word) : (s.setCvl l v).x.ien = s.x.ien := by cases l <;> rfl
@[simp] theorem setCvl_x_fectl (s : State) (l : VoiceList) (v : Word) : (s.setCvl l v).x.fectl = s.x.fectl := by cases l <;> rfl
@[simp] theorem setCvl_x_fecv (s : State) (l : VoiceList) (v : Word) : (s.setCvl l v).x.fecv = s.x.fecv := by cases l <;> rfl
@[simp] theorem setCvl_x_feav (s : State) (l : VoiceList) (v : Word) : (s.setCvl l v).x.feav = s.x.feav := by cases l <;> rfl
@[simp] theorem setCvl_x_fetforce1 (s : State) (l : VoiceList) (v : Word) : (s.setCvl l v).x.fetforce1 = s.x.fetforce1 := by cases l <;> rfl
@[simp] theorem setCvl_x_sectl (s : State) (l : VoiceList) (v : Word) : (s.setCvl l v).x.sectl = s.x.sectl := by cases l <;> rfl
@[simp] theorem setCvl_x_vpvaddr (s : State) (l : VoiceList) (v : Word) : (s.setCvl l v).x.vpvaddr = s.x.vpvaddr := by cases l <;> rfl
@[simp] theorem setCvl_x_vpsgeaddr (s : State) (l : VoiceList) (v : Word) : (s.setCvl l v).x.vpsgeaddr = s.x.vpsgeaddr := by cases l <;> rfl
@[simp] theorem setCvl_x_gpsaddr (s : State) (l : VoiceList) (v : Word) : (s.setCvl l v).x.gpsaddr = s.x.gpsaddr := by cases l <;> rfl
@[simp] theorem setCvl_x_gpsmaxsge (s : State) (l : VoiceList) (v : Word) : (s.setCvl l v).x.gpsmaxsge = s.x.gpsmaxsge := by cases l <;> rfl
@[simp] theorem setCvl_x_epsaddr (s : State) (l : VoiceList) (v : Word) : (s.setCvl l v).x.epsaddr = s.x.epsaddr := by cases l <;> rfl
@[simp] theorem setCvl_x_epsmaxsge (s : State) (l : VoiceList) (v : Word) : (s.setCvl l v).x.epsmaxsge = s.x.epsmaxsge := by cases l <;> rfl

@[simp] theorem setNvl_cfg (s : State) (l : VoiceList) (v : Word) : (s.setNvl l v).cfg = s.cfg := by cases l <;> rfl
@[simp] theorem setNvl_inbufSge (s : State) (l : VoiceList) (v : Word) : (s.setNvl l v).inbufSge = s.inbufSge := by cases l <;> rfl
@[simp] theorem setNvl_outbufSge (s : State) (l : VoiceList) (v : Word) : (s.setNvl l v).outbufSge = s.outbufSge := by cases l <;> rfl
@[simp] theorem setNvl_gprst (s : State) (l : VoiceList) (v : Word) : (s.setNvl l v).gprst = s.gprst := by cases l <;> rfl
@[simp] theorem setNvl_eprst (s : State) (l : VoiceList) (v : Word) : (s.setNvl l v).eprst = s.eprst := by cases l <;> rfl
@[simp] theorem setNvl_irq (s : State) (l : VoiceList) (v : Word) : (s.setNvl l v).irq = s.irq := by cases l <;> rfl
@[simp] theorem setNvl_halt (s : State) (l : VoiceList) (v : Word) : (s.setNvl l v).halt = s.halt := by cases l <;> rfl
@[simp] theorem setNvl_dmaGp (s : State) (l : VoiceList) (v : Word) : (s.setNvl l v).dmaGp = s.dmaGp := by cases l <;> rfl
@[simp] theorem setNvl_dmaEp (s : State) (l : VoiceList) (v : Word) : (s.setNvl l v).dmaEp = s.dmaEp := by cases l <;> rfl
@[simp] theorem setNvl_dspGp (s : State) (l : VoiceList) (v : Word) : (s.setNvl l v).dspGp = s.dspGp := by cases l <;> rfl
@[simp] theorem setNvl_dspEp (s : State) (l : VoiceList) (v : Word) : (s.setNvl l v).dspEp = s.dspEp := by cases l <;> rfl
@[simp] theorem setNvl_mem (s : State) (l : VoiceList) (v : Word) : (s.setNvl l v).mem = s.mem := by cases l <;> rfl
@[simp] theorem setNvl_pending (s : State) (l : VoiceList) (v : Word) : (s.setNvl l v).pending = s.pending := by cases l <;> rfl
@[simp] theorem setNvl_hostData (s : State) (l : VoiceList) (v : Word) : (s.setNvl l v).hostData = s.hostData := by cases l <;> rfl
@[simp] theorem setNvl_dspData (s : State) (l : VoiceList) (v : Word) : (s.setNvl l v).dspData = s.dspData := by cases l <;> rfl
@[simp] theorem setNvl_oracle (s : State) (l : VoiceList) (v : Word) : (s.setNvl l v).oracle = s.oracle := by cases l <;> rfl
@[simp] theorem setNvl_sub (s : State) (l : VoiceList) (v : Word) : (s.setNvl l v).sub = s.sub := by cases l <;> rfl
@[simp] theorem setNvl_tvl (s : State) (l k : VoiceList) (v : Word) : tvl (s.setNvl l v) k = tvl s k := by
  cases l <;> cases k <;> rfl
@[simp] theorem setNvl_cvl (s : State) (l k : VoiceList) (v : Word) : cvl (s.setNvl l v) k = cvl s k := by
  cases l <;> cases k <;> rfl
@[simp] theorem setNvl_nvl_same (s : State) (l : VoiceList) (v : Word) : nvl (s.setNvl l v) l = v := by cases l <;> rfl
theorem setNvl_nvl_other (s : State) {l k : VoiceList} (h : k ≠ l) (v : Word) : nvl (s.setNvl l v) k = nvl s k := by
  cases l <;> cases k <;> first | rfl | exact absurd rfl h
@[simp] theorem setNvl_x_ists (s : State) (l : VoiceList) (v : Word) : (s.setNvl l v).x.ists = s.x.ists := by cases l <;> rfl
@[simp] theorem setNvl_x_ien (s : State) (l : VoiceList) (v : Word) : (s.setNvl l v).x.ien = s.x.ien := by cases l <;> rfl
@[simp] theorem setNvl_x_fectl (s : State) (l : VoiceList) (v : Word) : (s.setNvl l v).x.fectl = s.x.fectl := by cases l <;> rfl
@[simp] theorem setNvl_x_fecv (s : State) (l : VoiceList) (v : Word) : (s.setNvl l v).x.fecv = s.x.fecv := by cases l <;> rfl
@[simp] theorem setNvl_x_feav (s : State) (l : VoiceList) (v : Word) : (s.setNvl l v).x.feav = s.x.feav := by cases l <;> rfl
@[simp] theorem setNvl_x_fetforce1 (s : State) (l : VoiceList) (v : Word) : (s.setNvl l v).x.fetforce1 = s.x.fetforce1 := by cases l <;> rfl
@[simp] theorem setNvl_x_sectl (s : State) (l : VoiceList) (v : Word) : (s.setNvl l v).x.sectl = s.x.sectl := by cases l <;> rfl
@[simp] theorem setNvl_x_vpvaddr (s : State) (l : VoiceList) (v : Word) : (s.setNvl l v).x.vpvaddr = s.x.vpvaddr := by cases l <;> rfl
@[simp] theorem setNvl_x_vpsgeaddr (s : State) (l : VoiceList) (v : Word) : (s.setNvl l v).x.vpsgeaddr = s.x.vpsgeaddr := by cases l <;> rfl
@[simp] theorem setNvl_x_gpsaddr (s : State) (l : VoiceList) (v : Word) : (s.setNvl l v).x.gpsaddr = s.x.gpsaddr := by cases l <;> rfl
@[simp] theorem setNvl_x_gpsmaxsge (s : State) (l : VoiceList) (v : Word) : (s.setNvl l v).x.gpsmaxsge = s.x.gpsmaxsge := by cases l <;> rfl
@[simp] theorem setNvl_x_epsaddr (s : State) (l : VoiceList) (v : Word) : (s.setNvl l v).x.epsaddr = s.x.epsaddr := by cases l <;> rfl
@[simp] theorem setNvl_x_epsmaxsge (s : State) (l : VoiceList) (v : Word) : (s.setNvl l v).x.epsmaxsge = s.x.epsmaxsge := by cases l <;> rfl

/-! ### The derived writes -/

@[simp] theorem setVoiceWord_cfg (s : State) (h : Handle) (off : Nat) (v : Word) : (s.setVoiceWord h off v).cfg = s.cfg := rfl
@[simp] theorem setVoiceField_cfg (s : State) (h : Handle) (f : VField) (v : Nat) : (s.setVoiceField h f v).cfg = s.cfg := rfl
@[simp] theorem setVoiceWord_x (s : State) (h : Handle) (off : Nat) (v : Word) : (s.setVoiceWord h off v).x = s.x := rfl
@[simp] theorem setVoiceField_x (s : State) (h : Handle) (f : VField) (v : Nat) : (s.setVoiceField h f v).x = s.x := rfl
@[simp] theorem setVoiceWord_inbufSge (s : State) (h : Handle) (off : Nat) (v : Word) : (s.setVoiceWord h off v).inbufSge = s.inbufSge := rfl
@[simp] theorem setVoiceField_inbufSge (s : State) (h : Handle) (f : VField) (v : Nat) : (s.setVoiceField h f v).inbufSge = s.inbufSge := rfl
@[simp] theorem setVoiceWord_outbufSge (s : State) (h : Handle) (off : Nat) (v : Word) : (s.setVoiceWord h off v).outbufSge = s.outbufSge := rfl
@[simp] theorem setVoiceField_outbufSge (s : State) (h : Handle) (f : VField) (v : Nat) : (s.setVoiceField h f v).outbufSge = s.outbufSge := rfl
@[simp] theorem setVoiceWord_gprst (s : State) (h : Handle) (off : Nat) (v : Word) : (s.setVoiceWord h off v).gprst = s.gprst := rfl
@[simp] theorem setVoiceField_gprst (s : State) (h : Handle) (f : VField) (v : Nat) : (s.setVoiceField h f v).gprst = s.gprst := rfl
@[simp] theorem setVoiceWord_eprst (s : State) (h : Handle) (off : Nat) (v : Word) : (s.setVoiceWord h off v).eprst = s.eprst := rfl
@[simp] theorem setVoiceField_eprst (s : State) (h : Handle) (f : VField) (v : Nat) : (s.setVoiceField h f v).eprst = s.eprst := rfl
@[simp] theorem setVoiceWord_irq (s : State) (h : Handle) (off : Nat) (v : Word) : (s.setVoiceWord h off v).irq = s.irq := rfl
@[simp] theorem setVoiceField_irq (s : State) (h : Handle) (f : VField) (v : Nat) : (s.setVoiceField h f v).irq = s.irq := rfl
@[simp] theorem setVoiceWord_halt (s : State) (h : Handle) (off : Nat) (v : Word) : (s.setVoiceWord h off v).halt = s.halt := rfl
@[simp] theorem setVoiceField_halt (s : State) (h : Handle) (f : VField) (v : Nat) : (s.setVoiceField h f v).halt = s.halt := rfl
@[simp] theorem setVoiceWord_dmaGp (s : State) (h : Handle) (off : Nat) (v : Word) : (s.setVoiceWord h off v).dmaGp = s.dmaGp := rfl
@[simp] theorem setVoiceField_dmaGp (s : State) (h : Handle) (f : VField) (v : Nat) : (s.setVoiceField h f v).dmaGp = s.dmaGp := rfl
@[simp] theorem setVoiceWord_dmaEp (s : State) (h : Handle) (off : Nat) (v : Word) : (s.setVoiceWord h off v).dmaEp = s.dmaEp := rfl
@[simp] theorem setVoiceField_dmaEp (s : State) (h : Handle) (f : VField) (v : Nat) : (s.setVoiceField h f v).dmaEp = s.dmaEp := rfl
@[simp] theorem setVoiceWord_dspGp (s : State) (h : Handle) (off : Nat) (v : Word) : (s.setVoiceWord h off v).dspGp = s.dspGp := rfl
@[simp] theorem setVoiceField_dspGp (s : State) (h : Handle) (f : VField) (v : Nat) : (s.setVoiceField h f v).dspGp = s.dspGp := rfl
@[simp] theorem setVoiceWord_dspEp (s : State) (h : Handle) (off : Nat) (v : Word) : (s.setVoiceWord h off v).dspEp = s.dspEp := rfl
@[simp] theorem setVoiceField_dspEp (s : State) (h : Handle) (f : VField) (v : Nat) : (s.setVoiceField h f v).dspEp = s.dspEp := rfl
@[simp] theorem setVoiceWord_pending (s : State) (h : Handle) (off : Nat) (v : Word) : (s.setVoiceWord h off v).pending = s.pending := rfl
@[simp] theorem setVoiceField_pending (s : State) (h : Handle) (f : VField) (v : Nat) : (s.setVoiceField h f v).pending = s.pending := rfl
@[simp] theorem setVoiceWord_hostData (s : State) (h : Handle) (off : Nat) (v : Word) : (s.setVoiceWord h off v).hostData = s.hostData := rfl
@[simp] theorem setVoiceField_hostData (s : State) (h : Handle) (f : VField) (v : Nat) : (s.setVoiceField h f v).hostData = s.hostData := rfl
@[simp] theorem setVoiceWord_dspData (s : State) (h : Handle) (off : Nat) (v : Word) : (s.setVoiceWord h off v).dspData = s.dspData := rfl
@[simp] theorem setVoiceField_dspData (s : State) (h : Handle) (f : VField) (v : Nat) : (s.setVoiceField h f v).dspData = s.dspData := rfl
@[simp] theorem setVoiceWord_oracle (s : State) (h : Handle) (off : Nat) (v : Word) : (s.setVoiceWord h off v).oracle = s.oracle := rfl
@[simp] theorem setVoiceField_oracle (s : State) (h : Handle) (f : VField) (v : Nat) : (s.setVoiceField h f v).oracle = s.oracle := rfl
@[simp] theorem setVoiceWord_sub (s : State) (h : Handle) (off : Nat) (v : Word) : (s.setVoiceWord h off v).sub = s.sub := rfl
@[simp] theorem setVoiceField_sub (s : State) (h : Handle) (f : VField) (v : Nat) : (s.setVoiceField h f v).sub = s.sub := rfl
@[simp] theorem setVoiceField_dma (s : State) (h : Handle) (f : VField) (v : Nat) (c : Core) : (s.setVoiceField h f v).dma c = s.dma c := by
  cases c <;> rfl
@[simp] theorem setVoiceField_dsp (s : State) (h : Handle) (f : VField) (v : Nat) (c : Core) : (s.setVoiceField h f v).dsp c = s.dsp c := by
  cases c <;> rfl
@[simp] theorem setVoiceField_rst (s : State) (h : Handle) (f : VField) (v : Nat) (c : Core) : (s.setVoiceField h f v).rst c = s.rst c := by
  cases c <;> rfl
@[simp] theorem dspWrite_cfg (s : State) (c : Core) (sp : Space) (i : Nat) (v : Word) : (s.dspWrite c sp i v).cfg = s.cfg := by
  cases c <;> rfl
@[simp] theorem dspWrite_x (s : State) (c : Core) (sp : Space) (i : Nat) (v : Word) : (s.dspWrite c sp i v).x = s.x := by
  cases c <;> rfl
@[simp] theorem dspWrite_inbufSge (s : State) (c : Core) (sp : Space) (i : Nat) (v : Word) : (s.dspWrite c sp i v).inbufSge = s.inbufSge := by
  cases c <;> rfl
@[simp] theorem dspWrite_outbufSge (s : State) (c : Core) (sp : Space) (i : Nat) (v : Word) : (s.dspWrite c sp i v).outbufSge = s.outbufSge := by
  cases c <;> rfl
@[simp] theorem dspWrite_gprst (s : State) (c : Core) (sp : Space) (i : Nat) (v : Word) : (s.dspWrite c sp i v).gprst = s.gprst := by
  cases c <;> rfl
@[simp] theorem dspWrite_eprst (s : State) (c : Core) (sp : Space) (i : Nat) (v : Word) : (s.dspWrite c sp i v).eprst = s.eprst := by
  cases c <;> rfl
@[simp] theorem dspWrite_irq (s : State) (c : Core) (sp : Space) (i : Nat) (v : Word) : (s.dspWrite c sp i v).irq = s.irq := by
  cases c <;> rfl
@[simp] theorem dspWrite_halt (s : State) (c : Core) (sp : Space) (i : Nat) (v : Word) : (s.dspWrite c sp i v).halt = s.halt := by
  cases c <;> rfl
@[simp] theorem dspWrite_dmaGp (s : State) (c : Core) (sp : Space) (i : Nat) (v : Word) : (s.dspWrite c sp i v).dmaGp = s.dmaGp := by
  cases c <;> rfl
@[simp] theorem dspWrite_dmaEp (s : State) (c : Core) (sp : Space) (i : Nat) (v : Word) : (s.dspWrite c sp i v).dmaEp = s.dmaEp := by
  cases c <;> rfl
@[simp] theorem dspWrite_mem (s : State) (c : Core) (sp : Space) (i : Nat) (v : Word) : (s.dspWrite c sp i v).mem = s.mem := by
  cases c <;> rfl
@[simp] theorem dspWrite_pending (s : State) (c : Core) (sp : Space) (i : Nat) (v : Word) : (s.dspWrite c sp i v).pending = s.pending := by
  cases c <;> rfl
@[simp] theorem dspWrite_hostData (s : State) (c : Core) (sp : Space) (i : Nat) (v : Word) : (s.dspWrite c sp i v).hostData = s.hostData := by
  cases c <;> rfl
@[simp] theorem dspWrite_dspData (s : State) (c : Core) (sp : Space) (i : Nat) (v : Word) : (s.dspWrite c sp i v).dspData = s.dspData := by
  cases c <;> rfl
@[simp] theorem dspWrite_oracle (s : State) (c : Core) (sp : Space) (i : Nat) (v : Word) : (s.dspWrite c sp i v).oracle = s.oracle := by
  cases c <;> rfl
@[simp] theorem dspWrite_sub (s : State) (c : Core) (sp : Space) (i : Nat) (v : Word) : (s.dspWrite c sp i v).sub = s.sub := by
  cases c <;> rfl
@[simp] theorem dspWrite_dma (s : State) (c d : Core) (sp : Space) (i : Nat) (v : Word) : (s.dspWrite c sp i v).dma d = s.dma d := by
  cases c <;> cases d <;> rfl
@[simp] theorem dspWrite_rst (s : State) (c d : Core) (sp : Space) (i : Nat) (v : Word) : (s.dspWrite c sp i v).rst d = s.rst d := by
  cases c <;> cases d <;> rfl
@[simp] theorem updateIrq_cfg (s : State) : (updateIrq s).cfg = s.cfg := rfl
@[simp] theorem takeTrap_cfg (s : State) : (takeTrap s).cfg = s.cfg := rfl
@[simp] theorem ackInterrupt_cfg (s : State) (v : Word) : (ackInterrupt v s).cfg = s.cfg := rfl
@[simp] theorem updateIrq_inbufSge (s : State) : (updateIrq s).inbufSge = s.inbufSge := rfl
@[simp] theorem takeTrap_inbufSge (s : State) : (takeTrap s).inbufSge = s.inbufSge := rfl
@[simp] theorem ackInterrupt_inbufSge (s : State) (v : Word) : (ackInterrupt v s).inbufSge = s.inbufSge := rfl
@[simp] theorem updateIrq_outbufSge (s : State) : (updateIrq s).outbufSge = s.outbufSge := rfl
@[simp] theorem takeTrap_outbufSge (s : State) : (takeTrap s).outbufSge = s.outbufSge := rfl
@[simp] theorem ackInterrupt_outbufSge (s : State) (v : Word) : (ackInterrupt v s).outbufSge = s.outbufSge := rfl
@[simp] theorem updateIrq_gprst (s : State) : (updateIrq s).gprst = s.gprst := rfl
@[simp] theorem takeTrap_gprst (s : State) : (takeTrap s).gprst = s.gprst := rfl
@[simp] theorem ackInterrupt_gprst (s : State) (v : Word) : (ackInterrupt v s).gprst = s.gprst := rfl
@[simp] theorem updateIrq_eprst (s : State) : (updateIrq s).eprst = s.eprst := rfl
@[simp] theorem takeTrap_eprst (s : State) : (takeTrap s).eprst = s.eprst := rfl
@[simp] theorem ackInterrupt_eprst (s : State) (v : Word) : (ackInterrupt v s).eprst = s.eprst := rfl
@[simp] theorem updateIrq_halt (s : State) : (updateIrq s).halt = s.halt := rfl
@[simp] theorem takeTrap_halt (s : State) : (takeTrap s).halt = s.halt := rfl
@[simp] theorem ackInterrupt_halt (s : State) (v : Word) : (ackInterrupt v s).halt = s.halt := rfl
@[simp] theorem updateIrq_dmaGp (s : State) : (updateIrq s).dmaGp = s.dmaGp := rfl
@[simp] theorem takeTrap_dmaGp (s : State) : (takeTrap s).dmaGp = s.dmaGp := rfl
@[simp] theorem ackInterrupt_dmaGp (s : State) (v : Word) : (ackInterrupt v s).dmaGp = s.dmaGp := rfl
@[simp] theorem updateIrq_dmaEp (s : State) : (updateIrq s).dmaEp = s.dmaEp := rfl
@[simp] theorem takeTrap_dmaEp (s : State) : (takeTrap s).dmaEp = s.dmaEp := rfl
@[simp] theorem ackInterrupt_dmaEp (s : State) (v : Word) : (ackInterrupt v s).dmaEp = s.dmaEp := rfl
@[simp] theorem updateIrq_dspGp (s : State) : (updateIrq s).dspGp = s.dspGp := rfl
@[simp] theorem takeTrap_dspGp (s : State) : (takeTrap s).dspGp = s.dspGp := rfl
@[simp] theorem ackInterrupt_dspGp (s : State) (v : Word) : (ackInterrupt v s).dspGp = s.dspGp := rfl
@[simp] theorem updateIrq_dspEp (s : State) : (updateIrq s).dspEp = s.dspEp := rfl
@[simp] theorem takeTrap_dspEp (s : State) : (takeTrap s).dspEp = s.dspEp := rfl
@[simp] theorem ackInterrupt_dspEp (s : State) (v : Word) : (ackInterrupt v s).dspEp = s.dspEp := rfl
@[simp] theorem updateIrq_mem (s : State) : (updateIrq s).mem = s.mem := rfl
@[simp] theorem takeTrap_mem (s : State) : (takeTrap s).mem = s.mem := rfl
@[simp] theorem ackInterrupt_mem (s : State) (v : Word) : (ackInterrupt v s).mem = s.mem := rfl
@[simp] theorem updateIrq_pending (s : State) : (updateIrq s).pending = s.pending := rfl
@[simp] theorem takeTrap_pending (s : State) : (takeTrap s).pending = s.pending := rfl
@[simp] theorem ackInterrupt_pending (s : State) (v : Word) : (ackInterrupt v s).pending = s.pending := rfl
@[simp] theorem updateIrq_hostData (s : State) : (updateIrq s).hostData = s.hostData := rfl
@[simp] theorem takeTrap_hostData (s : State) : (takeTrap s).hostData = s.hostData := rfl
@[simp] theorem ackInterrupt_hostData (s : State) (v : Word) : (ackInterrupt v s).hostData = s.hostData := rfl
@[simp] theorem updateIrq_dspData (s : State) : (updateIrq s).dspData = s.dspData := rfl
@[simp] theorem takeTrap_dspData (s : State) : (takeTrap s).dspData = s.dspData := rfl
@[simp] theorem ackInterrupt_dspData (s : State) (v : Word) : (ackInterrupt v s).dspData = s.dspData := rfl
@[simp] theorem updateIrq_oracle (s : State) : (updateIrq s).oracle = s.oracle := rfl
@[simp] theorem takeTrap_oracle (s : State) : (takeTrap s).oracle = s.oracle := rfl
@[simp] theorem ackInterrupt_oracle (s : State) (v : Word) : (ackInterrupt v s).oracle = s.oracle := rfl
@[simp] theorem updateIrq_sub (s : State) : (updateIrq s).sub = s.sub := rfl
@[simp] theorem takeTrap_sub (s : State) : (takeTrap s).sub = s.sub := rfl
@[simp] theorem ackInterrupt_sub (s : State) (v : Word) : (ackInterrupt v s).sub = s.sub := rfl

end Sys2Proof.Machine
end

