-- ==== Sys2Proof/Laws/Voice.lean ====
section
/-! SUPPORT. The laws of bit fields and of the voice record: a field read after a write of the same field, of another
field, of another word, of another voice (10_state R50; 30_encoding R131). -/

namespace Sys2Proof.Machine

/-! ## Bit fields -/

theorem getLsbD_fieldMask (lo len k : Nat) :
    (fieldMask lo len).getLsbD k = (decide (k < 32) && decide (lo ≤ k) && decide (k - lo < len)) := by
  simp only [fieldMask, BitVec.getLsbD_ofNat, Nat.testBit_shiftLeft, Nat.testBit_two_pow_sub_one, ge_iff_le]
  rw [Bool.and_assoc]

/-- Every bit of a word with a field changed (10_state R50). -/
theorem getLsbD_setField (w : Word) (lo len v k : Nat) (hk : k < 32) :
    (setField w lo len v).getLsbD k = if lo ≤ k ∧ k < lo + len then v.testBit (k - lo) else w.getLsbD k := by
  simp only [setField, BitVec.getLsbD_or, BitVec.getLsbD_and, BitVec.getLsbD_not, getLsbD_fieldMask,
    BitVec.getLsbD_shiftLeft, BitVec.getLsbD_ofNat, hk, decide_true, Bool.true_and]
  by_cases h1 : lo ≤ k <;> by_cases h2 : k < lo + len
  · have h3 : k - lo < len := by omega
    have h4 : ¬ k < lo := by omega
    have h5 : k - lo < 32 := by omega
    simp [h1, h2, h3, h4, h5]
  · have h3 : ¬ k - lo < len := by omega
    simp [h2, h3]
  · simp [h1]
  · simp [h1]

/-- Bit `k` of a field. -/
theorem testBit_field (w : Word) (lo len k : Nat) :
    (field w lo len).testBit k = (decide (k < len) && w.getLsbD (lo + k)) := by
  rw [field, BitVec.testBit_toNat, BitVec.getLsbD_extractLsb']

theorem field_lt (w : Word) (lo len : Nat) : field w lo len < 2 ^ len := by
  rw [field]
  exact BitVec.isLt _

/-- A field just written reads as the low bits of the value. -/
theorem field_setField_same (w : Word) (lo len v : Nat) (h : lo + len ≤ 32) :
    field (setField w lo len v) lo len = v % 2 ^ len := by
  apply Nat.eq_of_testBit_eq
  intro k
  rw [testBit_field, Nat.testBit_mod_two_pow]
  by_cases hk : k < len
  · rw [getLsbD_setField _ _ _ _ _ (by omega), if_pos (by omega)]
    simp [hk]
  · simp [hk]

/-- A field apart from the written one is unchanged. -/
theorem field_setField_other (w : Word) (lo len v lo' len' : Nat) (h : lo' + len' ≤ 32)
    (hd : lo' + len' ≤ lo ∨ lo + len ≤ lo') : field (setField w lo len v) lo' len' = field w lo' len' := by
  apply Nat.eq_of_testBit_eq
  intro k
  rw [testBit_field, testBit_field]
  by_cases hk : k < len'
  · rw [getLsbD_setField _ _ _ _ _ (by omega), if_neg (by omega)]
  · simp [hk]

/-! ## Words of a voice -/

@[simp] theorem voiceAddr_setVoiceWord (s : State) (h k : Handle) (off : Nat) (v : Word) :
    voiceAddr (s.setVoiceWord h off v) k = voiceAddr s k := rfl

@[simp] theorem voiceAddr_setVoiceField (s : State) (h k : Handle) (f : VField) (v : Nat) :
    voiceAddr (s.setVoiceField h f v) k = voiceAddr s k := rfl

@[simp] theorem voiceWordAddr_setVoiceWord (s : State) (h k : Handle) (off o : Nat) (v : Word) :
    voiceWordAddr (s.setVoiceWord h off v) k o = voiceWordAddr s k o := rfl

@[simp] theorem voiceWordAddr_setVoiceField (s : State) (h k : Handle) (f : VField) (v o : Nat) :
    voiceWordAddr (s.setVoiceField h f v) k o = voiceWordAddr s k o := rfl

theorem mem_setVoiceWord (s : State) (h : Handle) (off : Nat) (v : Word) :
    (s.setVoiceWord h off v).mem = memWrite s.mem (voiceWordAddr s h off) 4 v := rfl

theorem mem_setVoiceField (s : State) (h : Handle) (f : VField) (v : Nat) :
    (s.setVoiceField h f v).mem =
      memWrite s.mem (voiceWordAddr s h f.off) 4 (setField (voiceWord s h f.off) f.lo f.len v) := rfl

@[simp] theorem voiceWord_setVoiceWord_same (s : State) (h : Handle) (off : Nat) (v : Word) :
    voiceWord (s.setVoiceWord h off v) h off = v := by
  simp [voiceWord, mem_setVoiceWord]

theorem voiceWord_setVoiceWord_other (s : State) (h : Handle) {off o : Nat} (v : Word) (ho : o < 128) (hoff : off < 128)
    (hd : o + 4 ≤ off ∨ off + 4 ≤ o) : voiceWord (s.setVoiceWord h off v) h o = voiceWord s h o := by
  rw [voiceWord, mem_setVoiceWord, voiceWordAddr_setVoiceWord]
  apply memRead_memWrite_other <;> simp only [voiceWordAddr] <;> bv_omega

/-- The records of two voices do not overlap. -/
theorem voiceWord_setVoiceWord_voice (s : State) {h k : Handle} (hk : k ≠ h) {off o : Nat} (v : Word) (ho : o + 4 ≤ 128)
    (hoff : off + 4 ≤ 128) : voiceWord (s.setVoiceWord h off v) k o = voiceWord s k o := by
  have hne : k.toNat ≠ h.toNat := fun e => hk (BitVec.eq_of_toNat_eq e)
  have h1 := k.isLt
  have h2 := h.isLt
  rw [voiceWord, mem_setVoiceWord, voiceWordAddr_setVoiceWord]
  apply memRead_memWrite_other <;> simp only [voiceWordAddr, voiceAddr, Config.voiceSize] <;> bv_omega

/-- Bytes outside the written word keep their value. -/
theorem memByte_setVoiceWord (s : State) (h : Handle) (off : Nat) (v a : Word)
    (ha : 4 ≤ (a - voiceWordAddr s h off).toNat) : memByte (s.setVoiceWord h off v).mem a = memByte s.mem a :=
  memByte_memWrite_other _ _ _ _ _ (by omega) ha

/-! ## Fields of a voice -/

theorem setVoiceField_eq (s : State) (h : Handle) (f : VField) (v : Nat) :
    s.setVoiceField h f v = s.setVoiceWord h f.off (setField (voiceWord s h f.off) f.lo f.len v) := rfl

theorem voiceField_lt (s : State) (h : Handle) (f : VField) : voiceField s h f < 2 ^ f.len := field_lt _ _ _

/-- A field just written. -/
theorem voiceField_setVoiceField_same (s : State) (h : Handle) (f : VField) (v : Nat) (hf : f.lo + f.len ≤ 32) :
    voiceField (s.setVoiceField h f v) h f = v % 2 ^ f.len := by
  rw [voiceField, setVoiceField_eq, voiceWord_setVoiceWord_same, field_setField_same _ _ _ _ hf]

/-- A field apart from the written one is unchanged. -/
theorem voiceField_setVoiceField_apart (s : State) (h : Handle) (f g : VField) (v : Nat) (hd : f.apart g) :
    voiceField (s.setVoiceField h f v) h g = voiceField s h g := by
  obtain ⟨hg, hf128, hg128, hd | hd | ⟨ho, hd⟩⟩ := hd
  · rw [voiceField, setVoiceField_eq, voiceWord_setVoiceWord_other _ _ _ hg128 hf128 (.inl hd)]
    rfl
  · rw [voiceField, setVoiceField_eq, voiceWord_setVoiceWord_other _ _ _ hg128 hf128 (.inr hd)]
    rfl
  · rw [voiceField, setVoiceField_eq, ho, voiceWord_setVoiceWord_same, field_setField_other _ _ _ _ _ _ hg hd,
      voiceField, ho]

/-- The words of another voice are unchanged by a field write. -/
theorem voiceWord_setVoiceField_voice (s : State) {h k : Handle} (hk : k ≠ h) (f : VField) (v : Nat) {o : Nat}
    (ho : o + 4 ≤ 128) (hoff : f.off + 4 ≤ 128) : voiceWord (s.setVoiceField h f v) k o = voiceWord s k o :=
  voiceWord_setVoiceWord_voice s hk _ ho hoff

/-- A field of another voice is unchanged. -/
theorem voiceField_setVoiceField_voice (s : State) {h k : Handle} (hk : k ≠ h) (f g : VField) (v : Nat)
    (hg : g.off + 4 ≤ 128) (hf : f.off + 4 ≤ 128) : voiceField (s.setVoiceField h f v) k g = voiceField s k g := by
  rw [voiceField, voiceWord_setVoiceField_voice s hk f v hg hf, voiceField]

/-- Bytes outside the word of the written field keep their value. -/
theorem memByte_setVoiceField (s : State) (h : Handle) (f : VField) (v : Nat) (a : Word)
    (ha : 4 ≤ (a - voiceWordAddr s h f.off).toNat) : memByte (s.setVoiceField h f v).mem a = memByte s.mem a :=
  memByte_setVoiceWord s h f.off _ a ha

/-! ## Changes of guest memory alone -/

theorem onlyMem_setVoiceWord (s : State) (h : Handle) (off : Nat) (v : Word) : s.OnlyMem (s.setVoiceWord h off v) := rfl

theorem onlyMem_setVoiceField (s : State) (h : Handle) (f : VField) (v : Nat) : s.OnlyMem (s.setVoiceField h f v) := rfl

theorem onlyMem_refl (s : State) : s.OnlyMem s := rfl

theorem onlyMem_trans {s t u : State} (h : s.OnlyMem t) (k : t.OnlyMem u) : s.OnlyMem u :=
  (congrArg (fun a : State => { a with mem := s.mem }) k).trans h

/-- Every part but guest memory is as before. -/
theorem onlyMem_eq {s t : State} (h : s.OnlyMem t) : t = s.setMem t.mem :=
  congrArg (fun a : State => { a with mem := t.mem }) h

theorem onlyMem_sub {s t : State} (h : s.OnlyMem t) : t.sub = s.sub := by
  rw [onlyMem_eq h]
  rfl

theorem onlyMem_cfg {s t : State} (h : s.OnlyMem t) : t.cfg = s.cfg := by
  rw [onlyMem_eq h]
  rfl

theorem onlyMem_x {s t : State} (h : s.OnlyMem t) : t.x = s.x := by
  rw [onlyMem_eq h]
  rfl

theorem onlyMem_halt {s t : State} (h : s.OnlyMem t) : t.halt = s.halt := by
  rw [onlyMem_eq h]
  rfl

theorem onlyMem_voiceWordAddr {s t : State} (h : s.OnlyMem t) (k : Handle) (off : Nat) :
    voiceWordAddr t k off = voiceWordAddr s k off := by
  rw [onlyMem_eq h]
  rfl

end Sys2Proof.Machine
end

