-- ==== Sys2Proof/Laws/Flags.lean ====
section
/-! SUPPORT. What the flag computations give: the interrupt line (60_exceptions R452), CONTROL's four values (45_dma_engine
R397), and the canonical form of DSP memory after a cell write. -/

namespace Sys2Proof.Machine

/-! ## The interrupt line -/

/-- GINTSTS takes no part in the level (60_exceptions R452). -/
theorem irqLevel_setField (ists ien : Word) (v : Nat) : irqLevel (setField ists 0 1 v) ien = irqLevel ists ien := by
  unfold irqLevel enabledCauses
  congr 2
  apply BitVec.eq_of_getLsbD_eq
  intro k hk
  simp only [BitVec.getLsbD_and]
  rw [getLsbD_setField _ _ _ _ _ hk]
  by_cases h0 : k = 0
  · subst h0
    simp
  · rw [if_neg (by omega)]

/-- After `UpdateIrq` the line and GINTSTS agree with the formula. -/
theorem updateIrq_irqOk (s : State) : (updateIrq s).IrqOk := by
  refine ⟨?_, ?_⟩
  · show irqLevel s.x.ists s.x.ien = irqLevel (setField s.x.ists 0 1 _) s.x.ien
    rw [irqLevel_setField]
  · show (setField s.x.ists 0 1 (irqLevel s.x.ists s.x.ien).toNat).getLsbD 0 = irqLevel s.x.ists s.x.ien
    rw [getLsbD_setField _ _ _ _ _ (by omega), if_pos (by omega)]
    cases irqLevel s.x.ists s.x.ien <;> rfl

@[simp] theorem updateIrq_irq (s : State) : (updateIrq s).irq = irqLevel s.x.ists s.x.ien := rfl

@[simp] theorem updateIrq_ien (s : State) : (updateIrq s).x.ien = s.x.ien := rfl

/-! ## CONTROL -/

/-- Every action leaves one of the four values (45_dma_engine R397). -/
theorem controlOk_status {w : Word} (h : w = 0x20 ∨ w = 0x10 ∨ w = 0x18 ∨ w = 0x28) :
    (statusStart w = 0x10 ∨ statusStart w = 0x18) ∧ (statusStop w = 0x20 ∨ statusStop w = 0x28) ∧
    (statusFreeze w = 0x18 ∨ statusFreeze w = 0x28) ∧ (statusUnfreeze w = 0x20 ∨ statusUnfreeze w = 0x10) := by
  rcases h with rfl | rfl | rfl | rfl <;> decide

/-! ## DSP cells -/

/-- A cell after a cell write: the written one takes the reduced value, no other changes (20_memory R87). -/
theorem dspRead_dspWrite (s : State) (c d : Core) (sp sq : Space) (i j : Nat) (v : Word) :
    dspRead (s.dspWrite c sp i v) d sq j =
      if d = c ∧ sq = sp ∧ j = i then cellValue s.cfg.cellBits v else dspRead s d sq j := by
  cases c <;> cases d <;> cases sp <;> cases sq <;>
    simp [dspRead, State.dspWrite, State.setDsp, State.dsp, DspMem.space, DspMem.setSpace, Store.get_set]

/-- A cell write keeps the canonical form. -/
theorem canonical_dspWrite {s : State} (h : s.Canonical) (c : Core) (sp : Space) (i : Nat) (v : Word) :
    (s.dspWrite c sp i v).Canonical := by
  obtain ⟨hm, ⟨h1, h2, h3⟩, ⟨h4, h5, h6⟩, hx⟩ := h
  cases c <;> cases sp <;>
    simp only [State.Canonical, DspMem.Canonical, State.dspWrite, State.setDsp, State.dsp, DspMem.space,
      DspMem.setSpace] <;>
    refine ⟨hm, ⟨?_, ?_, ?_⟩, ⟨?_, ?_, ?_⟩, hx⟩ <;> first | assumption | exact Store.wf_set ‹_› _ _

end Sys2Proof.Machine
end

