-- ==== Sys2Proof/Laws/Op.lean ====
section
/-! SUPPORT. How operations run: one equation per building block, and what `runOp` can answer. -/

namespace Sys2Proof.Machine

/-! ## Building blocks -/

@[simp] theorem pure_run {α : Type} (a : α) (s : State) : (pure a : Op α) s = .ok a s := rfl

@[simp] theorem raise_run {α : Type} (code : FatalCode) (s : State) : (raise code : Op α) s = .error code s := rfl

@[simp] theorem reads_run {α : Type} (f : State → α) (s : State) : reads f s = .ok (f s) s := rfl

@[simp] theorem update_run (f : State → State) (s : State) : update f s = .ok () (f s) := rfl

theorem bind_run {α β : Type} (m : Op α) (k : α → Op β) (s : State) :
    (m >>= k) s = match m s with
      | .ok a t => k a t
      | .error code t => .error code t := by
  show EStateM.bind m k s = _
  unfold EStateM.bind
  cases m s <;> rfl

/-- A run of a sequence whose first part succeeds. -/
theorem bind_ok {α β : Type} {m : Op α} {k : α → Op β} {s t : State} {a : α} (h : m s = .ok a t) :
    (m >>= k) s = k a t := by
  rw [bind_run, h]

/-- A run of a sequence whose first part raises. -/
theorem bind_error {α β : Type} {m : Op α} {k : α → Op β} {s t : State} {code : FatalCode} (h : m s = .error code t) :
    (m >>= k) s = .error code t := by
  rw [bind_run, h]

@[simp] theorem bind_pure_run {α β : Type} (a : α) (k : α → Op β) (s : State) : ((pure a : Op α) >>= k) s = k a s := rfl

@[simp] theorem bind_reads_run {α β : Type} (f : State → α) (k : α → Op β) (s : State) :
    (reads f >>= k) s = k (f s) s := rfl

@[simp] theorem bind_update_run {β : Type} (f : State → State) (k : Unit → Op β) (s : State) :
    (update f >>= k) s = k () (f s) := rfl

@[simp] theorem bind_raise_run {α β : Type} (code : FatalCode) (k : α → Op β) (s : State) :
    ((raise code : Op α) >>= k) s = .error code s := rfl

theorem readsOrRaise_run {α : Type} (f : State → Except FatalCode α) (s : State) :
    readsOrRaise f s = match f s with
      | .ok a => .ok a s
      | .error code => .error code s := rfl

theorem readsOrRaise_ok {α : Type} {f : State → Except FatalCode α} {s : State} {a : α} (h : f s = .ok a) :
    readsOrRaise f s = .ok a s := by
  rw [readsOrRaise_run, h]

theorem readsOrRaise_error {α : Type} {f : State → Except FatalCode α} {s : State} {code : FatalCode}
    (h : f s = .error code) : readsOrRaise f s = .error code s := by
  rw [readsOrRaise_run, h]

/-! ## What an operation does not look at -/

/-- `m` does the same behind the veil `f`, which covers a part of the state: with that part replaced it answers the same,
and writes the same to the rest. -/
def Commutes {α : Type} (f : State → State) (m : Op α) : Prop :=
  ∀ u, m (f u) = match m u with
    | .ok a t => .ok a (f t)
    | .error code t => .error code (f t)

namespace Commutes

variable {α β : Type} {f : State → State}

theorem bind {m : Op α} {k : α → Op β} (hm : Commutes f m) (hk : ∀ a, Commutes f (k a)) : Commutes f (m >>= k) := by
  intro u
  rw [bind_run, bind_run, hm u]
  cases m u with
  | ok a t => exact hk a t
  | error code t => rfl

theorem ret (a : α) : Commutes f (pure a : Op α) := fun _ => rfl

theorem fail (code : FatalCode) : Commutes f (raise code : Op α) := fun _ => rfl

theorem get {g : State → α} (h : ∀ u, g (f u) = g u) : Commutes f (reads g) := fun u => by
  rw [reads_run, reads_run, h]

theorem put {g : State → State} (h : ∀ u, g (f u) = f (g u)) : Commutes f (update g) := fun u => by
  rw [update_run, update_run, h]

theorem getOr {g : State → Except FatalCode α} (h : ∀ u, g (f u) = g u) : Commutes f (readsOrRaise g) := fun u => by
  rw [readsOrRaise_run, readsOrRaise_run, h]
  cases g u <;> rfl

theorem ite {c : Prop} [Decidable c] {m n : Op α} (hm : Commutes f m) (hn : Commutes f n) :
    Commutes f (if c then m else n) := by
  split
  · exact hm
  · exact hn

/-- What the veil covers stays as it is. -/
theorem keeps {m : Op α} (hm : Commutes f m) {u t : State} {a : α} (hf : f u = u) (h : m u = .ok a t) : t = f t := by
  have e := hm u
  rw [hf, h] at e
  exact (EStateM.Result.ok.inj e).2

theorem keeps_error {m : Op α} (hm : Commutes f m) {u t : State} {code : FatalCode} (hf : f u = u)
    (h : m u = .error code t) : t = f t := by
  have e := hm u
  rw [hf, h] at e
  exact (EStateM.Result.error.inj e).2

end Commutes

/-! ## What a run of an operation answers -/

/-- A halted block has no operation (60_exceptions R441). -/
theorem runOp_halted (m : Op Unit) {s : State} {code : FatalCode} (h : s.halt = .halted code) :
    runOp m s = .fault (.halted code) := by
  simp [runOp, h]

theorem runOp_ok {m : Op Unit} {s t : State} {a : Unit} (hs : s.halt = .running) (h : m s = .ok a t) :
    runOp m s = .next t := by
  simp [runOp, hs, h]

theorem runOp_error {m : Op Unit} {s t : State} {code : FatalCode} (hs : s.halt = .running) (h : m s = .error code t) :
    runOp m s = .next (takeFatal code t) := by
  simp [runOp, hs, h]

/-- All that a next state of an operation can be. -/
theorem runOp_cases {m : Op Unit} {s u : State} (h : runOp m s = .next u) :
    s.halt = .running ∧ (m s = .ok () u ∨ ∃ code t, m s = .error code t ∧ u = takeFatal code t) := by
  unfold runOp at h
  split at h
  · cases h
  · rename_i hs
    refine ⟨hs, ?_⟩
    split at h
    · rename_i hm
      cases h
      exact .inl hm
    · rename_i code t hm
      cases h
      exact .inr ⟨code, t, hm, rfl⟩

/-! ## Voice records -/

theorem checkHandle_run (h : Handle) (s : State) :
    checkHandle h s = if h.toNat < s.cfg.numVoices then .ok () s else .error .voiceBadHandle s := rfl

theorem checkHandle_ok {h : Handle} {s : State} (hh : h.toNat < s.cfg.numVoices) : checkHandle h s = .ok () s := by
  simp [checkHandle_run, hh]

theorem checkHandle_bad {h : Handle} {s : State} (hh : s.cfg.numVoices ≤ h.toNat) :
    checkHandle h s = .error .voiceBadHandle s := by
  rw [checkHandle_run, if_neg (by omega)]

theorem readV_ok {h : Handle} {s : State} (hh : h.toNat < s.cfg.numVoices) (f : VField) :
    readV h f s = .ok (voiceField s h f) s := by
  rw [readV, bind_ok (checkHandle_ok hh), reads_run]

theorem readV_bad {h : Handle} {s : State} (hh : s.cfg.numVoices ≤ h.toNat) (f : VField) :
    readV h f s = .error .voiceBadHandle s := by
  rw [readV, bind_error (checkHandle_bad hh)]

theorem writeV_ok {h : Handle} {s : State} (hh : h.toNat < s.cfg.numVoices) (f : VField) (v : Nat) :
    writeV h f v s = .ok () (s.setVoiceField h f v) := by
  rw [writeV, bind_ok (checkHandle_ok hh), update_run]

theorem writeV_bad {h : Handle} {s : State} (hh : s.cfg.numVoices ≤ h.toNat) (f : VField) (v : Nat) :
    writeV h f v s = .error .voiceBadHandle s := by
  rw [writeV, bind_error (checkHandle_bad hh)]

theorem writeVWord_ok {h : Handle} {s : State} (hh : h.toNat < s.cfg.numVoices) (off : Nat) (v : Word) :
    writeVWord h off v s = .ok () (s.setVoiceWord h off v) := by
  rw [writeVWord, bind_ok (checkHandle_ok hh), update_run]

theorem writeVWord_bad {h : Handle} {s : State} (hh : s.cfg.numVoices ≤ h.toNat) (off : Nat) (v : Word) :
    writeVWord h off v s = .error .voiceBadHandle s := by
  rw [writeVWord, bind_error (checkHandle_bad hh)]

/-! ## The translator -/

/-- All that a translation can answer (20_memory R95). -/
theorem translate_run (s : State) (t : SgTable) (lin : Word) :
    translate s t lin =
      if (sgTable s t).2 < lin.toNat / s.cfg.pageSize then .error .sgeRange
      else .ok (memRead s.mem ((sgTable s t).1 + BitVec.ofNat 32 (lin.toNat / s.cfg.pageSize * Config.sgeBytes)) 4 +
        BitVec.ofNat 32 (lin.toNat % s.cfg.pageSize)) := rfl

/-- A table whose maximum covers every entry refuses nothing. -/
theorem translate_ok (s : State) (t : SgTable) (lin : Word) (h : 0xFFFFFFFF ≤ (sgTable s t).2) :
    ∃ addr, translate s t lin = .ok addr := by
  rw [translate_run, if_neg]
  · exact ⟨_, rfl⟩
  · have := Nat.div_le_self lin.toNat s.cfg.pageSize
    have := lin.isLt
    omega

theorem translate_error {s : State} {t : SgTable} {lin : Word} {code : FatalCode} (h : translate s t lin = .error code) :
    code = .sgeRange := by
  rw [translate_run] at h
  split at h
  · cases h
    rfl
  · cases h

end Sys2Proof.Machine
end

