-- ==== Sys2Proof/Laws/Scatter.lean ====
section
/-! SUPPORT. Scatter-gather transfers: the bytes of a read, what a write can do, and that neither stops in a full table
(20_memory R95, R98). -/

namespace Sys2Proof.Machine

/-! ## Reads -/

theorem sgReadByte_ok {s : State} {t : SgTable} {lin addr : Word} (h : translate s t lin = .ok addr) :
    sgReadByte s t lin = .ok (memByte s.mem addr) := by
  simp [sgReadByte, h]

/-- A read in a full table gives its bytes. -/
theorem sgReadBytes_full {s : State} {t : SgTable} (hf : fullTable s t) (lin : Word) (n : Nat) :
    ∃ bs, sgReadBytes s t lin n = .ok bs ∧ bs.length = n := by
  induction n generalizing lin with
  | zero => exact ⟨[], rfl, rfl⟩
  | succ n ih =>
    obtain ⟨addr, ha⟩ := translate_ok s t lin hf
    obtain ⟨bs, hb, hl⟩ := ih (lin + 1)
    refine ⟨memByte s.mem addr :: bs, ?_, by simp [hl]⟩
    simp only [sgReadBytes, sgReadByte_ok ha, hb]

theorem sgRead_full {s : State} {t : SgTable} (hf : fullTable s t) (lin : Word) (n : Nat) :
    ∃ r, sgRead s t lin n = .ok r := by
  obtain ⟨bs, hb, -⟩ := sgReadBytes_full hf lin n
  exact ⟨leNat bs, by simp only [sgRead, hb]⟩

theorem sgReadBytes_error {s : State} {t : SgTable} {lin : Word} {n : Nat} {code : FatalCode}
    (h : sgReadBytes s t lin n = .error code) : code = .sgeRange := by
  induction n generalizing lin with
  | zero => cases h
  | succ n ih =>
    simp only [sgReadBytes, sgReadByte] at h
    split at h
    · rename_i he
      split at he
      · cases he
      · rename_i ht
        cases he
        cases h
        exact translate_error ht
    · split at h
      · rename_i he
        cases h
        exact ih he
      · cases h

/-- The only fatal of a read is the range (20_memory R95). -/
theorem sgRead_error {s : State} {t : SgTable} {lin : Word} {n : Nat} {code : FatalCode}
    (h : sgRead s t lin n = .error code) : code = .sgeRange := by
  unfold sgRead at h
  split at h
  · cases h
  · rename_i he
    cases h
    exact sgReadBytes_error he

/-- A read depends on guest memory, the table's registers and the page size. -/
theorem sgReadBytes_congr {s u : State} (hm : u.mem = s.mem) (hx : u.x = s.x) (hc : u.cfg = s.cfg) (t : SgTable)
    (lin : Word) (n : Nat) : sgReadBytes u t lin n = sgReadBytes s t lin n := by
  have ht : ∀ lin, translate u t lin = translate s t lin := by
    intro lin
    cases t <;> simp only [translate, sgTable, hm, hx, hc]
  induction n generalizing lin with
  | zero => rfl
  | succ n ih => simp only [sgReadBytes, sgReadByte, ht, hm, ih]

theorem sgRead_congr {s u : State} (hm : u.mem = s.mem) (hx : u.x = s.x) (hc : u.cfg = s.cfg) (t : SgTable)
    (lin : Word) (n : Nat) : sgRead u t lin n = sgRead s t lin n := by
  simp only [sgRead, sgReadBytes_congr hm hx hc]

/-! ## Numbers of bytes -/

/-- The first byte counts 1, the rest 256 times as much. -/
theorem littleEndian_succ (n : Nat) (f : Nat → Byte) :
    littleEndian (n + 1) f = (f 0).toNat + 256 * littleEndian n fun k => f (k + 1) := by
  have h : ∀ l : List Nat, (l.map fun k => (f (k + 1)).toNat * 256 ^ (k + 1)).sum =
      256 * (l.map fun k => (f (k + 1)).toNat * 256 ^ k).sum := by
    intro l
    induction l with
    | nil => rfl
    | cons a r ih =>
      simp only [List.map_cons, List.sum_cons, Nat.mul_add, Nat.pow_succ]
      congr 1
      rw [← Nat.mul_assoc, Nat.mul_comm]
  unfold littleEndian
  rw [List.range_succ_eq_map, List.map_cons, List.sum_cons, List.map_map]
  have e := h (List.range n)
  simp only [Nat.pow_zero, Nat.mul_one]
  exact congrArg _ e

/-- The little-endian number of a list of bytes. -/
theorem leNat_map (n : Nat) (f : Nat → Byte) : leNat ((List.range n).map f) = littleEndian n f := by
  induction n generalizing f with
  | zero => rfl
  | succ n ih =>
    rw [littleEndian_succ, List.range_succ_eq_map, List.map_cons, List.map_map, leNat]
    exact congrArg (fun r => (f 0).toNat + 256 * r) (ih fun k => f (k + 1))

/-- The next linear address. -/
theorem lin_succ (lin : Word) (j : Nat) : lin + 1 + BitVec.ofNat 32 j = lin + BitVec.ofNat 32 (j + 1) := by
  rw [BitVec.add_assoc, Nat.add_comm j, BitVec.ofNat_add]
  rfl

/-- A plain read is the little-endian number of its bytes, each address modulo 2^32 (20_memory R81, R82). -/
theorem memReadNat_bytes (m : Store 8) (a : Word) (n : Nat) :
    memReadNat m a n = littleEndian n fun k => memByte m (a + BitVec.ofNat 32 k) := by
  induction n generalizing a with
  | zero => rfl
  | succ n ih =>
    rw [memReadNat, littleEndian_succ, ih]
    simp only [lin_succ]
    simp only [BitVec.add_zero]

/-- The bytes of a read whose every byte translates (20_memory R98). -/
theorem sgReadBytes_known {s : State} {t : SgTable} (n : Nat) (lin : Word) (addr : Nat → Word)
    (ha : ∀ j, j < n → translate s t (lin + BitVec.ofNat 32 j) = .ok (addr j)) :
    sgReadBytes s t lin n = .ok ((List.range n).map fun j => memByte s.mem (addr j)) := by
  induction n generalizing lin addr with
  | zero => rfl
  | succ n ih =>
    have h0 : translate s t lin = .ok (addr 0) := by simpa using ha 0 (by omega)
    have hr := ih (lin + 1) (fun j => addr (j + 1)) fun j hj => by
      rw [lin_succ]
      exact ha (j + 1) (by omega)
    rw [sgReadBytes, sgReadByte_ok h0, hr, List.range_succ_eq_map, List.map_cons, List.map_map]
    rfl

/-- A read whose every byte translates: the little-endian number of the bytes (20_memory R98). -/
theorem sgRead_known {s : State} {t : SgTable} {n : Nat} {lin : Word} {addr : Nat → Word}
    (ha : ∀ j, j < n → translate s t (lin + BitVec.ofNat 32 j) = .ok (addr j)) :
    sgRead s t lin n = .ok (littleEndian n fun j => memByte s.mem (addr j)) := by
  rw [sgRead, sgReadBytes_known n lin addr ha]
  exact congrArg _ (leNat_map n _)

/-- A read with a byte that does not translate (20_memory R95). -/
theorem sgReadBytes_range {s : State} {t : SgTable} {n : Nat} {lin : Word}
    (h : ∃ j, j < n ∧ translate s t (lin + BitVec.ofNat 32 j) = .error .sgeRange) :
    sgReadBytes s t lin n = .error .sgeRange := by
  cases e : sgReadBytes s t lin n with
  | error code => rw [sgReadBytes_error e]
  | ok bs =>
    exfalso
    obtain ⟨j, hj, hr⟩ := h
    induction n generalizing lin j bs with
    | zero => omega
    | succ n ih =>
      rw [sgReadBytes] at e
      split at e
      · cases e
      · rename_i b hb
        split at e
        · cases e
        · rename_i bs' hbs
          cases j with
          | zero =>
            have h0 : translate s t lin = .error .sgeRange := by simpa using hr
            simp [sgReadByte, h0] at hb
          | succ j => exact ih bs' hbs j (by omega) (by rw [lin_succ]; exact hr)

theorem sgRead_range {s : State} {t : SgTable} {n : Nat} {lin : Word}
    (h : ∃ j, j < n ∧ translate s t (lin + BitVec.ofNat 32 j) = .error .sgeRange) :
    sgRead s t lin n = .error .sgeRange := by
  rw [sgRead, sgReadBytes_range h]

/-! ## Writes -/

theorem sgWriteByte_ok {s : State} {t : SgTable} {lin addr : Word} (h : translate s t lin = .ok addr) (b : Byte) :
    sgWriteByte t lin b s = .ok () (s.setMem (s.mem.set addr.toNat b)) := by
  rw [sgWriteByte, bind_ok (readsOrRaise_ok h)]
  rfl

/-- A change of guest memory alone leaves every table's registers. -/
theorem onlyMem_sgTable {s u : State} (h : s.OnlyMem u) (t : SgTable) : sgTable u t = sgTable s t := by
  rw [onlyMem_eq h]
  cases t <;> rfl

/-- A write in a full table completes and changes guest memory alone. -/
theorem sgWrite_full {s : State} {t : SgTable} (hf : fullTable s t) (lin : Word) (n v : Nat) :
    ∃ u, sgWrite t lin n v s = .ok () u ∧ s.OnlyMem u := by
  induction n generalizing s lin v with
  | zero => exact ⟨s, rfl, rfl⟩
  | succ n ih =>
    obtain ⟨addr, ha⟩ := translate_ok s t lin hf
    have h1 : s.OnlyMem (s.setMem (s.mem.set addr.toNat (BitVec.ofNat 8 v))) := rfl
    have hf1 : fullTable (s.setMem (s.mem.set addr.toNat (BitVec.ofNat 8 v))) t := by
      unfold fullTable
      rw [onlyMem_sgTable h1]
      exact hf
    obtain ⟨u, hu, ho⟩ := ih hf1 (lin + 1) (v / 256)
    refine ⟨u, ?_, onlyMem_trans h1 ho⟩
    rw [sgWrite, bind_ok (sgWriteByte_ok ha _), hu]

theorem sgWriteByte_error {s : State} {t : SgTable} {lin : Word} {code : FatalCode}
    (h : translate s t lin = .error code) (b : Byte) : sgWriteByte t lin b s = .error code s := by
  rw [sgWriteByte, bind_error (readsOrRaise_error h)]

/-- A write byte by byte: `mem j` is guest memory when `j` bytes are stored, each byte translated in the memory its turn
finds (20_memory R98). -/
theorem sgWrite_bytes {s : State} {t : SgTable} (n v : Nat) (lin : Word) (addr : Nat → Word) (mem : Nat → Store 8)
    (h0 : mem 0 = s.mem)
    (ha : ∀ j, j < n → translate (s.setMem (mem j)) t (lin + BitVec.ofNat 32 j) = .ok (addr j))
    (hm : ∀ j, j < n → mem (j + 1) = (mem j).set (addr j).toNat (BitVec.ofNat 8 (v / 256 ^ j))) :
    sgWrite t lin n v s = .ok () (s.setMem (mem n)) := by
  induction n generalizing s lin v addr mem with
  | zero =>
    rw [h0]
    rfl
  | succ n ih =>
    have hs : s.setMem (mem 0) = s := by rw [h0]; rfl
    have t0 : translate s t lin = .ok (addr 0) := by simpa [hs] using ha 0 (by omega)
    have m1 := hm 0 (by omega)
    rw [Nat.pow_zero, Nat.div_one, h0] at m1
    rw [sgWrite, bind_ok (sgWriteByte_ok t0 _)]
    refine ih (v / 256) (lin + 1) (fun j => addr (j + 1)) (fun j => mem (j + 1)) m1 (fun j hj => ?_) (fun j hj => ?_)
    · rw [lin_succ]
      exact ha (j + 1) (by omega)
    · rw [hm (j + 1) (by omega), Nat.div_div_eq_div_mul, ← Nat.pow_succ']

/-- A write that meets an unreadable byte: the bytes before it stay stored (20_memory R98, 45_dma_engine R418). -/
theorem sgWrite_stops {s : State} {t : SgTable} (n k v : Nat) (lin : Word) (addr : Nat → Word) (mem : Nat → Store 8)
    (hk : k < n) (h0 : mem 0 = s.mem)
    (ha : ∀ j, j < k → translate (s.setMem (mem j)) t (lin + BitVec.ofNat 32 j) = .ok (addr j))
    (hm : ∀ j, j < k → mem (j + 1) = (mem j).set (addr j).toNat (BitVec.ofNat 8 (v / 256 ^ j)))
    (he : translate (s.setMem (mem k)) t (lin + BitVec.ofNat 32 k) = .error .sgeRange) :
    sgWrite t lin n v s = .error .sgeRange (s.setMem (mem k)) := by
  induction n generalizing s lin v addr mem k with
  | zero => omega
  | succ n ih =>
    have hs : s.setMem (mem 0) = s := by rw [h0]; rfl
    cases k with
    | zero =>
      have t0 : translate s t lin = .error .sgeRange := by simpa [hs] using he
      rw [sgWrite, bind_error (sgWriteByte_error t0 _), hs]
    | succ k =>
      have t0 : translate s t lin = .ok (addr 0) := by simpa [hs] using ha 0 (by omega)
      have m1 := hm 0 (by omega)
      rw [Nat.pow_zero, Nat.div_one, h0] at m1
      rw [sgWrite, bind_ok (sgWriteByte_ok t0 _)]
      refine ih k (v / 256) (lin + 1) (fun j => addr (j + 1)) (fun j => mem (j + 1)) (by omega) m1 (fun j hj => ?_)
        (fun j hj => ?_) ?_
      · rw [lin_succ]
        exact ha (j + 1) (by omega)
      · rw [hm (j + 1) (by omega), Nat.div_div_eq_div_mul, ← Nat.pow_succ']
      · rw [lin_succ]
        exact he

/-- A translation depends on its entry's address word alone. -/
theorem translate_setMem (s : State) (t : SgTable) (lin a : Word) (b : Byte)
    (h : 4 ≤ (a - ((sgTable s t).1 + BitVec.ofNat 32 (lin.toNat / s.cfg.pageSize * Config.sgeBytes))).toNat) :
    translate (s.setMem (s.mem.set a.toNat b)) t lin = translate s t lin := by
  have hr : sgTable (s.setMem (s.mem.set a.toNat b)) t = sgTable s t := by cases t <;> rfl
  rw [translate_run, translate_run, hr]
  show (if _ then _ else _) = _
  congr 2
  generalize hb : (sgTable s t).1 + BitVec.ofNat 32 (lin.toNat / s.cfg.pageSize * Config.sgeBytes) = base at h
  show memRead (s.mem.set a.toNat b) ((sgTable s t).1 + BitVec.ofNat 32 (lin.toNat / s.cfg.pageSize * Config.sgeBytes)) 4 +
    _ = memRead s.mem base 4 + _
  rw [hb]
  congr 1
  simp only [memRead]
  rw [memReadNat_congr (s.mem.set a.toNat b) s.mem]
  intro k hk
  rw [memByte_set, if_neg]
  rintro rfl
  revert h
  rw [show ∀ x y : Word, x + y - x = y by intro x y; bv_omega]
  simp only [BitVec.toNat_ofNat]
  omega

/-- A write whose bytes go to known addresses, none of them in an entry it still needs: byte `j` of the value is stored at
`addr j`, later bytes last, and no other byte changes. -/
theorem sgWrite_known {s : State} {t : SgTable} (n v : Nat) (lin : Word) (addr : Nat → Word)
    (ha : ∀ j, j < n → translate s t (lin + BitVec.ofNat 32 j) = .ok (addr j))
    (hd : ∀ j k, j < n → k < n → 4 ≤ (addr k - ((sgTable s t).1 +
      BitVec.ofNat 32 ((lin + BitVec.ofNat 32 j).toNat / s.cfg.pageSize * Config.sgeBytes))).toNat) :
    sgWrite t lin n v s = .ok () (s.setMem ((List.range n).foldl
      (fun m j => m.set (addr j).toNat (BitVec.ofNat 8 (v / 256 ^ j))) s.mem)) := by
  induction n generalizing s lin v addr with
  | zero => rfl
  | succ n ih =>
    have h0 : translate s t lin = .ok (addr 0) := by simpa using ha 0 (by omega)
    have step : ∀ j, lin + 1 + BitVec.ofNat 32 j = lin + BitVec.ofNat 32 (j + 1) := by
      intro j
      rw [BitVec.add_assoc, Nat.add_comm j, BitVec.ofNat_add]
      rfl
    rw [sgWrite, bind_ok (sgWriteByte_ok h0 _)]
    rw [ih (v / 256) (lin + 1) (fun j => addr (j + 1))]
    · rw [List.range_succ_eq_map, List.foldl_cons, List.foldl_map]
      simp only [Nat.pow_zero, Nat.div_one]
      simp only [Nat.div_div_eq_div_mul, ← Nat.pow_succ']
      rfl
    · intro j hj
      rw [translate_setMem, step, ha (j + 1) (by omega)]
      rw [step]
      exact hd (j + 1) 0 (by omega) (by omega)
    · intro j k hj hk
      rw [step, show sgTable (s.setMem (s.mem.set (addr 0).toNat (BitVec.ofNat 8 v))) t = sgTable s t by cases t <;> rfl]
      exact hd (j + 1) (k + 1) (by omega) (by omega)

end Sys2Proof.Machine
end

