-- ==== Sys2Proof/Laws/Chain.lean ====
section
/-! SUPPORT. The chain walk (45_dma_engine R404 to R418): what a transfer in each direction and one iteration of the walk
do, and when a chain stays the same chain. -/

namespace Sys2Proof.Machine

/-! ## Transfers -/

/-- Items moved to scratch in a full table change guest memory alone. -/
theorem moveItems_out_full {s : State} {c : Core} (hf : fullTable s (scratchTable c)) (sp : Space) (size idx : Nat)
    (lin : Word) (n : Nat) : ∃ u, moveItems (itemOut c sp size) size idx lin n s = .ok () u ∧ s.OnlyMem u := by
  induction n generalizing s idx lin with
  | zero => exact ⟨s, rfl, rfl⟩
  | succ n ih =>
    obtain ⟨t, ht, ho⟩ := sgWrite_full hf lin size ((dspRead s c sp idx).toNat % itemMask size)
    have hf1 : fullTable t (scratchTable c) := by
      unfold fullTable
      rw [onlyMem_sgTable ho]
      exact hf
    obtain ⟨u, hu, ho2⟩ := ih hf1 (idx + 1) (lin + BitVec.ofNat 32 size)
    refine ⟨u, ?_, onlyMem_trans ho ho2⟩
    have hi : itemOut c sp size idx lin s = .ok () t := by
      rw [itemOut, bind_reads_run, ht]
    rw [moveItems, bind_ok hi, hu]

/-- A transfer to scratch whose window check passes. -/
theorem transfer_out_full {s : State} {c : Core} (hf : fullTable s (scratchTable c)) (size : Nat) (d : Descriptor)
    (target : Word) {w : Space × Nat} (hw : checkWindow d.dspOffset.toNat d.count.toNat = .ok w) :
    ∃ u, transfer c true size d target s = .ok () u ∧ s.OnlyMem u := by
  rw [transfer, bind_ok (readsOrRaise_ok hw)]
  exact moveItems_out_full hf w.1 size w.2 target d.count.toNat

/-- A transfer outside the windows moves nothing (45_dma_engine R417). -/
theorem transfer_bounds {s : State} (c : Core) (out : Bool) (size : Nat) (d : Descriptor) (target : Word)
    {code : FatalCode} (hw : checkWindow d.dspOffset.toNat d.count.toNat = .error code) :
    transfer c out size d target s = .error code s := by
  rw [transfer, bind_error (readsOrRaise_error hw)]

/-- One item from scratch: the cell it names takes the item's bits (45_dma_engine R418). -/
theorem itemIn_ok {s : State} {c : Core} {lin : Word} {size v : Nat}
    (h : sgRead s (scratchTable c) lin size = .ok v) (sp : Space) (idx : Nat) :
    itemIn c sp size idx lin s = .ok () (s.dspWrite c sp idx (BitVec.ofNat 32 (v % itemMask size))) := by
  rw [itemIn, bind_ok (readsOrRaise_ok h), update_run]

/-- A cell write leaves every scatter-gather read. -/
theorem sgRead_dspWrite (s : State) (c : Core) (sp : Space) (i : Nat) (v : Word) (t : SgTable) (lin : Word) (n : Nat) :
    sgRead (s.dspWrite c sp i v) t lin n = sgRead s t lin n :=
  sgRead_congr (by cases c <;> rfl) (by cases c <;> rfl) (by cases c <;> rfl) t lin n

/-- Items moved from scratch: cell `idx + k` takes item `k`, and no other cell and no other part of the state changes. -/
theorem moveItems_in {s : State} {c : Core} (sp : Space) (size idx : Nat) (lin : Word) (n : Nat)
    (hr : ∀ k, k < n → ∃ v, sgRead s (scratchTable c) (lin + BitVec.ofNat 32 (k * size)) size = .ok v) :
    ∃ t, moveItems (itemIn c sp size) size idx lin n s = .ok () t ∧
      (∀ k, k < n → ∃ v, sgRead s (scratchTable c) (lin + BitVec.ofNat 32 (k * size)) size = .ok v ∧
        dspRead t c sp (idx + k) = cellValue s.cfg.cellBits (BitVec.ofNat 32 (v % itemMask size))) ∧
      (∀ d sq j, ¬ (d = c ∧ sq = sp ∧ idx ≤ j ∧ j < idx + n) → dspRead t d sq j = dspRead s d sq j) ∧
      { t with dspGp := s.dspGp, dspEp := s.dspEp } = s := by
  induction n generalizing s idx lin with
  | zero => exact ⟨s, rfl, fun k hk => absurd hk (by omega), fun _ _ _ _ => rfl, rfl⟩
  | succ n ih =>
    have step : ∀ k, lin + BitVec.ofNat 32 size + BitVec.ofNat 32 (k * size) = lin + BitVec.ofNat 32 ((k + 1) * size) := by
      intro k
      rw [BitVec.add_assoc, ← BitVec.ofNat_add, Nat.succ_mul, Nat.add_comm]
    obtain ⟨v, hv⟩ := hr 0 (by omega)
    have hv0 : sgRead s (scratchTable c) lin size = .ok v := by simpa using hv
    let u := s.dspWrite c sp idx (BitVec.ofNat 32 (v % itemMask size))
    have hu : u.cfg = s.cfg := by cases c <;> rfl
    obtain ⟨t, h1, h2, h3, h4⟩ := ih (s := u) (idx + 1) (lin + BitVec.ofNat 32 size) (fun k hk => by
      obtain ⟨w, hw⟩ := hr (k + 1) (by omega)
      exact ⟨w, by rw [sgRead_dspWrite, step, hw]⟩)
    refine ⟨t, by rw [moveItems, bind_ok (itemIn_ok hv0 sp idx), h1], fun k hk => ?_, fun d sq j hd => ?_, ?_⟩
    · match k with
      | 0 =>
        refine ⟨v, hv, ?_⟩
        rw [Nat.add_zero, h3 c sp idx (by omega), dspRead_dspWrite, if_pos ⟨rfl, rfl, rfl⟩]
      | k + 1 =>
        obtain ⟨w, hw1, hw2⟩ := h2 k (by omega)
        rw [sgRead_dspWrite, step] at hw1
        refine ⟨w, hw1, ?_⟩
        rw [show idx + (k + 1) = idx + 1 + k by omega, hw2, hu]
    · rw [h3 d sq j (fun h => hd ⟨h.1, h.2.1, by omega, by omega⟩), dspRead_dspWrite, if_neg]
      rintro ⟨ha, hb, hc⟩
      exact hd ⟨ha, hb, by omega, by omega⟩
    · have e : { u with dspGp := s.dspGp, dspEp := s.dspEp } = s := by cases c <;> rfl
      exact (congrArg (fun a : State => { a with dspGp := s.dspGp, dspEp := s.dspEp }) h4).trans e

/-- A move of `m + r` items is the move of the first `m`, then of the rest. -/
theorem moveItems_add (item : Nat → Word → Op Unit) (size idx : Nat) (lin : Word) (m r : Nat) {s t : State}
    (h : moveItems item size idx lin m s = .ok () t) :
    moveItems item size idx lin (m + r) s =
      moveItems item size (idx + m) (lin + BitVec.ofNat 32 (m * size)) r t := by
  induction m generalizing s idx lin with
  | zero =>
    cases h
    simp
  | succ m ih =>
    rw [moveItems, bind_run] at h
    rw [Nat.succ_add, moveItems, bind_run]
    cases e : item idx lin s with
    | error code u => simp [e] at h
    | ok a u =>
      simp only [e] at h ⊢
      rw [ih (idx + 1) (lin + BitVec.ofNat 32 size) h]
      rw [BitVec.add_assoc, ← BitVec.ofNat_add]
      rw [show idx + 1 + m = idx + (m + 1) by omega, show size + m * size = (m + 1) * size by rw [Nat.succ_mul, Nat.add_comm]]

/-- Items from scratch up to one with an unreadable byte: the cells before it are written, and the walk stops
(45_dma_engine R418, R423). -/
theorem moveItems_in_stops {s : State} {c : Core} (sp : Space) (size idx : Nat) (lin : Word) (n m : Nat) (hm : m < n)
    (hr : ∀ k, k < m → ∃ v, sgRead s (scratchTable c) (lin + BitVec.ofNat 32 (k * size)) size = .ok v)
    (he : sgRead s (scratchTable c) (lin + BitVec.ofNat 32 (m * size)) size = .error .sgeRange) :
    ∃ t, moveItems (itemIn c sp size) size idx lin n s = .error .sgeRange t ∧
      (∀ k, k < m → ∃ v, sgRead s (scratchTable c) (lin + BitVec.ofNat 32 (k * size)) size = .ok v ∧
        dspRead t c sp (idx + k) = cellValue s.cfg.cellBits (BitVec.ofNat 32 (v % itemMask size))) ∧
      (∀ d sq j, ¬ (d = c ∧ sq = sp ∧ idx ≤ j ∧ j < idx + m) → dspRead t d sq j = dspRead s d sq j) ∧
      { t with dspGp := s.dspGp, dspEp := s.dspEp } = s := by
  obtain ⟨t, h1, h2, h3, h4⟩ := moveItems_in sp size idx lin m hr
  obtain ⟨r, rfl⟩ : ∃ r, n = m + (r + 1) := ⟨n - m - 1, by omega⟩
  refine ⟨t, ?_, h2, h3, h4⟩
  have ht : sgRead t (scratchTable c) (lin + BitVec.ofNat 32 (m * size)) size = .error .sgeRange := by
    have hm : t.mem = s.mem := (congrArg State.mem h4 :)
    have hx : t.x = s.x := (congrArg State.x h4 :)
    have hc : t.cfg = s.cfg := (congrArg State.cfg h4 :)
    rw [sgRead_congr hm hx hc, he]
  rw [moveItems_add _ _ _ _ _ _ h1, moveItems, itemIn]
  exact bind_error (bind_error (readsOrRaise_error ht))

/-- Items moved to scratch, byte by byte: `mem j` is guest memory when `j` bytes of the transfer are stored
(45_dma_engine R418). -/
theorem moveItems_out_bytes {s : State} {c : Core} (sp : Space) {size : Nat} (hsz : 0 < size) (idx : Nat) (lin : Word)
    (n : Nat) (addr : Nat → Word) (mem : Nat → Store 8) (h0 : mem 0 = s.mem)
    (ha : ∀ j, j < n * size →
      translate (s.setMem (mem j)) (scratchTable c) (lin + BitVec.ofNat 32 j) = .ok (addr j))
    (hm : ∀ j, j < n * size → mem (j + 1) = (mem j).set (addr j).toNat
      (BitVec.ofNat 8 ((dspRead s c sp (idx + j / size)).toNat % itemMask size / 256 ^ (j % size)))) :
    moveItems (itemOut c sp size) size idx lin n s = .ok () (s.setMem (mem (n * size))) := by
  induction n generalizing s idx lin addr mem with
  | zero =>
    rw [Nat.zero_mul, h0]
    rfl
  | succ n ih =>
    have hn : (n + 1) * size = size + n * size := by rw [Nat.succ_mul, Nat.add_comm]
    have hi : itemOut c sp size idx lin s = .ok () (s.setMem (mem size)) := by
      rw [itemOut, bind_reads_run]
      refine sgWrite_bytes size _ lin addr mem h0 (fun j hj => ha j (by omega)) fun j hj => ?_
      rw [hm j (by omega), Nat.div_eq_of_lt hj, Nat.mod_eq_of_lt hj, Nat.add_zero]
    rw [moveItems, bind_ok hi, hn]
    have step : ∀ j, lin + BitVec.ofNat 32 size + BitVec.ofNat 32 j = lin + BitVec.ofNat 32 (size + j) := by
      intro j
      rw [BitVec.add_assoc, ← BitVec.ofNat_add]
    refine ih (s := s.setMem (mem size)) (idx + 1) (lin + BitVec.ofNat 32 size) (fun j => addr (size + j))
      (fun j => mem (size + j)) rfl (fun j hj => ?_) (fun j hj => ?_)
    · rw [step]
      exact ha (size + j) (by omega)
    · show mem (size + j + 1) = _
      rw [hm (size + j) (by omega), Nat.add_div_left _ hsz, Nat.add_mod_left]
      rw [show idx + (j / size + 1) = idx + 1 + j / size by omega]
      cases c <;> rfl

/-- The same up to an unreadable byte: the bytes before it stay stored (45_dma_engine R418, R423). -/
theorem moveItems_out_stops {s : State} {c : Core} (sp : Space) {size : Nat} (hsz : 0 < size) (idx : Nat) (lin : Word)
    (n k : Nat) (hk : k < n * size) (addr : Nat → Word) (mem : Nat → Store 8) (h0 : mem 0 = s.mem)
    (ha : ∀ j, j < k → translate (s.setMem (mem j)) (scratchTable c) (lin + BitVec.ofNat 32 j) = .ok (addr j))
    (hm : ∀ j, j < k → mem (j + 1) = (mem j).set (addr j).toNat
      (BitVec.ofNat 8 ((dspRead s c sp (idx + j / size)).toNat % itemMask size / 256 ^ (j % size))))
    (he : translate (s.setMem (mem k)) (scratchTable c) (lin + BitVec.ofNat 32 k) = .error .sgeRange) :
    moveItems (itemOut c sp size) size idx lin n s = .error .sgeRange (s.setMem (mem k)) := by
  have hd : k / size * size + k % size = k := Nat.div_add_mod' k size
  have hq : k / size < n := Nat.div_lt_of_lt_mul (by rw [Nat.mul_comm]; exact hk)
  generalize k / size = q at hd hq
  have hr : k % size < size := Nat.mod_lt _ hsz
  generalize k % size = r at hd hr
  obtain ⟨n, rfl⟩ : ∃ z, n = q + (z + 1) := ⟨n - q - 1, by omega⟩
  have h1 := moveItems_out_bytes sp hsz idx lin q addr mem h0 (fun j hj => ha j (by omega)) (fun j hj => hm j (by omega))
  rw [moveItems_add _ _ _ _ _ _ h1, moveItems]
  refine bind_error ?_
  rw [itemOut, bind_reads_run]
  have step : ∀ j, lin + BitVec.ofNat 32 (q * size) + BitVec.ofNat 32 j = lin + BitVec.ofNat 32 (q * size + j) := by
    intro j
    rw [BitVec.add_assoc, ← BitVec.ofNat_add]
  subst hd
  refine sgWrite_stops (s := s.setMem (mem (q * size))) size r _ _ (fun j => addr (q * size + j))
    (fun j => mem (q * size + j)) hr rfl (fun j hj => ?_) (fun j hj => ?_) ?_
  · rw [step]
    exact ha (q * size + j) (by omega)
  · show mem (q * size + j + 1) = _
    rw [hm (q * size + j) (by omega), Nat.mul_comm q size, Nat.mul_add_div hsz, Nat.mul_add_mod,
      Nat.div_eq_of_lt (show j < size by omega), Nat.mod_eq_of_lt (show j < size by omega), Nat.add_zero]
    cases c <;> rfl
  · rw [step]
    exact he

/-! ## One iteration -/

@[simp] theorem dma_setDma (s : State) (c d : Core) (r : DmaRegs) :
    (s.setDma c r).dma d = if d = c then r else s.dma d := by
  cases c <;> cases d <;> rfl

theorem onlyMem_dma {s u : State} (h : s.OnlyMem u) (c : Core) : u.dma c = s.dma c := by
  rw [onlyMem_eq h]
  cases c <;> rfl

theorem onlyMem_dspRead {s u : State} (h : s.OnlyMem u) (c : Core) (sp : Space) (i : Nat) :
    dspRead u c sp i = dspRead s c sp i := by
  rw [onlyMem_eq h]
  cases c <;> rfl

theorem readDescriptor_ok {s : State} {addr : Nat} (h : addr + 6 < s.cfg.xSize) (c : Core) :
    readDescriptor c addr s = .ok (descriptorAt s c addr) s :=
  readsOrRaise_ok (f := fun s => if addr + 6 ≥ s.cfg.xSize then .error .dmaBounds else .ok (descriptorAt s c addr))
    (if_neg (by omega))

theorem readDescriptor_bad {s : State} {addr : Nat} (h : s.cfg.xSize ≤ addr + 6) (c : Core) :
    readDescriptor c addr s = .error .dmaBounds s :=
  readsOrRaise_error (f := fun s => if addr + 6 ≥ s.cfg.xSize then .error .dmaBounds else .ok (descriptorAt s c addr))
    (if_pos h)

/-- The item size of a format (45_dma_engine R412). -/
theorem itemSize_ok {d : Descriptor} (h : descriptorItem d ≠ 0) (s : State) :
    itemSize (field d.control 10 3) s = .ok (descriptorItem d) s := by
  unfold descriptorItem at h ⊢
  unfold itemSize
  split at h <;> rename_i e <;> first | (rw [e]; rfl) | exact absurd rfl h

/-- A format without an item size is fatal (45_dma_engine R412). -/
theorem itemSize_bad {d : Descriptor} (h : descriptorItem d = 0) (s : State) :
    itemSize (field d.control 10 3) s = .error .dmaBadFormat s := by
  unfold descriptorItem at h
  generalize field d.control 10 3 = k at h ⊢
  have e : itemSize k = raise .dmaBadFormat := by
    unfold itemSize
    split <;> first | rfl | cases h
  rw [e]
  rfl

/-- Cells named in one window pass the window check (45_dma_engine R417). -/
theorem checkWindow_names {d : Descriptor} {sp : Space} {idx : Nat} (h : d.names sp idx) :
    checkWindow d.dspOffset.toNat d.count.toNat = .ok (sp, idx) := by
  obtain ⟨w, hw, h1, h2, h3, h4⟩ := h
  rw [h2]
  generalize d.count.toNat = n at h4
  simp only [dspSides, List.mem_cons, List.not_mem_nil, or_false] at hw
  rcases hw with rfl | rfl | rfl <;> dsimp only at h1 h3 h4 ⊢ <;> subst h1 <;> unfold checkWindow dspWindow
  · rw [if_pos (by omega)]
    dsimp only
    rw [if_pos, Nat.zero_add]
    by_cases hn : n = 0
    · exact .inl hn
    · right
      rw [if_pos (by omega)]
      rfl
  · rw [if_neg (by omega), if_pos (by omega)]
    dsimp only
    rw [if_pos, Nat.add_sub_cancel_left]
    by_cases hn : n = 0
    · exact .inl hn
    · right
      rw [if_neg (by omega), if_pos (by omega)]
      rfl
  · rw [if_neg (by omega), if_neg (by omega), if_pos (by omega)]
    dsimp only
    rw [if_pos, Nat.add_sub_cancel_left]
    by_cases hn : n = 0
    · exact .inl hn
    · right
      rw [if_neg (by omega), if_neg (by omega), if_pos (by omega)]
      rfl

/-- The buffer selection skips exactly the skipped bodies (45_dma_engine R414, R415). -/
theorem selectBuffer_skip (d : Descriptor) : (selectBuffer d (descriptorItem d)).1 = true ↔ d.skipped := by
  unfold selectBuffer Descriptor.skipped
  by_cases h : field d.control 5 4 = Config.bufCircular
  · rw [if_pos h]
    simp only [circularBuffer, circularFits, Bool.not_eq_true', decide_eq_false_iff_not, Nat.not_lt]
    exact ⟨fun hh => ⟨h, hh⟩, fun hh => hh.2⟩
  · rw [if_neg h]
    exact ⟨fun hh => by simp [offsetBuffer] at hh, fun hh => absurd hh.1 h⟩

/-- One iteration over a descriptor that runs: NEXT_BLOCK advances, guest memory and the cells it fills may change, nothing
else does. -/
theorem chainBody_runs {s : State} {c : Core} {ptr : Word} {d : Descriptor} (hx : ptrAddr ptr + 6 < s.cfg.xSize)
    (hd : descriptorAt s c (ptrAddr ptr) = d) (hr : d.runs) (hf : fullTable s (scratchTable c)) :
    ∃ u, chainBody c ptr s = .ok () (u.setDma c { u.dma c with nextBlock := d.next }) ∧
      { u with mem := s.mem, dspGp := s.dspGp, dspEp := s.dspEp } = s ∧
      (∀ e sp j, ¬ (e = c ∧ d.fills sp j) → dspRead u e sp j = dspRead s e sp j) ∧
      (d.control.getLsbD 1 = true ∨ d.skipped → u.dspGp = s.dspGp ∧ u.dspEp = s.dspEp) ∧
      (d.control.getLsbD 1 = false ∨ d.skipped → u.mem = s.mem) := by
  rw [chainBody, bind_ok (readDescriptor_ok hx c), hd, bind_ok (itemSize_ok hr.1 s)]
  by_cases hb : (selectBuffer d (descriptorItem d)).1 = true
  · refine ⟨s, ?_, rfl, fun _ _ _ _ => rfl, fun _ => ⟨rfl, rfl⟩, fun _ => rfl⟩
    simp only [hb, if_true]
    rfl
  · have hs : ¬ d.skipped := fun h => hb ((selectBuffer_skip d).mpr h)
    obtain ⟨w, -, hw⟩ := hr.2.resolve_left hs
    have hc := checkWindow_names hw
    generalize d.dspOffset.toNat - w.2.1 = idx at hw hc
    simp only [hb]
    cases hdir : d.control.getLsbD 1 with
    | true =>
      obtain ⟨u, hu, ho⟩ := transfer_out_full hf (descriptorItem d) d (selectBuffer d (descriptorItem d)).2 hc
      refine ⟨u, bind_ok hu, ?_, fun e sp j _ => onlyMem_dspRead ho e sp j, fun _ => ?_, fun h => ?_⟩
      · exact congrArg (fun a : State => { a with dspGp := s.dspGp, dspEp := s.dspEp }) ho
      · rw [onlyMem_eq ho]
        exact ⟨rfl, rfl⟩
      · rcases h with h | h
        · cases h
        · exact absurd h hs
    | false =>
      obtain ⟨u, hu, -, h3, h4⟩ := moveItems_in (s := s) (c := c) w.1 (descriptorItem d) idx
        (selectBuffer d (descriptorItem d)).2 d.count.toNat fun k _ => sgRead_full hf _ _
      have ht : transfer c false (descriptorItem d) d (selectBuffer d (descriptorItem d)).2 s = .ok () u := by
        rw [transfer, bind_ok (readsOrRaise_ok hc)]
        exact hu
      refine ⟨u, bind_ok ht, ?_, fun e sp j hn => ?_, fun h => ?_, fun _ => (congrArg State.mem h4 :)⟩
      · exact congrArg (fun a : State => { a with mem := s.mem }) h4
      · exact h3 e sp j fun hh => hn ⟨hh.1, hdir, hs, idx, hh.2.1 ▸ hw, hh.2.2⟩
      · rcases h with h | h
        · cases h
        · exact absurd h hs

/-! ## Chains -/

/-- A chain is the same chain where its descriptors' cells are the same. -/
theorem chainTo_congr {s t : State} {c : Core} {last ptr : Word} {l : List Descriptor} (hc : t.cfg = s.cfg)
    (hd : ∀ p ∈ ptr :: l.map Descriptor.next, ptrEol p = false →
      ∀ i, ptrAddr p ≤ i ∧ i < ptrAddr p + 7 → dspRead t c .x i = dspRead s c .x i)
    (h : ChainTo s c last ptr l) : ChainTo t c last ptr l := by
  induction l generalizing ptr with
  | nil => exact h
  | cons d r ih =>
    obtain ⟨h1, h2, h3, h4⟩ := h
    refine ⟨h1, by rw [hc]; exact h2, ?_, ih (fun p hp => hd p (by simp at hp ⊢; tauto)) h4⟩
    rw [← h3]
    have hi := hd ptr (by simp) h1
    simp only [descriptorAt]
    rw [hi _ (by omega), hi _ (by omega), hi _ (by omega), hi _ (by omega), hi _ (by omega), hi _ (by omega),
      hi _ (by omega)]

end Sys2Proof.Machine
end

