-- ==== Sys2Proof/Laws/Exec.lean ====
section
/-! SUPPORT. The operation that each instruction runs, and what `exec` answers in terms of it. -/

namespace Sys2Proof.Machine

/-- The operation of an instruction. -/
def opOf (i : Instr) : Op Unit :=
  match i with
  | .mmioIsts a => accessIsts a
  | .mmioIen a => accessIen a
  | .mmioFectl a => plainRegister (fun x => x.fectl) (fun x v => { x with fectl := v }) a
  | .mmioFecv a => plainRegister (fun x => x.fecv) (fun x v => { x with fecv := v }) a
  | .mmioFeav a => plainRegister (fun x => x.feav) (fun x v => { x with feav := v }) a
  | .mmioFetforce1 a => plainRegister (fun x => x.fetforce1) (fun x v => { x with fetforce1 := v }) a
  | .mmioSectl a => plainRegister (fun x => x.sectl) (fun x v => { x with sectl := v }) a
  | .mmioVpvaddr a => plainRegister (fun x => x.vpvaddr) (fun x v => { x with vpvaddr := v }) a
  | .mmioVpsgeaddr a => plainRegister (fun x => x.vpsgeaddr) (fun x v => { x with vpsgeaddr := v }) a
  | .mmioGpsaddr a => plainRegister (fun x => x.gpsaddr) (fun x v => { x with gpsaddr := v }) a
  | .mmioGpfaddr a => plainRegister (fun x => x.gpfaddr) (fun x v => { x with gpfaddr := v }) a
  | .mmioEpsaddr a => plainRegister (fun x => x.epsaddr) (fun x v => { x with epsaddr := v }) a
  | .mmioEpfaddr a => plainRegister (fun x => x.epfaddr) (fun x v => { x with epfaddr := v }) a
  | .mmioTvl2d a => plainRegister (fun x => x.tvl2d) (fun x v => { x with tvl2d := v }) a
  | .mmioCvl2d a => plainRegister (fun x => x.cvl2d) (fun x v => { x with cvl2d := v }) a
  | .mmioNvl2d a => plainRegister (fun x => x.nvl2d) (fun x v => { x with nvl2d := v }) a
  | .mmioTvl3d a => plainRegister (fun x => x.tvl3d) (fun x v => { x with tvl3d := v }) a
  | .mmioCvl3d a => plainRegister (fun x => x.cvl3d) (fun x v => { x with cvl3d := v }) a
  | .mmioNvl3d a => plainRegister (fun x => x.nvl3d) (fun x v => { x with nvl3d := v }) a
  | .mmioTvlmp a => plainRegister (fun x => x.tvlmp) (fun x v => { x with tvlmp := v }) a
  | .mmioCvlmp a => plainRegister (fun x => x.cvlmp) (fun x v => { x with cvlmp := v }) a
  | .mmioNvlmp a => plainRegister (fun x => x.nvlmp) (fun x v => { x with nvlmp := v }) a
  | .mmioGpsmaxsge a => plainRegister (fun x => x.gpsmaxsge) (fun x v => { x with gpsmaxsge := v }) a
  | .mmioGpfmaxsge a => plainRegister (fun x => x.gpfmaxsge) (fun x v => { x with gpfmaxsge := v }) a
  | .mmioEpsmaxsge a => plainRegister (fun x => x.epsmaxsge) (fun x v => { x with epsmaxsge := v }) a
  | .mmioEpfmaxsge a => plainRegister (fun x => x.epfmaxsge) (fun x v => { x with epfmaxsge := v }) a
  | .mmioGprst a => accessRst .gp a
  | .mmioEprst a => accessRst .ep a
  | .mmioGpX idx a => cellAccess .gp .x (fun _ => idx.toNat) a
  | .mmioGpMixbuf idx a => cellAccess .gp .x (fun s => s.cfg.mixbufBase + idx.toNat) a
  | .mmioGpY idx a => cellAccess .gp .y (fun _ => idx.toNat) a
  | .mmioGpPLower idx a => cellAccess .gp .p (fun _ => idx.toNat) a
  | .mmioGpPUpper idx a => cellAccess .gp .p (fun _ => 0x800 + idx.toNat) a
  | .mmioEpX idx a => cellAccess .ep .x (fun _ => idx.toNat) a
  | .mmioEpY idx a => cellAccess .ep .y (fun _ => idx.toNat) a
  | .mmioEpPLower idx a => cellAccess .ep .p (fun _ => idx.toNat) a
  | .mmioEpPUpper idx a => cellAccess .ep .p (fun _ => 0x800 + idx.toNat) a
  | .mmioCmdport idx a => accessPort (4 * idx.toNat) a
  | .mmioUnmapped _ a => accessUnmapped a
  | .feSetAntecedentVoice arg => feSetAntecedentVoice arg
  | .feVoiceOn arg => feVoiceOn arg
  | .feVoiceOff arg => feVoiceOff arg
  | .feVoicePause arg => feVoicePause arg
  | .feSetCurrentVoice arg => feSetCurrentVoice arg
  | .feSetVoiceCfgVbin arg => paramWord 0x00 arg
  | .feSetVoiceCfgFmt arg => paramWord 0x04 arg
  | .feSetVoiceCfgEnv0 arg => paramWord 0x08 arg
  | .feSetVoiceCfgEnva arg => paramWord 0x0C arg
  | .feSetVoiceCfgEnv1 arg => paramWord 0x10 arg
  | .feSetVoiceCfgEnvf arg => paramWord 0x14 arg
  | .feSetVoiceCfgMisc arg => paramField (vRelease .f) (field arg 0 12)
  | .feSetVoiceTarVola arg => paramWord 0x60 arg
  | .feSetVoiceTarVolb arg => paramWord 0x64 arg
  | .feSetVoiceTarVolc arg => paramWord 0x68 arg
  | .feSetVoiceTarLfoEnv arg => paramField (vRelease .a) (field arg 0 12)
  | .feSetVoiceTarPitch arg => paramField vPitch (argStep arg)
  | .feSetVoiceCfgBufBase arg => paramField vBa (argOffset arg)
  | .feSetVoiceCfgBufLbo arg => paramField vLbo (argOffset arg)
  | .feSetVoiceBufCbo arg => paramField vCbo (argOffset arg)
  | .feSetVoiceCfgBufEbo arg => paramField vEbo (argOffset arg)
  | .feSetCurrentInbufSge arg => feSetInbufSge arg
  | .feSetCurrentInbufSgeOffset arg => entryWrite State.inbufSge arg
  | .feSetCurrentOutbufSge arg => feSetOutbufSge arg
  | .feSetCurrentOutbufSgeOffset arg => entryWrite State.outbufSge arg
  | .feSe2feIdleVoice arg => feIdleVoice arg
  | .feUnknown _ _ => pure ()
  | .dmaConfiguration c a => accessConfiguration c a
  | .dmaControl c a => accessControl c a
  | .dmaStartBlock c a => accessStartBlock c a
  | .dmaNextBlock c a => accessNextBlock c a
  | .dmaActNop c _ => actNop c
  | .dmaActStart c _ => actStart c
  | .dmaActStop c _ => actStop c
  | .dmaActFreeze c _ => actFreeze c
  | .dmaActUnfreeze c _ => actUnfreeze c
  | .dmaActAbort _ _ => actBad
  | .dmaActReserved6 _ _ => actBad
  | .dmaActReserved7 _ _ => actBad
  | .descFormat0 c => formatAlone c 0
  | .descFormat1 c => formatAlone c 1
  | .descFormat2 c => formatAlone c 2
  | .descFormat3 c => formatAlone c 3
  | .descFormat4 c => formatAlone c 4
  | .descFormat5 c => formatAlone c 5
  | .descFormat6 c => formatAlone c 6
  | .descFormat7 c => formatAlone c 7
  | .descBufCircular c => bufferAlone c circularBuffer
  | .descBufOffset c _ => bufferAlone c fun d _ => offsetBuffer d
  | .descDirDspToScratch c => directionAlone c true
  | .descDirScratchToDsp c => directionAlone c false
  | .descPtrEol c _ => chainEnd c
  | .descPtrBlock c addr => blockAlone c addr.toNat
  | .envOff h e => envAlone (envRule offStep h e)
  | .envDelay h e => envAlone (envRule delayStep h e)
  | .envAttack h e => envAlone (envRule attackStep h e)
  | .envHold h e => envAlone (envRule holdStep h e)
  | .envDecay h e => envAlone (envRule decayStep h e)
  | .envSustain h e => envAlone (envRule sustainStep h e)
  | .envRelease h e => envAlone (envRule releaseStep h e)
  | .envForceRelease h _ => envAlone (envFatal .envForceRelease h)
  | .envBadState h _ _ => envAlone (envFatal .envBadState h)
  | .fmtPcmB8U8 h p => fetchAlone (.pcm 1 8) h p
  | .fmtPcmB16U8 h p => fetchAlone (.pcm 2 8) h p
  | .fmtPcmB16S16 h p => fetchAlone (.pcm 2 16) h p
  | .fmtPcmB32U8 h p => fetchAlone (.pcm 4 8) h p
  | .fmtPcmB32S16 h p => fetchAlone (.pcm 4 16) h p
  | .fmtPcmB32S24 h p => fetchAlone (.pcm 4 24) h p
  | .fmtPcmB32S32 h p => fetchAlone (.pcm 4 32) h p
  | .fmtAdpcm h p _ => fetchAlone .adpcm h p
  | .fmtIllegalB8S16 h p => fetchAlone .illegal h p
  | .fmtIllegalB8S24 h p => fetchAlone .illegal h p
  | .fmtIllegalB8S32 h p => fetchAlone .illegal h p
  | .fmtIllegalB16S24 h p => fetchAlone .illegal h p
  | .fmtIllegalB16S32 h p => fetchAlone .illegal h p
  | .fmtStereo h i => mixAlone true h i.toNat
  | .fmtMono h i => mixAlone false h i.toNat
  | .fmtLoop h p => resolveAlone true h p
  | .fmtOneshot h p => resolveAlone false h p
  | .voiceActive h => activeAlone h
  | .voiceIdle h => idleAlone h
  | .voicePaused h => pausedAlone h
  | .tick => frameTick
  | .sgTranslate t lin => translateAlone t lin

/-- Every meaning is one operation run as `runOp` runs it (00_scope R8). -/
theorem exec_eq (i : Instr) (s : State) : exec i s = runOp (opOf i) s := by
  cases i <;> rfl

/-- An operation that succeeds gives its state. -/
theorem exec_ok {i : Instr} {s t : State} (hs : s.halt = .running) (h : opOf i s = .ok () t) : exec i s = .next t := by
  rw [exec_eq, runOp_ok hs h]

/-- An operation that raises is taken where it stands (60_exceptions R441). -/
theorem exec_error {i : Instr} {s t : State} {code : FatalCode} (hs : s.halt = .running)
    (h : opOf i s = .error code t) : exec i s = .next (takeFatal code t) := by
  rw [exec_eq, runOp_error hs h]

end Sys2Proof.Machine
end

