-- ==== Sys2Proof/Laws/FrontEnd.lean ====
section
/-! SUPPORT. What the front-end commands do when they run: the operand forms as numbers, the parameter writes, and the two
insertions of VOICE_ON (41_frontend_commands R224, R227). -/

namespace Sys2Proof.Machine

/-- A field as a number. -/
theorem field_nat (w : Word) (lo len : Nat) : field w lo len = w.toNat / 2 ^ lo % 2 ^ len := by
  simp [field, Nat.shiftRight_eq_div_pow]

theorem argHandle_eq (w : Word) : argHandle w = BitVec.ofNat 16 w.toNat := by
  apply BitVec.eq_of_toNat_eq
  simp [argHandle]

@[simp] theorem argHandle_handleWord (h : Handle) : argHandle (handleWord h) = h := by
  apply BitVec.eq_of_toNat_eq
  simp [argHandle, handleWord]
  exact h.isLt

theorem paramWord_ok {s : State} (h : (currentVoice s).toNat < s.cfg.numVoices) (off : Nat) (arg : Word) :
    paramWord off arg s = .ok () (s.setVoiceWord (currentVoice s) off arg) := by
  rw [paramWord, bind_reads_run, writeVWord_ok h]

theorem paramWord_bad {s : State} (h : s.cfg.numVoices ≤ (currentVoice s).toNat) (off : Nat) (arg : Word) :
    paramWord off arg s = .error .voiceBadHandle s := by
  rw [paramWord, bind_reads_run, writeVWord_bad h]

theorem paramField_ok {s : State} (h : (currentVoice s).toNat < s.cfg.numVoices) (f : VField) (v : Nat) :
    paramField f v s = .ok () (s.setVoiceField (currentVoice s) f v) := by
  rw [paramField, bind_reads_run, writeV_ok h]

theorem paramField_bad {s : State} (h : s.cfg.numVoices ≤ (currentVoice s).toNat) (f : VField) (v : Nat) :
    paramField f v s = .error .voiceBadHandle s := by
  rw [paramField, bind_reads_run, writeV_bad h]

theorem insertHead_ok {s : State} {h : Handle} (hh : h.toNat < s.cfg.numVoices) (l : VoiceList) :
    insertHead l h s = .ok () ((s.setVoiceField h vLink (field (tvl s l) 0 16)).setTvl l (handleWord h)) := by
  rw [insertHead, bind_reads_run, bind_ok (writeV_ok hh _ _), update_run]

theorem insertAfter_ok {s : State} {a h : Handle} (ha : a.toNat < s.cfg.numVoices) (hh : h.toNat < s.cfg.numVoices) :
    insertAfter a h s =
      .ok () ((s.setVoiceField h vLink (voiceField s a vLink)).setVoiceField a vLink h.toNat) := by
  rw [insertAfter, bind_ok (readV_ok ha _), bind_ok (writeV_ok hh _ _)]
  exact writeV_ok (s := s.setVoiceField h vLink (voiceField s a vLink)) ha _ _

/-- An inserted handle outside the table writes nothing, whatever the antecedent. -/
theorem insert_bad {s : State} {a h : Handle} (hh : s.cfg.numVoices ≤ h.toNat) (l : VoiceList) :
    insertAfter a h s = .error .voiceBadHandle s ∧ insertHead l h s = .error .voiceBadHandle s := by
  constructor
  · rw [insertAfter]
    by_cases ha : a.toNat < s.cfg.numVoices
    · rw [bind_ok (readV_ok ha _), bind_error (writeV_bad hh _ _)]
    · rw [bind_error (readV_bad (by omega) _)]
  · rw [insertHead, bind_reads_run, bind_error (writeV_bad hh _ _)]

end Sys2Proof.Machine
end

