-- ==== Sys2Proof/Laws/Descriptor.lean ====
section
/-! SUPPORT. A chain walk as the rows of its descriptors (45_dma_engine R404): the body of one iteration is the DESC rows run
one after the other, whatever values they keep (log 2). -/

namespace Sys2Proof.Machine

/-! ## What a body does not look at -/

/-- `z` with the parameters, the registers, the guest memory and the cores' cells of `u`: what a transfer reads and
writes. -/
def State.moved (u z : State) : State :=
  { z with cfg := u.cfg, x := u.x, mem := u.mem, dspGp := u.dspGp, dspEp := u.dspEp }

theorem moved_self (u : State) : u.moved u = u := rfl

theorem moved_sgRead (u z : State) (t : SgTable) (lin : Word) (n : Nat) : sgRead (u.moved z) t lin n = sgRead u t lin n :=
  sgRead_congr (s := u) (u := u.moved z) rfl rfl rfl t lin n

theorem commutes_sgWrite (z : State) (t : SgTable) (lin : Word) (n v : Nat) :
    Commutes (fun u => u.moved z) (sgWrite t lin n v) := by
  induction n generalizing lin v with
  | zero => exact .ret ()
  | succ n ih =>
    refine .bind (.bind (.getOr fun u => ?_) fun addr => .put fun u => rfl) fun _ => ih _ _
    cases t <;> rfl

theorem commutes_moveItems {f : State → State} {item : Nat → Word → Op Unit} (h : ∀ idx lin, Commutes f (item idx lin))
    (size idx : Nat) (lin : Word) (n : Nat) : Commutes f (moveItems item size idx lin n) := by
  induction n generalizing idx lin with
  | zero => exact .ret ()
  | succ n ih => exact .bind (h idx lin) fun _ => ih _ _

/-- A transfer reads and writes guest memory and cells, and nothing else. -/
theorem commutes_transfer (z : State) (c : Core) (out : Bool) (size : Nat) (d : Descriptor) (target : Word) :
    Commutes (fun u => u.moved z) (transfer c out size d target) := by
  refine .bind (.getOr fun _ => rfl) fun w => commutes_moveItems (fun idx lin => ?_) _ _ _ _
  cases out
  · refine .bind (.getOr fun u => moved_sgRead u z _ _ _) fun v => .put fun u => ?_
    cases c <;> rfl
  · refine .bind (.get fun u => ?_) fun v => commutes_sgWrite z _ _ _ _
    cases c <;> rfl

/-- The transfer of a descriptor, or none of it (45_dma_engine R415). -/
def bodyMove (c : Core) (skip out : Bool) (size : Nat) (d : Descriptor) (target : Word) : Op Unit :=
  if skip then pure () else transfer c out size d target

theorem commutes_bodyMove (z : State) (c : Core) (skip out : Bool) (size : Nat) (d : Descriptor) (target : Word) :
    Commutes (fun u => u.moved z) (bodyMove c skip out size d target) :=
  .ite (.ret ()) (commutes_transfer z c out size d target)

/-- With other kept values it moves the same, and the values stay. -/
theorem bodyMove_setSub (c : Core) (skip out : Bool) (size : Nat) (d : Descriptor) (target : Word) (b : SubOp)
    (u : State) : bodyMove c skip out size d target (u.setSub b) = match bodyMove c skip out size d target u with
      | .ok a t => .ok a (t.setSub b)
      | .error code t => .error code (t.setSub b) := by
  have h := commutes_bodyMove (u.setSub b) c skip out size d target u
  dsimp only at h
  rw [show u.moved (u.setSub b) = u.setSub b from rfl] at h
  have key : ∀ t : State, t = t.moved u → t.moved (u.setSub b) = t.setSub b := fun t ht => by
    rw [ht]
    rfl
  rw [h]
  cases e : bodyMove c skip out size d target u with
  | ok a t => exact congrArg _ (key t ((commutes_bodyMove u c skip out size d target).keeps rfl e))
  | error code t => exact congrArg _ (key t ((commutes_bodyMove u c skip out size d target).keeps_error rfl e))

/-! ## One iteration -/

/-- One iteration, as one equation (45_dma_engine R404, 60_exceptions R444 (c)): the bound, the format, the move, the
advance. -/
theorem chainBody_run (c : Core) (ptr : Word) (s : State) :
    chainBody c ptr s =
      if s.cfg.xSize ≤ ptrAddr ptr + 6 then .error .dmaBounds s
      else if descriptorItem (descriptorAt s c (ptrAddr ptr)) = 0 then .error .dmaBadFormat s
      else (do
        bodyMove c (selectBuffer (descriptorAt s c (ptrAddr ptr)) (descriptorItem (descriptorAt s c (ptrAddr ptr)))).1
          ((descriptorAt s c (ptrAddr ptr)).control.getLsbD 1) (descriptorItem (descriptorAt s c (ptrAddr ptr)))
          (descriptorAt s c (ptrAddr ptr))
          (selectBuffer (descriptorAt s c (ptrAddr ptr)) (descriptorItem (descriptorAt s c (ptrAddr ptr)))).2
        chainAdvance c (descriptorAt s c (ptrAddr ptr)).next : Op Unit) s := by
  by_cases hx : s.cfg.xSize ≤ ptrAddr ptr + 6
  · rw [if_pos hx, chainBody, bind_error (readDescriptor_bad hx c)]
  · rw [if_neg hx, chainBody, bind_ok (readDescriptor_ok (by omega) c)]
    by_cases hi : descriptorItem (descriptorAt s c (ptrAddr ptr)) = 0
    · rw [if_pos hi]
      exact bind_error (itemSize_bad hi s)
    · rw [if_neg hi, bind_ok (itemSize_ok hi s)]
      unfold bodyMove
      cases (selectBuffer (descriptorAt s c (ptrAddr ptr)) (descriptorItem (descriptorAt s c (ptrAddr ptr)))).1 <;> rfl

/-! ## The rows of a body -/

theorem setWalk_setWalk (s : State) (c : Core) (v w : Walk) : (s.setWalk c v).setWalk c w = s.setWalk c w := by
  cases c <;> rfl

theorem walk_setWalk (s : State) (c : Core) (w : Walk) : (s.setWalk c w).walk c = w := by cases c <;> rfl

/-- Kept walk values are kept values. -/
theorem setWalk_sub (s : State) (c : Core) (w : Walk) : ∃ b, s.setWalk c w = s.setSub b := by
  cases c <;> exact ⟨_, rfl⟩

/-- The block-pointer row (45_dma_engine R410, R411). -/
theorem exec_descPtrBlock {s : State} (hr : s.halt = .running) (c : Core) (ptr : Word) :
    exec (.descPtrBlock c (ptr.extractLsb' 0 14)) s =
      if s.cfg.xSize ≤ ptrAddr ptr + 6 then .next (takeFatal .dmaBounds s)
      else .next (s.setWalk c { s.walk c with desc := descriptorAt s c (ptrAddr ptr) }) := by
  split
  · exact exec_error hr (bind_error (readDescriptor_bad (by assumption) c))
  · exact exec_ok hr (bind_ok (readDescriptor_ok (addr := ptrAddr ptr) (by omega) c))

/-- The format row (45_dma_engine R412). -/
theorem exec_decodeFormat {s : State} (hr : s.halt = .running) (c : Core) (d : Descriptor) :
    exec (decodeFormat c d.control) s =
      if descriptorItem d = 0 then .next (takeFatal .dmaBadFormat s)
      else .next (s.setWalk c { s.walk c with itemSize := descriptorItem d }) := by
  have e : exec (decodeFormat c d.control) s = runOp (formatAlone c (field d.control 10 3)) s := by
    have h : field d.control 10 3 < 8 := field_lt _ 10 3
    unfold decodeFormat
    generalize field d.control 10 3 = k at h
    interval_cases k <;> rfl
  rw [e]
  split
  · exact runOp_error hr (bind_error (itemSize_bad (by assumption) s))
  · exact runOp_ok (a := ()) hr (bind_ok (itemSize_ok (by assumption) s))

/-- The buffer row (45_dma_engine R414, R415). -/
theorem exec_buffer {s : State} (hr : s.halt = .running) (c : Core) (w : Walk) :
    exec (if field w.desc.control 5 4 = 0xE then .descBufCircular c
      else .descBufOffset c (w.desc.control.extractLsb' 5 4)) (s.setWalk c w) =
      .next (s.setWalk c { w with
        skip := (selectBuffer w.desc w.itemSize).1, target := (selectBuffer w.desc w.itemSize).2 }) := by
  have hr : (s.setWalk c w).halt = .running := by cases c <;> exact hr
  unfold selectBuffer
  rw [show (0xE : Nat) = Config.bufCircular from rfl]
  by_cases h : field w.desc.control 5 4 = Config.bufCircular
  · simp only [if_pos h]
    refine exec_ok hr ?_
    cases c <;> rfl
  · simp only [if_neg h]
    refine exec_ok hr ?_
    cases c <;> rfl

/-- The direction row (45_dma_engine R404, R416). -/
theorem exec_direction (s : State) (c : Core) (w : Walk) :
    exec (if w.desc.control.getLsbD 1 then .descDirDspToScratch c else .descDirScratchToDsp c) (s.setWalk c w) =
      runOp (do
        bodyMove c w.skip (w.desc.control.getLsbD 1) w.itemSize w.desc w.target
        chainAdvance c w.desc.next) (s.setWalk c w) := by
  have e : ∀ out, (directionAlone c out) (s.setWalk c w) = (do
        bodyMove c w.skip out w.itemSize w.desc w.target
        chainAdvance c w.desc.next : Op Unit) (s.setWalk c w) := fun out => by
    rw [directionAlone, bind_reads_run, walk_setWalk]
    unfold bodyMove
    cases w.skip <;> rfl
  cases w.desc.control.getLsbD 1
  · show runOp (directionAlone c false) _ = _
    simp only [runOp, e]
  · show runOp (directionAlone c true) _ = _
    simp only [runOp, e]

/-- The rows of a descriptor are one iteration of the walk, but for the values they keep (45_dma_engine R404). -/
theorem descriptorRows_body {c : Core} {s : State} (hr : s.halt = .running) :
    ∃ b, descriptorRows c s = match chainBody c (s.dma c).nextBlock s with
      | .ok () t => .next (t.setSub b)
      | .error code t => .next (takeFatal code (t.setSub b)) := by
  generalize hp : (s.dma c).nextBlock = ptr
  rw [chainBody_run, descriptorRows, hp, exec_descPtrBlock hr]
  by_cases hx : s.cfg.xSize ≤ ptrAddr ptr + 6
  · rw [if_pos hx, if_pos hx]
    exact ⟨s.sub, rfl⟩
  rw [if_neg hx, if_neg hx]
  generalize hd : descriptorAt s c (ptrAddr ptr) = d
  have run : ∀ w, (s.setWalk c w).halt = .running := fun w => by cases c <;> exact hr
  dsimp only
  rw [if_pos (run _), walk_setWalk, bodyRows, execRows, exec_decodeFormat (run _)]
  by_cases hi : descriptorItem d = 0
  · rw [if_pos hi, if_pos hi]
    obtain ⟨b, hb⟩ := setWalk_sub s c { s.walk c with desc := d }
    refine ⟨b, ?_⟩
    rw [hb]
    rfl
  rw [if_neg hi, if_neg hi, walk_setWalk, setWalk_setWalk]
  dsimp only
  rw [if_pos (run _), execRows, exec_buffer hr c { s.walk c with desc := d, itemSize := descriptorItem d }]
  dsimp only
  rw [if_pos (run _), execRows, exec_direction s c { s.walk c with
    desc := d, itemSize := descriptorItem d, skip := (selectBuffer d (descriptorItem d)).1,
    target := (selectBuffer d (descriptorItem d)).2 }]
  dsimp only
  generalize (selectBuffer d (descriptorItem d)).1 = skip
  generalize (selectBuffer d (descriptorItem d)).2 = target
  obtain ⟨b, hb⟩ := setWalk_sub s c ⟨d, descriptorItem d, skip, target⟩
  refine ⟨b, ?_⟩
  have hm := bodyMove_setSub c skip (d.control.getLsbD 1) (descriptorItem d) d target b s
  have hs : (s.setSub b).halt = .running := hr
  rw [hb]
  cases e : bodyMove c skip (d.control.getLsbD 1) (descriptorItem d) d target s with
  | ok a t =>
    rw [e] at hm
    have ht := (commutes_bodyMove s c skip (d.control.getLsbD 1) (descriptorItem d) d target).keeps rfl e
    have h1 : ∀ u : State, chainAdvance c d.next u = .ok () (u.setDma c { u.dma c with nextBlock := d.next }) :=
      fun u => rfl
    rw [bind_ok e, h1, runOp_ok hs ((bind_ok hm).trans (h1 _))]
    have h2 : ((t.setSub b).setDma c { (t.setSub b).dma c with nextBlock := d.next }).halt = .running := by
      have : t.halt = .running := by
        rw [ht]
        exact hr
      cases c <;> exact this
    dsimp only
    rw [if_pos h2]
    cases c <;> rfl
  | error code t =>
    rw [e] at hm
    rw [bind_error e, runOp_error hs (bind_error hm)]
    rfl

/-- A body that raises leaves the engine, the kept values and the halt record as they were (45_dma_engine R423). -/
theorem chainBody_error {c : Core} {ptr : Word} {s t : State} {code : FatalCode} (h : chainBody c ptr s = .error code t) :
    t = t.moved s := by
  rw [chainBody_run] at h
  split at h
  · cases h
    rfl
  · split at h
    · cases h
      rfl
    · rw [bind_run] at h
      split at h
      · cases h
      · rename_i e
        cases h
        exact (commutes_bodyMove s c _ _ _ _ _).keeps_error rfl e

/-- A body that completes advances NEXT_BLOCK and leaves the rest of the engine, the kept values and the halt record as they
were (45_dma_engine R404). -/
theorem chainBody_ok {c : Core} {ptr : Word} {s t : State} (h : chainBody c ptr s = .ok () t) :
    t = (t.moved s).setDma c { s.dma c with nextBlock := (t.dma c).nextBlock } := by
  rw [chainBody_run] at h
  split at h
  · cases h
  · split at h
    · cases h
    · rw [bind_run] at h
      split at h
      · rename_i e
        have ht := (commutes_bodyMove s c _ _ _ _ _).keeps rfl e
        cases h
        generalize (descriptorAt s c (ptrAddr ptr)).next = next at *
        rw [ht]
        cases c <;> rfl
      · cases h

/-- Other kept values: the same iteration. -/
theorem chainBody_setSub (c : Core) (ptr : Word) (b : SubOp) (s : State) :
    chainBody c ptr (s.setSub b) = match chainBody c ptr s with
      | .ok a t => .ok a (t.setSub b)
      | .error code t => .error code (t.setSub b) := by
  have hd : descriptorAt (s.setSub b) c (ptrAddr ptr) = descriptorAt s c (ptrAddr ptr) := by cases c <;> rfl
  rw [chainBody_run, chainBody_run, hd]
  show (if s.cfg.xSize ≤ _ then _ else _) = _
  split
  · rfl
  · split
    · rfl
    · rw [bind_run, bind_run, bodyMove_setSub]
      cases bodyMove c _ _ _ _ _ s with
      | ok a t => cases c <;> rfl
      | error code t => rfl

/-! ## The walk -/

/-- The loop of a walk passes the descriptors whose rows lead on, as many iterations being spent (45_dma_engine R404). -/
theorem chainLoop_walks {c : Core} (n : Nat) {z s u : State} (hz : z.halt = .running) (hs : s = z.setSub s.sub)
    (h : WalksTo c n z u) : u.halt = .running ∧ u.dma c = { z.dma c with nextBlock := (u.dma c).nextBlock } ∧
      ∀ m, chainLoop c (n + m) s = chainLoop c m (u.setSub s.sub) := by
  induction n generalizing z s with
  | zero =>
    cases h
    exact ⟨hz, rfl, fun m => by rw [Nat.zero_add, ← hs]⟩
  | succ n ih =>
    obtain ⟨h1, v, hv, hr, hw⟩ := h
    obtain ⟨b, hb⟩ := descriptorRows_body (c := c) hz
    rw [hv] at hb
    cases e : chainBody c (z.dma c).nextBlock z with
    | error code t =>
      rw [e] at hb
      cases hb
      cases hr
    | ok a t =>
      rw [e] at hb
      cases hb
      obtain ⟨g1, g2, g3⟩ := ih (z := t.setSub b) (s := t.setSub s.sub) hr rfl hw
      have hd := congrArg (fun a : State => a.dma c) (chainBody_ok e)
      refine ⟨g1, ?_, fun m => ?_⟩
      · rw [g2, show (t.setSub b).dma c = t.dma c by cases c <;> rfl]
        rw [hd]
        cases c <;> rfl
      · have hn : (s.dma c).nextBlock = (z.dma c).nextBlock := by
          rw [hs]
          cases c <;> rfl
        have hbody : chainBody c (z.dma c).nextBlock s = .ok () (t.setSub s.sub) := by
          rw [hs, chainBody_setSub, e]
          rfl
        rw [show n + 1 + m = (n + m) + 1 by omega, chainLoop, bind_reads_run, hn, if_neg (by simp [h1]), bind_ok hbody]
        exact g3 m

/-- The rows of a finite chain lead to its end-of-list pointer, in a full table (45_dma_engine R404, R406, R421): the cells
that no body fills, guest memory if none moves data to it, and all but the kept values stay. -/
theorem chain_walks {c : Core} {last : Word} (l : List Descriptor) {s : State} (hr : s.halt = .running)
    (hc : ChainTo s c last (s.dma c).nextBlock l) (ho : ∀ d ∈ l, d.runs) (hk : SteadyChain (s.dma c).nextBlock l)
    (hf : fullTable s (scratchTable c)) :
    ∃ u, WalksTo c l.length s u ∧ u.dma c = { s.dma c with nextBlock := last } ∧ ptrEol last = true ∧
      (∀ e, e ≠ c → u.dma e = s.dma e) ∧
      (∀ e sp j, ¬ (e = c ∧ ∃ d ∈ l, d.fills sp j) → dspRead u e sp j = dspRead s e sp j) ∧
      ((∀ d ∈ l, d.control.getLsbD 1 = true ∨ d.skipped) → u.dspGp = s.dspGp ∧ u.dspEp = s.dspEp) ∧
      ((∀ d ∈ l, d.control.getLsbD 1 = false ∨ d.skipped) → u.mem = s.mem) ∧
      { u with mem := s.mem, dspGp := s.dspGp, dspEp := s.dspEp, dmaGp := s.dmaGp, dmaEp := s.dmaEp, sub := s.sub } = s := by
  induction l generalizing s with
  | nil =>
    obtain ⟨h1, h2⟩ := hc
    exact ⟨s, rfl, by rw [← h1], h1 ▸ h2, fun _ _ => rfl, fun _ _ _ _ => rfl, fun _ => ⟨rfl, rfl⟩, fun _ => rfl, rfl⟩
  | cons d r ih =>
    obtain ⟨h1, h2, h3, h4⟩ := hc
    obtain ⟨v, hv, hv1, hv2, hv3, hv4⟩ := chainBody_runs h2 h3 (ho d (by simp)) hf
    obtain ⟨b, hb⟩ := descriptorRows_body (c := c) hr
    rw [hv] at hb
    let t := (v.setDma c { v.dma c with nextBlock := d.next }).setSub b
    have htx : ∀ e sp j, dspRead t e sp j = dspRead v e sp j := fun e sp j => by cases c <;> cases e <;> rfl
    have hvd : ∀ e, v.dma e = s.dma e := fun e => by
      have := congrArg (fun a : State => a.dma e) hv1
      cases e <;> exact this
    have htd : ∀ e, t.dma e = if e = c then { s.dma c with nextBlock := d.next } else s.dma e := fun e => by
      rw [← hvd e, ← hvd c]
      cases c <;> cases e <;> rfl
    have htc : t.dma c = { s.dma c with nextBlock := d.next } := by rw [htd, if_pos rfl]
    have ht1 : { t with
        mem := s.mem, dspGp := s.dspGp, dspEp := s.dspEp, dmaGp := s.dmaGp, dmaEp := s.dmaEp, sub := s.sub } = s := by
      have := congrArg (fun a : State => { a with dmaGp := s.dmaGp, dmaEp := s.dmaEp, sub := s.sub }) hv1
      cases c <;> exact this
    have hth : t.halt = .running := (congrArg State.halt ht1 :).trans hr
    have htf : fullTable t (scratchTable c) := by
      have : sgTable t (scratchTable c) = sgTable s (scratchTable c) := by
        have := congrArg (fun a : State => sgTable a (scratchTable c)) ht1
        cases c <;> exact this
      unfold fullTable
      rw [this]
      exact hf
    obtain ⟨u, e1, e2, e3, e4, e5, e6, e7, e8⟩ := ih (s := t) hth
      (by
        rw [htc]
        refine chainTo_congr ((congrArg State.cfg ht1 :)) (fun p hp hpe i hi => ?_) h4
        rw [htx]
        exact hv2 c .x i fun hh => hk d (by simp) p (by simp at hp ⊢; tauto) hpe i hh.2 hi)
      (fun e he => ho e (by simp [he]))
      (by
        rw [htc]
        exact fun e he p hp => hk e (by simp [he]) p (by simp at hp ⊢; tauto))
      htf
    refine ⟨u, ⟨h1, t, hb, hth, e1⟩, by rw [e2, htc], e3, fun e he => by rw [e4 e he, htd, if_neg he],
      fun e sp j hn => ?_, fun hh => ?_, fun hh => ?_, ?_⟩
    · rw [e5 e sp j fun h => hn ⟨h.1, h.2.imp fun _ hd => ⟨by simp [hd.1], hd.2⟩⟩, htx]
      exact hv2 e sp j fun h => hn ⟨h.1, d, by simp, h.2⟩
    · obtain ⟨g1, g2⟩ := e6 fun e he => hh e (by simp [he])
      obtain ⟨k1, k2⟩ := hv3 (hh d (by simp))
      rw [g1, g2, ← k1, ← k2]
      cases c <;> exact ⟨rfl, rfl⟩
    · rw [e7 fun e he => hh e (by simp [he]), ← hv4 (hh d (by simp))]
      cases c <;> rfl
    · exact (congrArg (fun a : State => { a with
        mem := s.mem, dspGp := s.dspGp, dspEp := s.dspEp, dmaGp := s.dmaGp, dmaEp := s.dmaEp, sub := s.sub }) e8).trans ht1

end Sys2Proof.Machine
end

