-- ==== Sys2Proof/Laws/Envelope.lean ====
section
/-! SUPPORT. What a step of an envelope does when it runs (42_envelope R281): the write-back and nothing else. -/

namespace Sys2Proof.Machine

/-- The write-back changes guest memory and nothing else. -/
theorem envWriteBack_onlyMem (h : Handle) (e : Env) (o : EnvOut) (s : State) : s.OnlyMem (envWriteBack h e o s) := by
  have h3 := onlyMem_trans (onlyMem_trans (onlyMem_setVoiceField s h (vCount e) o.count)
    (onlyMem_setVoiceField _ h (vLevel e) o.level)) (onlyMem_setVoiceField _ h (vState e) o.state)
  unfold envWriteBack
  split
  · exact onlyMem_trans h3 (onlyMem_setVoiceField _ h vActive 0)
  · exact h3

/-- The written fields after the write-back, reduced to their widths. -/
theorem envWriteBack_fields (h : Handle) (e : Env) (o : EnvOut) (s : State) :
    voiceField (envWriteBack h e o s) h (vCount e) = o.count % 65536 ∧
    voiceField (envWriteBack h e o s) h (vLevel e) = o.level % 256 ∧
    voiceField (envWriteBack h e o s) h (vState e) = o.state % 16 ∧
    voiceField (envWriteBack h e o s) h vActive = if o.ends then 0 else voiceField s h vActive := by
  unfold envWriteBack
  cases e <;> split <;> refine ⟨?_, ?_, ?_, ?_⟩ <;>
    (repeat first
      | rw [voiceField_setVoiceField_same _ _ _ _ (by decide)]
      | rw [voiceField_setVoiceField_apart _ _ _ _ _ (by decide)]) <;>
    rfl

/-- A field apart from the four written ones is unchanged. -/
theorem envWriteBack_apart (h : Handle) (e : Env) (o : EnvOut) (s : State) (g : VField) (h1 : (vCount e).apart g)
    (h2 : (vLevel e).apart g) (h3 : (vState e).apart g) (h4 : vActive.apart g) :
    voiceField (envWriteBack h e o s) h g = voiceField s h g := by
  unfold envWriteBack
  split <;> simp only [voiceField_setVoiceField_apart _ _ _ _ _ h1, voiceField_setVoiceField_apart _ _ _ _ _ h2,
    voiceField_setVoiceField_apart _ _ _ _ _ h3, voiceField_setVoiceField_apart _ _ _ _ _ h4]

/-- Another voice's fields are unchanged. -/
theorem envWriteBack_voice {h k : Handle} (hk : k ≠ h) (e : Env) (o : EnvOut) (s : State) (g : VField)
    (hg : g.off + 4 ≤ 128) : voiceField (envWriteBack h e o s) k g = voiceField s k g := by
  unfold envWriteBack
  cases e <;> split <;>
    simp only [voiceField_setVoiceField_voice _ hk _ _ _ hg (by decide : (vActive).off + 4 ≤ 128),
      voiceField_setVoiceField_voice _ hk _ _ _ hg (by decide : (vCount .a).off + 4 ≤ 128),
      voiceField_setVoiceField_voice _ hk _ _ _ hg (by decide : (vLevel .a).off + 4 ≤ 128),
      voiceField_setVoiceField_voice _ hk _ _ _ hg (by decide : (vState .a).off + 4 ≤ 128),
      voiceField_setVoiceField_voice _ hk _ _ _ hg (by decide : (vCount .f).off + 4 ≤ 128),
      voiceField_setVoiceField_voice _ hk _ _ _ hg (by decide : (vLevel .f).off + 4 ≤ 128),
      voiceField_setVoiceField_voice _ hk _ _ _ hg (by decide : (vState .f).off + 4 ≤ 128)]

/-- Bytes outside the three words keep their value. -/
theorem memByte_envWriteBack (h : Handle) (e : Env) (o : EnvOut) (s : State) (a : Word)
    (h1 : outsideWord s h (vCount e).off a) (h2 : outsideWord s h (vLevel e).off a) (h3 : outsideWord s h 0x54 a) :
    memByte (envWriteBack h e o s).mem a = memByte s.mem a := by
  have h4 : outsideWord s h (vState e).off a := by cases e <;> exact h3
  unfold envWriteBack
  split
  · rw [memByte_setVoiceField, memByte_setVoiceField, memByte_setVoiceField, memByte_setVoiceField] <;>
      (try simp only [voiceWordAddr_setVoiceField]) <;> assumption
  · rw [memByte_setVoiceField, memByte_setVoiceField, memByte_setVoiceField] <;>
      (try simp only [voiceWordAddr_setVoiceField]) <;> assumption

/-- A step of a rule: the level it gives, the write-back and nothing else. -/
theorem envRule_ok {s : State} {h : Handle} (hh : h.toNat < s.cfg.numVoices) (f : EnvIn → EnvOut) (e : Env) :
    envRule f h e s = .ok (f (envIn s h e)).level (envWriteBack h e (f (envIn s h e)) s) := by
  rw [envRule, bind_ok (checkHandle_ok hh)]
  rfl

/-- A state with no rule writes nothing. -/
theorem envFatal_run (code : FatalCode) {s : State} {h : Handle} (hh : h.toNat < s.cfg.numVoices) :
    envFatal code h s = .error code s := by
  rw [envFatal, bind_ok (checkHandle_ok hh)]
  rfl

/-- The rule of a state with one (42_envelope R281, R287 to R293). -/
def envRuleOf (state : Nat) : EnvIn → EnvOut :=
  match state with
  | 0 => offStep
  | 1 => delayStep
  | 2 => attackStep
  | 3 => holdStep
  | 4 => decayStep
  | 5 => sustainStep
  | _ => releaseStep

/-- All that a step of an envelope whose state has a rule does. -/
theorem envStep_ok {s : State} {h : Handle} (hh : h.toNat < s.cfg.numVoices) (e : Env)
    (hs : voiceField s h (vState e) < 7) :
    let o := envRuleOf (voiceField s h (vState e)) (envIn s h e)
    envStep h e s = .ok o.level (envWriteBack h e o s) := by
  rw [envStep, bind_ok (readV_ok hh _)]
  generalize voiceField s h (vState e) = k at hs
  match k, hs with
  | 0, _ => exact envRule_ok hh _ e
  | 1, _ => exact envRule_ok hh _ e
  | 2, _ => exact envRule_ok hh _ e
  | 3, _ => exact envRule_ok hh _ e
  | 4, _ => exact envRule_ok hh _ e
  | 5, _ => exact envRule_ok hh _ e
  | 6, _ => exact envRule_ok hh _ e

/-- A step run alone: the level goes to the values of the sub-operations (log 2). -/
theorem envAlone_ok {m : Op Nat} {s t : State} {level : Nat} (h : m s = .ok level t) :
    envAlone m s = .ok () (t.setSub { t.sub with level := level }) := by
  rw [envAlone, bind_ok h, update_run]

/-- From a rule run alone to what the statements say of it. -/
theorem envAlone_written (s : State) (h : Handle) (e : Env) (o : EnvOut) (hc : o.count < 65536) (hl : o.level < 256)
    (hs : o.state < 16) :
    EnvWritten s ((envWriteBack h e o s).setSub { (envWriteBack h e o s).sub with level := o.level }) h e o.count
      o.level o.state o.ends := by
  obtain ⟨f1, f2, f3, f4⟩ := envWriteBack_fields h e o s
  have hm := envWriteBack_onlyMem h e o s
  rw [Nat.mod_eq_of_lt hc] at f1
  rw [Nat.mod_eq_of_lt hl] at f2
  rw [Nat.mod_eq_of_lt hs] at f3
  refine ⟨f1, f2, f3, f4, ?_, ?_, fun g h1 h2 h3 h4 => envWriteBack_apart h e o s g h1 h2 h3 h4,
    fun a h1 h2 h3 => memByte_envWriteBack h e o s a h1 h2 h3⟩
  · show { (envWriteBack h e o s).sub with level := o.level } = _
    rw [show (envWriteBack h e o s).sub = s.sub from onlyMem_sub hm]
  · exact congrArg (fun t : State => { t with sub := s.sub }) hm

end Sys2Proof.Machine
end

