-- ==== Sys2Proof/Laws/Keeps.lean ====
section
/-! SUPPORT. What a step can do, said once: every operation is a sequence of the changes that `Closed` lists, so that a
property closed under them is kept by every operation, every meaning and every step. -/

namespace Sys2Proof.Machine

/-- The CONTROL values an action can leave (45_dma_engine R398 to R402). -/
def controlAfter (old new : Word) : Prop :=
  new = old ∨ new = statusStart old ∨ new = statusStop old ∨ new = statusFreeze old ∨ new = statusUnfreeze old

/-- `P` survives every change an operation can make; `W` is what `P` says of mix bins. -/
structure Closed (P : State → Prop) (W : Store 32 → Prop) : Prop where
  nil : W []
  set : ∀ m k v, W m → W (m.set k v)
  mix : ∀ s, P s → W s.sub.mix
  sub : ∀ s u, P s → W u.mix → P (s.setSub u)
  ack : ∀ s v, P s → P (ackInterrupt v s)
  ien : ∀ s v, P s → P (updateIrq (s.setX { s.x with ien := v }))
  trap : ∀ s, P s → P (takeTrap s)
  reg : ∀ s x, P s → x.ists = s.x.ists → x.ien = s.x.ien → P (s.setX x)
  guest : ∀ s k v, P s → P (s.setMem (s.mem.set k v))
  cell : ∀ s c sp i v, P s → P (s.dspWrite c sp i v)
  dma : ∀ s c d, P s → controlAfter (s.dma c).control d.control → P (s.setDma c d)
  hostData : ∀ s v, P s → P (s.setHostData v)
  dspData : ∀ s v, P s → P (s.setDspData v)
  bump : ∀ s, P s → P s.bumpOracle
  rst : ∀ s c v, P s → P (s.setRst c v)
  inbuf : ∀ s (v : BitVec 16), P s → P { s with inbufSge := v }
  outbuf : ∀ s (v : BitVec 16), P s → P { s with outbufSge := v }
  fatal : ∀ s code, P s → P (takeFatal code s)
  pending : ∀ s (l : List Input), P s → P { s with pending := l }

/-- `P` survives every change that the program and the DMA engine of core `c` can make (44_voice_walker_mixer R377). -/
structure EngineClosed (c : Core) (P : State → Prop) : Prop where
  guest : ∀ s k v, P s → P (s.setMem (s.mem.set k v))
  cell : ∀ s sp i v, P s → P (s.dspWrite c sp i v)
  dma : ∀ s d, P s → controlAfter (s.dma c).control d.control → P (s.setDma c d)
  dspData : ∀ s v, P s → P (s.setDspData v)
  bump : ∀ s, P s → P s.bumpOracle

/-- `m` keeps `P`, and a value it gives has `Q`. -/
def Keeps {α : Type} (P : State → Prop) (m : Op α) (Q : α → Prop) : Prop :=
  ∀ s, P s → match m s with
    | .ok a t => P t ∧ Q a
    | .error _ t => P t

/-- No claim about the value. -/
abbrev Any {α : Type} : α → Prop := fun _ => True

namespace Keeps

variable {α β : Type} {P : State → Prop} {Q R : α → Prop} {W : Store 32 → Prop}

theorem bind {m : Op α} {k : α → Op β} {S : β → Prop} (hm : Keeps P m Q) (hk : ∀ a, Q a → Keeps P (k a) S) :
    Keeps P (m >>= k) S := by
  intro s hs
  have h := hm s hs
  cases e : m s with
  | ok a t =>
    rw [e] at h
    rw [bind_ok e]
    exact hk a h.2 t h.1
  | error code t =>
    rw [e] at h
    rw [bind_error e]
    exact h

theorem ret {a : α} (h : Q a) : Keeps P (pure a) Q := fun _ hs => ⟨hs, h⟩

theorem unit : Keeps P (pure () : Op Unit) Any := ret trivial

theorem fail (code : FatalCode) : Keeps P (raise code : Op α) Q := fun _ hs => hs

theorem get (f : State → α) (h : ∀ s, P s → Q (f s)) : Keeps P (reads f) Q := fun s hs => ⟨hs, h s hs⟩

theorem look (f : State → α) : Keeps P (reads f) Any := fun _ hs => ⟨hs, trivial⟩

theorem put {f : State → State} (h : ∀ s, P s → P (f s)) : Keeps P (update f) Any := fun s hs => ⟨h s hs, trivial⟩

theorem getOr (f : State → Except FatalCode α) : Keeps P (readsOrRaise f) Any := by
  intro s hs
  rw [readsOrRaise_run]
  cases f s <;> simp [hs]

theorem ite {c : Prop} [Decidable c] {m n : Op α} (hm : Keeps P m Q) (hn : Keeps P n Q) :
    Keeps P (if c then m else n) Q := by
  split
  · exact hm
  · exact hn

theorem checkHandle (h : Handle) : Keeps P (checkHandle h) Any := by
  intro s hs
  by_cases hh : h.toNat < s.cfg.numVoices
  · rw [checkHandle_ok hh]
    exact ⟨hs, trivial⟩
  · rw [checkHandle_bad (by omega)]
    exact hs

theorem readV (h : Handle) (f : VField) : Keeps P (readV h f) Any := bind (checkHandle h) fun _ _ => look _

/-- `runOp` of an operation that keeps `P`. -/
theorem run {m : Op Unit} (hf : ∀ s code, P s → P (takeFatal code s)) (hm : Keeps P m Any) {s t : State} (hs : P s)
    (h : runOp m s = .next t) : P t := by
  have hk := hm s hs
  obtain ⟨_, hm | ⟨code, u, hm, rfl⟩⟩ := runOp_cases h
  · rw [hm] at hk
    exact hk.1
  · rw [hm] at hk
    exact hf u code hk

end Keeps

namespace EngineClosed

variable {P : State → Prop} {c : Core}

/-! ## The DMA engine and a core's program -/

theorem sgWrite (C : EngineClosed c P) (t : SgTable) (lin : Word) (n v : Nat) : Keeps P (sgWrite t lin n v) Any := by
  induction n generalizing lin v with
  | zero => exact .ret trivial
  | succ n ih =>
    exact .bind (.bind (.getOr _) fun _ _ => .put fun s hs => C.guest s _ _ hs) fun _ _ => ih _ _

theorem engineCell (C : EngineClosed c P) (w : CellWrite) {s : State} (hs : P s) : P (engineCell c s w) := by
  unfold Machine.engineCell
  split
  · exact C.cell _ _ _ _ hs
  · exact hs

theorem dmaAccess (C : EngineClosed c P) {f : State → Word} {w : Word → Op Unit} (hw : ∀ v, Keeps P (w v) Any) (a : Access) :
    Keeps P (dmaAccess f w a) Any := by
  cases a with
  | read => exact .put fun s hs => C.dspData s _ hs
  | write v => exact hw v

theorem dmaUpdate (C : EngineClosed c P) {f : DmaRegs → DmaRegs} (hf : ∀ d, controlAfter d.control (f d).control) :
    Keeps P (dmaUpdate c f) Any := .put fun s hs => C.dma s _ hs (hf _)

theorem moveItems {item : Nat → Word → Op Unit} (hi : ∀ i l, Keeps P (item i l) Any) (size idx : Nat) (lin : Word)
    (n : Nat) : Keeps P (moveItems item size idx lin n) Any := by
  induction n generalizing idx lin with
  | zero => exact .ret trivial
  | succ n ih => exact .bind (hi _ _) fun _ _ => ih _ _

theorem transfer (C : EngineClosed c P) (toScratch : Bool) (size : Nat) (d : Descriptor) (target : Word) :
    Keeps P (transfer c toScratch size d target) Any := by
  refine .bind (.getOr _) fun w _ => moveItems (fun i l => ?_) _ _ _ _
  cases toScratch with
  | true => exact .bind (.look _) fun _ _ => C.sgWrite _ _ _ _
  | false => exact .bind (.getOr _) fun _ _ => .put fun s hs => C.cell s _ _ _ hs

theorem itemSize (format : Nat) : Keeps P (itemSize format) Any := by
  unfold Machine.itemSize
  split <;> first | exact .ret trivial | exact .fail _

theorem chainBody (C : EngineClosed c P) (ptr : Word) : Keeps P (chainBody c ptr) Any := by
  refine .bind (.getOr _) fun d _ => .bind (itemSize _) fun size _ => ?_
  have hlast : Keeps P (chainAdvance c d.next) Any := C.dmaUpdate fun _ => .inl rfl
  dsimp only
  split
  · exact .bind .unit fun _ _ => hlast
  · exact .bind (C.transfer _ _ _ _) fun _ _ => hlast

theorem chainEnd (C : EngineClosed c P) : Keeps P (chainEnd c) Any := C.dmaUpdate fun _ => .inl rfl

theorem chainLoop (C : EngineClosed c P) (n : Nat) : Keeps P (chainLoop c n) Any := by
  induction n with
  | zero => exact .fail _
  | succ n ih =>
    exact .bind (.look _) fun ptr _ => .ite C.chainEnd (.bind (C.chainBody ptr) fun _ _ => ih)

theorem runChain (C : EngineClosed c P) : Keeps P (runChain c) Any :=
  .bind (.look _) fun _ _ => .ite (C.chainLoop _) .unit

theorem statusThenRun (C : EngineClosed c P) {f : Word → Word} (hf : ∀ w, controlAfter w (f w)) :
    Keeps P (setStatus c f >>= fun _ => Machine.runChain c) Any :=
  .bind (C.dmaUpdate fun d => hf d.control) fun _ _ => C.runChain

theorem actStart (C : EngineClosed c P) : Keeps P (actStart c) Any := C.statusThenRun fun _ => .inr (.inl rfl)

theorem actStop (C : EngineClosed c P) : Keeps P (actStop c) Any :=
  C.statusThenRun fun _ => .inr (.inr (.inl rfl))

theorem actFreeze (C : EngineClosed c P) : Keeps P (actFreeze c) Any :=
  C.statusThenRun fun _ => .inr (.inr (.inr (.inl rfl)))

theorem actUnfreeze (C : EngineClosed c P) : Keeps P (actUnfreeze c) Any :=
  C.statusThenRun fun _ => .inr (.inr (.inr (.inr rfl)))

theorem controlWrite (C : EngineClosed c P) (v : Word) : Keeps P (controlWrite c v) Any := by
  unfold Machine.controlWrite
  split
  · exact C.runChain
  · exact C.actStart
  · exact C.actStop
  · exact C.actFreeze
  · exact C.actUnfreeze
  · exact .fail _

theorem accessDma (C : EngineClosed c P) (r : DmaReg) (a : Access) : Keeps P (accessDma c r a) Any := by
  cases r with
  | configuration =>
    refine C.dmaAccess (fun v => ?_) a
    exact C.dmaUpdate fun _ => .inl rfl
  | control => exact C.dmaAccess C.controlWrite a
  | startBlock =>
    refine C.dmaAccess (fun v => ?_) a
    exact C.dmaUpdate fun _ => .inl rfl
  | nextBlock =>
    refine C.dmaAccess (fun v => ?_) a
    exact C.dmaUpdate fun _ => .inl rfl

theorem dspActs (C : EngineClosed c P) (l : List DspAct) : Keeps P (dspActs c l) Any := by
  induction l with
  | nil => exact .ret trivial
  | cons a r ih =>
    refine .bind (Q := Any) ?_ fun _ _ => ih
    cases a with
    | cell w => exact .put fun _ hs => C.engineCell w hs
    | dmaRead r => exact C.accessDma r _
    | dmaWrite r v => exact C.accessDma r _

theorem handOff (C : EngineClosed c P) : Keeps P (handOff c) Any :=
  .bind (.look _) fun _ _ => .ite
    (.bind (.look _) fun acts _ => .bind (.put C.bump) fun _ _ => C.dspActs acts) .unit

end EngineClosed

namespace Closed

variable {P : State → Prop} {W : Store 32 → Prop}

/-- What is closed under every change is closed under an engine's. -/
theorem engine (C : Closed P W) (c : Core) : EngineClosed c P :=
  ⟨C.guest, fun s sp i v hs => C.cell s c sp i v hs, fun s d hs hd => C.dma s c d hs hd, C.dspData, C.bump⟩

/-! ## Memory and voices -/

theorem memWriteNat (C : Closed P W) (a : Word) (n v : Nat) {s : State} (hs : P s) :
    P (s.setMem (memWriteNat s.mem a n v)) := by
  suffices h : ∀ m, P (s.setMem m) → P (s.setMem (Machine.memWriteNat m a n v)) from h s.mem hs
  intro m hm
  induction n generalizing m a v with
  | zero => exact hm
  | succ n ih => exact ih _ _ _ (C.guest (s.setMem m) a.toNat (BitVec.ofNat 8 v) hm)

theorem memWrite (C : Closed P W) (a : Word) (n : Nat) (v : Word) {s : State} (hs : P s) :
    P (s.setMem (memWrite s.mem a n v)) := C.memWriteNat a n v.toNat hs

theorem setVoiceWord (C : Closed P W) (h : Handle) (off : Nat) (v : Word) {s : State} (hs : P s) :
    P (s.setVoiceWord h off v) := C.memWrite _ _ _ hs

theorem setVoiceField (C : Closed P W) (h : Handle) (f : VField) (v : Nat) {s : State} (hs : P s) :
    P (s.setVoiceField h f v) := C.memWrite _ _ _ hs

theorem writeV (C : Closed P W) (h : Handle) (f : VField) (v : Nat) : Keeps P (writeV h f v) Any :=
  .bind (.checkHandle h) fun _ _ => .put fun _ hs => C.setVoiceField h f v hs

theorem writeVWord (C : Closed P W) (h : Handle) (off : Nat) (v : Word) : Keeps P (writeVWord h off v) Any :=
  .bind (.checkHandle h) fun _ _ => .put fun _ hs => C.setVoiceWord h off v hs

/-! ## Front-end commands -/

theorem listRegister (C : Closed P W) (l : VoiceList) (v : Word) {s : State} (hs : P s) :
    P (s.setTvl l v) ∧ P (s.setCvl l v) ∧ P (s.setNvl l v) := by
  cases l <;> exact ⟨C.reg _ _ hs rfl rfl, C.reg _ _ hs rfl rfl, C.reg _ _ hs rfl rfl⟩

theorem insertAfter (C : Closed P W) (a h : Handle) : Keeps P (insertAfter a h) Any :=
  .bind (.readV _ _) fun _ _ => .bind (C.writeV _ _ _) fun _ _ => C.writeV _ _ _

theorem insertHead (C : Closed P W) (l : VoiceList) (h : Handle) : Keeps P (insertHead l h) Any :=
  .bind (.look _) fun _ _ => .bind (C.writeV _ _ _) fun _ _ => .put fun _ hs => (C.listRegister l _ hs).1

theorem feVoiceOn (C : Closed P W) (arg : Word) : Keeps P (feVoiceOn arg) Any := by
  refine .bind (.look _) fun feav _ => ?_
  cases h : argList feav with
  | zero => exact .bind (C.insertAfter _ _) fun _ _ => C.writeV _ _ _
  | succ n => exact .bind (C.insertHead _ _) fun _ _ => C.writeV _ _ _

theorem feVoicePause (C : Closed P W) (arg : Word) : Keeps P (feVoicePause arg) Any := by
  refine .bind (.look _) fun mode _ => ?_
  cases mode with
  | fromAction => exact C.writeV _ _ _
  | invert => exact .bind (.readV _ _) fun _ _ => C.writeV _ _ _

theorem feIdleVoice (C : Closed P W) (arg : Word) : Keeps P (feIdleVoice arg) Any := by
  refine .put fun s hs => ?_
  split
  · exact C.trap s hs
  · exact hs

theorem paramWord (C : Closed P W) (off : Nat) (arg : Word) : Keeps P (paramWord off arg) Any :=
  .bind (.look _) fun _ _ => C.writeVWord _ _ _

theorem paramField (C : Closed P W) (f : VField) (v : Nat) : Keeps P (paramField f v) Any :=
  .bind (.look _) fun _ _ => C.writeV _ _ _

theorem entryWrite (C : Closed P W) (latch : State → BitVec 16) (arg : Word) : Keeps P (entryWrite latch arg) Any :=
  .put fun _ hs => C.memWrite _ _ _ hs

theorem feCommand (C : Closed P W) (m : Nat) (arg : Word) : Keeps P (feCommand m arg) Any := by
  unfold Machine.feCommand
  split
  · exact .put fun s hs => C.reg s _ hs rfl rfl
  · exact C.feVoiceOn _
  · exact C.writeV _ _ _
  · exact C.feVoicePause _
  · exact .put fun s hs => C.reg s _ hs rfl rfl
  · exact C.paramWord _ _
  · exact C.paramWord _ _
  · exact C.paramWord _ _
  · exact C.paramWord _ _
  · exact C.paramWord _ _
  · exact C.paramWord _ _
  · exact C.paramField _ _
  · exact C.paramWord _ _
  · exact C.paramWord _ _
  · exact C.paramWord _ _
  · exact C.paramField _ _
  · exact C.paramField _ _
  · exact C.paramField _ _
  · exact C.paramField _ _
  · exact C.paramField _ _
  · exact C.paramField _ _
  · exact .put fun s hs => C.inbuf s _ hs
  · exact C.entryWrite _ _
  · exact .put fun s hs => C.outbuf s _ hs
  · exact C.entryWrite _ _
  · exact C.feIdleVoice _
  · exact .unit

/-! ## Host register operations -/

theorem hostAccess (C : Closed P W) {f : State → Word} {w : Word → Op Unit} (hw : ∀ v, Keeps P (w v) Any) (a : Access) :
    Keeps P (hostAccess f w a) Any := by
  cases a with
  | read => exact .put fun s hs => C.hostData s _ hs
  | write v => exact hw v

theorem plainRegister (C : Closed P W) {f : GlobalRegs → Word} {w : GlobalRegs → Word → GlobalRegs}
    (hw : ∀ x v, (w x v).ists = x.ists ∧ (w x v).ien = x.ien) (a : Access) : Keeps P (plainRegister f w a) Any :=
  C.hostAccess (fun v => .put fun s hs => C.reg s _ hs (hw s.x v).1 (hw s.x v).2) a

theorem cellAccess (C : Closed P W) (c : Core) (sp : Space) (i : State → Nat) (a : Access) :
    Keeps P (cellAccess c sp i a) Any :=
  C.hostAccess (fun v => .put fun s hs => C.cell s c sp (i s) v hs) a

theorem engineCells (C : Closed P W) (c : Core) (l : List CellWrite) {s : State} (hs : P s) :
    P (l.foldl (Machine.engineCell c) s) := by
  induction l generalizing s with
  | nil => exact hs
  | cons w r ih => exact ih ((C.engine c).engineCell w hs)

theorem engineCall (C : Closed P W) (answer : OracleView → List CellWrite) (c : Core) :
    Keeps P (engineCall answer c) Any :=
  .put fun s hs => C.engineCells c _ (C.bump s hs)

theorem accessRst (C : Closed P W) (c : Core) (a : Access) : Keeps P (accessRst c a) Any :=
  C.hostAccess (fun v => .bind (.look _) fun old _ => by
    have hlast : Keeps P (update fun s => s.setRst c v) Any := .put fun s hs => C.rst s c v hs
    dsimp only
    split
    · exact .bind (C.engineCall _ c) fun _ _ => hlast
    · split
      · exact .bind (C.engineCall _ c) fun _ _ => hlast
      · exact .bind .unit fun _ _ => hlast) a

/-! ## Envelopes -/

theorem envWriteBack (C : Closed P W) (h : Handle) (e : Env) (o : EnvOut) {s : State} (hs : P s) :
    P (envWriteBack h e o s) := by
  unfold Machine.envWriteBack
  have h3 := C.setVoiceField h (vState e) o.state
    (C.setVoiceField h (vLevel e) o.level (C.setVoiceField h (vCount e) o.count hs))
  split
  · exact C.setVoiceField h vActive 0 h3
  · exact h3

theorem envRule (C : Closed P W) (f : EnvIn → EnvOut) (h : Handle) (e : Env) : Keeps P (envRule f h e) Any :=
  .bind (.checkHandle h) fun _ _ => .bind (.look _) fun o _ =>
    .bind (.put fun _ hs => C.envWriteBack h e o hs) fun _ _ => .ret trivial

theorem envFatal (code : FatalCode) (h : Handle) : Keeps P (envFatal code h) Any :=
  .bind (.checkHandle h) fun _ _ => .fail code

theorem envStep (C : Closed P W) (h : Handle) (e : Env) : Keeps P (envStep h e) Any := by
  refine .bind (.readV _ _) fun state _ => ?_
  split <;> first | exact C.envRule _ h e | exact envFatal _ h

theorem envAlone (C : Closed P W) {m : Op Nat} (hm : Keeps P m Any) : Keeps P (envAlone m) Any :=
  .bind hm fun _ _ => .put fun s hs => C.sub s _ hs (C.mix s hs)

/-! ## The parts of the DMA engine -/

theorem walkUpdate (C : Closed P W) (c : Core) (f : Walk → Walk) : Keeps P (walkUpdate c f) Any := by
  refine .put fun s hs => ?_
  cases c <;> exact C.sub s _ hs (C.mix s hs)

theorem formatAlone (C : Closed P W) (c : Core) (format : Nat) : Keeps P (formatAlone c format) Any :=
  .bind (EngineClosed.itemSize _) fun _ _ => C.walkUpdate c _

theorem bufferAlone (C : Closed P W) (c : Core) (choose : Descriptor → Nat → Bool × Word) :
    Keeps P (bufferAlone c choose) Any := C.walkUpdate c _

theorem directionAlone (C : Closed P W) (c : Core) (toScratch : Bool) : Keeps P (directionAlone c toScratch) Any := by
  refine .bind (.look _) fun w _ => ?_
  have hlast : Keeps P (chainAdvance c w.desc.next) Any := (C.engine c).dmaUpdate fun _ => .inl rfl
  dsimp only
  split
  · exact .bind .unit fun _ _ => hlast
  · exact .bind ((C.engine c).transfer _ _ _ _) fun _ _ => hlast

theorem blockAlone (C : Closed P W) (c : Core) (addr : Nat) : Keeps P (blockAlone c addr) Any :=
  .bind (.getOr _) fun _ _ => C.walkUpdate c _

/-! ## Voices -/

theorem fetchAlone (C : Closed P W) (k : SampleKind) (h : Handle) (p : Word) : Keeps P (fetchAlone k h p) Any :=
  .bind (.checkHandle h) fun _ _ => .bind (.getOr _) fun _ _ => .put fun s hs => C.sub s _ hs (C.mix s hs)

theorem stopVoice (C : Closed P W) (h : Handle) : Keeps P (stopVoice h) Any := .put fun _ hs => C.setVoiceField _ _ _ hs

theorem resolveAlone (C : Closed P W) (loop : Bool) (h : Handle) (p : Word) : Keeps P (resolveAlone loop h p) Any := by
  refine .bind (.checkHandle h) fun _ _ => .bind (.getOr _) fun pos _ => ?_
  have hlast : Keeps P (update fun s => s.setSub { s.sub with pos := pos }) Any :=
    .put fun s hs => C.sub s _ hs (C.mix s hs)
  dsimp only
  split
  · exact .bind (C.stopVoice h) fun _ _ => hlast
  · exact .bind .unit fun _ _ => hlast

theorem mixSlots (C : Closed P W) (mode : MixOverflow) (frame : List Int) (nch la i : Nat) (sl : List Slot) (j : Nat)
    {m : Store 32} (hm : W m) : W (mixSlots mode frame nch la i sl j m) := by
  induction sl generalizing j m with
  | nil => exact hm
  | cons a r ih => exact ih _ (C.set _ _ _ hm)

theorem voiceLanes (C : Closed P W) (h : Handle) (v : VoiceCfg) (sl : List Slot) (la lf n i : Nat) {m : Store 32}
    (hm : W m) : Keeps P (voiceLanes h v sl la lf n i m) W := by
  induction n generalizing i m with
  | zero => exact .ret hm
  | succ n ih =>
    refine .bind (.getOr _) fun pos _ => ?_
    cases pos with
    | none => exact .bind (C.stopVoice h) fun _ _ => .ret hm
    | some p => exact .bind (.getOr _) fun _ _ => .bind (.look _) fun _ _ => ih _ (C.mixSlots _ _ _ _ _ _ _ hm)

theorem updateCbo (C : Closed P W) (h : Handle) (v : VoiceCfg) (lf : Nat) : Keeps P (updateCbo h v lf) Any :=
  .bind (.getOr _) fun _ _ => .put fun _ hs => C.setVoiceField _ _ _ hs

theorem voiceFrame (C : Closed P W) (h : Handle) (la lf : Nat) {m : Store 32} (hm : W m) :
    Keeps P (voiceFrame h la lf m) W :=
  .bind (.look _) fun v _ => .bind (.look _) fun sl _ => .bind (C.voiceLanes h v sl la lf _ _ hm) fun _ ho =>
    .bind (C.updateCbo h v lf) fun _ _ => .ret ho

theorem visitActive (C : Closed P W) (h : Handle) {m : Store 32} (hm : W m) : Keeps P (visitActive h m) W :=
  .bind (C.envStep h .a) fun _ _ => .bind (C.envStep h .f) fun _ _ => .bind (.readV _ _) fun _ _ =>
    .ite (C.voiceFrame h _ _ hm) (.ret hm)

theorem visit (C : Closed P W) (h : Handle) {m : Store 32} (hm : W m) : Keeps P (visit h m) W :=
  .bind (.readV _ _) fun _ _ =>
    .ite (.bind (C.feIdleVoice _) fun _ _ => .ret hm) (C.visitActive h hm)

theorem mixAlone (C : Closed P W) (stereo : Bool) (h : Handle) (i : Nat) : Keeps P (mixAlone stereo h i) Any :=
  .bind (.checkHandle h) fun _ _ => .put fun s hs => C.sub s _ hs (C.mixSlots _ _ _ _ _ _ _ (C.mix s hs))

theorem activeAlone (C : Closed P W) (h : Handle) : Keeps P (activeAlone h) Any :=
  .bind (.get _ C.mix) fun _ hm => .bind (C.visitActive h hm) fun _ ho => .put fun s hs => C.sub s _ hs ho

theorem idleAlone (C : Closed P W) (h : Handle) : Keeps P (idleAlone h) Any :=
  .bind (.checkHandle h) fun _ _ => C.feIdleVoice _

theorem pausedAlone (C : Closed P W) (h : Handle) : Keeps P (pausedAlone h) Any :=
  .bind (C.envStep h .a) fun _ _ => .bind (C.envStep h .f) fun _ _ => .ret trivial

/-! ## The frame tick -/

theorem listLoop (C : Closed P W) (l : VoiceList) (n : Nat) {m : Store 32} (hm : W m) : Keeps P (listLoop l n m) W := by
  induction n generalizing m with
  | zero => exact .bind (.look _) fun _ _ => .ite (.ret hm) (.fail _)
  | succ n ih =>
    exact .bind (.look _) fun _ _ => .ite (.ret hm)
      (.bind (.readV _ _) fun _ _ => .bind (.put fun _ hs => (C.listRegister l _ hs).2.2) fun _ _ =>
        .bind (C.visit _ hm) fun _ ho => .bind (.put fun _ hs => (C.listRegister l _ hs).2.1) fun _ _ => ih ho)

theorem listPass (C : Closed P W) (l : VoiceList) {m : Store 32} (hm : W m) : Keeps P (listPass l m) W :=
  .bind (.put fun _ hs => (C.listRegister l _ hs).2.1) fun _ _ => .bind (.look _) fun _ _ => C.listLoop l _ hm

theorem mixWrite (C : Closed P W) (m : Store 32) {s : State} (hs : P s) : P (mixWrite m s) := by
  unfold Machine.mixWrite
  generalize List.range (Config.numBins * Config.frameSamples) = l
  induction l generalizing s with
  | nil => exact hs
  | cons k r ih => exact ih (C.cell _ _ _ _ _ hs)

theorem frameTick (C : Closed P W) : Keeps P frameTick Any :=
  .bind (.look _) fun _ _ => .ite
    (.bind (C.listPass _ C.nil) fun _ h1 => .bind (C.listPass _ h1) fun _ h2 => .bind (C.listPass _ h2) fun m3 _ =>
      .bind (.put fun _ hs => C.mixWrite m3 hs) fun _ _ => .bind (C.engine .gp).handOff fun _ _ => (C.engine .ep).handOff)
    .unit

/-! ## Every meaning and every step -/

theorem translateAlone (C : Closed P W) (t : SgTable) (lin : Word) : Keeps P (translateAlone t lin) Any :=
  .bind (.getOr _) fun _ _ => .put fun s hs => C.sub s _ hs (C.mix s hs)

/-- Every operation keeps a closed property. -/
theorem opOf (C : Closed P W) (i : Instr) : Keeps P (opOf i) Any := by
  cases i with
  | mmioIsts _ => dsimp only [Machine.opOf]; apply C.hostAccess; exact fun v => .put fun s hs => C.ack s v hs
  | mmioIen _ => dsimp only [Machine.opOf]; apply C.hostAccess; exact fun v => .put fun s hs => C.ien s v hs
  | mmioFectl _ => dsimp only [Machine.opOf]; apply C.plainRegister; exact fun _ _ => ⟨rfl, rfl⟩
  | mmioFecv _ => dsimp only [Machine.opOf]; apply C.plainRegister; exact fun _ _ => ⟨rfl, rfl⟩
  | mmioFeav _ => dsimp only [Machine.opOf]; apply C.plainRegister; exact fun _ _ => ⟨rfl, rfl⟩
  | mmioFetforce1 _ => dsimp only [Machine.opOf]; apply C.plainRegister; exact fun _ _ => ⟨rfl, rfl⟩
  | mmioSectl _ => dsimp only [Machine.opOf]; apply C.plainRegister; exact fun _ _ => ⟨rfl, rfl⟩
  | mmioVpvaddr _ => dsimp only [Machine.opOf]; apply C.plainRegister; exact fun _ _ => ⟨rfl, rfl⟩
  | mmioVpsgeaddr _ => dsimp only [Machine.opOf]; apply C.plainRegister; exact fun _ _ => ⟨rfl, rfl⟩
  | mmioGpsaddr _ => dsimp only [Machine.opOf]; apply C.plainRegister; exact fun _ _ => ⟨rfl, rfl⟩
  | mmioGpfaddr _ => dsimp only [Machine.opOf]; apply C.plainRegister; exact fun _ _ => ⟨rfl, rfl⟩
  | mmioEpsaddr _ => dsimp only [Machine.opOf]; apply C.plainRegister; exact fun _ _ => ⟨rfl, rfl⟩
  | mmioEpfaddr _ => dsimp only [Machine.opOf]; apply C.plainRegister; exact fun _ _ => ⟨rfl, rfl⟩
  | mmioTvl2d _ => dsimp only [Machine.opOf]; apply C.plainRegister; exact fun _ _ => ⟨rfl, rfl⟩
  | mmioCvl2d _ => dsimp only [Machine.opOf]; apply C.plainRegister; exact fun _ _ => ⟨rfl, rfl⟩
  | mmioNvl2d _ => dsimp only [Machine.opOf]; apply C.plainRegister; exact fun _ _ => ⟨rfl, rfl⟩
  | mmioTvl3d _ => dsimp only [Machine.opOf]; apply C.plainRegister; exact fun _ _ => ⟨rfl, rfl⟩
  | mmioCvl3d _ => dsimp only [Machine.opOf]; apply C.plainRegister; exact fun _ _ => ⟨rfl, rfl⟩
  | mmioNvl3d _ => dsimp only [Machine.opOf]; apply C.plainRegister; exact fun _ _ => ⟨rfl, rfl⟩
  | mmioTvlmp _ => dsimp only [Machine.opOf]; apply C.plainRegister; exact fun _ _ => ⟨rfl, rfl⟩
  | mmioCvlmp _ => dsimp only [Machine.opOf]; apply C.plainRegister; exact fun _ _ => ⟨rfl, rfl⟩
  | mmioNvlmp _ => dsimp only [Machine.opOf]; apply C.plainRegister; exact fun _ _ => ⟨rfl, rfl⟩
  | mmioGpsmaxsge _ => dsimp only [Machine.opOf]; apply C.plainRegister; exact fun _ _ => ⟨rfl, rfl⟩
  | mmioGpfmaxsge _ => dsimp only [Machine.opOf]; apply C.plainRegister; exact fun _ _ => ⟨rfl, rfl⟩
  | mmioEpsmaxsge _ => dsimp only [Machine.opOf]; apply C.plainRegister; exact fun _ _ => ⟨rfl, rfl⟩
  | mmioEpfmaxsge _ => dsimp only [Machine.opOf]; apply C.plainRegister; exact fun _ _ => ⟨rfl, rfl⟩
  | mmioGprst _ => exact C.accessRst _ _
  | mmioEprst _ => exact C.accessRst _ _
  | mmioGpX _ _ => exact C.cellAccess _ _ _ _
  | mmioGpMixbuf _ _ => exact C.cellAccess _ _ _ _
  | mmioGpY _ _ => exact C.cellAccess _ _ _ _
  | mmioGpPLower _ _ => exact C.cellAccess _ _ _ _
  | mmioGpPUpper _ _ => exact C.cellAccess _ _ _ _
  | mmioEpX _ _ => exact C.cellAccess _ _ _ _
  | mmioEpY _ _ => exact C.cellAccess _ _ _ _
  | mmioEpPLower _ _ => exact C.cellAccess _ _ _ _
  | mmioEpPUpper _ _ => exact C.cellAccess _ _ _ _
  | mmioCmdport _ _ => dsimp only [Machine.opOf]; apply C.hostAccess; exact C.feCommand _
  | mmioUnmapped _ _ => dsimp only [Machine.opOf]; apply C.hostAccess; exact fun _ => .unit
  | feSetAntecedentVoice _ => dsimp only [Machine.opOf]; apply Keeps.put; exact fun s hs => C.reg s _ hs rfl rfl
  | feVoiceOn _ => exact C.feVoiceOn _
  | feVoiceOff _ => exact C.writeV _ _ _
  | feVoicePause _ => exact C.feVoicePause _
  | feSetCurrentVoice _ => dsimp only [Machine.opOf]; apply Keeps.put; exact fun s hs => C.reg s _ hs rfl rfl
  | feSetVoiceCfgVbin _ => exact C.paramWord _ _
  | feSetVoiceCfgFmt _ => exact C.paramWord _ _
  | feSetVoiceCfgEnv0 _ => exact C.paramWord _ _
  | feSetVoiceCfgEnva _ => exact C.paramWord _ _
  | feSetVoiceCfgEnv1 _ => exact C.paramWord _ _
  | feSetVoiceCfgEnvf _ => exact C.paramWord _ _
  | feSetVoiceCfgMisc _ => exact C.paramField _ _
  | feSetVoiceTarVola _ => exact C.paramWord _ _
  | feSetVoiceTarVolb _ => exact C.paramWord _ _
  | feSetVoiceTarVolc _ => exact C.paramWord _ _
  | feSetVoiceTarLfoEnv _ => exact C.paramField _ _
  | feSetVoiceTarPitch _ => exact C.paramField _ _
  | feSetVoiceCfgBufBase _ => exact C.paramField _ _
  | feSetVoiceCfgBufLbo _ => exact C.paramField _ _
  | feSetVoiceBufCbo _ => exact C.paramField _ _
  | feSetVoiceCfgBufEbo _ => exact C.paramField _ _
  | feSetCurrentInbufSge _ => dsimp only [Machine.opOf]; apply Keeps.put; exact fun s hs => C.inbuf s _ hs
  | feSetCurrentInbufSgeOffset _ => exact C.entryWrite _ _
  | feSetCurrentOutbufSge _ => dsimp only [Machine.opOf]; apply Keeps.put; exact fun s hs => C.outbuf s _ hs
  | feSetCurrentOutbufSgeOffset _ => exact C.entryWrite _ _
  | feSe2feIdleVoice arg => exact C.feIdleVoice arg
  | feUnknown _ _ => exact .unit
  | dmaConfiguration _ _ => exact (C.engine _).accessDma .configuration _
  | dmaControl _ _ => exact (C.engine _).accessDma .control _
  | dmaStartBlock _ _ => exact (C.engine _).accessDma .startBlock _
  | dmaNextBlock _ _ => exact (C.engine _).accessDma .nextBlock _
  | dmaActNop _ _ => exact (C.engine _).runChain
  | dmaActStart _ _ => exact (C.engine _).actStart
  | dmaActStop _ _ => exact (C.engine _).actStop
  | dmaActFreeze _ _ => exact (C.engine _).actFreeze
  | dmaActUnfreeze _ _ => exact (C.engine _).actUnfreeze
  | dmaActAbort _ _ => exact .fail _
  | dmaActReserved6 _ _ => exact .fail _
  | dmaActReserved7 _ _ => exact .fail _
  | descFormat0 _ => exact C.formatAlone _ _
  | descFormat1 _ => exact C.formatAlone _ _
  | descFormat2 _ => exact C.formatAlone _ _
  | descFormat3 _ => exact C.formatAlone _ _
  | descFormat4 _ => exact C.formatAlone _ _
  | descFormat5 _ => exact C.formatAlone _ _
  | descFormat6 _ => exact C.formatAlone _ _
  | descFormat7 _ => exact C.formatAlone _ _
  | descBufCircular _ => exact C.bufferAlone _ _
  | descBufOffset _ _ => dsimp only [Machine.opOf]; apply C.bufferAlone
  | descDirDspToScratch _ => exact C.directionAlone _ _
  | descDirScratchToDsp _ => exact C.directionAlone _ _
  | descPtrEol _ _ => exact (C.engine _).chainEnd
  | descPtrBlock _ _ => exact C.blockAlone _ _
  | envOff _ _ => exact C.envAlone (C.envRule _ _ _)
  | envDelay _ _ => exact C.envAlone (C.envRule _ _ _)
  | envAttack _ _ => exact C.envAlone (C.envRule _ _ _)
  | envHold _ _ => exact C.envAlone (C.envRule _ _ _)
  | envDecay _ _ => exact C.envAlone (C.envRule _ _ _)
  | envSustain _ _ => exact C.envAlone (C.envRule _ _ _)
  | envRelease _ _ => exact C.envAlone (C.envRule _ _ _)
  | envForceRelease _ _ => exact C.envAlone (envFatal _ _)
  | envBadState _ _ _ => exact C.envAlone (envFatal _ _)
  | fmtPcmB8U8 _ _ => exact C.fetchAlone _ _ _
  | fmtPcmB16U8 _ _ => exact C.fetchAlone _ _ _
  | fmtPcmB16S16 _ _ => exact C.fetchAlone _ _ _
  | fmtPcmB32U8 _ _ => exact C.fetchAlone _ _ _
  | fmtPcmB32S16 _ _ => exact C.fetchAlone _ _ _
  | fmtPcmB32S24 _ _ => exact C.fetchAlone _ _ _
  | fmtPcmB32S32 _ _ => exact C.fetchAlone _ _ _
  | fmtAdpcm _ _ _ => exact C.fetchAlone _ _ _
  | fmtIllegalB8S16 _ _ => exact C.fetchAlone _ _ _
  | fmtIllegalB8S24 _ _ => exact C.fetchAlone _ _ _
  | fmtIllegalB8S32 _ _ => exact C.fetchAlone _ _ _
  | fmtIllegalB16S24 _ _ => exact C.fetchAlone _ _ _
  | fmtIllegalB16S32 _ _ => exact C.fetchAlone _ _ _
  | fmtStereo _ _ => exact C.mixAlone _ _ _
  | fmtMono _ _ => exact C.mixAlone _ _ _
  | fmtLoop _ _ => exact C.resolveAlone _ _ _
  | fmtOneshot _ _ => exact C.resolveAlone _ _ _
  | voiceActive _ => exact C.activeAlone _
  | voiceIdle _ => exact C.idleAlone _
  | voicePaused _ => exact C.pausedAlone _
  | tick => exact C.frameTick
  | sgTranslate _ _ => exact C.translateAlone _ _

/-- Every meaning keeps a closed property. -/
theorem exec (C : Closed P W) (i : Instr) {s t : State} (hs : P s) (h : exec i s = .next t) : P t := by
  rw [exec_eq] at h
  exact Keeps.run C.fatal (C.opOf i) hs h

/-- Every step keeps a closed property. -/
theorem step (C : Closed P W) {s t : State} (hs : P s) (h : step s = .next t) : P t := by
  unfold Machine.step fetch at h
  cases hp : s.pending with
  | nil =>
    simp only [hp] at h
    cases h
    exact hs
  | cons i r =>
    have hr : P { s with pending := r } := C.pending s r hs
    simp only [hp] at h
    cases i with
    | op w =>
      dsimp only at h
      split at h
      · exact C.exec _ hr h
      · cases h
    | hostStore addr width v =>
      cases h
      exact C.memWrite addr _ v hr
    | hostLoad addr width =>
      cases h
      exact C.hostData _ _ hr

end Closed

end Sys2Proof.Machine
end

