-- ==== Sys2Proof/Laws/Visit.lean ====
section
/-! SUPPORT. The visits of a list pass (44_voice_walker_mixer R351 to R357): what a visit of a ready voice can change, and
that it completes. -/

namespace Sys2Proof.Machine

/-! ## Positions and samples -/

theorem loopPos_ok {lbo ebo p : Nat} (h : lbo ≤ ebo) : loopPos lbo ebo p = .ok (wrapPos lbo ebo p) :=
  if_neg (by omega)

/-- A wrapped position lies in the loop (43_sample_fetch_decode R313). -/
theorem wrapPos_bounds {lbo ebo p : Nat} (h : lbo ≤ ebo) : lbo ≤ wrapPos lbo ebo p ∧ wrapPos lbo ebo p ≤ ebo := by
  unfold wrapPos
  have h1 := Int.emod_nonneg ((p : Int) - lbo) (b := (ebo : Int) - lbo + 1) (by omega)
  have h2 := Int.emod_lt_of_pos ((p : Int) - lbo) (b := (ebo : Int) - lbo + 1) (by omega)
  omega

/-- Past the end the wrap is the natural remainder. -/
theorem wrapPos_past {lbo ebo p : Nat} (h : lbo ≤ ebo) (hp : ebo < p) :
    wrapPos lbo ebo p = lbo + (p - lbo) % (ebo - lbo + 1) := by
  unfold wrapPos
  rw [← Int.ofNat_sub (by omega : lbo ≤ p), ← Int.ofNat_sub h]
  congr 1

/-- A loop that does not end before it begins, or no loop, is resolved without a fatal. -/
theorem resolvePos_ok {loop : Bool} {lbo ebo : Nat} (h : loop = false ∨ lbo ≤ ebo) (p : Nat) :
    ∃ r, resolvePos loop lbo ebo p = .ok r := by
  unfold resolvePos
  split
  · exact ⟨_, rfl⟩
  · cases loop with
    | false => exact ⟨_, rfl⟩
    | true =>
      rw [loopPos_ok (h.resolve_left (by simp))]
      exact ⟨_, rfl⟩

/-- The new `cbo`: the plain sum without a loop, inside the loop's end with one (43_sample_fetch_decode R318). -/
theorem endCbo_ok {loop : Bool} {lbo ebo : Nat} (h : loop = false ∨ lbo ≤ ebo) (new : Nat) :
    ∃ r, endCbo loop lbo ebo new = .ok r ∧ (loop = false → r = new) ∧ (loop = true → r ≤ ebo) := by
  unfold endCbo
  by_cases hc : loop = true ∧ ebo < new
  · rw [if_pos hc]
    have hl := h.resolve_left (by simp [hc.1])
    exact ⟨_, loopPos_ok hl, fun h0 => by simp [hc.1] at h0, fun _ => (wrapPos_bounds hl).2⟩
  · rw [if_neg hc]
    exact ⟨new, rfl, fun _ => rfl, fun h1 => by
      have : ¬ ebo < new := fun hh => hc ⟨h1, hh⟩
      omega⟩

theorem framed_ok {nch : Nat} {f : Nat → Except FatalCode Int} (h : ∀ ch, ∃ x, f ch = .ok x) :
    ∃ frame, framed nch f = .ok frame := by
  obtain ⟨x, hx⟩ := h 0
  obtain ⟨y, hy⟩ := h 1
  unfold framed
  rw [hx]
  simp only
  split
  · exact ⟨_, rfl⟩
  · rw [hy]
    exact ⟨_, rfl⟩

/-- A legal format is fetched in a full table (43_sample_fetch_decode R333, R334). -/
theorem fetchFrame_full {s : State} (hf : fullTable s .voice) {k : SampleKind} (hk : k ≠ .illegal) (ba nch p : Nat) :
    ∃ frame, fetchFrame s k ba nch p = .ok frame := by
  cases k with
  | pcm container width =>
    refine framed_ok fun ch => ?_
    obtain ⟨r, hr⟩ := sgRead_full hf (pcmAddr ba container nch p ch) container
    exact ⟨pcmValue width r, by simp only [pcmSample, hr]; rfl⟩
  | adpcm =>
    obtain ⟨bs, hb, -⟩ := sgReadBytes_full hf (adpcmAddr ba nch p) (Config.adpcmBytes * nch)
    obtain ⟨fr, hfr⟩ := framed_ok (nch := nch)
      (f := fun ch => .ok (adpcmSample bs nch (p % Config.adpcmSamples) ch)) fun ch => ⟨_, rfl⟩
    refine ⟨fr, ?_⟩
    simp only [fetchFrame, adpcmBlock, hb]
    exact hfr
  | illegal => exact absurd rfl hk

/-! ## Bins -/

/-- The value of bin `b` in a lane after the slots from slot `j` on. -/
def slotsBin (mode : MixOverflow) (frame : List Int) (nch la b : Nat) : List Slot → Nat → Word → Word
  | [], _, m => m
  | sl :: r, j, m => slotsBin mode frame nch la b r (j + 1)
      (if sl.bin = b then acc mode m (contrib (slotSample frame nch j) la sl.vol) else m)

/-- What the slots of a lane do to every cell: the cells of the lane take their bin's value, no other lane changes
(44_voice_walker_mixer R357). -/
theorem mixSlots_get (mode : MixOverflow) (frame : List Int) (nch la : Nat) {i k : Nat} (b : Nat) (hi : i < 32)
    (hk : k < 32) (sl : List Slot) (j : Nat) (mix : Store 32) :
    (mixSlots mode frame nch la i sl j mix).get (b * 32 + k) =
      if k = i then slotsBin mode frame nch la b sl j (mix.get (b * 32 + k)) else mix.get (b * 32 + k) := by
  induction sl generalizing j mix with
  | nil => simp [mixSlots, slotsBin]
  | cons a r ih =>
    rw [mixSlots, ih, Store.get_set, slotsBin, mixIndex]
    by_cases hki : k = i
    · subst hki
      rw [if_pos rfl, if_pos rfl]
      by_cases hb : a.bin = b
      · subst hb
        rw [if_pos rfl, if_pos rfl]
      · rw [if_neg (by omega), if_neg hb]
    · rw [if_neg hki, if_neg hki, if_neg (by omega)]

/-- The lane of a voice's own slots. -/
theorem slotsBin_slots (s : State) (h : Handle) (frame : List Int) (nch la b : Nat) (m : Word) :
    slotsBin s.cfg.mixOverflow frame nch la b (slots s h) 0 m = laneBin s h la frame nch b m := rfl

/-! ## What a visit can change -/

/-- The fields that no visit writes. -/
def steadyFields : List VField :=
  [vLink, vPitch, vPitchScale, vPaused, vLoop, vStereo, vSampleSize, vContainerSize, vBa, vLbo, vEbo,
    ⟨0x00, 0, 32⟩, ⟨0x04, 0, 32⟩, ⟨0x60, 0, 32⟩, ⟨0x64, 0, 32⟩, ⟨0x68, 0, 32⟩]

/-- From `s` to `t` voice records may have been visited: guest memory alone changes, no record's steady field, no voice
becomes active, every envelope that has a step keeps one. -/
structure Visited (s t : State) : Prop where
  only : s.OnlyMem t
  steady : ∀ k, ∀ g ∈ steadyFields, voiceField t k g = voiceField s k g
  inactive : ∀ k, voiceField s k vActive = 0 → voiceField t k vActive = 0
  steps : ∀ k e, voiceField s k (vState e) < 7 → voiceField t k (vState e) < 7

theorem Visited.refl (s : State) : Visited s s := ⟨rfl, fun _ _ _ => rfl, fun _ h => h, fun _ _ h => h⟩

theorem Visited.trans {s t u : State} (h : Visited s t) (k : Visited t u) : Visited s u :=
  ⟨onlyMem_trans h.only k.only, fun i g hg => (k.steady i g hg).trans (h.steady i g hg),
    fun i hi => k.inactive i (h.inactive i hi), fun i e hi => k.steps i e (h.steps i e hi)⟩

theorem Visited.fullTable {s t : State} (h : Visited s t) {tab : SgTable} (hf : fullTable s tab) :
    Machine.fullTable t tab := by
  unfold Machine.fullTable
  rw [onlyMem_sgTable h.only]
  exact hf

/-- A field write to one record is a visit, if the field stands apart from the steady ones and from the states. -/
theorem visited_setVoiceField (s : State) (h : Handle) (f : VField) (v : Nat) (hf : f.off + 4 ≤ 128)
    (hs : ∀ g ∈ steadyFields, f.apart g) (ha : f.apart vActive ∨ (f = vActive ∧ v = 0))
    (he : ∀ e, f.apart (vState e)) : Visited s (s.setVoiceField h f v) := by
  have other : ∀ k g, k ≠ h → g.off + 4 ≤ 128 → voiceField (s.setVoiceField h f v) k g = voiceField s k g :=
    fun k g hk hg => voiceField_setVoiceField_voice s hk f g v hg hf
  refine ⟨rfl, fun k g hg => ?_, fun k hk => ?_, fun k e hk => ?_⟩
  · by_cases e : k = h
    · subst e
      exact voiceField_setVoiceField_apart _ _ _ _ _ (hs g hg)
    · exact other k g e ((by decide : ∀ g ∈ steadyFields, g.off + 4 ≤ 128) g hg)
  · by_cases e : k = h
    · subst e
      rcases ha with ha | ⟨rfl, rfl⟩
      · rw [voiceField_setVoiceField_apart _ _ _ _ _ ha, hk]
      · rw [voiceField_setVoiceField_same _ _ _ _ (by decide)]
        rfl
    · rw [other k _ e (by decide), hk]
  · by_cases e' : k = h
    · subst e'
      rw [voiceField_setVoiceField_apart _ _ _ _ _ (he e)]
      exact hk
    · rw [other k _ e' (by cases e <;> decide)]
      exact hk

/-- The end of a voice is a visit. -/
theorem visited_stop (s : State) (h : Handle) : Visited s (s.setVoiceField h vActive 0) :=
  visited_setVoiceField s h vActive 0 (by decide) (by decide) (.inr ⟨rfl, rfl⟩) (fun e => by cases e <;> decide)

/-- The write of `cbo` is a visit. -/
theorem visited_cbo (s : State) (h : Handle) (v : Nat) : Visited s (s.setVoiceField h vCbo v) :=
  visited_setVoiceField s h vCbo v (by decide) (by decide) (.inl (by decide)) (fun e => by cases e <;> decide)

/-- The rules give a state that has a step (42_envelope R287 to R293). -/
theorem envRuleOf_state (k : Nat) (i : EnvIn) : (envRuleOf k i).state < 7 := by
  unfold envRuleOf
  split
  · simp [offStep]
  · simp only [delayStep]
    split <;> simp
  · simp only [attackStep]
    split <;> simp
  · simp only [holdStep]
    split <;> simp
  · simp only [decayStep]
    split
    · simp
    · split
      · simp
      · show ite _ _ _ < 7
        split <;> omega
  · simp [sustainStep]
  · simp [releaseStep]

/-- The write-back of a step is a visit. -/
theorem visited_envWriteBack (s : State) (h : Handle) (e : Env) (o : EnvOut) (ho : o.state < 7) :
    Visited s (envWriteBack h e o s) := by
  obtain ⟨-, -, f3, f4⟩ := envWriteBack_fields h e o s
  refine ⟨envWriteBack_onlyMem h e o s, fun k g hg => ?_, fun k hk => ?_, fun k e' hk => ?_⟩
  · by_cases hkh : k = h
    · subst hkh
      refine envWriteBack_apart k e o s g ?_ ?_ ?_ ?_
      · cases e <;> exact (by decide : ∀ g ∈ steadyFields, (vCount _).apart g) g hg
      · cases e <;> exact (by decide : ∀ g ∈ steadyFields, (vLevel _).apart g) g hg
      · cases e <;> exact (by decide : ∀ g ∈ steadyFields, (vState _).apart g) g hg
      · exact (by decide : ∀ g ∈ steadyFields, vActive.apart g) g hg
    · exact envWriteBack_voice hkh e o s g ((by decide : ∀ g ∈ steadyFields, g.off + 4 ≤ 128) g hg)
  · by_cases hkh : k = h
    · subst hkh
      rw [f4]
      split
      · rfl
      · exact hk
    · rw [envWriteBack_voice hkh e o s _ (by decide), hk]
  · by_cases hkh : k = h
    · subst hkh
      by_cases hee : e' = e
      · subst hee
        rw [f3]
        omega
      · rw [envWriteBack_apart k e o s (vState e')]
        · exact hk
        all_goals (cases e <;> cases e' <;> first | decide | exact absurd rfl hee)
    · rw [envWriteBack_voice hkh e o s _ (by cases e' <;> decide)]
      exact hk

/-! ## One voice -/

/-- What a voice's frame needs to run without a fatal: a legal format, and no loop or one that does not end before it
begins. -/
def FrameReady (v : VoiceCfg) : Prop :=
  sampleKind v.container v.sampleSize ≠ .illegal ∧ (v.loop = false ∨ v.lbo ≤ v.ebo)

/-- The lanes `i` to `i + n - 1` of a ready voice: `m` of them are mixed, each at its position, and the voice ends when the
position of the next is past its end (43_sample_fetch_decode R313, 44_voice_walker_mixer R357). -/
theorem voiceLanes_ok {s : State} {h : Handle} {v : VoiceCfg} (hv : FrameReady v) (hf : fullTable s .voice)
    (sl : List Slot) (la lf n i : Nat) (mix : Store 32) :
    ∃ out u m, ∃ (pos : Nat → Nat) (frame : Nat → List Int), voiceLanes h v sl la lf n i mix s = .ok out u ∧ m ≤ n ∧
      ((m = n ∧ u = s) ∨ (m < n ∧ v.loop = false ∧
        v.ebo < v.cbo + stepOffset v.pitch v.pitchScale lf (i + m) ∧ u = s.setVoiceField h vActive 0)) ∧
      (∀ k, i ≤ k → k < i + m →
        resolvePos v.loop v.lbo v.ebo (v.cbo + stepOffset v.pitch v.pitchScale lf k) = .ok (some (pos k)) ∧
        fetchFrame s (sampleKind v.container v.sampleSize) v.ba (channels v.stereo) (pos k) = .ok (frame k)) ∧
      (i + n ≤ 32 → ∀ b k, k < 32 → out.get (b * 32 + k) =
        if i ≤ k ∧ k < i + m then slotsBin s.cfg.mixOverflow (frame k) (channels v.stereo) la b sl 0 (mix.get (b * 32 + k))
        else mix.get (b * 32 + k)) := by
  induction n generalizing i mix with
  | zero =>
    refine ⟨mix, s, 0, fun _ => 0, fun _ => [], rfl, by omega, .inl ⟨rfl, rfl⟩, fun k h1 h2 => by omega,
      fun _ b k _ => ?_⟩
    rw [if_neg (by omega)]
  | succ n ih =>
    obtain ⟨pos, hp⟩ := resolvePos_ok hv.2 (v.cbo + stepOffset v.pitch v.pitchScale lf i)
    rw [voiceLanes, bind_ok (readsOrRaise_ok (f := fun _ => _) hp)]
    cases pos with
    | none =>
      refine ⟨mix, _, 0, fun _ => 0, fun _ => [], rfl, by omega, .inr ⟨by omega, ?_⟩, fun k h1 h2 => by omega,
        fun _ b k _ => ?_⟩
      · unfold resolvePos at hp
        split at hp
        · cases hp
        · rename_i hlt
          cases hl : v.loop with
          | false => exact ⟨rfl, by simpa using hlt, rfl⟩
          | true =>
            rw [hl, if_pos rfl] at hp
            cases e : loopPos v.lbo v.ebo (v.cbo + stepOffset v.pitch v.pitchScale lf i) <;> rw [e] at hp <;> cases hp
      · rw [if_neg (by omega)]
    | some p =>
      obtain ⟨fr, hfr⟩ := fetchFrame_full hf hv.1 v.ba (channels v.stereo) p
      obtain ⟨out, u, m, pos, frame, hu, hm, ho, hk, hg⟩ :=
        ih (i + 1) (mixSlots s.cfg.mixOverflow fr (channels v.stereo) la i sl 0 mix)
      refine ⟨out, u, m + 1, fun k => if k = i then p else pos k, fun k => if k = i then fr else frame k, ?_, by omega, ?_,
        fun k h1 h2 => ?_, fun hn b k hk32 => ?_⟩
      · rw [← hu]
        exact bind_ok (readsOrRaise_ok (f := fun s => fetchFrame s (sampleKind v.container v.sampleSize) v.ba
          (channels v.stereo) p) hfr)
      · rw [show i + (m + 1) = i + 1 + m by omega]
        exact ho.imp (fun h => ⟨by omega, h.2⟩) fun h => ⟨by omega, h.2⟩
      · by_cases e : k = i
        · subst e
          simp only [if_true]
          exact ⟨hp, hfr⟩
        · simp only [e, if_false]
          exact hk k (by omega) (by omega)
      · rw [hg (by omega) b k hk32, mixSlots_get _ _ _ _ _ (by omega) hk32]
        by_cases e : k = i
        · subst e
          rw [if_neg (by omega), if_pos rfl, if_pos (by omega)]
          simp only [if_true]
        · simp only [e, if_false]
          by_cases h1 : i + 1 ≤ k ∧ k < i + 1 + m
          · rw [if_pos h1, if_pos (by omega)]
          · rw [if_neg h1, if_neg (by omega)]

/-- The frame of a ready voice (44_voice_walker_mixer R357): its lanes, the end of the voice if a lane stops it, and `cbo`
takes its new value. -/
theorem voiceFrame_ok {s : State} {h : Handle} (hv : FrameReady (voiceCfg s h)) (hf : fullTable s .voice)
    (la lf : Nat) (mix : Store 32) :
    ∃ out u new n, ∃ (pos : Nat → Nat) (frame : Nat → List Int), voiceFrame h la lf mix s = .ok out (State.setVoiceField u h vCbo new) ∧ n ≤ 32 ∧
      ((n = 32 ∧ u = s) ∨ (n < 32 ∧ voiceField s h vLoop ≠ 1 ∧ voiceField s h vEbo < framePosition s h lf n ∧
        u = s.setVoiceField h vActive 0)) ∧
      (∀ k, k < n →
        resolvePos (voiceCfg s h).loop (voiceCfg s h).lbo (voiceCfg s h).ebo (framePosition s h lf k) = .ok (some (pos k)) ∧
        fetchFrame s (sampleKind (voiceCfg s h).container (voiceCfg s h).sampleSize) (voiceCfg s h).ba
          (channels (voiceCfg s h).stereo) (pos k) = .ok (frame k)) ∧
      (∀ b k, k < 32 → out.get (b * 32 + k) = if k < n then
        laneBin s h la (frame k) (channels (voiceCfg s h).stereo) b (mix.get (b * 32 + k)) else mix.get (b * 32 + k)) ∧
      endCbo (voiceCfg s h).loop (voiceCfg s h).lbo (voiceCfg s h).ebo (framePosition s h lf 32) = .ok new := by
  obtain ⟨out, u, n, pos, frame, hu, hn, ho, hk, hg⟩ := voiceLanes_ok hv hf (slots s h) la lf Config.frameSamples 0 mix
  obtain ⟨new, he, -, -⟩ := endCbo_ok hv.2 (framePosition s h lf 32)
  refine ⟨out, u, new, n, pos, frame, ?_, hn, ?_, fun k h1 => hk k (by omega) (by omega), fun b k h1 => ?_, he⟩
  · rw [voiceFrame, bind_reads_run, bind_reads_run, bind_ok hu, updateCbo]
    rw [bind_ok (a := ()) (t := State.setVoiceField u h vCbo new)]
    · rfl
    · exact bind_ok (readsOrRaise_ok (f := fun _ => _) he)
  · refine ho.imp id fun h => ⟨h.1, ?_, ?_, h.2.2.2⟩
    · have := h.2.1
      simpa [voiceCfg] using this
    · have := h.2.2.1
      rw [Nat.zero_add] at this
      exact this
  · rw [hg (by decide) b k h1]
    simp only [Nat.zero_le, true_and, Nat.zero_add]
    rfl

theorem voiceField_bit (s : State) (h : Handle) (f : VField) (hf : f.len = 1) : voiceField s h f = 0 ∨ voiceField s h f = 1 := by
  have := voiceField_lt s h f
  rw [hf] at this
  omega

/-- From a prepared record to a frame that is ready. -/
theorem frameReady_of {s : State} {h : Handle} (hl : legalFormat s h)
    (hp : voiceField s h vLoop = 0 ∨ voiceField s h vLbo ≤ voiceField s h vEbo) : FrameReady (voiceCfg s h) := by
  refine ⟨hl, ?_⟩
  rcases hp with h0 | h0
  · left
    simp [voiceCfg, h0]
  · exact .inr h0

/-- The level a rule gives is a level (42_envelope R284). -/
theorem envRuleOf_level (k : Nat) (i : EnvIn) (hs : i.sustain < 256) : (envRuleOf k i).level < 256 := by
  have decay : ∀ e, decayLevel e < 256 := by
    intro e
    unfold decayLevel
    have h : decayNum ^ e ≤ decayDen ^ e := Nat.pow_le_pow_left (by decide) e
    have h2 : 255 * decayNum ^ e / decayDen ^ e ≤ 255 := by
      rw [Nat.div_le_iff_le_mul (Nat.pow_pos (by decide))]
      have := Nat.mul_le_mul_left 255 h
      omega
    omega
  unfold envRuleOf
  split
  · simp [offStep]
  · simp only [delayStep]
    split <;> simp
  · have : ∀ a c, attackLevel a c < 256 := fun a c => by
      unfold attackLevel
      split <;> omega
    simp only [attackStep]
    split <;> exact this _ _
  · simp only [holdStep]
    split <;> simp
  · simp only [decayStep]
    split
    · exact hs
    · split
      · simp
      · exact decay _
  · exact hs
  · simp only [releaseStep, releaseLevel]
    split <;> omega

/-- Whole words that no visit writes. -/
theorem steadyWord {s t : State} {h : Handle} {o : Nat} (e : voiceField t h ⟨o, 0, 32⟩ = voiceField s h ⟨o, 0, 32⟩) :
    voiceWord t h o = voiceWord s h o := by
  apply BitVec.eq_of_toNat_eq
  simpa [voiceField, field_nat, Nat.mod_eq_of_lt (voiceWord t h o).isLt, Nat.mod_eq_of_lt (voiceWord s h o).isLt] using e

/-- What a visit leaves a frame depends on: a frame's positions and lanes are those of the state before the visit. -/
theorem Visited.frame {s t : State} (hv : Visited s t) (h : Handle) (hc : voiceField t h vCbo = voiceField s h vCbo) :
    voiceCfg t h = voiceCfg s h ∧ (∀ lf i, framePosition t h lf i = framePosition s h lf i) ∧
    voiceWord t h 0x04 = voiceWord s h 0x04 ∧
    ∀ la frame nch b m, laneBin t h la frame nch b m = laneBin s h la frame nch b m := by
  have w : ∀ o, (⟨o, 0, 32⟩ : VField) ∈ steadyFields → voiceWord t h o = voiceWord s h o := fun o ho =>
    steadyWord (hv.steady h _ ho)
  refine ⟨?_, fun lf i => ?_, w 0x04 (by decide), fun la frame nch b m => ?_⟩
  · unfold voiceCfg
    rw [hc, hv.steady h vContainerSize (by decide), hv.steady h vSampleSize (by decide), hv.steady h vStereo (by decide),
      hv.steady h vLoop (by decide), hv.steady h vBa (by decide), hv.steady h vLbo (by decide),
      hv.steady h vEbo (by decide), hv.steady h vPitch (by decide), hv.steady h vPitchScale (by decide)]
  · unfold framePosition
    rw [hc, hv.steady h vPitch (by decide), hv.steady h vPitchScale (by decide)]
  · have hvol : ∀ j, voiceVolume t h j = voiceVolume s h j := fun j => by
      unfold voiceVolume
      rw [w 0x60 (by decide), w 0x64 (by decide), w 0x68 (by decide)]
    have hbin : ∀ j, voiceField t h (vBin j) = voiceField s h (vBin j) := fun j => by
      unfold voiceField vBin
      split <;> simp only [w 0x00 (by decide), w 0x04 (by decide)]
    unfold laneBin
    simp only [hvol, hbin, onlyMem_cfg hv.only]

/-- A resolved position, as the rule says it (43_sample_fetch_decode R313). -/
theorem resolvePos_iff {s : State} {h : Handle} {p q : Nat} :
    resolvePos (voiceField s h vLoop = 1) (voiceField s h vLbo) (voiceField s h vEbo) p = .ok (some q) ↔
      Resolves s h p q := by
  unfold resolvePos Resolves
  generalize voiceField s h vLbo = lbo
  generalize voiceField s h vEbo = ebo
  by_cases hp : p ≤ ebo
  · rw [if_pos hp]
    constructor
    · intro e
      cases e
      exact .inl ⟨hp, rfl⟩
    · rintro (⟨-, rfl⟩ | ⟨h1, -⟩)
      · rfl
      · omega
  rw [if_neg hp]
  by_cases hl : voiceField s h vLoop = 1
  · rw [if_pos (by simpa using hl), loopPos]
    by_cases hb : ebo < lbo
    · rw [if_pos hb]
      constructor
      · intro e
        cases e
      · rintro (⟨h1, -⟩ | ⟨-, -, h1, -⟩) <;> omega
    · rw [if_neg hb]
      have hw := wrapPos_past (lbo := lbo) (ebo := ebo) (p := p) (by omega) (by omega)
      constructor
      · intro e
        cases e
        exact .inr ⟨by omega, hl, by omega, hw⟩
      · rintro (⟨h1, -⟩ | ⟨-, -, -, rfl⟩)
        · omega
        · rw [hw.symm]
          rfl
  · rw [if_neg (by simpa using hl)]
    constructor
    · intro e
      cases e
    · rintro (⟨h1, -⟩ | ⟨-, h1, -⟩)
      · omega
      · exact absurd h1 hl

/-- The two envelope steps of a visit (44_voice_walker_mixer R355): the levels they return are the levels stored, `cbo` is
as before. -/
theorem envSteps_ok {s : State} {h : Handle} (hh : h.toNat < s.cfg.numVoices) (hs : steppable s h) : ∃ t w,
    envStep h .a s = .ok (voiceField w h (vLevel .a)) t ∧ envStep h .f t = .ok (voiceField w h (vLevel .f)) w ∧
    Visited s t ∧ Visited s w ∧ voiceField w h vCbo = voiceField s h vCbo ∧
    voiceField t h (vState .f) = voiceField s h (vState .f) := by
  have e1 := envStep_ok hh .a hs.1
  dsimp only at e1
  have la := envRuleOf_level (voiceField s h (vState .a)) (envIn s h .a) (voiceField_lt s h (vSustain .a))
  generalize hoa : envRuleOf (voiceField s h (vState .a)) (envIn s h .a) = oa at e1 la
  have v1 : Visited s (envWriteBack h .a oa s) := visited_envWriteBack s h .a oa (hoa ▸ envRuleOf_state _ _)
  have c1 : voiceField (envWriteBack h .a oa s) h vCbo = voiceField s h vCbo :=
    envWriteBack_apart h .a oa s vCbo (by decide) (by decide) (by decide) (by decide)
  have s1 : voiceField (envWriteBack h .a oa s) h (vState .f) = voiceField s h (vState .f) :=
    envWriteBack_apart h .a oa s (vState .f) (by decide) (by decide) (by decide) (by decide)
  have f1 := (envWriteBack_fields h .a oa s).2.1
  generalize envWriteBack h .a oa s = t at e1 v1 c1 f1 s1
  have hht : h.toNat < t.cfg.numVoices := by
    rw [onlyMem_cfg v1.only]
    exact hh
  have e2 := envStep_ok hht .f (v1.steps h .f hs.2)
  dsimp only at e2
  have lf := envRuleOf_level (voiceField t h (vState .f)) (envIn t h .f) (voiceField_lt t h (vSustain .f))
  generalize hof : envRuleOf (voiceField t h (vState .f)) (envIn t h .f) = of at e2 lf
  have v2 : Visited t (envWriteBack h .f of t) := visited_envWriteBack t h .f of (hof ▸ envRuleOf_state _ _)
  have c2 : voiceField (envWriteBack h .f of t) h vCbo = voiceField t h vCbo :=
    envWriteBack_apart h .f of t vCbo (by decide) (by decide) (by decide) (by decide)
  have f2 := (envWriteBack_fields h .f of t).2.1
  have f3 : voiceField (envWriteBack h .f of t) h (vLevel .a) = voiceField t h (vLevel .a) :=
    envWriteBack_apart h .f of t (vLevel .a) (by decide) (by decide) (by decide) (by decide)
  refine ⟨t, _, ?_, ?_, v1, v1.trans v2, c2.trans c1, s1⟩
  · rw [f3, f1, Nat.mod_eq_of_lt la]
    exact e1
  · rw [f2, Nat.mod_eq_of_lt lf]
    exact e2

/-- A visit from the state after its envelope steps on (44_voice_walker_mixer R355, R356). -/
theorem visitActive_run {s t w : State} {h : Handle} {la lf : Nat} (hh : h.toNat < s.cfg.numVoices)
    (e1 : envStep h .a s = .ok la t) (e2 : envStep h .f t = .ok lf w) (hv : Visited s w) (mix : Store 32) :
    visitActive h mix s = (if voiceField s h vPaused = 0 then voiceFrame h la lf mix else pure mix : Op (Store 32)) w := by
  rw [visitActive, bind_ok e1, bind_ok e2, bind_ok (readV_ok (by rw [onlyMem_cfg hv.only]; exact hh) _),
    hv.steady h vPaused (by decide)]

/-- The visit of a ready active voice completes: both envelopes are stepped, and its frame runs unless it is paused
(44_voice_walker_mixer R353, R355, R356). -/
theorem visitActive_ok {s : State} {h : Handle} (hh : h.toNat < s.cfg.numVoices) (hf : fullTable s .voice)
    (hs : steppable s h) (hr : voiceField s h vPaused = 1 ∨
      (legalFormat s h ∧ (voiceField s h vLoop = 0 ∨ voiceField s h vLbo ≤ voiceField s h vEbo)))
    (mix : Store 32) : ∃ out u, visitActive h mix s = .ok out u ∧ Visited s u := by
  obtain ⟨t, w, e1, e2, -, vw, cw, -⟩ := envSteps_ok hh hs
  rw [visitActive_run hh e1 e2 vw]
  by_cases hp : voiceField s h vPaused = 0
  · rw [if_pos hp]
    have hr' := hr.resolve_left (by omega)
    have hl : FrameReady (voiceCfg w h) := by
      rw [(vw.frame h cw).1]
      exact frameReady_of hr'.1 hr'.2
    obtain ⟨out, u, new, n, pos, frame, hu, -, ho, -, -, -⟩ := voiceFrame_ok hl (vw.fullTable hf) _ _ mix
    have hus : Visited w u := by
      rcases ho with ⟨-, rfl⟩ | ⟨-, -, -, rfl⟩
      · exact Visited.refl _
      · exact visited_stop _ _
    exact ⟨out, _, hu, vw.trans (hus.trans (visited_cbo u h new))⟩
  · rw [if_neg hp]
    exact ⟨mix, w, rfl, vw⟩

/-! ## A list -/

/-- The registers the front-end trap and the walk may change, and guest memory: from `s` to `t` nothing else does. -/
structure PassKeeps (s t : State) : Prop where
  rest : { t with mem := s.mem, irq := s.irq, x := { t.x with
    ists := s.x.ists, fectl := s.x.fectl, cvl2d := s.x.cvl2d, nvl2d := s.x.nvl2d, cvl3d := s.x.cvl3d,
    nvl3d := s.x.nvl3d, cvlmp := s.x.cvlmp, nvlmp := s.x.nvlmp } } = s
  steady : ∀ k, ∀ g ∈ steadyFields, voiceField t k g = voiceField s k g
  inactive : ∀ k, voiceField s k vActive = 0 → voiceField t k vActive = 0
  steps : ∀ k e, voiceField s k (vState e) < 7 → voiceField t k (vState e) < 7

namespace PassKeeps

theorem refl (s : State) : PassKeeps s s := ⟨rfl, fun _ _ _ => rfl, fun _ h => h, fun _ _ h => h⟩

theorem trans {s t u : State} (h : PassKeeps s t) (k : PassKeeps t u) : PassKeeps s u := by
  refine ⟨?_, fun i g hg => (k.steady i g hg).trans (h.steady i g hg), fun i hi => k.inactive i (h.inactive i hi),
    fun i e hi => k.steps i e (h.steps i e hi)⟩
  exact (congrArg (fun a : State => { a with mem := s.mem, irq := s.irq, x := { a.x with
    ists := s.x.ists, fectl := s.x.fectl, cvl2d := s.x.cvl2d, nvl2d := s.x.nvl2d, cvl3d := s.x.cvl3d,
    nvl3d := s.x.nvl3d, cvlmp := s.x.cvlmp, nvlmp := s.x.nvlmp } }) k.rest).trans h.rest

theorem of_visited {s t : State} (h : Visited s t) : PassKeeps s t := by
  refine ⟨?_, h.steady, h.inactive, h.steps⟩
  rw [onlyMem_eq h.only]
  rfl

theorem cfg {s t : State} (h : PassKeeps s t) : t.cfg = s.cfg := congrArg (·.cfg) h.rest

theorem halt {s t : State} (h : PassKeeps s t) : t.halt = s.halt := congrArg (·.halt) h.rest

theorem tvl {s t : State} (h : PassKeeps s t) (l : VoiceList) : Machine.tvl t l = Machine.tvl s l := by
  have := congrArg (fun a : State => Machine.tvl a l) h.rest
  cases l <;> exact this

theorem voiceTable {s t : State} (h : PassKeeps s t) : sgTable t .voice = sgTable s .voice := by
  have h1 := congrArg (fun a : State => (a.x.vpsgeaddr, a.cfg.vpMaxSge)) h.rest
  exact h1

theorem ready {s t : State} (h : PassKeeps s t) {k : Handle} (hk : VoiceReady s k) : VoiceReady t k := by
  obtain ⟨h1, h2⟩ := hk
  refine ⟨by rw [h.cfg]; exact h1, ?_⟩
  rcases h2 with h2 | ⟨h3, h4⟩
  · exact .inl (h.inactive k h2)
  · refine .inr ⟨⟨h.steps k .a h3.1, h.steps k .f h3.2⟩, ?_⟩
    unfold legalFormat
    rw [h.steady k vPaused (by decide), h.steady k vContainerSize (by decide), h.steady k vSampleSize (by decide),
      h.steady k vLoop (by decide), h.steady k vLbo (by decide), h.steady k vEbo (by decide)]
    exact h4

theorem linked {s t : State} (h : PassKeeps s t) {k last : Handle} {l : List Handle} (hl : LinkedTo s k last l) :
    LinkedTo t k last l := by
  induction l generalizing k with
  | nil => exact hl
  | cons a r ih =>
    obtain ⟨h1, h2, h3⟩ := hl
    refine ⟨h1, h2, ?_⟩
    rw [h.steady k vLink (by decide)]
    exact ih h3

/-- A change of the walk's registers. -/
theorem setCvl (s : State) (l : VoiceList) (v : Word) : PassKeeps s (s.setCvl l v) := by
  cases l <;> exact ⟨rfl, fun _ _ _ => rfl, fun _ h => h, fun _ _ h => h⟩

theorem setNvl (s : State) (l : VoiceList) (v : Word) : PassKeeps s (s.setNvl l v) := by
  cases l <;> exact ⟨rfl, fun _ _ _ => rfl, fun _ h => h, fun _ _ h => h⟩

theorem trap (s : State) : PassKeeps s (takeTrap s) := ⟨rfl, fun _ _ _ => rfl, fun _ h => h, fun _ _ h => h⟩

end PassKeeps

/-- A visit changes no list register. -/
theorem lists_visited {s t : State} (h : Visited s t) (l : VoiceList) : nvl t l = nvl s l ∧ cvl t l = cvl s l := by
  rw [onlyMem_eq h.only]
  cases l <;> exact ⟨rfl, rfl⟩

/-- The visit of a ready voice completes (44_voice_walker_mixer R351, R353, R354). -/
theorem visit_ok {s : State} {h : Handle} (hv : VoiceReady s h) (hf : fullTable s .voice) (mix : Store 32) :
    ∃ out u, visit h mix s = .ok out u ∧ PassKeeps s u ∧ ∀ l, nvl u l = nvl s l ∧ cvl u l = cvl s l := by
  rw [visit, bind_ok (readV_ok hv.1 _)]
  by_cases ha : voiceField s h vActive = 0
  · rw [if_pos ha]
    by_cases ht : trapArmed s = true
    · refine ⟨mix, takeTrap s, ?_, PassKeeps.trap s, fun l => by cases l <;> exact ⟨rfl, rfl⟩⟩
      refine bind_ok (a := ()) ?_
      rw [visitIdle, feIdleVoice, update_run, if_pos ht]
    · refine ⟨mix, s, ?_, PassKeeps.refl s, fun _ => ⟨rfl, rfl⟩⟩
      refine bind_ok (a := ()) ?_
      rw [visitIdle, feIdleVoice, update_run, if_neg ht]
  · rw [if_neg ha]
    obtain ⟨h3, h4⟩ := hv.2.resolve_left ha
    obtain ⟨out, u, hu, hvis⟩ := visitActive_ok hv.1 hf h3 h4 mix
    exact ⟨out, u, hu, PassKeeps.of_visited hvis, lists_visited hvis⟩

@[simp] theorem cvl_setCvl (s : State) (l : VoiceList) (v : Word) : cvl (s.setCvl l v) l = v := by cases l <;> rfl

@[simp] theorem nvl_setNvl (s : State) (l : VoiceList) (v : Word) : nvl (s.setNvl l v) l = v := by cases l <;> rfl

theorem cvl_setCvl_other (s : State) {l k : VoiceList} (h : k ≠ l) (v : Word) : cvl (s.setCvl l v) k = cvl s k := by
  cases l <;> cases k <;> first | rfl | exact absurd rfl h

theorem nvl_setNvl_other (s : State) {l k : VoiceList} (h : k ≠ l) (v : Word) : nvl (s.setNvl l v) k = nvl s k := by
  cases l <;> cases k <;> first | rfl | exact absurd rfl h

theorem nvl_setCvl (s : State) (l k : VoiceList) (v : Word) : nvl (s.setCvl l v) k = nvl s k := by
  cases l <;> cases k <;> rfl

theorem cvl_setNvl (s : State) (l k : VoiceList) (v : Word) : cvl (s.setNvl l v) k = cvl s k := by
  cases l <;> cases k <;> rfl

end Sys2Proof.Machine
end

