-- ==== Sys2Proof/Laws/Walk.lean ====
section
/-! SUPPORT. A list pass as the sequence of its voices' visits (44_voice_walker_mixer R351): the visits of the walk are the
VOICE rows run one after the other, on the same guest memory, interrupt state and bins. -/

namespace Sys2Proof.Machine

/-! ## The rows a visit names -/

/-- A format class is the fetch of its kind (43_sample_fetch_decode R319). -/
theorem exec_decodeFmt (h : Handle) (p w : Word) (s : State) :
    exec (decodeFmt h p w) s = runOp (fetchAlone (sampleKind (field w 30 2) (field w 28 2)) h p) s := by
  have h1 : field w 30 2 = field w 28 4 / 4 := by simp only [field_nat]; omega
  have h2 : field w 28 2 = field w 28 4 % 4 := by simp only [field_nat]; omega
  have h3 : field w 28 4 < 16 := field_lt w 28 4
  rw [h1, h2]
  unfold decodeFmt
  generalize field w 28 4 = k at h3
  interval_cases k <;> rfl

/-- A fetch reads guest memory, the registers and the parameters, and nothing else. -/
theorem fetchFrame_congr {s u : State} (hm : u.mem = s.mem) (hx : u.x = s.x) (hc : u.cfg = s.cfg) (k : SampleKind)
    (ba nch p : Nat) : fetchFrame u k ba nch p = fetchFrame s k ba nch p := by
  have hp : ∀ container width, pcmSample u container width ba nch p = pcmSample s container width ba nch p := by
    intro container width
    funext ch
    simp only [pcmSample, sgRead_congr hm hx hc]
  cases k with
  | pcm container width => simp only [fetchFrame, hp]
  | adpcm => simp only [fetchFrame, adpcmBlock, sgReadBytes_congr hm hx hc]
  | illegal => rfl

/-! ## Operations that the walk's own registers do not enter -/

/-- `z` with the guest memory, the parameters, the line and the registers of `u`, but for the list registers: what a visit
depends on. -/
def State.worn (u z : State) : State :=
  { z with cfg := u.cfg, mem := u.mem, irq := u.irq, x := { u.x with
    cvl2d := z.x.cvl2d, nvl2d := z.x.nvl2d, cvl3d := z.x.cvl3d, nvl3d := z.x.nvl3d, cvlmp := z.x.cvlmp,
    nvlmp := z.x.nvlmp } }

/-- `m` neither reads nor writes anything else: with other list registers, kept values, cells and engines it does the
same. -/
def Blind {α : Type} (m : Op α) : Prop := ∀ z : State, Commutes (fun u => u.worn z) m

namespace Blind

variable {α β : Type}

theorem bind {m : Op α} {k : α → Op β} (hm : Blind m) (hk : ∀ a, Blind (k a)) : Blind (m >>= k) := fun z =>
  (hm z).bind fun a => hk a z

theorem ret (a : α) : Blind (pure a : Op α) := fun _ => .ret a

theorem fail (code : FatalCode) : Blind (raise code : Op α) := fun _ => .fail code

theorem get {f : State → α} (h : ∀ z u, f (u.worn z) = f u) : Blind (reads f) := fun z => .get (h z)

theorem put {f : State → State} (h : ∀ z u, f (u.worn z) = (f u).worn z) : Blind (update f) := fun z => .put (h z)

theorem getOr {f : State → Except FatalCode α} (h : ∀ z u, f (u.worn z) = f u) : Blind (readsOrRaise f) := fun z =>
  .getOr (h z)

theorem ite {c : Prop} [Decidable c] {m n : Op α} (hm : Blind m) (hn : Blind n) : Blind (if c then m else n) := fun z =>
  (hm z).ite (hn z)

theorem checkHandle (h : Handle) : Blind (checkHandle h) := fun z u => by
  rw [checkHandle_run, checkHandle_run]
  show (if h.toNat < u.cfg.numVoices then _ else _) = _
  split <;> rfl

theorem readV (h : Handle) (f : VField) : Blind (readV h f) := bind (checkHandle h) fun _ => get fun _ _ => rfl

theorem sgReadBytes (z u : State) (t : SgTable) (lin : Word) (n : Nat) :
    Machine.sgReadBytes (u.worn z) t lin n = Machine.sgReadBytes u t lin n := by
  have ht : ∀ lin, translate (u.worn z) t lin = translate u t lin := fun lin => by cases t <;> rfl
  induction n generalizing lin with
  | zero => rfl
  | succ n ih =>
    simp only [Machine.sgReadBytes, sgReadByte, ht, ih]
    rfl

theorem fetchFrame (z u : State) (k : SampleKind) (ba nch p : Nat) :
    Machine.fetchFrame (u.worn z) k ba nch p = Machine.fetchFrame u k ba nch p := by
  have h := sgReadBytes z u .voice
  have hp : ∀ container width, pcmSample (u.worn z) container width ba nch p =
      pcmSample u container width ba nch p := fun container width => by
    funext ch
    simp only [pcmSample, sgRead, h]
  cases k with
  | pcm container width => simp only [Machine.fetchFrame, hp]
  | adpcm => simp only [Machine.fetchFrame, adpcmBlock, h]
  | illegal => rfl

theorem envRule (f : EnvIn → EnvOut) (h : Handle) (e : Env) : Blind (envRule f h e) :=
  bind (checkHandle h) fun _ => bind (get fun _ _ => rfl) fun o =>
    bind (put fun z u => by unfold envWriteBack; split <;> rfl) fun _ => ret _

theorem envFatal (code : FatalCode) (h : Handle) : Blind (envFatal code h) := bind (checkHandle h) fun _ => fail code

theorem envStep (h : Handle) (e : Env) : Blind (envStep h e) := by
  refine bind (readV h _) fun state => ?_
  split <;> first | exact envRule _ h e | exact envFatal _ h

theorem stopVoice (h : Handle) : Blind (stopVoice h) := put fun _ _ => rfl

theorem voiceLanes (h : Handle) (v : VoiceCfg) (sl : List Slot) (la lf n i : Nat) (mix : Store 32) :
    Blind (voiceLanes h v sl la lf n i mix) := by
  induction n generalizing i mix with
  | zero => exact ret _
  | succ n ih =>
    refine bind (getOr fun _ _ => rfl) fun pos => ?_
    cases pos with
    | none => exact bind (stopVoice h) fun _ => ret _
    | some p => exact bind (getOr fun z u => fetchFrame z u _ _ _ p) fun _ => bind (get fun _ _ => rfl) fun _ => ih _ _

theorem voiceFrame (h : Handle) (la lf : Nat) (mix : Store 32) : Blind (voiceFrame h la lf mix) :=
  bind (get fun _ _ => rfl) fun _ => bind (get fun _ _ => rfl) fun _ => bind (voiceLanes h _ _ la lf _ _ mix) fun _ =>
    bind (bind (getOr fun _ _ => rfl) fun _ => put fun _ _ => rfl) fun _ => ret _

theorem visitActive (h : Handle) (mix : Store 32) : Blind (visitActive h mix) :=
  bind (envStep h .a) fun _ => bind (envStep h .f) fun _ => bind (readV h _) fun _ => ite (voiceFrame h _ _ mix) (ret _)

theorem visitIdle (h : Handle) : Blind (visitIdle h) := put fun z u => by
  show (if trapArmed u then takeTrap (u.worn z) else u.worn z) = _
  split <;> rfl

theorem visit (h : Handle) (mix : Store 32) : Blind (visit h mix) :=
  bind (readV h _) fun _ => ite (bind (visitIdle h) fun _ => ret _) (visitActive h mix)

/-- Such an operation keeps all the rest. -/
theorem keeps {m : Op α} (hm : Blind m) {u t : State} {a : α} (h : m u = .ok a t) : t = t.worn u :=
  Commutes.keeps (hm u) rfl h

theorem keeps_error {m : Op α} (hm : Blind m) {u t : State} {code : FatalCode} (h : m u = .error code t) :
    t = t.worn u :=
  Commutes.keeps_error (hm u) rfl h

/-- On a walk, with its own list registers, kept values and halt record, it does the same. -/
theorem walked {m : Op α} (hm : Blind m) (z u : State) : m (u.asWalked z) = match m u with
    | .ok a t => .ok a (t.asWalked z)
    | .error code t => .error code (t.asWalked z) := by
  have h : m (u.worn (u.asWalked z)) = match m u with
      | .ok a t => .ok a (t.worn (u.asWalked z))
      | .error code t => .error code (t.worn (u.asWalked z)) := hm (u.asWalked z) u
  have key : ∀ t : State, t = t.worn u → t.worn (u.asWalked z) = t.asWalked z := fun t ht => by
    rw [ht]
    rfl
  rw [show u.worn (u.asWalked z) = u.asWalked z from rfl] at h
  rw [h]
  cases e : m u with
  | ok a t => exact congrArg _ (key t (hm.keeps e))
  | error code t => exact congrArg _ (key t (hm.keeps_error e))

end Blind

/-! ## A visit and its row -/

theorem asWalked_self (s : State) : s.asWalked s = s := rfl

theorem asWalked_asWalked (s t u : State) : (s.asWalked t).asWalked u = s.asWalked u := rfl

/-- The row of a voice's visit does what the visit does, on the kept bins (log 2). -/
theorem exec_visitRow {u : State} {h : Handle} (hr : u.halt = .running) (hh : h.toNat < u.cfg.numVoices) :
    exec (visitRow u h) u = match visit h u.sub.mix u with
      | .ok out t => .next (t.setSub { t.sub with mix := out })
      | .error code t => .next (takeFatal code t) := by
  rw [visit, bind_ok (readV_ok hh _)]
  unfold visitRow
  by_cases ha : voiceField u h vActive = 0
  · rw [if_pos ha, if_pos ha]
    have e : visitIdle h u = .ok () (if trapArmed u then takeTrap u else u) := rfl
    rw [bind_ok e]
    show runOp (idleAlone h) u = _
    rw [runOp_ok hr (a := ()) (t := if trapArmed u then takeTrap u else u)]
    · split <;> rfl
    · exact bind_ok (checkHandle_ok hh)
  · rw [if_neg ha, if_neg ha]
    show runOp (activeAlone h) u = _
    cases e : visitActive h u.sub.mix u with
    | ok out t => exact runOp_ok hr (a := ()) (by rw [activeAlone, bind_reads_run, bind_ok e]; rfl)
    | error code t => exact runOp_error hr (by rw [activeAlone, bind_reads_run, bind_error e])

/-- Visits one after the other. -/
theorem visits_append (l r : List Handle) {s t : State} (h : visits l s = .next t) : visits (l ++ r) s = visits r t := by
  induction l generalizing s with
  | nil =>
    cases h
    rfl
  | cons a l ih =>
    rw [visits] at h
    rw [List.cons_append, visits]
    cases e : exec (visitRow s a) s with
    | next u =>
      rw [e] at h
      exact ih h
    | fault w =>
      rw [e] at h
      cases h
    | refused w =>
      rw [e] at h
      cases h

/-! ## The loop of a pass -/

/-- The walk `s` with bins `mix` stands where the rows have brought `u`: the same guest memory, registers but the list
registers, and bins. -/
structure Follows (s u : State) (mix : Store 32) : Prop where
  same : s = u.asWalked s
  bins : mix = u.sub.mix
  running : u.halt = .running

/-- A change of the walk's registers leaves the walk where it stands. -/
theorem Follows.setCvl {s u : State} {mix : Store 32} (h : Follows s u mix) (l : VoiceList) (v : Word) :
    Follows (s.setCvl l v) u mix := by
  refine ⟨?_, h.bins, h.running⟩
  refine (congrArg (fun a : State => a.setCvl l v) h.same).trans ?_
  cases l <;> rfl

theorem Follows.setNvl {s u : State} {mix : Store 32} (h : Follows s u mix) (l : VoiceList) (v : Word) :
    Follows (s.setNvl l v) u mix := by
  refine ⟨?_, h.bins, h.running⟩
  refine (congrArg (fun a : State => a.setNvl l v) h.same).trans ?_
  cases l <;> rfl

/-- What the walk reads of a voice is what the rows read. -/
theorem Follows.field {s u : State} {mix : Store 32} (h : Follows s u mix) (k : Handle) (f : VField) :
    voiceField s k f = voiceField u k f := by
  rw [h.same]
  rfl

/-- A visit of the walk that completes is the row that completes. -/
theorem Follows.visit {s u t : State} {mix out : Store 32} (h : Follows s u mix) {k : Handle}
    (hk : k.toNat < s.cfg.numVoices) (e : Machine.visit k mix s = .ok out t) :
    ∃ v, exec (visitRow u k) u = .next v ∧ Follows t v out := by
  have hc : s.cfg = u.cfg := by
    rw [h.same]
    rfl
  rw [h.bins, h.same, (Blind.visit k u.sub.mix).walked s u] at e
  cases e2 : Machine.visit k u.sub.mix u with
  | error code w =>
    rw [e2] at e
    cases e
  | ok o w =>
    rw [e2] at e
    cases e
    have hrow := exec_visitRow h.running (hc ▸ hk)
    rw [e2] at hrow
    refine ⟨_, hrow, rfl, rfl, ?_⟩
    exact (congrArg State.halt (Blind.keeps (Blind.visit k u.sub.mix) e2)).trans h.running

/-- The loop over ready voices: it stands where their rows stand, at the handle the last link names, with as many
iterations left as there were voices fewer (44_voice_walker_mixer R351, R352). -/
theorem listLoop_visits (l : VoiceList) {last : Handle} (voices : List Handle) (n : Nat) {s u : State} {mix : Store 32}
    {h : Handle} (hn : voices.length ≤ n) (hf : fullTable s .voice) (hc : cvl s l = handleWord h)
    (hl : LinkedTo s h last voices) (hv : ∀ k ∈ voices, VoiceReady s k) (hu : Follows s u mix) :
    ∃ t v, visits voices u = .next v ∧ Follows t v v.sub.mix ∧ PassKeeps s t ∧ cvl t l = handleWord last ∧
      nvl t l = (if voices = [] then nvl s l else handleWord last) ∧ (∀ k, k ≠ l → cvl t k = cvl s k ∧ nvl t k = nvl s k) ∧
      listLoop l n mix s = listLoop l (n - voices.length) v.sub.mix t := by
  induction voices generalizing n s u mix h with
  | nil =>
    refine ⟨s, u, rfl, ⟨hu.same, rfl, hu.running⟩, PassKeeps.refl s, ?_, rfl, fun _ _ => ⟨rfl, rfl⟩, by rw [hu.bins]; rfl⟩
    rw [hc, show h = last from hl]
  | cons a r ih =>
    obtain ⟨n, rfl⟩ : ∃ k, n = k + 1 := ⟨n - 1, by simp at hn; omega⟩
    obtain ⟨rfl, h2, h3⟩ := hl
    have hr := hv h (by simp)
    let s1 := s.setNvl l (BitVec.ofNat 32 (voiceField s h vLink))
    have p1 : PassKeeps s s1 := PassKeeps.setNvl _ _ _
    obtain ⟨out, s2, e2, p2, n2⟩ := visit_ok (p1.ready hr) (by unfold fullTable; rw [p1.voiceTable]; exact hf) mix
    have f1 : Follows s1 u mix := hu.setNvl l _
    obtain ⟨v, ev, f2⟩ := f1.visit (by rw [p1.cfg]; exact hr.1) e2
    let s3 := s2.setCvl l (nvl s2 l)
    have f3 : Follows s3 v out := f2.setCvl l _
    have p3 : PassKeeps s s3 := (p1.trans p2).trans (PassKeeps.setCvl _ _ _)
    have hlink : voiceField s h vLink < 2 ^ 16 := voiceField_lt s h vLink
    have hn1 : nvl s1 l = handleWord (BitVec.ofNat 16 (voiceField s h vLink)) := by
      rw [show nvl s1 l = _ from nvl_setNvl _ _ _]
      apply BitVec.eq_of_toNat_eq
      simp only [handleWord, BitVec.toNat_setWidth, BitVec.toNat_ofNat]
      rw [Nat.mod_eq_of_lt (by omega), Nat.mod_eq_of_lt hlink, Nat.mod_eq_of_lt (by omega)]
    have hc3 : cvl s3 l = handleWord (BitVec.ofNat 16 (voiceField s h vLink)) := by
      rw [show cvl s3 l = nvl s2 l from cvl_setCvl _ _ _, (n2 l).1, hn1]
    obtain ⟨t, w, e4, f4, p4, c4, g4, k4, hrun⟩ := ih n (s := s3) (by simp at hn; omega)
      (by unfold fullTable; rw [p3.voiceTable]; exact hf) hc3 (p3.linked h3) (fun k hk => p3.ready (hv k (by simp [hk]))) f3
    refine ⟨t, w, ?_, f4, p3.trans p4, c4, ?_, fun k hk => ?_, ?_⟩
    · have hrow : visits (h :: r) u = visits r v := by rw [visits, ev]
      rw [hrow, e4]
    · rw [if_neg (by simp), g4]
      split
      · rename_i hr0
        subst hr0
        rw [show nvl s3 l = nvl s2 l from nvl_setCvl _ _ _ _, (n2 l).1, hn1]
        exact congrArg _ h3
      · rfl
    · rw [(k4 k hk).1, (k4 k hk).2, show cvl s3 k = cvl s2 k from cvl_setCvl_other _ hk _, (n2 k).2,
        show nvl s3 k = nvl s2 k from nvl_setCvl _ _ _ _, (n2 k).1]
      exact ⟨cvl_setNvl _ _ _ _, nvl_setNvl_other _ hk _⟩
    · have hh : argHandle (cvl s l) = h := by rw [hc, argHandle_handleWord]
      rw [List.length_cons, Nat.add_sub_add_right, ← hrun]
      rw [listLoop, bind_reads_run, hh, if_neg h2, bind_ok (readV_ok hr.1 _), bind_update_run, bind_ok e2]
      rfl

/-- A pass over ready voices stands where their rows stand, at the handle the last link names (44_voice_walker_mixer
R351). -/
theorem listPass_visits (l : VoiceList) {last : Handle} (voices : List Handle) {s u : State} {mix : Store 32}
    (hn : voices.length ≤ s.cfg.numVoices) (hf : fullTable s .voice)
    (hl : LinkedTo s (argHandle (tvl s l)) last voices) (hv : ∀ k ∈ voices, VoiceReady s k) (hu : Follows s u mix) :
    ∃ t v n, visits voices u = .next v ∧ Follows t v v.sub.mix ∧ PassKeeps s t ∧ cvl t l = handleWord last ∧
      nvl t l = (if voices = [] then nvl s l else handleWord last) ∧ (∀ k, k ≠ l → cvl t k = cvl s k ∧ nvl t k = nvl s k) ∧
      listPass l mix s = listLoop l (n + 1) v.sub.mix t := by
  let s0 := s.setCvl l (handleWord (argHandle (tvl s l)))
  have p0 : PassKeeps s s0 := PassKeeps.setCvl _ _ _
  obtain ⟨t, v, h1, h2, h3, h4, h5, h6, h7⟩ := listLoop_visits l voices (s.cfg.numVoices + 1) (s := s0) (by omega)
    (by unfold fullTable; rw [p0.voiceTable]; exact hf) (cvl_setCvl _ _ _) (p0.linked hl) (fun k hk => p0.ready (hv k hk))
    (hu.setCvl l _)
  refine ⟨t, v, s.cfg.numVoices - voices.length, h1, h2, p0.trans h3, h4, ?_, fun k hk => ?_, ?_⟩
  · rw [h5, show nvl s0 l = nvl s l from nvl_setCvl _ _ _ _]
  · rw [(h6 k hk).1, (h6 k hk).2]
    exact ⟨cvl_setCvl_other _ hk _, nvl_setCvl _ _ _ _⟩
  · rw [show s.cfg.numVoices - voices.length + 1 = s.cfg.numVoices + 1 - voices.length by omega, ← h7, listPass,
      bind_update_run, bind_reads_run, show (s.setCvl l (handleWord (argHandle (tvl s l)))).cfg = s.cfg from p0.cfg]

/-- At the terminator the pass ends (44_voice_walker_mixer R352). -/
theorem listLoop_end {l : VoiceList} {t : State} (hc : cvl t l = handleWord Config.handleNil) (n : Nat) (mix : Store 32) :
    listLoop l (n + 1) mix t = .ok mix t := by
  rw [listLoop, bind_reads_run, if_pos (by rw [hc, argHandle_handleWord])]
  rfl

/-- At a handle outside the table the pass stops, with nothing more written (44_voice_walker_mixer R358). -/
theorem listLoop_bad {l : VoiceList} {t : State} {h : Handle} (hc : cvl t l = handleWord h) (hh : h ≠ Config.handleNil)
    (hb : t.cfg.numVoices ≤ h.toNat) (n : Nat) (mix : Store 32) :
    listLoop l (n + 1) mix t = .error .voiceBadHandle t := by
  rw [listLoop, bind_reads_run, hc, argHandle_handleWord, if_neg hh, bind_error (readV_bad hb _)]

/-- At a voice whose visit takes a fatal the pass stops, with its link in the list's next register
(44_voice_walker_mixer R380). -/
theorem listLoop_fatal {l : VoiceList} {t u : State} {h : Handle} {mix : Store 32} {code : FatalCode}
    (hc : cvl t l = handleWord h) (hh : h ≠ Config.handleNil) (hb : h.toNat < t.cfg.numVoices) (n : Nat)
    (e : visit h mix (t.setNvl l (BitVec.ofNat 32 (voiceField t h vLink))) = .error code u) :
    listLoop l (n + 1) mix t = .error code u := by
  rw [listLoop, bind_reads_run, hc, argHandle_handleWord, if_neg hh, bind_ok (readV_ok hb _), bind_update_run, bind_error e]

/-- A row that takes a fatal is a visit that raises it, after the same writes; no cell and no engine changes. -/
theorem Follows.visit_fatal {s u w : State} {mix : Store 32} (h : Follows s u mix) {k : Handle} {code : FatalCode}
    (hk : k.toNat < s.cfg.numVoices) (e : exec (visitRow u k) u = .next w) (hw : w.halt = .halted code) :
    Machine.visit k mix s = .error code (w.asWalked s) ∧ w.dspGp = s.dspGp ∧ w.dspEp = s.dspEp := by
  have hc : s.cfg = u.cfg := by
    rw [h.same]
    rfl
  have hgp : s.dspGp = u.dspGp := by
    rw [h.same]
    rfl
  have hep : s.dspEp = u.dspEp := by
    rw [h.same]
    rfl
  have hrow := exec_visitRow h.running (h := k) (hc ▸ hk)
  rw [hgp, hep, h.bins, h.same, (Blind.visit k u.sub.mix).walked s u]
  rw [e] at hrow
  cases e2 : Machine.visit k u.sub.mix u with
  | ok o x =>
    rw [e2] at hrow
    cases hrow
    have hx : x.halt = u.halt := (congrArg State.halt (Blind.keeps (Blind.visit k u.sub.mix) e2) :)
    rw [show (State.setSub x { x.sub with mix := o }).halt = x.halt from rfl, hx, h.running] at hw
    cases hw
  | error c x =>
    rw [e2] at hrow
    have hx := Blind.keeps_error (Blind.visit k u.sub.mix) e2
    cases hrow
    cases hw
    exact ⟨rfl, (congrArg State.dspGp hx :), (congrArg State.dspEp hx :)⟩

end Sys2Proof.Machine
end

