-- ==== Sys2Proof/Laws/Lanes.lean ====
section
/-! SUPPORT. The visit of an active voice by its rows (44_voice_walker_mixer R353 to R357): the two envelope rows lead to the
state its frame begins in, and the frame is its fetched lanes, one after the other, then the end it meets. -/

namespace Sys2Proof.Machine

/-! ## The envelope rows -/

/-- The row of an envelope's state does the step, and keeps its level (42_envelope R281; log 2). -/
theorem exec_envRow {s t : State} {h : Handle} {e : Env} {level : Nat} (hr : s.halt = .running)
    (hh : h.toNat < s.cfg.numVoices) (hs : voiceField s h (vState e) < 7) (he : envStep h e s = .ok level t) :
    exec (envRow s h e) s = .next (t.setSub { t.sub with level := level }) := by
  have key : ∀ m : Op Nat, m s = envStep h e s →
      runOp (envAlone m) s = .next (t.setSub { t.sub with level := level }) := fun m hm =>
    runOp_ok (a := ()) hr (envAlone_ok (hm.trans he))
  rw [envStep, bind_ok (readV_ok hh _)] at key
  unfold envRow
  revert key
  generalize voiceField s h (vState e) = k at hs
  intro key
  match k, hs with
  | 0, _ => exact key _ rfl
  | 1, _ => exact key _ rfl
  | 2, _ => exact key _ rfl
  | 3, _ => exact key _ rfl
  | 4, _ => exact key _ rfl
  | 5, _ => exact key _ rfl
  | 6, _ => exact key _ rfl

/-- An envelope in a state without a step (42_envelope R294, R295). -/
theorem envStep_bad {s : State} {h : Handle} (hh : h.toNat < s.cfg.numVoices) (e : Env) :
    (voiceField s h (vState e) = 7 → envStep h e s = .error .envForceRelease s) ∧
    (7 < voiceField s h (vState e) → envStep h e s = .error .envBadState s) := by
  have fatal : ∀ code, envFatal code h s = .error code s := fun code => by
    rw [envFatal, bind_ok (checkHandle_ok hh)]
    rfl
  rw [envStep, bind_ok (readV_ok hh _)]
  refine ⟨fun e7 => by rw [e7]; exact fatal _, fun h8 => ?_⟩
  have lt : voiceField s h (vState e) < 16 := by
    have := voiceField_lt s h (vState e)
    cases e <;> exact this
  generalize voiceField s h (vState e) = k at h8 lt
  interval_cases k <;> exact fatal _

/-- A step on other kept values is the same step. -/
theorem envStep_setSub {s t : State} {h : Handle} {e : Env} {level : Nat} (he : envStep h e s = .ok level t) (b : SubOp) :
    envStep h e (s.setSub b) = .ok level (t.setSub b) := by
  have ht : t = t.worn s := Blind.keeps (Blind.envStep h e) he
  have hb : envStep h e (s.worn (s.setSub b)) = .ok level (t.worn (s.setSub b)) := by
    have := Blind.envStep h e (s.setSub b) s
    rw [he] at this
    exact this
  rw [show s.worn (s.setSub b) = s.setSub b from rfl] at hb
  rw [hb, ht]
  rfl

/-- The two envelope rows of a visit: they lead to the states of the visit's own steps, with kept values of their own
(44_voice_walker_mixer R355). -/
theorem envRows_ok {s : State} {h : Handle} (hr : s.halt = .running) (hh : h.toNat < s.cfg.numVoices)
    (hs : steppable s h) : ∃ t w b d,
    envStep h .a s = .ok (voiceField w h (vLevel .a)) t ∧ envStep h .f t = .ok (voiceField w h (vLevel .f)) w ∧
    Visited s t ∧ Visited s w ∧ voiceField w h vCbo = voiceField s h vCbo ∧
    exec (envRow s h .a) s = .next (t.setSub b) ∧ exec (envRow s h .f) (t.setSub b) = .next (w.setSub d) := by
  obtain ⟨t, w, e1, e2, v1, vw, cw, st⟩ := envSteps_ok hh hs
  have hht : h.toNat < t.cfg.numVoices := by
    rw [onlyMem_cfg v1.only]
    exact hh
  obtain ⟨b, first⟩ : ∃ b, exec (envRow s h .a) s = .next (t.setSub b) := ⟨_, exec_envRow hr hh hs.1 e1⟩
  have same : envRow s h .f = envRow (t.setSub b) h .f := by
    unfold envRow
    exact congrArg (fun k => decodeEnv h .f (BitVec.ofNat 4 k)) st.symm
  refine ⟨t, w, b, { b with level := voiceField w h (vLevel .f) }, e1, e2, v1, vw, cw, first, ?_⟩
  rw [same]
  exact exec_envRow (s := t.setSub b) ((onlyMem_halt v1.only).trans hr) hht (v1.steps h .f hs.2) (envStep_setSub e2 b)

/-! ## The fetch row -/

/-- The fetch row of a position, in a state that a visit has led to (43_sample_fetch_decode R319, R333; log 2). -/
theorem exec_fetchRow {s w : State} {h : Handle} {q : Nat} (hr : w.halt = .running) (hh : h.toNat < s.cfg.numVoices)
    (hv : Visited s w) (hq : q < 2 ^ 32) (b : SubOp) :
    exec (fetchRow s h q) (w.setSub b) =
      match fetchFrame w (sampleKind (voiceField s h vContainerSize) (voiceField s h vSampleSize)) (voiceField s h vBa)
        (channels (voiceField s h vStereo = 1)) q with
      | .ok frame => .next (w.setSub { b with frame := frame })
      | .error code => .next (takeFatal code (w.setSub b)) := by
  have hr1 : (w.setSub b).halt = .running := hr
  have hc : h.toNat < (w.setSub b).cfg.numVoices := by
    rw [← onlyMem_cfg hv.only] at hh
    exact hh
  have hf : ∀ k, fetchFrame (w.setSub b) k (voiceField (w.setSub b) h vBa)
      (channels (voiceField (w.setSub b) h vStereo = 1)) (BitVec.ofNat 32 q).toNat =
      fetchFrame w k (voiceField s h vBa) (channels (voiceField s h vStereo = 1)) q := fun k => by
    rw [show voiceField (w.setSub b) h vBa = voiceField w h vBa from rfl,
      show voiceField (w.setSub b) h vStereo = voiceField w h vStereo from rfl, hv.steady h vBa (by decide),
      hv.steady h vStereo (by decide), BitVec.toNat_ofNat, Nat.mod_eq_of_lt hq]
    exact fetchFrame_congr (s := w) (u := w.setSub b) rfl rfl rfl _ _ _ _
  unfold fetchRow
  rw [exec_decodeFmt]
  show runOp (fetchAlone (sampleKind (voiceField s h vContainerSize) (voiceField s h vSampleSize)) h _) _ = _
  generalize sampleKind (voiceField s h vContainerSize) (voiceField s h vSampleSize) = k
  cases e : fetchFrame w k (voiceField s h vBa) (channels (voiceField s h vStereo = 1)) q with
  | ok frame =>
    refine runOp_ok (a := ()) hr1 ?_
    rw [fetchAlone, bind_ok (checkHandle_ok hc)]
    exact bind_ok (readsOrRaise_ok ((hf k).trans e))
  | error code =>
    refine runOp_error hr1 ?_
    rw [fetchAlone, bind_ok (checkHandle_ok hc)]
    exact bind_error (readsOrRaise_error ((hf k).trans e))

/-- A resolved position is a record's offset. -/
theorem Resolves.lt {s : State} {h : Handle} {p q : Nat} (hq : Resolves s h p q) : q < 2 ^ 32 := by
  have he : voiceField s h vEbo < 2 ^ 24 := voiceField_lt s h vEbo
  rcases hq with ⟨h1, rfl⟩ | ⟨h1, -, h2, rfl⟩
  · omega
  · rw [← wrapPos_past h2 h1]
    have := (wrapPos_bounds (p := p) h2).2
    omega

/-! ## The lanes -/

/-- Lane `k` of a voice's frame at filter level `lf` is fetched in `s` as `frame` (44_voice_walker_mixer R357). -/
def LaneFetched (s : State) (v : VoiceCfg) (lf k : Nat) (frame : List Int) : Prop :=
  ∃ q, resolvePos v.loop v.lbo v.ebo (v.cbo + stepOffset v.pitch v.pitchScale lf k) = .ok (some q) ∧
    fetchFrame s (sampleKind v.container v.sampleSize) v.ba (channels v.stereo) q = .ok frame

/-- The first `m` lanes, where they are fetched: the rest runs on the bins they leave (44_voice_walker_mixer R357). -/
theorem voiceLanes_fetched {s : State} {h : Handle} {v : VoiceCfg} (sl : List Slot) (la lf : Nat) {frame : Nat → List Int}
    (m r i : Nat) (mix : Store 32) (hi : i + m ≤ 32) (hk : ∀ k, i ≤ k → k < i + m → LaneFetched s v lf k (frame k)) :
    ∃ out, voiceLanes h v sl la lf (m + r) i mix s = voiceLanes h v sl la lf r (i + m) out s ∧
      ∀ b k, k < 32 → out.get (b * 32 + k) = if i ≤ k ∧ k < i + m then
        slotsBin s.cfg.mixOverflow (frame k) (channels v.stereo) la b sl 0 (mix.get (b * 32 + k))
        else mix.get (b * 32 + k) := by
  induction m generalizing i mix with
  | zero =>
    refine ⟨mix, by rw [Nat.zero_add, Nat.add_zero], fun b k _ => ?_⟩
    rw [if_neg (by omega)]
  | succ m ih =>
    obtain ⟨q, hq, hf⟩ := hk i (by omega) (by omega)
    obtain ⟨out, ho, hg⟩ := ih (i + 1) (mixSlots s.cfg.mixOverflow (frame i) (channels v.stereo) la i sl 0 mix) (by omega)
      fun k h1 h2 => hk k (by omega) (by omega)
    refine ⟨out, ?_, fun b k hk32 => ?_⟩
    · rw [show i + (m + 1) = i + 1 + m by omega, ← ho, show m + 1 + r = (m + r) + 1 by omega, voiceLanes,
        bind_ok (readsOrRaise_ok (f := fun _ => _) hq)]
      exact bind_ok (readsOrRaise_ok (f := fun s => fetchFrame s (sampleKind v.container v.sampleSize) v.ba
        (channels v.stereo) q) hf)
    · rw [hg b k hk32, mixSlots_get _ _ _ _ _ (by omega) hk32]
      by_cases e : k = i
      · subst e
        rw [if_neg (by omega), if_pos rfl, if_pos (by omega)]
      · rw [if_neg e]
        by_cases h1 : i + 1 ≤ k ∧ k < i + 1 + m
        · rw [if_pos h1, if_pos (by omega)]
        · rw [if_neg h1, if_neg (by omega)]

theorem updateCbo_ok {h : Handle} {v : VoiceCfg} {lf new : Nat}
    (e : endCbo v.loop v.lbo v.ebo (v.cbo + stepOffset v.pitch v.pitchScale lf 32) = .ok new) (s : State) :
    updateCbo h v lf s = .ok () (s.setVoiceField h vCbo new) :=
  bind_ok (readsOrRaise_ok (f := fun _ => _) e)

theorem updateCbo_error {h : Handle} {v : VoiceCfg} {lf : Nat} {code : FatalCode}
    (e : endCbo v.loop v.lbo v.ebo (v.cbo + stepOffset v.pitch v.pitchScale lf 32) = .error code) (s : State) :
    updateCbo h v lf s = .error code s :=
  bind_error (readsOrRaise_error (f := fun _ => _) e)

/-- A frame whose first `n` lanes are fetched, up to what comes after them: the bins `out` that they leave, and every end
the frame can meet there (44_voice_walker_mixer R357, 43_sample_fetch_decode R313, R318, 60_exceptions R444 (a)). -/
theorem voiceFrame_fetched {s : State} {h : Handle} (la lf : Nat) (mix : Store 32) {n : Nat} {frame : Nat → List Int}
    (hn : n ≤ 32) (hk : ∀ k, k < n → LaneFetched s (voiceCfg s h) lf k (frame k)) :
    ∃ out : Store 32,
      (∀ b k, k < 32 → out.get (b * 32 + k) = if k < n then
        laneBin s h la (frame k) (channels (voiceCfg s h).stereo) b (mix.get (b * 32 + k)) else mix.get (b * 32 + k)) ∧
      (∀ new, endCbo (voiceCfg s h).loop (voiceCfg s h).lbo (voiceCfg s h).ebo (framePosition s h lf 32) = .ok new →
        (n = 32 → voiceFrame h la lf mix s = .ok out (s.setVoiceField h vCbo new)) ∧
        (n < 32 → resolvePos (voiceCfg s h).loop (voiceCfg s h).lbo (voiceCfg s h).ebo (framePosition s h lf n) = .ok none →
          voiceFrame h la lf mix s = .ok out ((s.setVoiceField h vActive 0).setVoiceField h vCbo new))) ∧
      (∀ code, n = 32 → endCbo (voiceCfg s h).loop (voiceCfg s h).lbo (voiceCfg s h).ebo (framePosition s h lf 32) =
        .error code → voiceFrame h la lf mix s = .error code s) ∧
      (∀ code, n < 32 → resolvePos (voiceCfg s h).loop (voiceCfg s h).lbo (voiceCfg s h).ebo (framePosition s h lf n) =
        .error code → voiceFrame h la lf mix s = .error code s) ∧
      (∀ q code, n < 32 → resolvePos (voiceCfg s h).loop (voiceCfg s h).lbo (voiceCfg s h).ebo (framePosition s h lf n) =
        .ok (some q) → fetchFrame s (sampleKind (voiceCfg s h).container (voiceCfg s h).sampleSize) (voiceCfg s h).ba
          (channels (voiceCfg s h).stereo) q = .error code → voiceFrame h la lf mix s = .error code s) := by
  obtain ⟨out, ho, hg⟩ := voiceLanes_fetched (h := h) (slots s h) la lf n (32 - n) 0 mix (by omega)
    fun k _ h2 => hk k (by omega)
  rw [show n + (32 - n) = Config.frameSamples by rw [Nat.add_sub_cancel' hn]; rfl, Nat.zero_add] at ho
  have run : ∀ {a : Store 32} {t : State}, voiceLanes h (voiceCfg s h) (slots s h) la lf (32 - n) n out s = .ok a t →
      voiceFrame h la lf mix s = (updateCbo h (voiceCfg s h) lf >>= fun _ => pure a) t := fun e => by
    rw [voiceFrame, bind_reads_run, bind_reads_run, bind_ok (ho.trans e)]
  have fail : ∀ {code : FatalCode} {t : State},
      voiceLanes h (voiceCfg s h) (slots s h) la lf (32 - n) n out s = .error code t →
      voiceFrame h la lf mix s = .error code t := fun e => by
    rw [voiceFrame, bind_reads_run, bind_reads_run, bind_error (ho.trans e)]
  have cbo : ∀ {new : Nat} (t : State) (a : Store 32),
      endCbo (voiceCfg s h).loop (voiceCfg s h).lbo (voiceCfg s h).ebo (framePosition s h lf 32) = .ok new →
      (updateCbo h (voiceCfg s h) lf >>= fun _ => pure a) t = .ok a (t.setVoiceField h vCbo new) := fun t a e => by
    rw [bind_ok (updateCbo_ok e t)]
    rfl
  have last : n = 32 → voiceLanes h (voiceCfg s h) (slots s h) la lf (32 - n) n out s = .ok out s := fun e => by
    rw [e]
    rfl
  have pos : ∀ k, framePosition s h lf k =
      (voiceCfg s h).cbo + stepOffset (voiceCfg s h).pitch (voiceCfg s h).pitchScale lf k := fun _ => rfl
  have next : n < 32 → ∃ m, 32 - n = m + 1 := fun _ => ⟨31 - n, by omega⟩
  refine ⟨out, fun b k h1 => ?_, fun new he => ⟨fun h32 => ?_, fun hlt hp => ?_⟩, fun code h32 he => ?_,
    fun code hlt hp => ?_, fun q code hlt hp hf => ?_⟩
  · rw [hg b k h1]
    simp only [Nat.zero_le, true_and, Nat.zero_add]
    rfl
  · rw [run (last h32), cbo s out he]
  · obtain ⟨m, hm⟩ := next hlt
    rw [pos] at hp
    refine (run (a := out) (t := s.setVoiceField h vActive 0) ?_).trans (cbo _ out he)
    rw [hm, voiceLanes, bind_ok (readsOrRaise_ok (f := fun _ => _) hp)]
    rfl
  · rw [run (last h32), bind_error (updateCbo_error he s)]
  · obtain ⟨m, hm⟩ := next hlt
    rw [pos] at hp
    refine fail ?_
    rw [hm, voiceLanes]
    exact bind_error (readsOrRaise_error (f := fun _ => _) hp)
  · obtain ⟨m, hm⟩ := next hlt
    rw [pos] at hp
    refine fail ?_
    rw [hm, voiceLanes, bind_ok (readsOrRaise_ok (f := fun _ => _) hp)]
    exact bind_error (readsOrRaise_error (f := fun s => fetchFrame s (sampleKind (voiceCfg _ h).container
      (voiceCfg _ h).sampleSize) (voiceCfg _ h).ba (channels (voiceCfg _ h).stereo) q) hf)

/-- Lanes fetched by their rows are fetched by the frame. -/
theorem laneFetched_of {s w : State} {h : Handle} {n k : Nat} {b : SubOp} {frame : Nat → List Int}
    (hr : w.halt = .running) (hh : h.toNat < s.cfg.numVoices) (hv : Visited s w)
    (hc : voiceField w h vCbo = voiceField s h vCbo) (hl : LanesFetched s (w.setSub b) h n frame) (hk : k < n) :
    LaneFetched w (voiceCfg w h) (voiceField w h (vLevel .f)) k (frame k) := by
  obtain ⟨q, v, hq, he, hrun, hf⟩ := hl.2 k hk
  rw [(hv.frame h hc).1]
  rw [exec_fetchRow hr hh hv hq.lt] at he
  refine ⟨q, resolvePos_iff.mpr hq, ?_⟩
  split at he
  · rename_i fr hfr
    cases he
    exact hfr.trans (congrArg Except.ok hf)
  · cases he
    cases hrun

/-! ## What the visit leaves -/

/-- A visit's own steps change no kept value. -/
theorem Visited.keeps_sub {s w : State} (hv : Visited s w) (b : SubOp) : { w.setSub b with sub := s.sub } = w := by
  rw [onlyMem_eq hv.only]
  rfl

/-- The end-of-frame position, as the frame computes it (43_sample_fetch_decode R318). -/
theorem endCbo_newCbo {s w : State} {h : Handle} {q : Nat} (hq : NewCbo s w h q) :
    endCbo (voiceCfg s h).loop (voiceCfg s h).lbo (voiceCfg s h).ebo
      (framePosition s h (voiceField w h (vLevel .f)) 32) = .ok q := by
  have hloop : (voiceCfg s h).loop = decide (voiceField s h vLoop = 1) := rfl
  unfold NewCbo at hq
  unfold endCbo
  split at hq
  · rename_i l0
    rw [if_neg (by simp [hloop, l0]), hq]
  · rename_i l0
    have l1 : voiceField s h vLoop = 1 := by
      have := voiceField_bit s h vLoop rfl
      omega
    rcases hq with ⟨h1, rfl⟩ | ⟨h1, -, h3, rfl⟩
    · exact if_neg fun h2 => Nat.not_le.mpr h2.2 h1
    · rw [if_pos ⟨by simp [hloop, l1], h1⟩, ← wrapPos_past h3 h1]
      exact loopPos_ok h3

/-- The memory after the frame's end: `active` cleared if a lane was missing, then `cbo` written
(43_sample_fetch_decode R313, R318). -/
def frameMemory (w : State) (h : Handle) (n q : Nat) : State :=
  (if n = 32 then w else w.setVoiceField h vActive 0).setVoiceField h vCbo q

theorem visited_frameMemory (w : State) (h : Handle) (n q : Nat) : Visited w (frameMemory w h n q) := by
  unfold frameMemory
  split
  · exact visited_cbo w h q
  · exact (visited_stop w h).trans (visited_cbo _ h q)

/-- The frame's end, field by field. -/
theorem frameMemory_fields (w : State) (h : Handle) {n : Nat} (hn : n ≤ 32) (q : Nat) :
    voiceField (frameMemory w h n q) h vCbo = q % 2 ^ 24 ∧
    voiceField (frameMemory w h n q) h vActive = (if n = 32 then voiceField w h vActive else 0) ∧
    (∀ g : VField, vCbo.apart g → vActive.apart g → voiceField (frameMemory w h n q) h g = voiceField w h g) ∧
    ∀ a, outsideWord w h 0x58 a → (n < 32 → outsideWord w h 0x54 a) →
      memByte (frameMemory w h n q).mem a = memByte w.mem a := by
  have apart : ∀ v : State, ∀ g, vCbo.apart g → voiceField (v.setVoiceField h vCbo q) h g = voiceField v h g :=
    fun v g hg => voiceField_setVoiceField_apart _ _ _ _ _ hg
  have bytes : ∀ v : State, w.OnlyMem v → ∀ a, outsideWord w h 0x58 a →
      memByte (v.setVoiceField h vCbo q).mem a = memByte v.mem a := fun v hv a ha => by
    refine memByte_setVoiceField _ _ _ _ _ ?_
    rw [onlyMem_voiceWordAddr hv]
    exact ha
  unfold frameMemory
  refine ⟨voiceField_setVoiceField_same _ _ _ _ (by decide), ?_⟩
  split
  · exact ⟨apart w _ (by decide), fun g h1 _ => apart w g h1, fun a h1 _ => bytes w rfl a h1⟩
  · refine ⟨(apart _ _ (by decide)).trans (voiceField_setVoiceField_same _ _ _ _ (by decide)), fun g h1 h2 =>
      (apart _ g h1).trans (voiceField_setVoiceField_apart _ _ _ _ _ h2), fun a h1 h2 =>
      (bytes _ (visited_stop w h).only a h1).trans (memByte_setVoiceField _ _ _ _ _ (h2 (by omega)))⟩

/-- A frame of `n` lanes that left the bins `out` and wrote its end has ended as the rules say. -/
theorem frameEnded_of {s w : State} {h : Handle} {n q : Nat} {frame : Nat → List Int} {out : Store 32} (d : SubOp)
    (hv : Visited s w) (hn : n ≤ 32)
    (hg : ∀ b k, k < 32 → out.get (b * 32 + k) = if k < n then
      laneBin s h (voiceField w h (vLevel .a)) (frame k) (channels (voiceCfg s h).stereo) b (s.sub.mix.get (b * 32 + k))
      else s.sub.mix.get (b * 32 + k)) :
    FrameEnded s (w.setSub d) ((frameMemory w h n q).setSub { s.sub with mix := out }) h n q frame := by
  obtain ⟨f1, f2, f3, f4⟩ := frameMemory_fields w h hn q
  have only := (hv.trans (visited_frameMemory w h n q)).only
  generalize frameMemory w h n q = t at *
  refine ⟨?_, rfl, f1, f2, f3, fun a h1 h2 => f4 a ?_ fun hlt => ?_, fun b k _ hk => (hg b k hk).trans ?_⟩
  · rw [onlyMem_eq only]
    rfl
  · unfold outsideWord at h1 ⊢
    rw [onlyMem_voiceWordAddr hv.only]
    exact h1
  · have := h2 hlt
    unfold outsideWord at this ⊢
    rw [onlyMem_voiceWordAddr hv.only]
    exact this
  · rw [show channels (voiceCfg s h).stereo = if voiceField s h vStereo = 1 then 2 else 1 by
      simp [channels, voiceCfg]]
    rfl

end Sys2Proof.Machine
end

