-- ==== Sys2Proof/Laws/PerInstr.lean ====
section
/-! SUPPORT. Laws stated for every instruction, one lemma per constructor. -/

namespace Sys2Proof.Laws

/-- An encoded register operation is an aligned access of 32 bits (40_mmio_registers R181). -/
def EncodeAligned.Statement (i : Instr) : Prop :=
  match encode i with
  | .mmio o width _ => width = .word ∧ o.toNat % 4 = 0
  | _ => True

/-- A window cell's offset is aligned where the window's base is. -/
theorem windowOffset_aligned {n : Nat} (base : Nat) (idx : BitVec n) (h : base % 4 = 0) :
    (windowOffset base idx).toNat % 4 = 0 := by
  simp only [windowOffset, BitVec.toNat_ofNat]
  omega

theorem EncodeAligned.mmioIsts (a : Access) : EncodeAligned.Statement (.mmioIsts a) := ⟨rfl, rfl⟩

theorem EncodeAligned.mmioIen (a : Access) : EncodeAligned.Statement (.mmioIen a) := ⟨rfl, rfl⟩

theorem EncodeAligned.mmioFectl (a : Access) : EncodeAligned.Statement (.mmioFectl a) := ⟨rfl, rfl⟩

theorem EncodeAligned.mmioFecv (a : Access) : EncodeAligned.Statement (.mmioFecv a) := ⟨rfl, rfl⟩

theorem EncodeAligned.mmioFeav (a : Access) : EncodeAligned.Statement (.mmioFeav a) := ⟨rfl, rfl⟩

theorem EncodeAligned.mmioFetforce1 (a : Access) : EncodeAligned.Statement (.mmioFetforce1 a) := ⟨rfl, rfl⟩

theorem EncodeAligned.mmioSectl (a : Access) : EncodeAligned.Statement (.mmioSectl a) := ⟨rfl, rfl⟩

theorem EncodeAligned.mmioVpvaddr (a : Access) : EncodeAligned.Statement (.mmioVpvaddr a) := ⟨rfl, rfl⟩

theorem EncodeAligned.mmioVpsgeaddr (a : Access) : EncodeAligned.Statement (.mmioVpsgeaddr a) := ⟨rfl, rfl⟩

theorem EncodeAligned.mmioGpsaddr (a : Access) : EncodeAligned.Statement (.mmioGpsaddr a) := ⟨rfl, rfl⟩

theorem EncodeAligned.mmioGpfaddr (a : Access) : EncodeAligned.Statement (.mmioGpfaddr a) := ⟨rfl, rfl⟩

theorem EncodeAligned.mmioEpsaddr (a : Access) : EncodeAligned.Statement (.mmioEpsaddr a) := ⟨rfl, rfl⟩

theorem EncodeAligned.mmioEpfaddr (a : Access) : EncodeAligned.Statement (.mmioEpfaddr a) := ⟨rfl, rfl⟩

theorem EncodeAligned.mmioTvl2d (a : Access) : EncodeAligned.Statement (.mmioTvl2d a) := ⟨rfl, rfl⟩

theorem EncodeAligned.mmioCvl2d (a : Access) : EncodeAligned.Statement (.mmioCvl2d a) := ⟨rfl, rfl⟩

theorem EncodeAligned.mmioNvl2d (a : Access) : EncodeAligned.Statement (.mmioNvl2d a) := ⟨rfl, rfl⟩

theorem EncodeAligned.mmioTvl3d (a : Access) : EncodeAligned.Statement (.mmioTvl3d a) := ⟨rfl, rfl⟩

theorem EncodeAligned.mmioCvl3d (a : Access) : EncodeAligned.Statement (.mmioCvl3d a) := ⟨rfl, rfl⟩

theorem EncodeAligned.mmioNvl3d (a : Access) : EncodeAligned.Statement (.mmioNvl3d a) := ⟨rfl, rfl⟩

theorem EncodeAligned.mmioTvlmp (a : Access) : EncodeAligned.Statement (.mmioTvlmp a) := ⟨rfl, rfl⟩

theorem EncodeAligned.mmioCvlmp (a : Access) : EncodeAligned.Statement (.mmioCvlmp a) := ⟨rfl, rfl⟩

theorem EncodeAligned.mmioNvlmp (a : Access) : EncodeAligned.Statement (.mmioNvlmp a) := ⟨rfl, rfl⟩

theorem EncodeAligned.mmioGpsmaxsge (a : Access) : EncodeAligned.Statement (.mmioGpsmaxsge a) := ⟨rfl, rfl⟩

theorem EncodeAligned.mmioGpfmaxsge (a : Access) : EncodeAligned.Statement (.mmioGpfmaxsge a) := ⟨rfl, rfl⟩

theorem EncodeAligned.mmioEpsmaxsge (a : Access) : EncodeAligned.Statement (.mmioEpsmaxsge a) := ⟨rfl, rfl⟩

theorem EncodeAligned.mmioEpfmaxsge (a : Access) : EncodeAligned.Statement (.mmioEpfmaxsge a) := ⟨rfl, rfl⟩

theorem EncodeAligned.mmioGprst (a : Access) : EncodeAligned.Statement (.mmioGprst a) := ⟨rfl, rfl⟩

theorem EncodeAligned.mmioEprst (a : Access) : EncodeAligned.Statement (.mmioEprst a) := ⟨rfl, rfl⟩

theorem EncodeAligned.mmioGpX (idx : BitVec 12) (a : Access) : EncodeAligned.Statement (.mmioGpX idx a) :=
  ⟨rfl, windowOffset_aligned _ idx rfl⟩

theorem EncodeAligned.mmioGpMixbuf (idx : BitVec 10) (a : Access) : EncodeAligned.Statement (.mmioGpMixbuf idx a) :=
  ⟨rfl, windowOffset_aligned _ idx rfl⟩

theorem EncodeAligned.mmioGpY (idx : BitVec 11) (a : Access) : EncodeAligned.Statement (.mmioGpY idx a) :=
  ⟨rfl, windowOffset_aligned _ idx rfl⟩

theorem EncodeAligned.mmioGpPLower (idx : BitVec 11) (a : Access) : EncodeAligned.Statement (.mmioGpPLower idx a) :=
  ⟨rfl, windowOffset_aligned _ idx rfl⟩

theorem EncodeAligned.mmioGpPUpper (idx : BitVec 11) (a : Access) : EncodeAligned.Statement (.mmioGpPUpper idx a) :=
  ⟨rfl, windowOffset_aligned _ idx rfl⟩

theorem EncodeAligned.mmioEpX (idx : BitVec 12) (a : Access) : EncodeAligned.Statement (.mmioEpX idx a) :=
  ⟨rfl, windowOffset_aligned _ idx rfl⟩

theorem EncodeAligned.mmioEpY (idx : BitVec 11) (a : Access) : EncodeAligned.Statement (.mmioEpY idx a) :=
  ⟨rfl, windowOffset_aligned _ idx rfl⟩

theorem EncodeAligned.mmioEpPLower (idx : BitVec 11) (a : Access) : EncodeAligned.Statement (.mmioEpPLower idx a) :=
  ⟨rfl, windowOffset_aligned _ idx rfl⟩

theorem EncodeAligned.mmioEpPUpper (idx : BitVec 11) (a : Access) : EncodeAligned.Statement (.mmioEpPUpper idx a) :=
  ⟨rfl, windowOffset_aligned _ idx rfl⟩

theorem EncodeAligned.mmioCmdport (idx : BitVec 14) (a : Access) : EncodeAligned.Statement (.mmioCmdport idx a) :=
  ⟨rfl, windowOffset_aligned _ idx rfl⟩

theorem EncodeAligned.mmioUnmapped (idx : BitVec 17) (a : Access) : EncodeAligned.Statement (.mmioUnmapped idx a) :=
  ⟨rfl, windowOffset_aligned _ idx rfl⟩

theorem EncodeAligned.feSetAntecedentVoice (arg : Word) : EncodeAligned.Statement (.feSetAntecedentVoice arg) :=
  ⟨rfl, rfl⟩

theorem EncodeAligned.feVoiceOn (arg : Word) : EncodeAligned.Statement (.feVoiceOn arg) := ⟨rfl, rfl⟩

theorem EncodeAligned.feVoiceOff (arg : Word) : EncodeAligned.Statement (.feVoiceOff arg) := ⟨rfl, rfl⟩

theorem EncodeAligned.feVoicePause (arg : Word) : EncodeAligned.Statement (.feVoicePause arg) := ⟨rfl, rfl⟩

theorem EncodeAligned.feSetCurrentVoice (arg : Word) : EncodeAligned.Statement (.feSetCurrentVoice arg) := ⟨rfl, rfl⟩

theorem EncodeAligned.feSetVoiceCfgVbin (arg : Word) : EncodeAligned.Statement (.feSetVoiceCfgVbin arg) := ⟨rfl, rfl⟩

theorem EncodeAligned.feSetVoiceCfgFmt (arg : Word) : EncodeAligned.Statement (.feSetVoiceCfgFmt arg) := ⟨rfl, rfl⟩

theorem EncodeAligned.feSetVoiceCfgEnv0 (arg : Word) : EncodeAligned.Statement (.feSetVoiceCfgEnv0 arg) := ⟨rfl, rfl⟩

theorem EncodeAligned.feSetVoiceCfgEnva (arg : Word) : EncodeAligned.Statement (.feSetVoiceCfgEnva arg) := ⟨rfl, rfl⟩

theorem EncodeAligned.feSetVoiceCfgEnv1 (arg : Word) : EncodeAligned.Statement (.feSetVoiceCfgEnv1 arg) := ⟨rfl, rfl⟩

theorem EncodeAligned.feSetVoiceCfgEnvf (arg : Word) : EncodeAligned.Statement (.feSetVoiceCfgEnvf arg) := ⟨rfl, rfl⟩

theorem EncodeAligned.feSetVoiceCfgMisc (arg : Word) : EncodeAligned.Statement (.feSetVoiceCfgMisc arg) := ⟨rfl, rfl⟩

theorem EncodeAligned.feSetVoiceTarVola (arg : Word) : EncodeAligned.Statement (.feSetVoiceTarVola arg) := ⟨rfl, rfl⟩

theorem EncodeAligned.feSetVoiceTarVolb (arg : Word) : EncodeAligned.Statement (.feSetVoiceTarVolb arg) := ⟨rfl, rfl⟩

theorem EncodeAligned.feSetVoiceTarVolc (arg : Word) : EncodeAligned.Statement (.feSetVoiceTarVolc arg) := ⟨rfl, rfl⟩

theorem EncodeAligned.feSetVoiceTarLfoEnv (arg : Word) : EncodeAligned.Statement (.feSetVoiceTarLfoEnv arg) :=
  ⟨rfl, rfl⟩

theorem EncodeAligned.feSetVoiceTarPitch (arg : Word) : EncodeAligned.Statement (.feSetVoiceTarPitch arg) :=
  ⟨rfl, rfl⟩

theorem EncodeAligned.feSetVoiceCfgBufBase (arg : Word) : EncodeAligned.Statement (.feSetVoiceCfgBufBase arg) :=
  ⟨rfl, rfl⟩

theorem EncodeAligned.feSetVoiceCfgBufLbo (arg : Word) : EncodeAligned.Statement (.feSetVoiceCfgBufLbo arg) :=
  ⟨rfl, rfl⟩

theorem EncodeAligned.feSetVoiceBufCbo (arg : Word) : EncodeAligned.Statement (.feSetVoiceBufCbo arg) := ⟨rfl, rfl⟩

theorem EncodeAligned.feSetVoiceCfgBufEbo (arg : Word) : EncodeAligned.Statement (.feSetVoiceCfgBufEbo arg) :=
  ⟨rfl, rfl⟩

theorem EncodeAligned.feSetCurrentInbufSge (arg : Word) : EncodeAligned.Statement (.feSetCurrentInbufSge arg) :=
  ⟨rfl, rfl⟩

theorem EncodeAligned.feSetCurrentInbufSgeOffset (arg : Word) : EncodeAligned.Statement (.feSetCurrentInbufSgeOffset arg) :=
  ⟨rfl, rfl⟩

theorem EncodeAligned.feSetCurrentOutbufSge (arg : Word) : EncodeAligned.Statement (.feSetCurrentOutbufSge arg) :=
  ⟨rfl, rfl⟩

theorem EncodeAligned.feSetCurrentOutbufSgeOffset (arg : Word) : EncodeAligned.Statement (.feSetCurrentOutbufSgeOffset arg) :=
  ⟨rfl, rfl⟩

theorem EncodeAligned.feSe2feIdleVoice (arg : Word) : EncodeAligned.Statement (.feSe2feIdleVoice arg) := ⟨rfl, rfl⟩

theorem EncodeAligned.feUnknown (idx : BitVec 14) (arg : Word) : EncodeAligned.Statement (.feUnknown idx arg) :=
  ⟨rfl, windowOffset_aligned _ idx rfl⟩

theorem EncodeAligned.dmaConfiguration (c : Core) (a : Access) : EncodeAligned.Statement (.dmaConfiguration c a) :=
  trivial

theorem EncodeAligned.dmaControl (c : Core) (a : Access) : EncodeAligned.Statement (.dmaControl c a) := trivial

theorem EncodeAligned.dmaStartBlock (c : Core) (a : Access) : EncodeAligned.Statement (.dmaStartBlock c a) := trivial

theorem EncodeAligned.dmaNextBlock (c : Core) (a : Access) : EncodeAligned.Statement (.dmaNextBlock c a) := trivial

theorem EncodeAligned.dmaActNop (c : Core) (rest : BitVec 29) : EncodeAligned.Statement (.dmaActNop c rest) := trivial

theorem EncodeAligned.dmaActStart (c : Core) (rest : BitVec 29) : EncodeAligned.Statement (.dmaActStart c rest) :=
  trivial

theorem EncodeAligned.dmaActStop (c : Core) (rest : BitVec 29) : EncodeAligned.Statement (.dmaActStop c rest) :=
  trivial

theorem EncodeAligned.dmaActFreeze (c : Core) (rest : BitVec 29) : EncodeAligned.Statement (.dmaActFreeze c rest) :=
  trivial

theorem EncodeAligned.dmaActUnfreeze (c : Core) (rest : BitVec 29) : EncodeAligned.Statement (.dmaActUnfreeze c rest) :=
  trivial

theorem EncodeAligned.dmaActAbort (c : Core) (rest : BitVec 29) : EncodeAligned.Statement (.dmaActAbort c rest) :=
  trivial

theorem EncodeAligned.dmaActReserved6 (c : Core) (rest : BitVec 29) : EncodeAligned.Statement (.dmaActReserved6 c rest) :=
  trivial

theorem EncodeAligned.dmaActReserved7 (c : Core) (rest : BitVec 29) : EncodeAligned.Statement (.dmaActReserved7 c rest) :=
  trivial

theorem EncodeAligned.descFormat0 (c : Core) : EncodeAligned.Statement (.descFormat0 c) := trivial

theorem EncodeAligned.descFormat1 (c : Core) : EncodeAligned.Statement (.descFormat1 c) := trivial

theorem EncodeAligned.descFormat2 (c : Core) : EncodeAligned.Statement (.descFormat2 c) := trivial

theorem EncodeAligned.descFormat3 (c : Core) : EncodeAligned.Statement (.descFormat3 c) := trivial

theorem EncodeAligned.descFormat4 (c : Core) : EncodeAligned.Statement (.descFormat4 c) := trivial

theorem EncodeAligned.descFormat5 (c : Core) : EncodeAligned.Statement (.descFormat5 c) := trivial

theorem EncodeAligned.descFormat6 (c : Core) : EncodeAligned.Statement (.descFormat6 c) := trivial

theorem EncodeAligned.descFormat7 (c : Core) : EncodeAligned.Statement (.descFormat7 c) := trivial

theorem EncodeAligned.descBufCircular (c : Core) : EncodeAligned.Statement (.descBufCircular c) := trivial

theorem EncodeAligned.descBufOffset (c : Core) (bufId : BitVec 4) : EncodeAligned.Statement (.descBufOffset c bufId) :=
  trivial

theorem EncodeAligned.descDirDspToScratch (c : Core) : EncodeAligned.Statement (.descDirDspToScratch c) := trivial

theorem EncodeAligned.descDirScratchToDsp (c : Core) : EncodeAligned.Statement (.descDirScratchToDsp c) := trivial

theorem EncodeAligned.descPtrEol (c : Core) (addr : BitVec 14) : EncodeAligned.Statement (.descPtrEol c addr) :=
  trivial

theorem EncodeAligned.descPtrBlock (c : Core) (addr : BitVec 14) : EncodeAligned.Statement (.descPtrBlock c addr) :=
  trivial

theorem EncodeAligned.envOff (h : Handle) (e : Env) : EncodeAligned.Statement (.envOff h e) := trivial

theorem EncodeAligned.envDelay (h : Handle) (e : Env) : EncodeAligned.Statement (.envDelay h e) := trivial

theorem EncodeAligned.envAttack (h : Handle) (e : Env) : EncodeAligned.Statement (.envAttack h e) := trivial

theorem EncodeAligned.envHold (h : Handle) (e : Env) : EncodeAligned.Statement (.envHold h e) := trivial

theorem EncodeAligned.envDecay (h : Handle) (e : Env) : EncodeAligned.Statement (.envDecay h e) := trivial

theorem EncodeAligned.envSustain (h : Handle) (e : Env) : EncodeAligned.Statement (.envSustain h e) := trivial

theorem EncodeAligned.envRelease (h : Handle) (e : Env) : EncodeAligned.Statement (.envRelease h e) := trivial

theorem EncodeAligned.envForceRelease (h : Handle) (e : Env) : EncodeAligned.Statement (.envForceRelease h e) :=
  trivial

theorem EncodeAligned.envBadState (h : Handle) (e : Env) (low : BitVec 3) : EncodeAligned.Statement (.envBadState h e low) :=
  trivial

theorem EncodeAligned.fmtPcmB8U8 (h : Handle) (p : Word) : EncodeAligned.Statement (.fmtPcmB8U8 h p) := trivial

theorem EncodeAligned.fmtPcmB16U8 (h : Handle) (p : Word) : EncodeAligned.Statement (.fmtPcmB16U8 h p) := trivial

theorem EncodeAligned.fmtPcmB16S16 (h : Handle) (p : Word) : EncodeAligned.Statement (.fmtPcmB16S16 h p) := trivial

theorem EncodeAligned.fmtPcmB32U8 (h : Handle) (p : Word) : EncodeAligned.Statement (.fmtPcmB32U8 h p) := trivial

theorem EncodeAligned.fmtPcmB32S16 (h : Handle) (p : Word) : EncodeAligned.Statement (.fmtPcmB32S16 h p) := trivial

theorem EncodeAligned.fmtPcmB32S24 (h : Handle) (p : Word) : EncodeAligned.Statement (.fmtPcmB32S24 h p) := trivial

theorem EncodeAligned.fmtPcmB32S32 (h : Handle) (p : Word) : EncodeAligned.Statement (.fmtPcmB32S32 h p) := trivial

theorem EncodeAligned.fmtAdpcm (h : Handle) (p : Word) (ss : BitVec 2) : EncodeAligned.Statement (.fmtAdpcm h p ss) :=
  trivial

theorem EncodeAligned.fmtIllegalB8S16 (h : Handle) (p : Word) : EncodeAligned.Statement (.fmtIllegalB8S16 h p) :=
  trivial

theorem EncodeAligned.fmtIllegalB8S24 (h : Handle) (p : Word) : EncodeAligned.Statement (.fmtIllegalB8S24 h p) :=
  trivial

theorem EncodeAligned.fmtIllegalB8S32 (h : Handle) (p : Word) : EncodeAligned.Statement (.fmtIllegalB8S32 h p) :=
  trivial

theorem EncodeAligned.fmtIllegalB16S24 (h : Handle) (p : Word) : EncodeAligned.Statement (.fmtIllegalB16S24 h p) :=
  trivial

theorem EncodeAligned.fmtIllegalB16S32 (h : Handle) (p : Word) : EncodeAligned.Statement (.fmtIllegalB16S32 h p) :=
  trivial

theorem EncodeAligned.fmtStereo (h : Handle) (i : BitVec 5) : EncodeAligned.Statement (.fmtStereo h i) := trivial

theorem EncodeAligned.fmtMono (h : Handle) (i : BitVec 5) : EncodeAligned.Statement (.fmtMono h i) := trivial

theorem EncodeAligned.fmtLoop (h : Handle) (p : Word) : EncodeAligned.Statement (.fmtLoop h p) := trivial

theorem EncodeAligned.fmtOneshot (h : Handle) (p : Word) : EncodeAligned.Statement (.fmtOneshot h p) := trivial

theorem EncodeAligned.voiceActive (h : Handle) : EncodeAligned.Statement (.voiceActive h) := trivial

theorem EncodeAligned.voiceIdle (h : Handle) : EncodeAligned.Statement (.voiceIdle h) := trivial

theorem EncodeAligned.voicePaused (h : Handle) : EncodeAligned.Statement (.voicePaused h) := trivial

theorem EncodeAligned.tick : EncodeAligned.Statement .tick := trivial

theorem EncodeAligned.sgTranslate (t : SgTable) (lin : Word) : EncodeAligned.Statement (.sgTranslate t lin) := trivial

end Sys2Proof.Laws
end

