-- ==== Sys2Proof/Laws/Tick.lean ====
section
/-! SUPPORT. The mix-buffer write and a list pass of the frame tick (44_voice_walker_mixer R351, R372). -/

namespace Sys2Proof.Machine

/-- The first `n` cells of the mix-buffer write: each takes its bin's value, and nothing else changes. -/
theorem mixWrite_prefix (mix : Store 32) (s : State) (n : Nat) :
    let t := (List.range n).foldl (fun t k => t.dspWrite .gp .x (t.cfg.mixbufBase + k) (mix.get k)) s
    t.cfg = s.cfg ∧ { t with dspGp := s.dspGp } = s ∧ t.dspGp.y = s.dspGp.y ∧ t.dspGp.p = s.dspGp.p ∧
    ∀ j, dspRead t .gp .x j = if s.cfg.mixbufBase ≤ j ∧ j < s.cfg.mixbufBase + n then
      cellValue s.cfg.cellBits (mix.get (j - s.cfg.mixbufBase)) else dspRead s .gp .x j := by
  induction n with
  | zero =>
    refine ⟨rfl, rfl, rfl, rfl, fun j => ?_⟩
    rw [if_neg (by omega)]
    rfl
  | succ n ih =>
    rw [List.range_succ, List.foldl_append]
    dsimp only at ih ⊢
    generalize (List.range n).foldl (fun t k => State.dspWrite t .gp .x (t.cfg.mixbufBase + k) (mix.get k)) s = t at ih
    obtain ⟨h1, h2, h3, h4, h5⟩ := ih
    refine ⟨h1, h2, h3, h4, fun j => ?_⟩
    rw [List.foldl_cons, List.foldl_nil, dspRead_dspWrite, h1, h5]
    by_cases hj : j = s.cfg.mixbufBase + n
    · subst hj
      rw [if_pos ⟨rfl, rfl, rfl⟩, if_pos (by omega), Nat.add_sub_cancel_left]
    · rw [if_neg (fun h => hj h.2.2)]
      by_cases hb : s.cfg.mixbufBase ≤ j ∧ j < s.cfg.mixbufBase + n
      · rw [if_pos hb, if_pos (by omega)]
      · rw [if_neg hb, if_neg (by omega)]

/-- The mix-buffer write (44_voice_walker_mixer R372): X cell `MIXBUF_BASE + k` takes bin value `k`, reduced to the
cell's width. -/
theorem mixWrite_cells (mix : Store 32) (s : State) :
    { mixWrite mix s with dspGp := s.dspGp } = s ∧ (mixWrite mix s).dspGp.y = s.dspGp.y ∧
    (mixWrite mix s).dspGp.p = s.dspGp.p ∧
    ∀ j, dspRead (mixWrite mix s) .gp .x j = if s.cfg.mixbufBase ≤ j ∧ j < s.cfg.mixbufBase + 1024 then
      cellValue s.cfg.cellBits (mix.get (j - s.cfg.mixbufBase)) else dspRead s .gp .x j := by
  have h := mixWrite_prefix mix s (Config.numBins * Config.frameSamples)
  have e : Config.numBins * Config.frameSamples = 1024 := rfl
  unfold mixWrite
  generalize Config.numBins * Config.frameSamples = n at h e ⊢
  subst e
  exact h.2

/-- The mix-buffer write changes cells of core GP's X memory and nothing else. -/
theorem mixWrite_dspRead (mix : Store 32) (s : State) (c : Core) (sp : Space) (j : Nat) :
    dspRead (mixWrite mix s) c sp j =
      if c = .gp ∧ sp = .x ∧ s.cfg.mixbufBase ≤ j ∧ j < s.cfg.mixbufBase + 1024 then
        cellValue s.cfg.cellBits (mix.get (j - s.cfg.mixbufBase)) else dspRead s c sp j := by
  obtain ⟨h1, h2, h3, h4⟩ := mixWrite_cells mix s
  generalize mixWrite mix s = t at h1 h2 h3 h4 ⊢
  cases c with
  | ep =>
    rw [if_neg (by simp)]
    have := congrArg (fun a : State => dspRead a .ep sp j) h1
    exact this
  | gp =>
    cases sp with
    | x =>
      rw [h4]
      simp only [true_and]
    | y =>
      rw [if_neg (by simp)]
      exact congrArg (fun m : Store 32 => m.get j) h2
    | p =>
      rw [if_neg (by simp)]
      exact congrArg (fun m : Store 32 => m.get j) h3

/-! ## A pass -/

/-- A pass over a finite list of ready voices ends at the terminator, where their rows stand (44_voice_walker_mixer R351,
R352). -/
theorem listPass_ok (l : VoiceList) (voices : List Handle) {s u : State} {mix : Store 32}
    (hn : voices.length ≤ s.cfg.numVoices) (hf : fullTable s .voice) (hl : Linked s (argHandle (tvl s l)) voices)
    (hv : ∀ h ∈ voices, VoiceReady s h) (hu : Follows s u mix) :
    ∃ t v, visits voices u = .next v ∧ Follows t v v.sub.mix ∧ PassKeeps s t ∧ cvl t l = 0xFFFF ∧
      nvl t l = (if voices = [] then nvl s l else 0xFFFF) ∧ (∀ k, k ≠ l → cvl t k = cvl s k ∧ nvl t k = nvl s k) ∧
      listPass l mix s = .ok v.sub.mix t := by
  obtain ⟨t, v, n, h1, h2, h3, h4, h5, h6, h7⟩ := listPass_visits l voices hn hf hl hv hu
  exact ⟨t, v, h1, h2, h3, h4, h5, h6, by rw [h7, listLoop_end h4]⟩

/-- A list that is linked and ready stays so over a pass. -/
theorem PassKeeps.list {s t : State} (p : PassKeeps s t) {l : VoiceList} {last : Handle} {voices : List Handle}
    (h : LinkedTo s (argHandle (Machine.tvl s l)) last voices ∧ voices.length ≤ s.cfg.numVoices ∧
      ∀ k ∈ voices, VoiceReady s k) :
    LinkedTo t (argHandle (Machine.tvl t l)) last voices ∧ voices.length ≤ t.cfg.numVoices ∧
      ∀ k ∈ voices, VoiceReady t k :=
  ⟨by rw [p.tvl]; exact p.linked h.1, by rw [p.cfg]; exact h.2.1, fun k hk => p.ready (h.2.2 k hk)⟩

theorem PassKeeps.full {s t : State} (p : PassKeeps s t) (h : fullTable s .voice) : fullTable t .voice := by
  unfold fullTable
  rw [p.voiceTable]
  exact h

/-! ## The quanta -/

/-- What the program and the engine of core `c` can change from `s` to `t`: the other core is as before, and nothing outside
the two cores, guest memory and the model's own datum and counter changes (44_voice_walker_mixer R377). -/
structure EngineKeeps (held : Core → Prop) (s t : State) : Prop where
  rest : s.OnlyEngines t
  core : ∀ d, held d → t.dma d = s.dma d ∧ t.dsp d = s.dsp d

/-- An engine's changes are changes of its own core. -/
theorem engineKeeps_closed {held : Core → Prop} (s : State) {c : Core} (hc : ¬ held c) :
    EngineClosed c (EngineKeeps held s) := by
  have ne : ∀ {d}, held d → d ≠ c := fun hd e => hc (e ▸ hd)
  refine ⟨fun t k v h => ⟨h.rest, h.core⟩, fun t sp i v h => ⟨?_, fun d hd => ?_⟩, fun t d h _ => ⟨?_, fun e he => ?_⟩,
    fun t v h => ⟨h.rest, h.core⟩, fun t h => ⟨h.rest, h.core⟩⟩
  · cases c <;> exact h.rest
  · have := ne hd
    rw [← (h.core d hd).1, ← (h.core d hd).2]
    cases c <;> cases d <;> first | exact ⟨rfl, rfl⟩ | exact absurd rfl this
  · cases c <;> exact h.rest
  · have := ne he
    rw [← (h.core e he).1, ← (h.core e he).2]
    cases c <;> cases e <;> first | exact ⟨rfl, rfl⟩ | exact absurd rfl this

/-- A hand-off changes what its core can change, and only when the core is released (44_voice_walker_mixer R374, R377). -/
theorem handOff_keeps (s : State) (c : Core) :
    Keeps (EngineKeeps (fun d => released (s.rst d) = false) s) (handOff c) Any := by
  intro t ht
  have hr : t.rst c = s.rst c := by
    have := congrArg (fun a : State => a.rst c) ht.rest
    cases c <;> exact this
  by_cases h : released (s.rst c) = true
  · exact (engineKeeps_closed s (c := c) (by simp [h])).handOff t ht
  · have e : handOff c t = .ok () t := by
      rw [handOff, bind_reads_run, hr, if_neg h]
      rfl
    rw [e]
    exact ⟨ht, trivial⟩

/-- A core held in reset has no quantum. -/
theorem handOff_held {s : State} {c : Core} (h : released (s.rst c) = false) : handOff c s = .ok () s := by
  rw [handOff, bind_reads_run, h]
  rfl

/-- The two hand-offs of a tick, as one next state whatever they raise (44_voice_walker_mixer R374, R377). -/
theorem handOffs_ok (s : State) :
    ∃ t : State, ((do handOff .gp; handOff .ep : Op Unit) s = .ok () t ∨
        ∃ code u, (do handOff .gp; handOff .ep : Op Unit) s = .error code u ∧ t = takeFatal code u) ∧
      EngineKeeps (fun d => released (s.rst d) = false) s t ∧ ((∀ d, released (s.rst d) = false) → t = s) := by
  have hk : Keeps (EngineKeeps (fun d => released (s.rst d) = false) s) (do handOff .gp; handOff .ep) Any :=
    .bind (handOff_keeps s .gp) fun _ _ => handOff_keeps s .ep
  have h0 := hk s ⟨rfl, fun _ _ => ⟨rfl, rfl⟩⟩
  have held : (∀ d, released (s.rst d) = false) → (do handOff .gp; handOff .ep : Op Unit) s = .ok () s := fun hd => by
    rw [bind_ok (handOff_held (hd .gp)), handOff_held (hd .ep)]
  cases e : (do handOff .gp; handOff .ep : Op Unit) s with
  | ok a t =>
    rw [e] at h0 held
    refine ⟨t, .inl rfl, h0.1, fun hd => ?_⟩
    cases held hd
    rfl
  | error code u =>
    rw [e] at h0 held
    refine ⟨takeFatal code u, .inr ⟨code, u, rfl, rfl⟩, ⟨h0.rest, fun d hd => ?_⟩, fun hd => ?_⟩
    · rw [← (h0.core d hd).1, ← (h0.core d hd).2]
      cases d <;> exact ⟨rfl, rfl⟩
    · cases held hd

/-- A state after the mix-buffer write of bins `mix`: cells of core GP's X memory take them, and nothing else changed
(44_voice_walker_mixer R372). -/
structure MixWritten (mix : Store 32) (s m : State) : Prop where
  rest : { m with dspGp := s.dspGp } = s
  y : m.dspGp.y = s.dspGp.y
  p : m.dspGp.p = s.dspGp.p
  cells : ∀ c sp j, dspRead m c sp j =
    if c = .gp ∧ sp = .x ∧ s.cfg.mixbufBase ≤ j ∧ j < s.cfg.mixbufBase + 1024 then
      BitVec.ofNat 32 ((mix.get (j - s.cfg.mixbufBase)).toNat % 2 ^ s.cfg.cellBits) else dspRead s c sp j

theorem mixWritten (mix : Store 32) (s : State) : MixWritten mix s (mixWrite mix s) :=
  ⟨(mixWrite_cells mix s).1, (mixWrite_cells mix s).2.1, (mixWrite_cells mix s).2.2.1, mixWrite_dspRead mix s⟩

/-- What the hand-offs leave of a state `m` after the mix-buffer write. -/
theorem tick_handOffs {s s3 m : State} {mix : Store 32} (hr : s.halt = .running)
    (hm : frameTick s = (do handOff .gp; handOff .ep : Op Unit) m) (hw : MixWritten mix s3 m) :
    ∃ t m, exec .tick s = .next t ∧ MixWritten mix s3 m ∧
      EngineKeeps (fun d => released (s3.rst d) = false) m t ∧ ((∀ d, released (s3.rst d) = false) → t = m) := by
  obtain ⟨t, ht, hk, hd⟩ := handOffs_ok m
  have hrst : ∀ d, m.rst d = s3.rst d := fun d => by
    have := congrArg (fun a : State => a.rst d) hw.rest
    cases d <;> exact this
  simp only [hrst] at hk hd
  refine ⟨t, m, ?_, hw, hk, hd⟩
  show runOp frameTick s = _
  rcases ht with ht | ⟨code, u, ht, rfl⟩
  · exact runOp_ok hr (hm.trans ht)
  · exact runOp_error hr (hm.trans ht)

/-- A tick whose passes end: the mix-buffer write, then what the hand-offs leave (44_voice_walker_mixer R367). -/
theorem tick_ok {s s1 s2 s3 : State} {m1 m2 m3 : Store 32} (hr : s.halt = .running) (hon : frameEnabled s = true)
    (h1 : listPass .l2d [] s = .ok m1 s1) (h2 : listPass .l3d m1 s1 = .ok m2 s2)
    (h3 : listPass .lmp m2 s2 = .ok m3 s3) :
    ∃ t m, exec .tick s = .next t ∧ MixWritten m3 s3 m ∧
      EngineKeeps (fun d => released (s3.rst d) = false) m t ∧ ((∀ d, released (s3.rst d) = false) → t = m) := by
  refine tick_handOffs (m := mixWrite m3 s3) hr ?_ (mixWritten m3 s3)
  rw [frameTick, bind_reads_run, if_pos hon, tickBody, bind_ok h1, bind_ok h2, bind_ok h3]
  exact bind_update_run _ _ _

/-- A tick whose pass raises a fatal: it stops there, before the mix-buffer write (44_voice_walker_mixer R380). -/
theorem tick_error {s u : State} {code : FatalCode} (hr : s.halt = .running) (hon : frameEnabled s = true)
    (h : tickBody s = .error code u) : exec .tick s = .next (takeFatal code u) := by
  show runOp frameTick s = _
  refine runOp_error hr ?_
  rw [frameTick, bind_reads_run, if_pos hon, h]

end Sys2Proof.Machine
end

