-- ==== Sys2Proof/Tests/Slice0.lean ====
section
/-! SUPPORT. Tests: ill-formed terms, one word per row written out from 30_encoding, single steps with the numbers of
95_test_vectors, and one state for each statement that meets its hypotheses. -/

set_option Elab.async false

namespace Sys2Proof.Tests

open Sys2Proof Sys2Proof.Machine

/-! ## Well-formed terms -/

theorem test_wf_port_write : ¬ (Instr.mmioCmdport 0x49 (.write 5)).WellFormed := by decide
theorem test_wf_port_read : (Instr.mmioCmdport 0x49 .read).WellFormed := by decide
theorem test_wf_mapped_offset : ¬ (Instr.mmioUnmapped 0x400 .read).WellFormed := by decide +kernel
theorem test_wf_unmapped_offset : (Instr.mmioUnmapped 0x402 .read).WellFormed := by decide +kernel
theorem test_wf_known_method : ¬ (Instr.feUnknown 0x49 5).WellFormed := by decide +kernel
theorem test_wf_unknown_method : (Instr.feUnknown 0x4B 5).WellFormed := by decide +kernel
theorem test_wf_control_write : ¬ (Instr.dmaControl .gp (.write 1)).WellFormed := by decide
theorem test_wf_circular_id : ¬ (Instr.descBufOffset .gp 0xE).WellFormed := by decide
theorem test_wf_offset_id : (Instr.descBufOffset .gp 0xD).WellFormed := by decide

/-! ## Decoding -/

/-- Every encoded operation of the list decodes to the operation it stands for. -/
def decodes (l : List (OpWord × Instr)) : Bool :=
  l.all fun p => match decode p.1 with
    | .ok i => i = p.2
    | .error _ => false

/-- The offsets of 30_encoding R121. -/
theorem test_decode_registers : decodes
    [(.mmio 0x1000 .word (.write 0x89ABCDEF), .mmioIsts (.write 0x89ABCDEF)),
      (.mmio 0x1004 .word .read, .mmioIen .read),
      (.mmio 0x1100 .word (.write 0x89ABCDEF), .mmioFectl (.write 0x89ABCDEF)),
      (.mmio 0x1110 .word .read, .mmioFecv .read),
      (.mmio 0x1118 .word (.write 0x89ABCDEF), .mmioFeav (.write 0x89ABCDEF)),
      (.mmio 0x1504 .word .read, .mmioFetforce1 .read),
      (.mmio 0x2000 .word (.write 0x89ABCDEF), .mmioSectl (.write 0x89ABCDEF)),
      (.mmio 0x202C .word .read, .mmioVpvaddr .read),
      (.mmio 0x2030 .word (.write 0x89ABCDEF), .mmioVpsgeaddr (.write 0x89ABCDEF)),
      (.mmio 0x2040 .word .read, .mmioGpsaddr .read),
      (.mmio 0x2044 .word (.write 0x89ABCDEF), .mmioGpfaddr (.write 0x89ABCDEF)),
      (.mmio 0x2048 .word .read, .mmioEpsaddr .read),
      (.mmio 0x204C .word (.write 0x89ABCDEF), .mmioEpfaddr (.write 0x89ABCDEF)),
      (.mmio 0x2054 .word .read, .mmioTvl2d .read),
      (.mmio 0x2058 .word (.write 0x89ABCDEF), .mmioCvl2d (.write 0x89ABCDEF)),
      (.mmio 0x205C .word .read, .mmioNvl2d .read),
      (.mmio 0x2060 .word (.write 0x89ABCDEF), .mmioTvl3d (.write 0x89ABCDEF)),
      (.mmio 0x2064 .word .read, .mmioCvl3d .read),
      (.mmio 0x2068 .word (.write 0x89ABCDEF), .mmioNvl3d (.write 0x89ABCDEF)),
      (.mmio 0x206C .word .read, .mmioTvlmp .read),
      (.mmio 0x2070 .word (.write 0x89ABCDEF), .mmioCvlmp (.write 0x89ABCDEF)),
      (.mmio 0x2074 .word .read, .mmioNvlmp .read),
      (.mmio 0x20D4 .word (.write 0x89ABCDEF), .mmioGpsmaxsge (.write 0x89ABCDEF)),
      (.mmio 0x20D8 .word .read, .mmioGpfmaxsge .read),
      (.mmio 0x20DC .word (.write 0x89ABCDEF), .mmioEpsmaxsge (.write 0x89ABCDEF)),
      (.mmio 0x20E0 .word .read, .mmioEpfmaxsge .read)] = true := by decide +kernel

/-- The windows of 30_encoding R122 to R125, at their first or last cells. -/
theorem test_decode_windows : decodes
    [(.mmio 0x30040 .word (.write 1), .mmioGpX 0x10 (.write 1)),
      (.mmio 0x33FFC .word .read, .mmioGpX 0xFFF .read), (.mmio 0x34000 .word .read, .mmioUnmapped 0xD000 .read),
      (.mmio 0x35280 .word .read, .mmioGpMixbuf 160 .read), (.mmio 0x35FFC .word .read, .mmioGpMixbuf 0x3FF .read),
      (.mmio 0x3600C .word (.write 7), .mmioGpY 3 (.write 7)), (.mmio 0x3A000 .word .read, .mmioGpPLower 0 .read),
      (.mmio 0x3BFFC .word .read, .mmioGpPLower 0x7FF .read), (.mmio 0x3C000 .word .read, .mmioGpPUpper 0 .read),
      (.mmio 0x3FFFC .word (.write 3), .mmioGprst (.write 3)),
      (.mmio 0x3FFF8 .word .read, .mmioUnmapped 0xFFFE .read), (.mmio 0x50000 .word .read, .mmioEpX 0 .read),
      (.mmio 0x55000 .word .read, .mmioUnmapped 0x15400 .read), (.mmio 0x57FFC .word .read, .mmioEpY 0x7FF .read),
      (.mmio 0x5A004 .word .read, .mmioEpPLower 1 .read),
      (.mmio 0x5DFFC .word (.write 9), .mmioEpPUpper 0x7FF (.write 9)),
      (.mmio 0x5FFFC .word .read, .mmioEprst .read),
      (.mmio 0x1008 .word (.write 1), .mmioUnmapped 0x402 (.write 1)),
      (.mmio 0x40000 .word .read, .mmioUnmapped 0x10000 .read),
      (.mmio 0x7FFFC .word .read, .mmioUnmapped 0x1FFFF .read),
      (.mmio 0x20124 .word .read, .mmioCmdport 0x49 .read)] = true := by decide +kernel

/-- The methods of 30_encoding R152, at the command port (R122). -/
theorem test_decode_commands : decodes
    [(.mmio 0x20120 .word (.write 5), .feSetAntecedentVoice 5), (.mmio 0x20124 .word (.write 5), .feVoiceOn 5),
      (.mmio 0x20128 .word (.write 5), .feVoiceOff 5), (.mmio 0x20140 .word (.write 5), .feVoicePause 5),
      (.mmio 0x202F8 .word (.write 5), .feSetCurrentVoice 5),
      (.mmio 0x20300 .word (.write 5), .feSetVoiceCfgVbin 5),
      (.mmio 0x20304 .word (.write 5), .feSetVoiceCfgFmt 5),
      (.mmio 0x20308 .word (.write 5), .feSetVoiceCfgEnv0 5),
      (.mmio 0x2030C .word (.write 5), .feSetVoiceCfgEnva 5),
      (.mmio 0x20310 .word (.write 5), .feSetVoiceCfgEnv1 5),
      (.mmio 0x20314 .word (.write 5), .feSetVoiceCfgEnvf 5),
      (.mmio 0x20318 .word (.write 5), .feSetVoiceCfgMisc 5),
      (.mmio 0x20360 .word (.write 5), .feSetVoiceTarVola 5),
      (.mmio 0x20364 .word (.write 5), .feSetVoiceTarVolb 5),
      (.mmio 0x20368 .word (.write 5), .feSetVoiceTarVolc 5),
      (.mmio 0x2036C .word (.write 5), .feSetVoiceTarLfoEnv 5),
      (.mmio 0x2037C .word (.write 5), .feSetVoiceTarPitch 5),
      (.mmio 0x203A0 .word (.write 5), .feSetVoiceCfgBufBase 5),
      (.mmio 0x203A4 .word (.write 5), .feSetVoiceCfgBufLbo 5),
      (.mmio 0x203D8 .word (.write 5), .feSetVoiceBufCbo 5),
      (.mmio 0x203DC .word (.write 5), .feSetVoiceCfgBufEbo 5),
      (.mmio 0x20804 .word (.write 5), .feSetCurrentInbufSge 5),
      (.mmio 0x20808 .word (.write 5), .feSetCurrentInbufSgeOffset 5),
      (.mmio 0x21800 .word (.write 5), .feSetCurrentOutbufSge 5),
      (.mmio 0x21808 .word (.write 5), .feSetCurrentOutbufSgeOffset 5),
      (.mmio 0x28000 .word (.write 5), .feSe2feIdleVoice 5), (.mmio 0x2012C .word (.write 5), .feUnknown 0x4B 5),
      (.mmio 0x2FFFC .word (.write 5), .feUnknown 0x3FFF 5)] = true := by decide +kernel

/-- Register ids and action codes (30_encoding R154, R155). -/
theorem test_decode_dma : decodes
    [(.dma .gp 0 (.write 9), .dmaConfiguration .gp (.write 9)), (.dma .ep 1 .read, .dmaControl .ep .read),
      (.dma .gp 2 .read, .dmaStartBlock .gp .read),
      (.dma .ep 3 (.write 0x4000), .dmaNextBlock .ep (.write 0x4000)), (.dma .gp 1 (.write 0), .dmaActNop .gp 0),
      (.dma .gp 1 (.write 1), .dmaActStart .gp 0), (.dma .gp 1 (.write 2), .dmaActStop .gp 0),
      (.dma .gp 1 (.write 3), .dmaActFreeze .gp 0), (.dma .gp 1 (.write 4), .dmaActUnfreeze .gp 0),
      (.dma .gp 1 (.write 5), .dmaActAbort .gp 0), (.dma .gp 1 (.write 6), .dmaActReserved6 .gp 0),
      (.dma .gp 1 (.write 7), .dmaActReserved7 .gp 0),
      (.dma .ep 1 (.write 0xFFFFFFF9), .dmaActStart .ep 0x1FFFFFFF)] = true := by decide +kernel

/-- Pointer bit 14, FORMAT 12:10, BUF_ID 8:5 and DIR 1 (30_encoding R157, R158). -/
theorem test_decode_descriptors : decodes
    [(.descPtr .gp 0x4123, .descPtrEol .gp 0x123), (.descPtr .ep 0xFFFFBFFF, .descPtrBlock .ep 0x3FFF),
      (.descFormat .gp 0x0000, .descFormat0 .gp), (.descFormat .gp 0x0400, .descFormat1 .gp),
      (.descFormat .gp 0x0800, .descFormat2 .gp), (.descFormat .gp 0x0C00, .descFormat3 .gp),
      (.descFormat .gp 0x1000, .descFormat4 .gp), (.descFormat .gp 0x1400, .descFormat5 .gp),
      (.descFormat .gp 0x1800, .descFormat6 .gp), (.descFormat .gp 0x1C00, .descFormat7 .gp),
      (.descFormat .ep 0xFFFFE7FF, .descFormat1 .ep), (.descBuf .gp 0x5C2, .descBufCircular .gp),
      (.descBuf .gp 0x1A0, .descBufOffset .gp 0xD), (.descBuf .ep 0xFFFFFE1F, .descBufOffset .ep 0),
      (.descDir .gp 2, .descDirDspToScratch .gp), (.descDir .gp 0xFFFFFFFD, .descDirScratchToDsp .gp)] = true := by decide +kernel

/-- The state codes of 30_encoding R160. -/
theorem test_decode_envelopes : decodes
    [(.env 7 .a 0, .envOff 7 .a), (.env 7 .a 1, .envDelay 7 .a), (.env 7 .a 2, .envAttack 7 .a),
      (.env 7 .a 3, .envHold 7 .a), (.env 7 .a 4, .envDecay 7 .a), (.env 7 .a 5, .envSustain 7 .a),
      (.env 7 .a 6, .envRelease 7 .a), (.env 7 .a 7, .envForceRelease 7 .a), (.env 7 .f 8, .envBadState 7 .f 0),
      (.env 7 .f 15, .envBadState 7 .f 7), (.env 0xFFFE .f 6, .envRelease 0xFFFE .f)] = true := by decide +kernel

/-- Voice word 0x04: container 31:30, sample size 29:28, stereo 27, loop 25 (30_encoding R133). -/
theorem test_decode_formats : decodes
    [(.fmtClass 3 9 0x00000000, .fmtPcmB8U8 3 9), (.fmtClass 3 9 0x10000000, .fmtIllegalB8S16 3 9),
      (.fmtClass 3 9 0x20000000, .fmtIllegalB8S24 3 9), (.fmtClass 3 9 0x30000000, .fmtIllegalB8S32 3 9),
      (.fmtClass 3 9 0x40000000, .fmtPcmB16U8 3 9), (.fmtClass 3 9 0x50000000, .fmtPcmB16S16 3 9),
      (.fmtClass 3 9 0x60000000, .fmtIllegalB16S24 3 9), (.fmtClass 3 9 0x70000000, .fmtIllegalB16S32 3 9),
      (.fmtClass 3 9 0xC0000000, .fmtPcmB32U8 3 9), (.fmtClass 3 9 0xD0000000, .fmtPcmB32S16 3 9),
      (.fmtClass 3 9 0xE0000000, .fmtPcmB32S24 3 9), (.fmtClass 3 9 0xF0000000, .fmtPcmB32S32 3 9),
      (.fmtClass 3 9 0x8FFFFFFF, .fmtAdpcm 3 9 0), (.fmtClass 3 9 0x9FFFFFFF, .fmtAdpcm 3 9 1),
      (.fmtClass 3 9 0xAFFFFFFF, .fmtAdpcm 3 9 2), (.fmtClass 3 9 0xBFFFFFFF, .fmtAdpcm 3 9 3),
      (.fmtChannels 3 9 0x08000000, .fmtStereo 3 9), (.fmtChannels 3 31 0xF7FFFFFF, .fmtMono 3 31),
      (.fmtLoop 3 9 0x02000000, .fmtLoop 3 9), (.fmtLoop 3 9 0xFDFFFFFF, .fmtOneshot 3 9)] = true := by decide +kernel

/-- Voice word 0x54: active 21, paused 18 (30_encoding R142); the tick and the translator have no word. -/
theorem test_decode_rest : decodes
    [(.voiceActive 3 0x00200000, .voiceActive 3), (.voiceActive 3 0xFFDFFFFF, .voiceIdle 3),
      (.voicePaused 3 0x00040000, .voicePaused 3), (.tick, .tick),
      (.sg .epScratch 0x1ABC, .sgTranslate .epScratch 0x1ABC)] = true := by decide +kernel

theorem test_decode_rejects : (decode (.mmio 0x20124 .half .read)).toOption = none ∧
    (decode (.mmio 0x20126 .word .read)).toOption = none ∧ (decode (.voicePaused 3 0xFFFBFFFF)).toOption = none := by
  decide +kernel

/-! ## Helpers -/

/-- The answer is a next state that `p` holds of. -/
def next (o : Host.Outcome State Fault Refusal) (p : State → Bool) : Bool :=
  match o with
  | .next t => p t
  | _ => false

/-- A state with VPVADDR 0x00010000, VPSGEADDR 0x00100000, full scratch tables, and voice 3 current, its fields set. -/
def voiced (fields : List (VField × Nat)) : State :=
  fields.foldl (fun s f => s.setVoiceField 3 f.1 f.2) (State.reset.setX { GlobalRegs.reset with
    vpvaddr := 0x10000, vpsgeaddr := 0x100000, fecv := 3, gpsmaxsge := 0xFFFFFFFF, epsmaxsge := 0xFFFFFFFF })

/-- That state with guest bytes from an address on. -/
def withBytes (s : State) (a : Word) (l : List Nat) : State :=
  l.zipIdx.foldl (fun t p => t.setMem (t.mem.set (a + BitVec.ofNat 32 p.2).toNat (BitVec.ofNat 8 p.1))) s

/-- The sample bytes of 95_test_vectors 2.5, with page 0 of the voice table at 0x00200000. -/
def sampled (fields : List (VField × Nat)) : State :=
  withBytes (withBytes (voiced fields) 0x100000 [0, 0, 0x20, 0]) 0x200000
    [0x80, 0x7F, 0x34, 0x12, 0xFF, 0xFF, 0, 0x80, 0x56, 0x34, 0x12, 0xFF]

/-- A state whose GP engine has CONTROL `v` and NEXT_BLOCK `p`. -/
def engine (v p : Word) : State := (voiced []).setDma .gp { DmaRegs.reset with control := v, nextBlock := p }

/-- A state whose GP walk holds a descriptor with `count` items at DSP offset `off`. -/
def walking (count off : Word) (size : Nat) (skip : Bool) : State :=
  (engine 0x10 0).setWalk .gp ⟨⟨0x4123, 0x402, count, off, 0, 0, 0xFFF⟩, size, skip, 0x10⟩

/-! ## Single operations (95_test_vectors) -/

-- 2.2: the sequence of register accesses; bit 0 is not writable, bit 4 clears.
theorem test_ists_bit0 : next (exec (.mmioIsts (.write 1))
    { State.reset with irq := true, x := { GlobalRegs.reset with ists := 0x11, ien := 0x11 } })
    (fun t => t.x.ists == 0x11 && t.irq) = true := by decide +kernel
theorem test_ists_ack : next (exec (.mmioIsts (.write 0x10))
    { State.reset with irq := true, x := { GlobalRegs.reset with ists := 0x11, ien := 0x11 } })
    (fun t => t.x.ists == 0 && !t.irq) = true := by decide +kernel
theorem test_ien_enables : next (exec (.mmioIen (.write 0x11))
    { State.reset with x := { GlobalRegs.reset with ists := 0x10 } })
    (fun t => t.x.ists == 0x11 && t.irq) = true := by decide +kernel
theorem test_idle_trap : next (exec (.feSe2feIdleVoice 0)
    { State.reset with x := { GlobalRegs.reset with fectl := 0x12345678, fetforce1 := 0x8000, ien := 0x11 } })
    (fun t => t.x.fectl == 0x12345FF8 && t.x.ists == 0x11 && t.irq) = true := by decide +kernel
theorem test_gprst_held : next (exec (.mmioGprst (.write 3)) { State.reset with gprst := 3 })
    (fun t => t.gprst == 3 && t.oracle == 0) = true := by decide +kernel
theorem test_gp_x_written : next (exec (.mmioGpX 0x10 (.write 0xABCDEF)) State.reset)
    (fun t => dspRead t .gp .x 0x10 == 0xABCDEF) = true := by decide +kernel
theorem test_mixbuf_cell : next (exec (.mmioGpMixbuf 160 (.write 5)) State.reset)
    (fun t => dspRead t .gp .x 0x14A0 == 5) = true := by decide +kernel
theorem test_ep_p_upper : next (exec (.mmioEpPUpper 0x7FF (.write 9)) State.reset)
    (fun t => dspRead t .ep .p 0xFFF == 9) = true := by decide +kernel
-- 1.1, 1.2 and 2.3: the lists and the parameter writes.
theorem test_voice_on_head : next (exec (.feVoiceOn 5)
    { voiced [] with x := { (voiced []).x with feav := 0x1FFFF, tvl2d := 0xFFFF } })
    (fun t => t.x.tvl2d == 5 && voiceWord t 5 0x7C == 0xFFFF && voiceWord t 5 0x54 == 0x200000) = true := by
  decide +kernel
theorem test_voice_on_inherit : next (exec (.feVoiceOn 7)
    { voiced [(vLink, 5)] with x := { (voiced []).x with feav := 3, tvl2d := 3 } })
    (fun t => voiceField t 7 vLink == 5 && voiceField t 3 vLink == 7 && t.x.tvl2d == 3) = true := by decide +kernel
theorem test_voice_off : next (exec (.feVoiceOff 3) (voiced [(vActive, 1), (vLink, 7)]))
    (fun t => voiceWord t 3 0x54 == 0 && voiceField t 3 vLink == 7) = true := by decide +kernel
theorem test_voice_pause : next (exec (.feVoicePause 0x40003) (voiced [(vActive, 1)]))
    (fun t => voiceWord t 3 0x54 == 0x240000) = true := by decide +kernel
theorem test_current_voice : next (exec (.feSetCurrentVoice 0xABCD0007) State.reset)
    (fun t => t.x.fecv == 7) = true := by decide +kernel
theorem test_pitch : next (exec (.feSetVoiceTarPitch 0x10001234) (voiced [(vLink, 5)]))
    (fun t => voiceWord t 3 0x7C == 0x10000005) = true := by decide +kernel
theorem test_cfg_misc : next (exec (.feSetVoiceCfgMisc 0xFFFFF123) ((voiced []).setVoiceWord 3 0x18 0xABCDE000))
    (fun t => voiceWord t 3 0x18 == 0xABCDE123) = true := by decide +kernel
theorem test_lfo_env : next (exec (.feSetVoiceTarLfoEnv 0xABC) ((voiced []).setVoiceWord 3 0x6C 0x55555555))
    (fun t => voiceWord t 3 0x6C == 0x55555ABC) = true := by decide +kernel
theorem test_cbo : next (exec (.feSetVoiceBufCbo 0xAA000020) ((voiced []).setVoiceWord 3 0x58 0x7F000000))
    (fun t => voiceWord t 3 0x58 == 0x7F000020) = true := by decide +kernel
theorem test_ebo : next (exec (.feSetVoiceCfgBufEbo 0x1F) ((voiced []).setVoiceWord 3 0x5C 0x40000000))
    (fun t => voiceWord t 3 0x5C == 0x4000001F) = true := by decide +kernel
theorem test_vbin : next (exec (.feSetVoiceCfgVbin 0x14830820) (voiced []))
    (fun t => (List.range 6).map (fun j => voiceField t 3 (vBin j)) == [0, 1, 2, 3, 4, 5]) = true := by decide +kernel
theorem test_fmt_word : next (exec (.feSetVoiceCfgFmt 0x9A0000E6) (voiced []))
    (fun t => [vContainerSize, vSampleSize, vStereo, vLoop, vStream, vBin 6, vBin 7].map (voiceField t 3) ==
      [2, 1, 1, 1, 0, 6, 7]) = true := by decide +kernel
theorem test_volumes : (List.range 8).map (volume 0x0010FFF5 3 0x00070002) = [0xFFF, 1, 0, 0, 0, 0, 0x235, 0x700] := by
  decide +kernel
theorem test_inbuf_offset : next (exec (.feSetCurrentInbufSgeOffset 0x345ABC) { voiced [] with inbufSge := 2 })
    (fun t => memRead t.mem 0x100010 4 == 0x345000) = true := by decide +kernel
theorem test_outbuf_offset : next (exec (.feSetCurrentOutbufSgeOffset 0xFFFFFFFF) { voiced [] with outbufSge := 3 })
    (fun t => memRead t.mem 0x100018 4 == 0xFFFFF000) = true := by decide +kernel
theorem test_bad_handle : next (exec (.feVoiceOn 0x100) { State.reset with cfg := { Params.spec with numVoices := 256 } })
    (fun t => t.halt == .halted .voiceBadHandle && t.mem == []) = true := by decide +kernel
-- 2.1: the translator; entry 3 of the table wraps modulo 2^32.
theorem test_translate_wraps : next (exec (.sgTranslate .voice 0x3900)
    (withBytes (voiced []) 0x100018 [0x00, 0xF8, 0xFF, 0xFF])) (fun t => t.sub.paddr == 0x100) = true := by decide +kernel
theorem test_translate_range : next (exec (.sgTranslate .gpScratch 0x1000) State.reset)
    (fun t => t.halt == .halted .sgeRange) = true := by decide +kernel
-- 2.4: one step of each state.
theorem test_env_off : offStep ⟨0x1234, 7, 0, 0, 0, 0, 0⟩ = ⟨0, 255, 0, false⟩ := by decide
theorem test_env_delay : delayStep ⟨0, 9, 0, 0, 0, 0, 0⟩ = ⟨0, 0, 2, false⟩ := by decide
theorem test_env_attack : attackStep ⟨63, 255, 4, 2, 0, 0, 0⟩ = ⟨32, 255, 3, false⟩ := by decide
theorem test_env_attack_wraps : attackStep ⟨65535, 255, 0, 5, 0, 0, 0⟩ = ⟨80, 255, 3, false⟩ := by decide
theorem test_env_hold : holdStep ⟨0, 3, 0, 0, 7, 0, 0⟩ = ⟨112, 255, 4, false⟩ := by decide
theorem test_env_decay : decayStep ⟨16, 255, 0, 0, 1, 160, 0⟩ = ⟨15, 161, 4, false⟩ := by decide +kernel
theorem test_env_decay_done : decayStep ⟨16, 255, 0, 0, 1, 161, 0⟩ = ⟨15, 161, 5, false⟩ := by decide +kernel
theorem test_env_sustain : sustainStep ⟨14, 101, 0, 0, 0, 0x80, 0⟩ = ⟨0, 128, 5, false⟩ := by decide
theorem test_env_release : releaseStep ⟨16, 200, 0, 0, 0, 0, 1⟩ = ⟨15, 187, 6, false⟩ := by decide
theorem test_env_release_ends : releaseStep ⟨1, 200, 0, 0, 0, 0, 1⟩ = ⟨0, 0, 6, true⟩ := by decide
theorem test_env_bad_state : next (exec (.envBadState 3 .f 1) (voiced [(vState .f, 9)]))
    (fun t => t.halt == .halted .envBadState && voiceField t 3 (vState .f) == 9) = true := by decide +kernel
-- 2.5: samples.
theorem test_pcm_u8_stereo : next (exec (.fmtPcmB8U8 3 1) (sampled [(vStereo, 1)]))
    (fun t => t.sub.frame == [-76, -110]) = true := by decide +kernel
theorem test_pcm_b16_u8 : next (exec (.fmtPcmB16U8 3 1) (sampled [])) (fun t => t.sub.frame == [-76]) = true := by
  decide +kernel
theorem test_pcm_s16 : next (exec (.fmtPcmB16S16 3 3) (sampled [])) (fun t => t.sub.frame == [-32768]) = true := by
  decide +kernel
theorem test_pcm_b32_u8 : next (exec (.fmtPcmB32U8 3 2) (sampled [])) (fun t => t.sub.frame == [-42]) = true := by
  decide +kernel
theorem test_pcm_b32_s16 : next (exec (.fmtPcmB32S16 3 2) (sampled [])) (fun t => t.sub.frame == [13398]) = true := by
  decide +kernel
theorem test_pcm_s24 : next (exec (.fmtPcmB32S24 3 1) (sampled [])) (fun t => t.sub.frame == [65535]) = true := by
  decide +kernel
theorem test_pcm_s32 : next (exec (.fmtPcmB32S32 3 2) (sampled [])) (fun t => t.sub.frame == [-15584170]) = true := by
  decide +kernel
theorem test_pcm_illegal : next (exec (.fmtIllegalB8S16 3 0) (sampled []))
    (fun t => t.halt == .halted .voiceBadFormat) = true := by decide +kernel
/-- The mono block 0 of 2.5. -/
def monoBlock : List Byte := [0x10, 0, 0, 0, 0x77, 0xF0, 0x08, 0x1C]
theorem test_adpcm_mono : (List.range 12).map (fun w => adpcmSample monoBlock 1 w 0) =
    [16, 27, 57, 61, 5, -3, 4, -57, -33, -26, -20, -14] := by decide +kernel
/-- The stereo block of 2.5. -/
def stereoBlock : List Byte := [0x10, 0, 0, 0, 0xF0, 0xFF, 0x10, 0, 0x77, 0xF0, 0x08, 0x1C, 0x4C, 0, 0, 0]
theorem test_adpcm_right : (List.range 10).map (fun w => adpcmSample stereoBlock 2 w 1) =
    [-16, -54, -8, -2, 3, 8, 12, 16, 19, 22] := by decide +kernel
theorem test_loop_wraps : next (exec (.fmtLoop 3 10) (voiced [(vLbo, 4), (vEbo, 9)]))
    (fun t => t.sub.pos == some 4) = true := by decide +kernel
theorem test_oneshot_ends : next (exec (.fmtOneshot 3 32) (voiced [(vEbo, 31), (vActive, 1)]))
    (fun t => t.sub.pos == none && voiceField t 3 vActive == 0) = true := by decide +kernel
theorem test_contribution : [contrib 1000 255 0x800, contrib (-1000) 255 0x800, contrib (-32768) 255 1] =
    [499, -499, -32759] := by decide +kernel
theorem test_mono_lane : next (exec (.fmtMono 3 2) { voiced [(vLevel .a, 255), (vBin 1, 7)] with
    sub := { SubOp.reset with frame := [100], mix := [(7 * 32 + 2, 5)] } })
    (fun t => t.sub.mix.get (7 * 32 + 2) == 105 && t.sub.mix.get 2 == 700) = true := by decide +kernel
theorem test_voice_idle : next (exec (.voiceIdle 3) (voiced [])) (fun t => t.x.ists == 0) = true := by decide +kernel
theorem test_voice_paused : next (exec (.voicePaused 3) (voiced [(vActive, 1), (vPaused, 1), (vCount .a, 7)]))
    (fun t => voiceField t 3 (vCount .a) == 0 && voiceField t 3 (vLevel .a) == 255) = true := by decide +kernel
theorem test_tick_off : next (exec .tick (voiced [])) (fun t => t == voiced []) = true := by decide +kernel
/-- Voice 3 active, 16-bit signed PCM at the bytes of 2.5, its fields set. -/
def playing (fields : List (VField × Nat)) : State :=
  sampled ([(vActive, 1), (vContainerSize, 1), (vSampleSize, 1), (vLink, 0xFFFF)] ++ fields)
-- Two frames, then the end: every slot names bin 0 at full volume, so a lane gains its sample eight times.
theorem test_active_stops : next (exec (.voiceActive 3) (playing [(vEbo, 1)]))
    (fun t => (List.range 3).map (fun k => t.sub.mix.get k) == [8 * 32640, 8 * 4660, 0] && voiceField t 3 vActive == 0) =
    true := by decide +kernel
theorem test_acc : [acc .wrap 0x7FFFFFFF 1, acc .saturate 0x7FFFFFFF 1, acc .saturate 0x80000000 (-1)] =
    [0x80000000, 0x7FFFFFFF, 0x80000000] := by decide +kernel
-- 20_memory R81, R82: bytes from the least significant on, the addresses modulo 2^32.
theorem test_host_store_wraps : next (step (State.reset.present (.hostStore 0xFFFFFFFE .word 0x44332211)))
    (fun t => [0xFFFFFFFE, 0xFFFFFFFF, 0, 1].map (memByte t.mem) == [0x11, 0x22, 0x33, 0x44]) = true := by decide +kernel
theorem test_voice_on_bad_antecedent : next (exec (.feVoiceOn 5)
    { State.reset with cfg := { Params.spec with numVoices := 256 }, x := { GlobalRegs.reset with feav := 0x100 } })
    (fun t => t.halt == .halted .voiceBadHandle && t.mem == []) = true := by decide +kernel
-- 2.6 and 1.5: the DMA engine.
theorem test_start_at_eol : next (exec (.dmaActStart .gp 0) (engine 0x20 0x4000))
    (fun t => t.dmaGp == ⟨0, 0x10, 0, 0x4000, true⟩) = true := by decide +kernel
theorem test_stop_frozen : next (exec (.dmaActStop .gp 0) (engine 0x18 0x4000))
    (fun t => t.dmaGp.control == 0x28) = true := by decide +kernel
theorem test_abort : next (exec (.dmaActAbort .gp 0) (engine 0x20 0))
    (fun t => t.halt == .halted .dmaBadAction && t.dmaGp.control == 0x20) = true := by decide +kernel
theorem test_format_2 : next (exec (.descFormat2 .gp) State.reset) (fun t => t.sub.walkGp.itemSize == 4) = true := by
  decide +kernel
theorem test_circular_skips : (circularBuffer ⟨0, 0, 8, 0, 0xFF0, 0, 0xFFF⟩ 2).1 = true ∧
    (circularBuffer ⟨0, 0, 7, 0, 0xFF0, 0, 0xFFF⟩ 2).1 = false := by decide +kernel
theorem test_dsp_to_scratch : next (exec (.descDirDspToScratch .gp)
    ((walking 1 2 2 false).dspWrite .gp .x 2 0xABCDEF))
    (fun t => memRead t.mem 0x10 4 == 0xCDEF && t.dmaGp.nextBlock == 0x4123) = true := by decide +kernel
theorem test_scratch_to_dsp : next (exec (.descDirScratchToDsp .gp)
    (withBytes (walking 1 0x1800 4 false) 0x10 [1, 2, 3, 4]))
    (fun t => dspRead t .gp .y 0 == 0x030201) = true := by decide +kernel

/-! ## Hypotheses that are met: one state for each statement, and for each clause at its boundary -/

theorem witness_decode_encode : (Instr.mmioUnmapped 0x1FFFF .read).WellFormed ∧
    (Instr.feUnknown 0x3FFF 0).WellFormed ∧ Instr.tick.WellFormed := by decide +kernel
theorem witness_decode_wellformed : decode (.descBuf .gp 0x1A0) = .ok (.descBufOffset .gp 0xD) := by decide
theorem witness_step_runs_decoded : (State.reset.present (.op .tick)).pending = .op .tick :: [] ∧
    decode .tick = .ok .tick ∧ decode (.voicePaused 3 0) = .error .notPaused ∧
    Width.half ≠ .word ∧ (0x1006 : BitVec 19).toNat % 4 ≠ 0 ∧ (0x7FFFC : BitVec 19).toNat % 4 = 0 := by decide
theorem witness_step_host_access : State.reset.pending = [] ∧
    (State.reset.present (.hostStore 4 .word 5)).pending = .hostStore 4 .word 5 :: [] ∧
    (State.reset.present (.hostLoad 4 .byte)).pending = .hostLoad 4 .byte :: [] ∧
    ((1 : Word) - 0xFFFFFFFE).toNat < widthBytes .word ∧ ¬ ((2 : Word) - 0xFFFFFFFE).toNat < widthBytes .word := by decide
theorem witness_good_kept : (engine 0x20 0x4000).Good ∧ next (step ((engine 0x20 0x4000).present
    (.op (.dma .gp 1 (.write 1))))) (fun t => decide t.Good) = true := by decide +kernel
theorem witness_parameters_constant : next (step (State.reset.present (.op (.mmio 0x1004 .word (.write 1)))))
    (fun t => t.cfg == State.reset.cfg) = true := by decide +kernel
theorem witness_halted_has_no_operation : (takeFatal .dmaBounds State.reset).halt = .halted .dmaBounds := by decide
theorem witness_fatal_keeps_writes : State.reset.halt = .running ∧
    (writeV 0xFFFF vActive 1 : Op Unit) State.reset = .error .voiceBadHandle State.reset := ⟨rfl, by rfl⟩
/-- For every statement whose only hypothesis is that the block runs. -/
theorem witness_running : State.reset.halt = .running := by decide
theorem witness_reset_register_written : State.reset.halt = .running ∧ released 3 = true ∧ released 1 = false ∧
    released ({ State.reset with gprst := 3 }.rst .gp) = true ∧ released (State.reset.rst .ep) = false := by decide
/-- For the whole-word and the field writes. -/
theorem witness_voice_word_written : (voiced []).halt = .running ∧
    (3 : Handle) = BitVec.ofNat 16 (voiced []).x.fecv.toNat ∧ (3 : Handle).toNat < (voiced []).cfg.numVoices := by
  decide +kernel
theorem witness_last_voice : (0xFFFE : Handle) = BitVec.ofNat 16 (0xABCDFFFE : Word).toNat ∧
    (0xFFFE : Handle).toNat < State.reset.cfg.numVoices := by decide
theorem witness_bad_handle_taken : State.reset.halt = .running ∧
    State.reset.cfg.numVoices ≤ ({ State.reset with x := { GlobalRegs.reset with fecv := 0xFFFF } }).x.fecv.toNat % 65536 ∧
    State.reset.cfg.numVoices ≤ (0x1FFFF : Word).toNat % 65536 ∧
    (0xFFFF : Word).toNat / 65536 % 4 = 0 ∧ State.reset.cfg.numVoices ≤ (0xFFFF : Word).toNat % 65536 ∧
    (0xFFFE : Word).toNat % 65536 < State.reset.cfg.numVoices := by decide
theorem witness_voice_on_at_head : ∀ l : VoiceList, ∃ feav : Word,
    feav.toNat / 65536 % 4 = (match l with | .l2d => 1 | .l3d => 2 | .lmp => 3) := by
  intro l
  cases l
  · exact ⟨0x1FFFF, by decide⟩
  · exact ⟨0x2FFFF, by decide⟩
  · exact ⟨0x3FFFF, by decide⟩
theorem witness_voice_on_after_antecedent : (5 : Handle) = BitVec.ofNat 16 (5 : Word).toNat ∧
    (0 : Handle) = BitVec.ofNat 16 State.reset.x.feav.toNat ∧ (5 : Handle).toNat < State.reset.cfg.numVoices ∧
    (0 : Handle).toNat < State.reset.cfg.numVoices ∧ State.reset.x.feav.toNat / 65536 % 4 = 0 := by decide
theorem witness_voice_off_and_pause : (7 : Handle) = BitVec.ofNat 16 (0x40007 : Word).toNat ∧
    (7 : Handle).toNat < State.reset.cfg.numVoices ∧ State.reset.cfg.pauseMode = .fromAction ∧
    { Params.spec with pauseMode := .invert }.pauseMode = .invert := by decide
theorem witness_idle_trap_taken : (∃ arg, Instr.feSe2feIdleVoice 3 = .feSe2feIdleVoice arg) ∧
    (3 : Handle).toNat < State.reset.cfg.numVoices ∧ State.reset.x.fetforce1.getLsbD 15 = false ∧
    (0x8000 : Word).getLsbD 15 = true := ⟨⟨3, rfl⟩, by decide⟩
theorem witness_translation : (voiced []).halt = .running ∧
    (0xFFF : Word).toNat / State.reset.cfg.pageSize ≤ State.reset.x.gpsmaxsge.toNat ∧
    State.reset.x.gpsmaxsge.toNat < (0x1000 : Word).toNat / State.reset.cfg.pageSize := by decide +kernel
theorem witness_translation_round_trip : 0xFFFFF ≤ (sgTable State.reset .voice).2 ∧ 0xFFF < State.reset.cfg.pageSize ∧
    0xFFFFF * State.reset.cfg.pageSize + 0xFFF < 2 ^ 32 := by decide
theorem witness_envelope_stepped : (voiced []).halt = .running ∧ (3 : Handle).toNat < (voiced []).cfg.numVoices ∧
    voiceField (voiced [(vCount .a, 63), (vAttack .a, 4), (vHold .a, 2)]) 3 (vCount .a) = 63 ∧
    voiceField (voiced [(vCount .f, 1), (vRelease .f, 1)]) 3 (vRelease .f) = 1 := by decide +kernel
theorem witness_decay_stepped : voiceField (voiced []) 3 (vDecay .a) = 0 ∧
    voiceField (voiced [(vDecay .a, 1), (vCount .a, 18)]) 3 (vCount .a) - 1 = 16 * 1 + 1 ∧
    voiceField (voiced [(vDecay .a, 1), (vCount .a, 17)]) 3 (vCount .a) - 1 = 16 * 1 := by decide +kernel
theorem witness_decay_ends : voiceField (voiced [(vCount .f, 1)]) 3 (vCount .f) ≤ 1 := by decide +kernel
theorem witness_attack_lasts : voiceField (voiced [(vAttack .a, 1), (vState .a, 2)]) 3 (vAttack .a) = 1 ∧
    voiceField (voiced [(vAttack .a, 1), (vState .a, 2)]) 3 (vCount .a) = 0 ∧
    voiceField (voiced [(vAttack .a, 1), (vState .a, 2)]) 3 (vState .a) = 2 := by decide +kernel
theorem witness_release_lasts : voiceField (voiced [(vRelease .a, 1), (vCount .a, 16), (vActive, 1)]) 3 (vRelease .a) = 1 ∧
    voiceField (voiced [(vRelease .a, 1), (vCount .a, 16), (vActive, 1)]) 3 (vCount .a) = 16 * 1 ∧
    voiceField (voiced [(vRelease .a, 1), (vCount .a, 16), (vActive, 1)]) 3 vActive = 1 := by decide +kernel
theorem witness_position_resolved : voiceField (voiced [(vLbo, 5), (vEbo, 5)]) 3 vEbo = 5 ∧
    voiceField (voiced [(vLbo, 5), (vEbo, 5)]) 3 vLbo ≤ 5 ∧ (5 : Word).toNat ≤ 5 ∧ 5 < (6 : Word).toNat ∧
    voiceField (voiced [(vLbo, 6), (vEbo, 5)]) 3 vEbo < voiceField (voiced [(vLbo, 6), (vEbo, 5)]) 3 vLbo := by
  decide +kernel
theorem witness_step_offset_properties : (0 : Int) * 255 + 0 * 32 * (255 : Nat) = 0 ∧
    (0x1000 : Int) * 255 + 0 * 32 * (255 : Nat) = (1 : Nat) * (255 * 4096) ∧
    (-0x1000 : Int) * 255 + 0 * 32 * (255 : Nat) = -((1 : Nat) * (255 * 4096) : Int) := by decide
/-- The same with no voice table but page 0, and the base of voice 3 at its last byte. -/
def edged (fields : List (VField × Nat)) : State :=
  { sampled ((vBa, 0xFFF) :: fields) with cfg := { Params.spec with vpMaxSge := 0 } }
/-- Frame 1 of a stereo voice, and a container whose second byte leaves the table. -/
theorem witness_pcm_fetched : (sampled []).halt = .running ∧ fullTable (sampled []) .voice ∧
    voiceField (sampled [(vStereo, 1)]) 3 vStereo = 1 ∧
    (∀ ch ∈ List.range 2, ∀ j ∈ List.range 2, translate (sampled [(vStereo, 1)]) .voice
      (BitVec.ofNat 32 (voiceField (sampled [(vStereo, 1)]) 3 vBa + 1 * 2 * 2 + ch * 2) + BitVec.ofNat 32 j) =
        .ok (0x200004 + BitVec.ofNat 32 (2 * ch + j))) ∧
    (littleEndian 2 fun j => memByte (sampled []).mem (0x200002 + BitVec.ofNat 32 j)) = 0x1234 ∧
    translate (edged []) .voice (BitVec.ofNat 32 (voiceField (edged []) 3 vBa) + 0) = .ok 0x200FFF ∧
    translate (edged []) .voice (BitVec.ofNat 32 (voiceField (edged []) 3 vBa) + 1) = .error .sgeRange := by
  decide +kernel
theorem witness_adpcm_fetched : (sampled []).halt = .running ∧ fullTable (sampled []) .voice ∧
    (3 : Handle).toNat < (sampled []).cfg.numVoices ∧
    (∀ j ∈ List.range 72, translate (sampled []) .voice (0 + BitVec.ofNat 32 j) = .ok (0x200000 + BitVec.ofNat 32 j)) ∧
    translate (edged []) .voice (0xFFF + 1) = .error .sgeRange := by decide +kernel
/-- The channel states of the block of those bytes, in a stereo voice. -/
theorem witness_adpcm_channel : ∀ ch, ch < 2 →
    AdpcmChannel (fun j => (memByte (sampled []).mem (0x200000 + BitVec.ofNat 32 j)).toNat) 2 ch
      (fun n => (adpcmState ((List.range 72).map fun j => memByte (sampled []).mem (0x200000 + BitVec.ofNat 32 j)) 2 ch n).1)
      (fun n => (adpcmState ((List.range 72).map fun j => memByte (sampled []).mem (0x200000 + BitVec.ofNat 32 j)) 2 ch n).2) := by
  intro ch hc
  refine ⟨?_, ?_, ?_⟩
  · revert ch
    decide +kernel
  · revert ch
    decide +kernel
  · rintro n hn _ _ _ rfl rfl rfl
    revert n
    revert ch
    decide +kernel
theorem witness_contribution_bounds : (255 : Nat) ≤ 255 ∧ (4095 : Nat) ≤ 4095 := by decide
theorem witness_lane_mixed : (voiced []).cfg.mixOverflow = .wrap ∧ (voiced []).halt = .running ∧
    { Params.spec with mixOverflow := .saturate }.mixOverflow = .saturate ∧ voiceField (voiced []) 3 (vBin 7) = 0 := by
  decide +kernel
/-- The state an outcome goes on in, the reset state if it stops. -/
def result (o : Host.Outcome State Fault Refusal) : State :=
  match o with
  | .next t => t
  | _ => State.reset
theorem next_result {o : Host.Outcome State Fault Refusal} {p : State → Bool} (h : next o p = true) :
    o = .next (result o) ∧ p (result o) = true := by
  cases o with
  | next t => exact ⟨rfl, h⟩
  | fault _ => cases h
  | refused _ => cases h
/-- A release in state 6 beside an envelope that is off; each envelope without a step; the first handle outside the table. -/
theorem witness_paused_visit : steppable (voiced [(vState .a, 6), (vState .f, 0)]) 3 ∧
    (voiced []).cfg.numVoices ≤ (0xFFFF : Handle).toNat ∧ (3 : Handle).toNat < (voiced []).cfg.numVoices ∧
    voiceField (voiced [(vState .a, 7)]) 3 (vState .a) = 7 ∧ 7 < voiceField (voiced [(vState .a, 8)]) 3 (vState .a) ∧
    voiceField (voiced [(vState .a, 6), (vState .f, 7)]) 3 (vState .a) < 7 ∧
    voiceField (voiced [(vState .a, 6), (vState .f, 7)]) 3 (vState .f) = 7 ∧
    7 < voiceField (voiced [(vState .f, 8)]) 3 (vState .f) := by decide +kernel
theorem test_second_envelope_stops : next (exec (.voiceActive 3)
    (voiced [(vState .a, 6), (vCount .a, 1), (vRelease .a, 1), (vState .f, 7), (vActive, 1)]))
    (fun t => t.halt == .halted .envForceRelease && voiceField t 3 (vCount .a) == 0 && voiceField t 3 vActive == 0) =
    true := by decide +kernel
/-- The state both envelope rows of voice 3 lead to. -/
def stepped (s : State) : State := result (exec (envRow s 3 .f) (result (exec (envRow s 3 .a) s)))
/-- What a visit asks of voice 3, in one state; the rows lead to `stepped`. -/
abbrev visitable (s : State) : Prop :=
  s.halt = .running ∧ (3 : Handle).toNat < s.cfg.numVoices ∧ steppable s 3 ∧
  (next (exec (envRow s 3 .a) s) fun t => next (exec (envRow s 3 .f) t) fun w => w == stepped s) = true
/-- What lane `k` of voice 3 is fetched by and as, before its end. -/
def lanePos (s : State) (k : Nat) : Nat := framePosition s 3 (voiceField (stepped s) 3 (vLevel .f)) k
def fetchedLane (s : State) (k : Nat) : State := result (exec (fetchRow s 3 (lanePos s k)) (stepped s))
def laneFrame (s : State) (k : Nat) : List Int := (fetchedLane s k).sub.frame
/-- Lanes whose positions need no wrap. -/
theorem lanesFetched {s : State} {n : Nat} (hn : n ≤ 32) (h : ∀ k, k < n → lanePos s k ≤ voiceField s 3 vEbo ∧
    (next (exec (fetchRow s 3 (lanePos s k)) (stepped s)) fun v => v.halt == .running) = true) :
    LanesFetched s (stepped s) 3 n (laneFrame s) :=
  ⟨hn, fun k hk => ⟨_, _, .inl ⟨(h k hk).1, rfl⟩, (next_result (h k hk).2).1, eq_of_beq (next_result (h k hk).2).2, rfl⟩⟩
/-- A paused voice of an illegal format. -/
theorem witness_active_paused : visitable (playing [(vPaused, 1), (vSampleSize, 3)]) ∧
    ¬ legalFormat (playing [(vPaused, 1), (vSampleSize, 3)]) 3 := by decide +kernel
/-- In a full table, a loop of one sample and a voice that stops in its frame. -/
theorem witness_active_visit_completes : ∀ s ∈ [playing [(vLbo, 5), (vEbo, 5), (vLoop, 1)], playing [(vEbo, 4)]],
    visitable s ∧ voiceField s 3 vPaused = 0 ∧ fullTable s .voice ∧ legalFormat s 3 ∧
    (voiceField s 3 vLoop = 0 ∨ voiceField s 3 vLbo ≤ voiceField s 3 vEbo) := by decide +kernel
/-- A voice of 8-bit samples in a table of one page, its first sample at the page's last byte. -/
def lastByte (ebo : Nat) : State := edged [(vActive, 1), (vEbo, ebo)]
/-- One sample that is fetched, with the end after it and with a second sample past the table. -/
theorem witness_active_partial_table : ∀ e ∈ [0, 1], visitable (lastByte e) ∧
    (sgTable (lastByte e) .voice).2 = 0 ∧ LanesFetched (lastByte e) (stepped (lastByte e)) 3 1 (laneFrame (lastByte e)) := by
  intro e he
  refine ⟨?_, ?_, lanesFetched (by decide) fun k hk => ?_⟩
  · revert e
    decide +kernel
  · revert e
    decide +kernel
  · obtain rfl : k = 0 := by omega
    revert e
    decide +kernel
theorem witness_active_ends : LanesEnd (lastByte 0) (stepped (lastByte 0)) 3 1 ∧
    NewCbo (lastByte 0) (stepped (lastByte 0)) 3 32 ∧
    Resolves (lastByte 1) 3 (lanePos (lastByte 1) 1) 1 ∧
    next (exec (fetchRow (lastByte 1) 3 1) (stepped (lastByte 1))) (fun v => v.halt == .halted .sgeRange) = true := by
  refine ⟨.inr (by decide +kernel), ?_, .inl (by decide +kernel), by decide +kernel⟩
  unfold NewCbo
  rw [if_pos (by decide +kernel)]
  decide +kernel
/-- A loop that ends before it begins, met in the frame's second lane, and met by the new `cbo` alone. -/
theorem witness_active_bad_loop : ∀ p ∈ [(0, 1, 1), (31, 32, 32)],
    visitable (playing [(vEbo, p.1), (vLbo, p.2.1), (vLoop, 1)]) ∧
    voiceField (playing [(vEbo, p.1), (vLbo, p.2.1), (vLoop, 1)]) 3 vEbo <
      voiceField (playing [(vEbo, p.1), (vLbo, p.2.1), (vLoop, 1)]) 3 vLbo ∧
    p.1 < lanePos (playing [(vEbo, p.1), (vLbo, p.2.1), (vLoop, 1)]) p.2.2 ∧
    LanesFetched (playing [(vEbo, p.1), (vLbo, p.2.1), (vLoop, 1)])
      (stepped (playing [(vEbo, p.1), (vLbo, p.2.1), (vLoop, 1)])) 3 p.2.2
      (laneFrame (playing [(vEbo, p.1), (vLbo, p.2.1), (vLoop, 1)])) := by
  intro p hp
  refine ⟨?_, ?_, ?_, lanesFetched ?_ ?_⟩ <;> revert p <;> decide +kernel
/-- A format without a kind, at the first lane. -/
theorem witness_active_illegal : visitable (playing [(vSampleSize, 3)]) ∧ ¬ legalFormat (playing [(vSampleSize, 3)]) 3 ∧
    lanePos (playing [(vSampleSize, 3)]) 0 ≤ voiceField (playing [(vSampleSize, 3)]) 3 vEbo := by decide +kernel
/-- Voice 3 alone in list 2D, the other lists empty, frame processing on. -/
def listed (tvl2d : Word) (fields : List (VField × Nat)) : State :=
  let s := playing ((vEbo, 0x1F) :: fields)
  { s with x := { s.x with sectl := 0x08, tvl2d := tvl2d, tvl3d := 0xFFFF, tvlmp := 0xFFFF } }
theorem test_tick_mixes : next (exec .tick (listed 3 [])) (fun t => (List.range 3).map (fun k => dspRead t .gp .x (0x1400 + k))
    == [8 * 32640, 8 * 4660, 0xFFFFFFF8] && t.x.cvl2d == 0xFFFF && t.x.nvl2d == 0xFFFF) = true := by decide +kernel
theorem witness_tick_while_disabled : State.reset.x.sectl.toNat / 8 % 4 = 0 ∧ (7 : Word).toNat / 8 % 4 = 0 := by decide
/-- With both cores held, and with the GP released. -/
theorem witness_empty_tick : (listed 0xFFFF []).halt = .running ∧ (listed 0xFFFF []).x.sectl.toNat / 8 % 4 ≠ 0 ∧
    (∀ l ∈ [VoiceList.l2d, .l3d, .lmp], argHandle (tvl (listed 0xFFFF []) l) = Config.handleNil) ∧
    (∀ c ∈ [Core.gp, .ep], released ((listed 0xFFFF []).rst c) = false) ∧
    released ({ listed 0xFFFF [] with gprst := 3 }.rst .gp) = true := by decide +kernel
/-- The voices of that list. -/
def listedVoices (l : VoiceList) : List Handle := if l = .l2d then [3] else []
theorem linkedTo_one {s : State} {h k last : Handle} (h1 : h = k) (h2 : k ≠ Config.handleNil)
    (h3 : BitVec.ofNat 16 (voiceField s k vLink) = last) : LinkedTo s h last [k] := by
  subst h1
  exact ⟨rfl, h2, h3⟩
theorem witness_tick_completes : (listed 3 []).halt = .running ∧ (listed 3 []).x.sectl.toNat / 8 % 4 ≠ 0 ∧
    fullTable (listed 3 []) .voice ∧ (∀ l, (listedVoices l).length ≤ (listed 3 []).cfg.numVoices) ∧
    ∀ l, ∀ h ∈ listedVoices l, VoiceReady (listed 3 []) h := by
  refine ⟨by decide +kernel, by decide +kernel, by decide +kernel, ?_, ?_⟩
  · intro l
    refine Nat.le_trans (?_ : _ ≤ 1) (by decide +kernel)
    cases l <;> decide
  · have h3 : VoiceReady (listed 3 []) 3 := by decide +kernel
    intro l h hh
    have e : h = 3 := by
      cases l
      · exact List.mem_singleton.mp hh
      · cases hh
      · cases hh
    rw [e]
    exact h3
theorem witness_lists : ∀ l, Linked (listed 3 []) (argHandle (tvl (listed 3 []) l)) (listedVoices l) := by
  intro l
  cases l
  · exact linkedTo_one (by decide +kernel) (by decide) (by decide +kernel)
  · exact (by decide +kernel : argHandle (tvl (listed 3 []) .l3d) = Config.handleNil)
  · exact (by decide +kernel : argHandle (tvl (listed 3 []) .lmp) = Config.handleNil)
/-- A table of 256 voices whose list 2D leads past voice 3 to handle 0x100. -/
def misled : State := { listed 3 [(vLink, 0x100)] with cfg := { Params.spec with numVoices := 256 } }
theorem witness_tick_stopped : misled.halt = .running ∧ misled.x.sectl.toNat / 8 % 4 ≠ 0 ∧ fullTable misled .voice ∧
    (0x100 : Handle) ≠ Config.handleNil ∧ misled.cfg.numVoices ≤ (0x100 : Handle).toNat ∧ VoiceReady misled 3 ∧
    1 ≤ misled.cfg.numVoices ∧ listsBefore .l2d = [] := by decide +kernel
theorem witness_misled : LinkedTo misled (argHandle (tvl misled .l2d)) 0x100 [3] :=
  linkedTo_one (by decide +kernel) (by decide) (by decide +kernel)
/-- List 3D begins at voice 3, whose amplitude envelope has no step, and list 2D is empty. -/
def stuck : State := { listed 0xFFFF [(vState .a, 7)] with x := { (listed 0xFFFF []).x with tvl3d := 3 } }
theorem witness_tick_fatal : stuck.halt = .running ∧ stuck.x.sectl.toNat / 8 % 4 ≠ 0 ∧ fullTable stuck .voice ∧
    (3 : Handle).toNat < stuck.cfg.numVoices ∧ argHandle (tvl stuck .l2d) = Config.handleNil ∧
    argHandle (tvl stuck .l3d) = 3 ∧ listsBefore .l3d = [.l2d] ∧
    next (exec (visitRow stuck 3) { stuck with sub := { stuck.sub with mix := [] } })
      (fun w => w.halt == .halted .envForceRelease) = true := by decide +kernel
/-- For both statements about actions. -/
theorem witness_action : ((engine 0x28 0).dma .gp).control = 0x28 ∧ ((engine 0x20 0).dma .gp).control = 0x20 ∧
    ((engine 0x18 0).dma .gp).control = 0x18 ∧ ((engine 0x10 0).dma .gp).control = 0x10 ∧
    ((engine 0x10 0x4000).dma .gp).nextBlock.getLsbD 14 = true := by decide +kernel
theorem witness_fatal_operations_taken : State.reset.halt = .running ∧
    (0xFFFE : Handle).toNat < State.reset.cfg.numVoices := by decide
/-- A descriptor at X cell `a`: control `ctl`, two items at X cell 0, the next pointer `next`. -/
def described (s : State) (a : Nat) (next ctl : Word) : State :=
  [next, ctl, 2].zipIdx.foldl (fun t p => t.dspWrite .gp .x (a + p.2) p.1) s
/-- Three descriptors: to scratch, from scratch, and one from scratch that a circular buffer of one byte skips. -/
def chained : State :=
  described (described (described (engine 0x20 0x123) 0x123 0x200 0x0402) 0x200 0x300 0x0400) 0x300 0x4000 0x05C0
def chain : List Descriptor := [⟨0x200, 0x402, 2, 0, 0, 0, 0⟩, ⟨0x300, 0x400, 2, 0, 0, 0, 0⟩, ⟨0x4000, 0x5C0, 2, 0, 0, 0, 0⟩]
/-- The three as data, and what the walk reads. -/
theorem witness_chain : (chained.dma .gp).control = 0x20 ∧ fullTable chained (scratchTable .gp) ∧
    chained.halt = .running ∧ (chained.dma .gp).nextBlock = 0x123 ∧
    [0x123, 0x200, 0x300].map (descriptorAt chained .gp) =
      [⟨0x200, 0x402, 2, 0, 0, 0, 0⟩, ⟨0x300, 0x400, 2, 0, 0, 0, 0⟩, ⟨0x4000, 0x5C0, 2, 0, 0, 0, 0⟩] ∧
    [(0x123 : Word), 0x200, 0x300].map ptrEol = [false, false, false] ∧ ptrEol 0x4000 = true ∧
    [(0x123 : Word), 0x200, 0x300].map ptrAddr = [0x123, 0x200, 0x300] ∧ 0x300 + 6 < chained.cfg.xSize := by
  decide +kernel
theorem witness_chain_terminates : ChainTo chained .gp 0x4000 (chained.dma .gp).nextBlock chain := by
  obtain ⟨-, -, -, h1, h2, h3, h4, h5, h6⟩ := witness_chain
  simp only [List.map_cons, List.map_nil, List.cons.injEq, and_true] at h2 h3 h5
  have hx : ∀ p : Word, ptrAddr p ≤ 0x300 → ptrAddr p + 6 < chained.cfg.xSize := by omega
  rw [h1]
  exact ⟨h3.1, hx _ (by omega), by rw [h5.1, h2.1], h3.2.1, hx 0x200 (by omega), by rw [h5.2.1, h2.2.1],
    h3.2.2, hx 0x300 (by omega), by rw [h5.2.2, h2.2.2], rfl, h4⟩
theorem witness_chain_runs : chain.length ≤ 16384 ∧ (∀ d ∈ chain, d.runs) ∧
    ∀ d ∈ chain, d.dspOffset.toNat + d.count.toNat ≤ 2 := by decide +kernel
theorem chain_pointers (p : Word) (h : p ∈ (0x123 : Word) :: chain.map Descriptor.next) :
    ptrEol p = true ∨ 2 ≤ ptrAddr p := by
  simp only [chain, List.map_cons, List.map_nil, List.mem_cons, List.not_mem_nil, or_false] at h
  rcases h with rfl | rfl | rfl | rfl <;> decide
/-- The one body that moves data into X fills its cells 0 and 1. -/
theorem witness_chain_steady : SteadyChain 0x123 chain := by
  rintro d hd p hp he j ⟨-, -, idx, ⟨w, -, -, hw, -⟩, -, hj⟩ hin
  have h2 := witness_chain_runs.2.2 d hd
  rcases chain_pointers p hp with h | h
  · rw [h] at he
    cases he
  · omega
/-- Rows that come back to where they began can be walked again and again. -/
theorem walksTo_round {c : Core} {s : State} (hp : ptrEol (s.dma c).nextBlock = false) (hr : s.halt = .running)
    (h : descriptorRows c s = .next s) : ∀ n, WalksTo c n s s
  | 0 => rfl
  | n + 1 => ⟨hp, s, h, hr, walksTo_round hp hr h n⟩
/-- A descriptor of no items that names itself, once walked. -/
def selfNamed : State :=
  result (descriptorRows .gp (((engine 0x10 0x123).dspWrite .gp .x 0x123 0x123).dspWrite .gp .x 0x124 0x400))
theorem witness_chain_cycle : WalksTo .gp 16385 selfNamed selfNamed ∧ (selfNamed.dma .gp).control = 0x10 := by
  have h : (next (descriptorRows .gp selfNamed) fun t => t == selfNamed) = true := by decide +kernel
  have e := (next_result h).1
  rw [eq_of_beq (next_result h).2] at e
  exact ⟨walksTo_round (by decide +kernel) (by decide +kernel) e _, by decide +kernel⟩
/-- A walk over two descriptors, the second of a format without an item size; and one whose pointer leaves X. -/
def stopped : State := described (described (engine 0x10 0x123) 0x123 0x200 0x0402) 0x200 0x300 0x0000
theorem witness_chain_fatal : (stopped.dma .gp).control = 0x10 ∧ (stopped.dma .gp).nextBlock = 0x123 ∧
    (next (descriptorRows .gp stopped) fun u => u.halt == .running && (u.dma .gp).nextBlock == 0x200 &&
      next (descriptorRows .gp u) fun v => v.halt == .halted .dmaBadFormat) = true ∧
    (next (descriptorRows .gp (engine 0x10 0x17FA)) fun v => v.halt == .halted .dmaBounds) = true := by decide +kernel
theorem witness_walks_one : ∃ u, WalksTo .gp 1 stopped u := by
  have h : (next (descriptorRows .gp stopped) fun u => u.halt == .running) = true := by decide +kernel
  exact ⟨_, by decide +kernel, _, (next_result h).1, eq_of_beq (next_result h).2, rfl⟩
/-- That walk moved the first body, stays at the second descriptor and leaves RUNNING (R411, R421). -/
theorem test_start_stops : next (exec (.dmaActStart .gp 0) (stopped.setDma .gp { stopped.dmaGp with control := 0x20 }))
    (fun t => t.halt == .halted .dmaBadFormat && t.dmaGp == ⟨0, 0x10, 0, 0x200, false⟩ && t.sub == stopped.sub) = true := by
  decide +kernel
theorem witness_pointer_followed : (0x17F9 : BitVec 14).toNat + 6 < State.reset.cfg.xSize ∧
    State.reset.cfg.xSize ≤ (0x17FA : BitVec 14).toNat + 6 := by decide
theorem witness_direction_skipped_or_bounded : ((walking 1 0 2 true).walk .gp).skip = true ∧
    ((walking 2 0x17FF 2 false).walk .gp).skip = false ∧
    (∀ p ∈ [((0 : Nat), (0x1800 : Nat)), (0x1800, 0x2000), (0x2800, 0x3800)],
      ¬ (p.1 ≤ 0x17FF ∧ 0x17FF < p.2 ∧ 0x17FF + 2 ≤ p.2) ∧ ¬ (p.1 ≤ 0x2000 ∧ 0x2000 < p.2 ∧ 0x2000 + 0 ≤ p.2)) := by
  decide +kernel
/-- A walk over `count` items of 2 bytes at X cell 2, in a scratch table of one page, from linear address `target` on. -/
def onePage (count target : Word) : State :=
  let s := engine 0x10 0
  { s with x := { s.x with gpsmaxsge := 0 } }.setWalk .gp ⟨⟨0x4123, 0x402, count, 2, 0, 0, 0xFFF⟩, 2, false, target⟩
/-- The last two cells of P, and a transfer whose second item has a byte past the table. -/
theorem witness_scratch_to_dsp_moved : ((walking 2 0x37FE 4 false).walk .gp).skip = false ∧
    ((walking 2 0x37FE 4 false).walk .gp).itemSize = 4 ∧ (0x37FE : Word).toNat = 0x2800 + 0xFFE ∧ 0x2800 + 0xFFE + 2 ≤ 0x3800 ∧
    fullTable (walking 2 0x37FE 4 false) (scratchTable .gp) ∧
    (∀ j ∈ List.range 8, translate (walking 2 0x37FE 4 false) .gpScratch (0x10 + BitVec.ofNat 32 j) =
      .ok (0x10 + BitVec.ofNat 32 j)) ∧
    (∀ j ∈ List.range 2, translate (onePage 2 0xFFD) .gpScratch (0xFFD + BitVec.ofNat 32 j) =
      .ok (0xFFD + BitVec.ofNat 32 j)) ∧
    translate (onePage 2 0xFFD) .gpScratch (0xFFD + 3) = .error .sgeRange := by decide +kernel
/-- A walk over one item whose scratch page 0 is guest page 0x00200000, its table at 0x1000. -/
def paged : State :=
  let s := withBytes (walking 1 2 2 false) 0x1000 [0, 0, 0x20, 0]
  { s with x := { s.x with gpsaddr := 0x1000 } }
theorem witness_dsp_to_scratch_moved : (paged.walk .gp).skip = false ∧ (paged.walk .gp).itemSize = 2 ∧
    ((paged.walk .gp).desc.dspOffset.toNat = 0 + 2 ∧ 0 + 2 + (paged.walk .gp).desc.count.toNat ≤ 0x1800) ∧
    (∀ j ∈ List.range 2, translate paged .gpScratch ((paged.walk .gp).target + BitVec.ofNat 32 j) =
      .ok (0x200010 + BitVec.ofNat 32 j)) ∧
    (∀ j ∈ List.range 2, ∀ k ∈ List.range 2, 4 ≤ ((0x200010 + BitVec.ofNat 32 k : Word) - ((sgTable paged .gpScratch).1 +
      BitVec.ofNat 32 (((paged.walk .gp).target + BitVec.ofNat 32 j).toNat / paged.cfg.pageSize * 8))).toNat) := by
  decide +kernel
/-- A transfer over its own entry, the table at address 0: the first byte moves the page by 2. The same transfer at the
table's last byte stops after it. -/
theorem witness_self_writing : ∀ s, s = (onePage 1 0).dspWrite .gp .x 2 0x0302 →
    translate s .gpScratch 0 = .ok 0 ∧
    translate (s.setMem (s.mem.set 0 2)) .gpScratch 1 = .ok 3 ∧
    translate ((onePage 1 0xFFF).setMem ((onePage 1 0xFFF).mem.set 0xFFF 2)) .gpScratch (0xFFF + 1) = .error .sgeRange := by
  rintro s rfl
  decide +kernel

end Sys2Proof.Tests
end

section
/-! The Host's register operations (40_mmio_registers R182 to R189): what one access does, said once for every plain
register and every read, and what `UpdateIrq` leaves of the pending bits. -/

namespace Sys2Proof.Machine

/-! ## Register accesses -/

/-- A write of a plain register stores the value and changes nothing else (40_mmio_registers R182). -/
theorem runOp_plainRegister_write {s : State} (hs : s.halt = .running) (f : GlobalRegs → Word)
    (w : GlobalRegs → Word → GlobalRegs) (v : Word) :
    runOp (plainRegister f w (.write v)) s = .next (s.setX (w s.x v)) :=
  runOp_ok hs rfl

/-- A read hands the register's value to the Host and changes nothing else (40_mmio_registers R183). -/
theorem runOp_hostAccess_read {s : State} (hs : s.halt = .running) (f : State → Word) (w : Word → Op Unit) :
    runOp (hostAccess f w .read) s = .next (s.setHostData (f s)) :=
  runOp_ok hs rfl

/-- A write of ISTS is the acknowledgement (40_mmio_registers R184). -/
theorem exec_mmioIsts_write {s : State} (hs : s.halt = .running) (v : Word) :
    exec (.mmioIsts (.write v)) s = .next (ackInterrupt v s) :=
  exec_ok hs rfl

/-- A write of IEN is a store and a recomputation (40_mmio_registers R185). -/
theorem exec_mmioIen_write {s : State} (hs : s.halt = .running) (v : Word) :
    exec (.mmioIen (.write v)) s = .next (updateIrq (s.setX { s.x with ien := v })) :=
  exec_ok hs rfl

/-! ## The interrupt line -/

/-- `UpdateIrq` writes no pending bit but GINTSTS (60_exceptions R452). -/
theorem getLsbD_updateIrq_ists (s : State) {k : Nat} (h1 : 1 ≤ k) (h32 : k < 32) :
    (updateIrq s).x.ists.getLsbD k = s.x.ists.getLsbD k := by
  show (setField s.x.ists 0 1 _).getLsbD k = _
  rw [getLsbD_setField _ _ _ _ _ h32, if_neg (by omega)]

/-- The mask of every bit but GINTSTS. -/
theorem getLsbD_causeMask {k : Nat} (h1 : 1 ≤ k) (h32 : k < 32) : (0xFFFFFFFE : Word).getLsbD k = true := by
  have all : ∀ j < 32, 1 ≤ j → (0xFFFFFFFE : Word).getLsbD j = true := by decide
  exact all k h32 h1

/-- An acknowledgement clears the pending bits written 1 (40_mmio_registers R184). -/
theorem getLsbD_ackInterrupt_ists (s : State) (v : Word) {k : Nat} (h1 : 1 ≤ k) (h32 : k < 32) :
    (ackInterrupt v s).x.ists.getLsbD k = (s.x.ists.getLsbD k && !v.getLsbD k) := by
  rw [ackInterrupt, getLsbD_updateIrq_ists _ h1 h32]
  show (s.x.ists &&& ~~~ (v &&& 0xFFFFFFFE)).getLsbD k = _
  simp only [BitVec.getLsbD_and, BitVec.getLsbD_not, getLsbD_causeMask h1 h32, h32, decide_true, Bool.and_true,
    Bool.true_and]

/-- After an acknowledgement the line and GINTSTS agree with the formula (60_exceptions R452, R458). -/
theorem ackInterrupt_irqOk (s : State) (v : Word) : (ackInterrupt v s).IrqOk := updateIrq_irqOk _

end Sys2Proof.Machine

/-! ## The statements -/

namespace Sys2Proof.Proofs

open Sys2Proof Sys2Proof.Machine

/-- Settles O15: the write is `ackInterrupt`, whose bits, line and frame the rules above give. -/
theorem ists_written : Obligations.ists_written := by
  intro s v hs
  obtain ⟨hline, hbit⟩ := ackInterrupt_irqOk s v
  exact ⟨ackInterrupt v s, exec_mmioIsts_write hs v, fun _ => getLsbD_ackInterrupt_ists s v, hbit, hline, rfl⟩

/-- Settles O16: the write is `updateIrq` after the store, which touches GINTSTS and the line alone. -/
theorem ien_written : Obligations.ien_written := by
  intro s v hs
  obtain ⟨_, hbit⟩ := updateIrq_irqOk (s.setX { s.x with ien := v })
  exact ⟨_, exec_mmioIen_write hs v, updateIrq_ien _, fun _ => getLsbD_updateIrq_ists _, hbit, updateIrq_irq _, rfl⟩

/-- Settles O13: each of the 24 rows is a `plainRegister`, so the rule of its write is the whole claim. -/
theorem plain_register_written : Obligations.plain_register_written := by
  intro s v hs
  and_intros <;>
  · rw [exec_eq, opOf]
    exact runOp_plainRegister_write hs _ _ v

/-- Settles O14: the plain registers, ISTS, IEN and the reset registers differ in their writes only; each read is the
`hostAccess` one. -/
theorem register_read : Obligations.register_read := by
  intro s hs
  simp only [List.forall_mem_cons, List.not_mem_nil, false_imp_iff, implies_true, and_true]
  and_intros <;>
  · rw [exec_eq, opOf]
    exact runOp_hostAccess_read hs _ _

end Sys2Proof.Proofs
end

section
/-! The front-end commands that set a context register or a latch (41_frontend_commands R221, R222, R244, R246): each is one
`update`, which raises nothing. -/

namespace Sys2Proof.Machine

/-- The index of a latch command is the argument's low 16 bits (41_frontend_commands R244, R246). -/
theorem argIndex_eq (w : Word) : argIndex w = BitVec.ofNat 16 w.toNat := by
  apply BitVec.eq_of_toNat_eq
  simp [argIndex]

/-- SET_ANTECEDENT_VOICE stores the whole argument, unchecked (41_frontend_commands R221). -/
theorem exec_feSetAntecedentVoice {s : State} (hs : s.halt = .running) (arg : Word) :
    exec (.feSetAntecedentVoice arg) s = .next (s.setX { s.x with feav := arg }) :=
  exec_ok hs rfl

/-- SET_CURRENT_VOICE stores the low half of the argument, unchecked (41_frontend_commands R222). -/
theorem exec_feSetCurrentVoice {s : State} (hs : s.halt = .running) (arg : Word) :
    exec (.feSetCurrentVoice arg) s = .next (s.setX { s.x with fecv := arg &&& 0x0000FFFF }) :=
  exec_ok hs rfl

/-- SET_CURRENT_INBUF_SGE stores its index in the input latch (41_frontend_commands R244). -/
theorem exec_feSetCurrentInbufSge {s : State} (hs : s.halt = .running) (arg : Word) :
    exec (.feSetCurrentInbufSge arg) s = .next { s with inbufSge := argIndex arg } :=
  exec_ok hs rfl

/-- SET_CURRENT_OUTBUF_SGE stores its index in the output latch (41_frontend_commands R246). -/
theorem exec_feSetCurrentOutbufSge {s : State} (hs : s.halt = .running) (arg : Word) :
    exec (.feSetCurrentOutbufSge arg) s = .next { s with outbufSge := argIndex arg } :=
  exec_ok hs rfl

end Sys2Proof.Machine

namespace Sys2Proof.Proofs

open Sys2Proof Sys2Proof.Machine

/-- Settles O21: the two context commands store through `setX`; the two latch commands store `argIndex`, the low 16 bits
by `argIndex_eq`. -/
theorem contexts_set : Obligations.contexts_set := by
  intro s arg hs
  rw [← argIndex_eq]
  exact ⟨exec_feSetAntecedentVoice hs arg, exec_feSetCurrentVoice hs arg, exec_feSetCurrentInbufSge hs arg,
    exec_feSetCurrentOutbufSge hs arg⟩

end Sys2Proof.Proofs
end

section
/-! A core's accesses to the registers of its DMA engine (45_dma_engine R391, R393 to R395): what one access does, said once
for every register. -/

namespace Sys2Proof.Machine

/-- A read hands the register's value to the core's program and changes nothing else, whatever a write of that register
does (45_dma_engine R391). -/
theorem runOp_dmaAccess_read {s : State} (hs : s.halt = .running) (f : State → Word) (w : Word → Op Unit) :
    runOp (dmaAccess f w .read) s = .next (s.setDspData (f s)) :=
  runOp_ok hs rfl

/-- A write that is one change of the engine makes that change and nothing else: no action and no walk
(45_dma_engine R393 to R395). -/
theorem runOp_dmaAccess_write {s : State} (hs : s.halt = .running) (f : State → Word) (c : Core)
    (g : Word → DmaRegs → DmaRegs) (v : Word) :
    runOp (dmaAccess f (fun v => dmaUpdate c (g v)) (.write v)) s = .next (s.setDma c (g v (s.dma c))) :=
  runOp_ok hs rfl

end Sys2Proof.Machine

namespace Sys2Proof.Proofs

open Sys2Proof Sys2Proof.Machine

/-- Settles O50: CONFIGURATION, START_BLOCK and NEXT_BLOCK are written by one change of the engine; all four registers,
CONTROL among them, are read alike. -/
theorem dma_register_accessed : Obligations.dma_register_accessed := by
  intro s c v hs
  simp only [exec_eq, opOf]
  exact ⟨runOp_dmaAccess_write hs _ c (fun v d => { d with configuration := v }) v,
    runOp_dmaAccess_write hs _ c (fun v d => { d with startBlock := v }) v,
    runOp_dmaAccess_write hs _ c (fun v d => { d with nextBlock := v }) v,
    runOp_dmaAccess_read hs _ _, runOp_dmaAccess_read hs _ _, runOp_dmaAccess_read hs _ _, runOp_dmaAccess_read hs _ _⟩

end Sys2Proof.Proofs
end

section
/-! The decoder and the encoder (30_encoding R121 to R125, R151 to R158, R166): what an aligned word access decodes to by its
offset, which offsets and methods no row owns, and the operation of each second name. -/

namespace Sys2Proof

open Sys2Proof.Machine

/-! ## Window offsets -/

/-- An aligned word access to the window is decoded by its offset (30_encoding R125). -/
theorem decode_mmio_word {o : BitVec 19} (h : o.toNat % 4 = 0) (a : Access) :
    decode (.mmio o .word a) = .ok (decodeMmio o.toNat a) := if_pos h

/-- The byte offset of a cell of a window that lies inside the register window. -/
theorem windowOffset_toNat {n : Nat} (base : Nat) (idx : BitVec n) (h : base + 4 * 2 ^ n ≤ 2 ^ 19) :
    (windowOffset base idx).toNat = base + 4 * idx.toNat := by
  rw [windowOffset, BitVec.toNat_ofNat, Nat.mod_eq_of_lt]
  have := idx.isLt
  omega

/-- A cell's index is read back from its offset. -/
theorem windowIndex_add {n : Nat} (base : Nat) (idx : BitVec n) : windowIndex n base (base + 4 * idx.toNat) = idx := by
  rw [windowIndex, Nat.add_sub_cancel_left, Nat.mul_div_cancel_left _ (by decide), BitVec.ofNat_toNat,
    BitVec.setWidth_eq]

/-- An access at the offset of a window's cell decodes as `decodeMmio` decodes that offset. -/
theorem decode_windowOffset {n : Nat} (base : Nat) (idx : BitVec n) (a : Access) (hb : base % 4 = 0)
    (h : base + 4 * 2 ^ n ≤ 2 ^ 19) :
    decode (.mmio (windowOffset base idx) .word a) = .ok (decodeMmio (base + 4 * idx.toNat) a) := by
  rw [decode_mmio_word (by rw [windowOffset_toNat base idx h]; omega), windowOffset_toNat base idx h]

/-- The word index of an aligned offset of the register window. -/
theorem windowIndex_zero_toNat {o : Nat} (h4 : o % 4 = 0) (h : o < 2 ^ 19) : 4 * (windowIndex 17 0 o).toNat = o := by
  rw [windowIndex, BitVec.toNat_ofNat]
  omega

/-! ## Registers and methods -/

/-- An offset that is not listed is no register (30_encoding R121). -/
theorem globalRegister_none {o : Nat} (h : o ∉ registerOffsets) : globalRegister o = none := by
  unfold globalRegister
  split
  case h_27 => rfl
  all_goals exact absurd (by decide) h

/-- A listed offset is a register (30_encoding R121). -/
theorem globalRegister_ne_none {o : Nat} (h : o ∈ registerOffsets) : globalRegister o ≠ none := by
  have listed : ∀ k ∈ registerOffsets, globalRegister k ≠ none := by simp [registerOffsets, globalRegister]
  exact listed o h

/-- Only listed offsets are registers. -/
theorem globalRegister_some {o : Nat} {mk : Access → Instr} (h : globalRegister o = some mk) (a : Access) :
    (mk a).WellFormed := by
  unfold globalRegister at h
  split at h <;> cases h <;> trivial

/-- A method that no row lists is unknown (41_frontend_commands R252). -/
theorem decodeFe_unknown {m : Nat} (h : m ∉ feMethods) (arg : Word) :
    decodeFe m arg = .feUnknown (BitVec.ofNat 14 (m / 4)) arg := by
  unfold decodeFe
  split
  case h_27 => rfl
  all_goals exact absurd (by decide) h

/-- The index of an unknown method is kept. -/
theorem decodeFe_unknownIndex {idx : BitVec 14} (h : 4 * idx.toNat ∉ feMethods) (arg : Word) :
    decodeFe (4 * idx.toNat) arg = .feUnknown idx arg := by
  rw [decodeFe_unknown h, Nat.mul_div_cancel_left _ (by decide), BitVec.ofNat_toNat, BitVec.setWidth_eq]

/-- Every command of a method in the port's range is written in its own encoding. -/
theorem decodeFe_wellFormed {m : Nat} (h4 : m % 4 = 0) (hm : m < 0x10000) {arg : Word} {i : Instr}
    (h : decodeFe m arg = i) : i.WellFormed := by
  subst h
  by_cases hf : m ∈ feMethods
  · unfold decodeFe
    split
    case h_27 => simp_all [feMethods]
    all_goals trivial
  · rw [decodeFe_unknown hf]
    have hidx : 4 * (BitVec.ofNat 14 (m / 4)).toNat = m := by
      rw [BitVec.toNat_ofNat]
      omega
    show 4 * (BitVec.ofNat 14 (m / 4)).toNat ∉ feMethods
    rwa [hidx]

/-- The command that the port runs for a method is the operation of the row it decodes to (40_mmio_registers R194). -/
theorem opOf_decodeFe (m : Nat) (arg : Word) : opOf (decodeFe m arg) = feCommand m arg := by
  by_cases h : m ∈ feMethods
  · simp only [feMethods, List.mem_cons, List.not_mem_nil, or_false] at h
    rcases h with rfl | rfl | rfl | rfl | rfl | rfl | rfl | rfl | rfl | rfl | rfl | rfl | rfl | rfl | rfl | rfl | rfl |
      rfl | rfl | rfl | rfl | rfl | rfl | rfl | rfl | rfl <;> rfl
  · rw [decodeFe_unknown h]
    unfold feCommand
    split
    case h_27 => rfl
    all_goals exact absurd (by decide) h

/-! ## Offsets that no row owns -/

/-- The gaps of the two register blocks, and what lies past the command port's end (30_encoding R123 to R125). -/
def windowGap (o : Nat) : Prop :=
  (0x34000 ≤ o ∧ o < 0x35000) ∨ (0x38000 ≤ o ∧ o < 0x3A000) ∨ (0x3E000 ≤ o ∧ o < 0x3FFFC) ∨ (0x40000 ≤ o ∧ o < 0x50000) ∨
  (0x54000 ≤ o ∧ o < 0x56000) ∨ (0x58000 ≤ o ∧ o < 0x5A000) ∨ (0x5E000 ≤ o ∧ o < 0x5FFFC) ∨ 0x60000 ≤ o

/-- Below the command port an offset is unmapped when it is no register's; past it, when it lies in a gap. -/
theorem unmappedOffset_iff (o : Nat) :
    unmappedOffset o = true ↔ (o < 0x20000 ∧ o ∉ registerOffsets) ∨ windowGap o := by
  simp only [unmappedOffset, windowGap, Bool.or_eq_true, Bool.and_eq_true, decide_eq_true_eq, Bool.not_eq_true',
    List.contains_eq_mem, decide_eq_false_iff_not, or_assoc]

/-- An unmapped offset decodes to the unmapped row (30_encoding R125, 40_mmio_registers R198). -/
theorem decodeMmio_unmapped {o : Nat} (h : unmappedOffset o = true) (a : Access) :
    decodeMmio o a = .mmioUnmapped (windowIndex 17 0 o) a := by
  rcases (unmappedOffset_iff o).1 h with ⟨ho, hr⟩ | hgap
  · rw [decodeMmio, if_pos ho, globalRegister_none hr]
  · unfold decodeMmio decodeGp decodeEp
    rcases hgap with h | h | h | h | h | h | h | h <;>
      simp (disch := omega) only [if_neg, if_pos]

/-- Every mapped offset of the GP block is a window cell's or the reset register's. -/
theorem decodeGp_wellFormed {o : Nat} (h4 : o % 4 = 0) (ho : o < 0x40000) (hg : ¬ windowGap o) {a : Access} {i : Instr}
    (h : decodeGp o a = i) : i.WellFormed := by
  subst h
  unfold windowGap at hg
  unfold decodeGp
  split_ifs
  · trivial
  · omega
  · trivial
  · trivial
  · omega
  · trivial
  · trivial
  · trivial
  · omega

/-- Every mapped offset of the EP block is a window cell's or the reset register's. -/
theorem decodeEp_wellFormed {o : Nat} (h4 : o % 4 = 0) (ho : o < 0x60000) (hg : ¬ windowGap o) {a : Access} {i : Instr}
    (h : decodeEp o a = i) : i.WellFormed := by
  subst h
  unfold windowGap at hg
  unfold decodeEp
  split_ifs
  · trivial
  · omega
  · trivial
  · omega
  · trivial
  · trivial
  · trivial
  · omega

/-- A write at the command port is the command of its method (30_encoding R122). -/
theorem decodePort_write (o : Nat) (v : Word) : decodePort o (.write v) = decodeFe (o - 0x20000) v := rfl

/-- An access to the command port is a read or a command. -/
theorem decodePort_wellFormed {o : Nat} (h4 : o % 4 = 0) (hlo : 0x20000 ≤ o) (ho : o < 0x30000) {a : Access} {i : Instr}
    (h : decodePort o a = i) : i.WellFormed := by
  cases a with
  | read => exact h ▸ rfl
  | write v =>
    have h4' : (o - 0x20000) % 4 = 0 := by omega
    have ho' : o - 0x20000 < 0x10000 := by omega
    exact decodeFe_wellFormed h4' ho' ((decodePort_write o v).symm.trans h)

/-- What an aligned offset of the window decodes to is written in its own encoding. -/
theorem decodeMmio_wellFormed {o : Nat} (h4 : o % 4 = 0) (ho : o < 2 ^ 19) {a : Access} {i : Instr}
    (h : decodeMmio o a = i) : i.WellFormed := by
  by_cases hu : unmappedOffset o = true
  · rw [← h, decodeMmio_unmapped hu]
    show unmappedOffset (4 * (windowIndex 17 0 o).toNat) = true
    rwa [windowIndex_zero_toNat h4 ho]
  · rw [unmappedOffset_iff, not_or] at hu
    obtain ⟨hreg, hgap⟩ := hu
    have hmapped : ¬ (0x40000 ≤ o ∧ o < 0x50000) ∧ ¬ 0x60000 ≤ o := by
      unfold windowGap at hgap
      omega
    unfold decodeMmio at h
    split_ifs at h with h1
    · cases hr : globalRegister o with
      | some mk =>
        rw [hr] at h
        exact h ▸ globalRegister_some hr a
      | none => exact absurd hr (globalRegister_ne_none (by_contra fun hn => hreg ⟨h1, hn⟩))
    · exact decodePort_wellFormed h4 (by omega) ‹_› h
    · exact decodeGp_wellFormed h4 ‹_› hgap h
    · omega
    · exact decodeEp_wellFormed h4 ‹_› hgap h
    · omega

/-- A cell of a window decodes to the window's row, when every offset of the window does. -/
theorem decode_window {n : Nat} (base : Nat) (row : BitVec n → Access → Instr) (idx : BitVec n) (a : Access)
    (hrow : ∀ o, base ≤ o → o < base + 4 * 2 ^ n → decodeMmio o a = row (windowIndex n base o) a)
    (hb : base % 4 = 0 := by decide) (h : base + 4 * 2 ^ n ≤ 2 ^ 19 := by decide) :
    decode (.mmio (windowOffset base idx) .word a) = .ok (row idx a) := by
  have hlt := idx.isLt
  rw [decode_windowOffset base idx a hb h, hrow _ (by omega) (by omega), windowIndex_add]

/-- A write at the offset of a method is its command (30_encoding R122). -/
theorem decode_command (idx : BitVec 14) (v : Word) :
    decode (.mmio (windowOffset 0x20000 idx) .word (.write v)) = .ok (decodeFe (4 * idx.toNat) v) := by
  have hlt := idx.isLt
  rw [decode_windowOffset _ idx _ (by decide) (by decide), decodeMmio, if_neg (by omega), if_pos (by omega),
    decodePort_write, Nat.add_sub_cancel_left]

/-! ## Actions and classes -/

/-- A word with the action's code in its low three bits is that action, the other bits kept (30_encoding R155). -/
theorem field_append (rest : BitVec 29) (code : BitVec 3) : field (rest ++ code) 0 3 = code.toNat := by
  have h : (rest ++ code).toNat = rest.toNat * 8 + code.toNat := by
    rw [BitVec.toNat_append, ← Nat.shiftLeft_add_eq_or_of_lt code.isLt, Nat.shiftLeft_eq]
  rw [field_nat, h]
  omega

/-- The ignored bits of an action's word. -/
theorem extractLsb'_append (rest : BitVec 29) (code : BitVec 3) : (rest ++ code).extractLsb' 3 29 = rest := by
  rw [BitVec.extractLsb'_append_eq_left]

/-- The operation of a CONTROL write's row is what the write of CONTROL runs (45_dma_engine R396). -/
theorem opOf_decodeAction (c : Core) (v : Word) : opOf (decodeAction c v) = controlWrite c v := by
  have hlt : field v 0 3 < 8 := field_lt v 0 3
  unfold decodeAction controlWrite
  generalize field v 0 3 = code at hlt
  interval_cases code <;> rfl

/-! ## The classes of a word -/

/-- Every DMA register access is written in its own encoding: a read of a register, a write of a plain one, an action. -/
theorem decodeDma_wellFormed (c : Core) (id : BitVec 2) (a : Access) : (decodeDma c id a).WellFormed := by
  unfold decodeDma
  split
  case h_2 => rfl
  case h_3 =>
    unfold decodeAction
    dsimp only
    split <;> trivial
  all_goals trivial

theorem decodeFormat_wellFormed (c : Core) (control : Word) : (decodeFormat c control).WellFormed := by
  unfold decodeFormat
  split <;> trivial

theorem decodeEnv_wellFormed (h : Handle) (e : Env) (state : BitVec 4) : (decodeEnv h e state).WellFormed := by
  unfold decodeEnv
  split <;> trivial

theorem decodeFmt_wellFormed (h : Handle) (p w : Word) : (decodeFmt h p w).WellFormed := by
  unfold decodeFmt
  split <;> trivial

/-- The buffer id of a control word that does not select the circular buffer is another one. -/
theorem bufferId_ne {control : Word} (h : field control 5 4 ≠ Config.bufCircular) :
    (control.extractLsb' 5 4).toNat ≠ Config.bufCircular := by
  rwa [BitVec.extractLsb'_toNat]

/-- The word of an action decodes to it, the ignored bits kept (30_encoding R155). -/
theorem decode_action (c : Core) (rest : BitVec 29) (code : BitVec 3) :
    decode (.dma c 1 (.write (rest ++ code))) = .ok (match code.toNat with
      | 0 => .dmaActNop c rest
      | 1 => .dmaActStart c rest
      | 2 => .dmaActStop c rest
      | 3 => .dmaActFreeze c rest
      | 4 => .dmaActUnfreeze c rest
      | 5 => .dmaActAbort c rest
      | 6 => .dmaActReserved6 c rest
      | _ => .dmaActReserved7 c rest) := by
  show Except.ok (decodeAction c (rest ++ code)) = _
  rw [decodeAction, field_append, extractLsb'_append] <;> rfl

/-- A pointer with 14 address bits is classified by the bits above them (30_encoding R157). -/
theorem decode_pointer (c : Core) (addr : BitVec 14) :
    decode (.descPtr c ((1 : BitVec 18) ++ addr)) = .ok (.descPtrEol c addr) ∧
      decode (.descPtr c ((0 : BitVec 18) ++ addr)) = .ok (.descPtrBlock c addr) := by
  have hf (k : BitVec 18) : field (k ++ addr) 14 1 = k.toNat % 2 := by
    have h : (k ++ addr).toNat = k.toNat * 2 ^ 14 + addr.toNat := by
      rw [BitVec.toNat_append, ← Nat.shiftLeft_add_eq_or_of_lt addr.isLt, Nat.shiftLeft_eq]
    have := addr.isLt
    rw [field_nat, h]
    omega
  have he (k : BitVec 18) : (k ++ addr).extractLsb' 0 14 = addr := BitVec.extractLsb'_append_eq_right
  constructor
  · rw [decode, if_pos (by rw [hf 1]; decide), he]
  · rw [decode, if_neg (by rw [hf 0]; decide), he]

/-- A buffer id that is not the circular one's decodes to the offset row with that id (30_encoding R158). -/
theorem decode_bufOffset (c : Core) (bufId : BitVec 4) (h : bufId.toNat ≠ Config.bufCircular) :
    decode (.descBuf c (bufId.setWidth 32 <<< 5)) = .ok (.descBufOffset c bufId) := by
  have all : ∀ b : BitVec 4, field (b.setWidth 32 <<< 5) 5 4 = b.toNat ∧
      ((b.setWidth 32 <<< 5 : Word)).extractLsb' 5 4 = b := by decide
  obtain ⟨hf, he⟩ := all bufId
  rw [decode, if_neg (hf ▸ h), he]

/-- Voice word 0x04 with container code 2 is ADPCM, whatever the sample size (30_encoding R133). -/
theorem decode_adpcm (h : Handle) (p : Word) (ss : BitVec 2) :
    decode (.fmtClass h p ((2 : BitVec 2) ++ ss ++ (0 : BitVec 28))) = .ok (.fmtAdpcm h p ss) := by
  have all : ∀ b : BitVec 2, decodeFmt h p ((2 : BitVec 2) ++ b ++ (0 : BitVec 28)) = .fmtAdpcm h p b := by
    intro b
    fin_cases b <;> rfl
  exact congrArg Except.ok (all ss)

/-- A state code of 8 or more is bad, its low bits kept (42_envelope R295). -/
theorem decode_badState (h : Handle) (e : Env) (low : BitVec 3) :
    decode (.env h e ((1 : BitVec 1) ++ low)) = .ok (.envBadState h e low) := by
  have all : ∀ b : BitVec 3, decodeEnv h e ((1 : BitVec 1) ++ b) = .envBadState h e b := by
    intro b
    fin_cases b <;> rfl
  exact congrArg Except.ok (all low)

end Sys2Proof

namespace Sys2Proof.Proofs

open Sys2Proof Sys2Proof.Machine

/-- Settles O2, by cases on the operation: the rows with fixed words by evaluation, the windows by the index read back from
the offset, the rows with free bits by the rule of their class. -/
theorem decode_encode : Obligations.decode_encode := by
  intro i hi
  cases i with
  | mmioGpX idx a =>
    exact decode_window 0x30000 .mmioGpX idx a fun o lo hi => by
      simp (disch := omega) only [decodeMmio, decodeGp, if_pos, if_neg]
  | mmioGpMixbuf idx a =>
    exact decode_window 0x35000 .mmioGpMixbuf idx a fun o lo hi => by
      simp (disch := omega) only [decodeMmio, decodeGp, if_pos, if_neg]
  | mmioGpY idx a =>
    exact decode_window 0x36000 .mmioGpY idx a fun o lo hi => by
      simp (disch := omega) only [decodeMmio, decodeGp, if_pos, if_neg]
  | mmioGpPLower idx a =>
    exact decode_window 0x3A000 .mmioGpPLower idx a fun o lo hi => by
      simp (disch := omega) only [decodeMmio, decodeGp, if_pos, if_neg]
  | mmioGpPUpper idx a =>
    exact decode_window 0x3C000 .mmioGpPUpper idx a fun o lo hi => by
      simp (disch := omega) only [decodeMmio, decodeGp, if_pos, if_neg]
  | mmioEpX idx a =>
    exact decode_window 0x50000 .mmioEpX idx a fun o lo hi => by
      simp (disch := omega) only [decodeMmio, decodeEp, if_pos, if_neg]
  | mmioEpY idx a =>
    exact decode_window 0x56000 .mmioEpY idx a fun o lo hi => by
      simp (disch := omega) only [decodeMmio, decodeEp, if_pos, if_neg]
  | mmioEpPLower idx a =>
    exact decode_window 0x5A000 .mmioEpPLower idx a fun o lo hi => by
      simp (disch := omega) only [decodeMmio, decodeEp, if_pos, if_neg]
  | mmioEpPUpper idx a =>
    exact decode_window 0x5C000 .mmioEpPUpper idx a fun o lo hi => by
      simp (disch := omega) only [decodeMmio, decodeEp, if_pos, if_neg]
  | mmioCmdport idx a =>
    subst hi
    exact decode_window 0x20000 .mmioCmdport idx .read fun o lo hi => by
      simp (disch := omega) only [decodeMmio, decodePort, if_pos, if_neg]
  | mmioUnmapped idx a =>
    rw [encode, decode_windowOffset _ _ _ (by decide) (by decide), Nat.zero_add, decodeMmio_unmapped hi]
    rw [show 4 * idx.toNat = 0 + 4 * idx.toNat by omega, windowIndex_add]
  | feSetAntecedentVoice arg => exact decode_command 0x048 arg
  | feVoiceOn arg => exact decode_command 0x049 arg
  | feVoiceOff arg => exact decode_command 0x04A arg
  | feVoicePause arg => exact decode_command 0x050 arg
  | feSetCurrentVoice arg => exact decode_command 0x0BE arg
  | feSetVoiceCfgVbin arg => exact decode_command 0x0C0 arg
  | feSetVoiceCfgFmt arg => exact decode_command 0x0C1 arg
  | feSetVoiceCfgEnv0 arg => exact decode_command 0x0C2 arg
  | feSetVoiceCfgEnva arg => exact decode_command 0x0C3 arg
  | feSetVoiceCfgEnv1 arg => exact decode_command 0x0C4 arg
  | feSetVoiceCfgEnvf arg => exact decode_command 0x0C5 arg
  | feSetVoiceCfgMisc arg => exact decode_command 0x0C6 arg
  | feSetVoiceTarVola arg => exact decode_command 0x0D8 arg
  | feSetVoiceTarVolb arg => exact decode_command 0x0D9 arg
  | feSetVoiceTarVolc arg => exact decode_command 0x0DA arg
  | feSetVoiceTarLfoEnv arg => exact decode_command 0x0DB arg
  | feSetVoiceTarPitch arg => exact decode_command 0x0DF arg
  | feSetVoiceCfgBufBase arg => exact decode_command 0x0E8 arg
  | feSetVoiceCfgBufLbo arg => exact decode_command 0x0E9 arg
  | feSetVoiceBufCbo arg => exact decode_command 0x0F6 arg
  | feSetVoiceCfgBufEbo arg => exact decode_command 0x0F7 arg
  | feSetCurrentInbufSge arg => exact decode_command 0x201 arg
  | feSetCurrentInbufSgeOffset arg => exact decode_command 0x202 arg
  | feSetCurrentOutbufSge arg => exact decode_command 0x600 arg
  | feSetCurrentOutbufSgeOffset arg => exact decode_command 0x602 arg
  | feSe2feIdleVoice arg => exact decode_command 0x2000 arg
  | feUnknown idx arg =>
    have hm : 4 * idx.toNat ∉ feMethods := hi
    have he : encode (.feUnknown idx arg) = .mmio (windowOffset 0x20000 idx) .word (.write arg) := rfl
    rw [he, decode_command, decodeFe_unknownIndex hm]
  | dmaControl c a => exact hi ▸ rfl
  | dmaActNop c rest => exact decode_action c rest 0
  | dmaActStart c rest => exact decode_action c rest 1
  | dmaActStop c rest => exact decode_action c rest 2
  | dmaActFreeze c rest => exact decode_action c rest 3
  | dmaActUnfreeze c rest => exact decode_action c rest 4
  | dmaActAbort c rest => exact decode_action c rest 5
  | dmaActReserved6 c rest => exact decode_action c rest 6
  | dmaActReserved7 c rest => exact decode_action c rest 7
  | descBufOffset c bufId => exact decode_bufOffset c bufId hi
  | descPtrEol c addr => exact (decode_pointer c addr).1
  | descPtrBlock c addr => exact (decode_pointer c addr).2
  | envBadState h e low => exact decode_badState h e low
  | fmtAdpcm h p ss => exact decode_adpcm h p ss
  | _ => rfl

/-- Settles O3, by cases on the presented operation: the window's rows by their offset, every other class by its rule. -/
theorem decode_wellformed : Obligations.decode_wellformed := by
  intro w i h
  cases w with
  | mmio o width a =>
    cases width with
    | byte => cases h
    | half => cases h
    | word =>
      rw [decode] at h
      split_ifs at h with h4
      exact decodeMmio_wellFormed h4 o.isLt (Except.ok.inj h)
  | dma c id a => exact Except.ok.inj h ▸ decodeDma_wellFormed c id a
  | descFormat c control => exact Except.ok.inj h ▸ decodeFormat_wellFormed c control
  | env k e state => exact Except.ok.inj h ▸ decodeEnv_wellFormed k e state
  | fmtClass k p cfgFmt => exact Except.ok.inj h ▸ decodeFmt_wellFormed k p cfgFmt
  | descBuf c control =>
    rw [decode] at h
    split_ifs at h with hb <;> cases h
    · trivial
    · exact bufferId_ne hb
  | tick => cases h; trivial
  | sg t lin => cases h; trivial
  | voicePaused k parState =>
    rw [decode] at h
    split_ifs at h
    cases h
    trivial
  | _ =>
    rw [decode] at h
    split_ifs at h <;> cases h <;> trivial

/-- Settles O6: both second names run the operation of the row that the encoding names. -/
theorem second_names_agree : Obligations.second_names_agree := by
  constructor
  · intro s idx v
    rw [exec_eq, exec_eq, opOf_decodeFe]
    rfl
  · intro s c v
    rw [exec_eq, exec_eq, opOf_decodeAction]
    rfl

/-- Settles O1: a word that is some operation's own encoding decodes to it by the round trip; the others are evaluated. -/
theorem words_decode : Obligations.words_decode :=
  ⟨decode_encode (.mmioIen (.write 0x11)) trivial, decode_encode (.mmioGpMixbuf 160 .read) trivial,
    decode_encode (.mmioEpPUpper 0x7FF (.write 9)) trivial, decode_encode (.mmioUnmapped 0x10000 .read) (by decide),
    decode_encode (.feVoiceOn 5) trivial, decode_encode (.feUnknown 0x4B 5) (by decide), rfl, rfl,
    decode_encode (.dmaActStart .gp 0x1FFFFFFF) trivial, decode_encode (.descPtrEol .ep 0x123) trivial, rfl, rfl,
    decode_encode (.envRelease 7 .f) trivial, decode_encode (.fmtPcmB16S16 3 9) trivial,
    decode_encode (.voiceActive 3) trivial⟩

/-- Settles O4: the step is the match on the decoded input; an access that is no aligned word is decoded to a reason. -/
theorem step_runs_decoded : Obligations.step_runs_decoded := by
  intro s w r hp
  have hf : fetch s = some (.op w, { s with pending := r }) := by rw [fetch, hp]
  have hstep : step s = match decode w with
      | .ok i => exec i { s with pending := r }
      | .error why => .refused (.undecoded why) := by
    rw [step, hf] <;> rfl
  refine ⟨fun i hd => by rw [hstep, hd], fun why hd => by rw [hstep, hd], fun off width a hw => ⟨?_, ?_, ?_⟩⟩
  · intro hwidth
    cases width with
    | word => exact absurd rfl hwidth
    | byte => rw [hstep, hw]; rfl
    | half => rw [hstep, hw]; rfl
  · rintro rfl hmis
    rw [hstep, hw, decode, if_neg hmis]
  · rintro rfl halign
    exact ⟨_, hw ▸ decode_mmio_word halign a⟩

end Sys2Proof.Proofs
end


section
/-! The invariants of every step (60_exceptions R452, 45_dma_engine R397, 00_scope R9): a property that each change listed in
`Closed` keeps is kept by every step, so each invariant is one case of `Closed`. -/

namespace Sys2Proof.Machine

/-- CONTROL stays one of its four values under each status change (45_dma_engine R397 to R402). -/
theorem controlOk_after {d e : DmaRegs} (h : d.ControlOk) (hc : controlAfter d.control e.control) : e.ControlOk := by
  obtain ⟨hstart, hstop, hfreeze, hunfreeze⟩ := controlOk_status h
  unfold DmaRegs.ControlOk at h ⊢
  rcases hc with hc | hc | hc | hc | hc <;> rw [hc]
  · exact h
  · tauto
  · tauto
  · tauto
  · tauto

/-- `UpdateIrq` makes a state good that was good but for its line (60_exceptions R452). -/
theorem good_updateIrq {s : State} (hg : s.dmaGp.ControlOk) (he : s.dmaEp.ControlOk) (hc : s.Canonical) :
    (updateIrq s).Good :=
  ⟨updateIrq_irqOk s, hg, he, hc⟩

/-- A change of an engine keeps a good state good when CONTROL takes a status change or none. -/
theorem good_setDma {s : State} (h : s.Good) (c : Core) {d : DmaRegs}
    (hc : controlAfter (s.dma c).control d.control) : (s.setDma c d).Good := by
  obtain ⟨hirq, hgp, hep, hcan⟩ := h
  cases c with
  | gp => exact ⟨hirq, controlOk_after hgp hc, hep, hcan⟩
  | ep => exact ⟨hirq, hgp, controlOk_after hep hc, hcan⟩

/-- A write of a cell keeps a good state good. -/
theorem good_dspWrite {s : State} (h : s.Good) (c : Core) (sp : Space) (i : Nat) (v : Word) :
    (s.dspWrite c sp i v).Good := by
  obtain ⟨hirq, hgp, hep, hcan⟩ := h
  refine ⟨?_, ?_, ?_, canonical_dspWrite hcan c sp i v⟩
  · simpa only [State.IrqOk, dspWrite_irq, dspWrite_x] using hirq
  · simpa only [dspWrite_dmaGp] using hgp
  · simpa only [dspWrite_dmaEp] using hep

/-- Each change a step is made of keeps a good state good, and bins canonical. -/
theorem good_closed : Closed State.Good (fun m : Store 32 => m.wf = true) where
  nil := rfl
  set _ k v h := Store.wf_set h k v
  mix := fun _ ⟨_, _, _, _, _, _, hmix⟩ => hmix
  sub := fun _ _ ⟨hirq, hgp, hep, hmem, hdspGp, hdspEp, _⟩ hmix => ⟨hirq, hgp, hep, hmem, hdspGp, hdspEp, hmix⟩
  ack := fun _ _ ⟨_, hgp, hep, hcan⟩ => good_updateIrq hgp hep hcan
  ien := fun _ _ ⟨_, hgp, hep, hcan⟩ => good_updateIrq hgp hep hcan
  trap := fun _ ⟨_, hgp, hep, hcan⟩ => good_updateIrq hgp hep hcan
  reg s x h hists hien := by
    obtain ⟨hirq, hrest⟩ := h
    refine ⟨?_, hrest⟩
    show s.irq = irqLevel x.ists x.ien ∧ x.ists.getLsbD 0 = s.irq
    rwa [hists, hien]
  guest := fun _ k v ⟨hirq, hgp, hep, hmem, hrest⟩ => ⟨hirq, hgp, hep, Store.wf_set hmem k v, hrest⟩
  cell _ c sp i v h := good_dspWrite h c sp i v
  dma _ c _ h hc := good_setDma h c hc
  hostData _ _ h := h
  dspData _ _ h := h
  bump _ h := h
  rst _ c _ h := by cases c <;> exact h
  inbuf _ _ h := h
  outbuf _ _ h := h
  fatal _ _ h := h
  pending _ _ h := h

/-- Each change a step is made of leaves the parameters. -/
theorem cfg_closed (p : Params) : Closed (fun s => s.cfg = p) (fun _ => True) where
  nil := trivial
  set _ _ _ _ := trivial
  mix _ _ := trivial
  sub _ _ h _ := h
  ack _ _ h := h
  ien _ _ h := h
  trap _ h := h
  reg _ _ h _ _ := h
  guest _ _ _ h := h
  cell _ _ _ _ _ h := by rwa [dspWrite_cfg]
  dma _ c _ h _ := by cases c <;> exact h
  hostData _ _ h := h
  dspData _ _ h := h
  bump _ h := h
  rst _ c _ h := by cases c <;> exact h
  inbuf _ _ h := h
  outbuf _ _ h := h
  fatal _ _ h := h
  pending _ _ h := h

/-! ## Host accesses to guest memory -/

/-- A load is the little-endian number of its bytes (20_memory R82). -/
theorem memRead_bytes (m : Store 8) (a : Word) (n : Nat) :
    memRead m a n = BitVec.ofNat 32 (littleEndian n fun k => memByte m (a + BitVec.ofNat 32 k)) :=
  congrArg (BitVec.ofNat 32) (memReadNat_bytes m a n)

/-- A store of at most four bytes puts each byte of the value at its address and leaves every other byte (20_memory R82). -/
theorem memByte_memWrite (m : Store 8) (a b v : Word) {n : Nat} (hn : n ≤ 4) :
    memByte (memWrite m a n v) b =
      if (b - a).toNat < n then BitVec.ofNat 8 (v.toNat / 256 ^ (b - a).toNat) else memByte m b :=
  memByte_memWriteNat m a b n v.toNat (hn.trans (by decide))

/-- An access has at most four bytes. -/
theorem widthBytes_le (width : Width) : widthBytes width ≤ 4 := by
  cases width <;> decide

end Sys2Proof.Machine

namespace Sys2Proof.Proofs

open Sys2Proof Sys2Proof.Machine

/-- Settles O8: `State.Good` is closed under every change a step is made of. -/
theorem good_kept : Obligations.good_kept := fun _ _ hs h => good_closed.step hs h

/-- Settles O9: the value of `cfg` is closed under every change a step is made of. -/
theorem parameters_constant : Obligations.parameters_constant := fun s _ h => (cfg_closed s.cfg).step rfl h

/-- Settles O7: the registers are 0, both engines are stopped and nothing is listed. -/
theorem good_at_reset : Obligations.good_at_reset := by
  refine ⟨⟨?line, rfl⟩, Or.inl rfl, Or.inl rfl, rfl, ⟨rfl, rfl, rfl⟩, ⟨rfl, rfl, rfl⟩, rfl⟩
  case line => decide

/-- Settles O10: every operation runs under `runOp`, which a halted block answers with the fault. -/
theorem halted_has_no_operation : Obligations.halted_has_no_operation := by
  intro i s code h
  rw [exec_eq, runOp_halted _ h]

/-- Settles O11: a raised fatal is taken where it stands. -/
theorem fatal_keeps_writes : Obligations.fatal_keeps_writes := fun _ _ t code hs h =>
  ⟨takeFatal code t, runOp_error hs h, rfl, rfl⟩

/-- Settles O12: the values of 70_reset_and_hazards R481 are those that `State.reset` is built of. -/
theorem reset_values : Obligations.reset_values :=
  ⟨rfl, rfl, rfl, rfl, rfl, rfl, rfl, rfl, rfl⟩

/-- Settles O5: a load reads `memReadNat`, the little-endian number of its bytes; a store writes `memWriteNat`, byte by
byte. -/
theorem step_host_access : Obligations.step_host_access := by
  intro s
  refine ⟨fun h => ?_, fun a width v r h => ?_, fun a width r h => ?_, fun m a v b n hn => ?_⟩
  · rw [step, fetch, h]
  · refine ⟨hostStore a width v { s with pending := r }, ?_, fun b => ?_, rfl⟩
    · rw [step, fetch, h]
    · exact memByte_memWrite s.mem a b v (widthBytes_le width)
  · rw [← memRead_bytes, step, fetch, h] <;> rfl
  · exact ⟨memRead_bytes m a n, memByte_memWrite m a b v hn⟩

end Sys2Proof.Proofs
end


section
/-! The Host's accesses to DSP memory windows, reset registers and offsets without a row (40_mmio_registers R194 to R198): what
one access does, and which cells an engine's answer can reach. -/

namespace Sys2Proof.Machine

/-! ## Cells -/

/-- A cell write changes the one cell and nothing else (20_memory R87). -/
theorem cellWritten_dspWrite (s : State) (c : Core) (sp : Space) (i : Nat) (v : Word) :
    CellWritten s (s.dspWrite c sp i v) c sp i v :=
  ⟨fun d sq j => dspRead_dspWrite s c d sp sq i j v, by cases c <;> rfl⟩

/-- A write through a window is a write of its cell (40_mmio_registers R195). -/
theorem runOp_cellAccess_write {s : State} (hs : s.halt = .running) (c : Core) (sp : Space) (i : State → Nat) (v : Word) :
    ∃ t, runOp (cellAccess c sp i (.write v)) s = .next t ∧ CellWritten s t c sp (i s) v :=
  ⟨_, runOp_ok hs rfl, cellWritten_dspWrite s c sp (i s) v⟩

/-! ## The engine's answer to a reset register -/

/-- The answer `l` of core `c`'s engine leads from `s` to `t`: only cells of the core that `l` names inside their space may
have changed (40_mmio_registers R196; log 10). -/
structure CellsAnswered (c : Core) (l : List CellWrite) (s t : State) : Prop where
  cells : ∀ d sp j, (d ≠ c ∨ ∀ w ∈ l, ¬ (w.space = sp ∧ w.index = j ∧ j < spaceSize s.cfg sp)) →
    dspRead t d sp j = dspRead s d sp j
  rest : { t with dspGp := s.dspGp, dspEp := s.dspEp } = s

/-- Nothing but DSP memory changed, so the parameters did not. -/
theorem CellsAnswered.cfg {c : Core} {l : List CellWrite} {s t : State} (h : CellsAnswered c l s t) : t.cfg = s.cfg :=
  (congrArg State.cfg h.rest :)

/-- One cell of an answer. -/
theorem engineCell_answered (c : Core) (s : State) (w : CellWrite) : CellsAnswered c [w] s (engineCell c s w) := by
  unfold engineCell
  split_ifs with hw
  · refine ⟨fun d sp j h => ?_, (cellWritten_dspWrite s c w.space w.index w.value).2⟩
    rw [dspRead_dspWrite, if_neg]
    rintro ⟨rfl, rfl, rfl⟩
    rcases h with h | h
    · exact h rfl
    · exact h w (List.mem_singleton_self w) ⟨rfl, rfl, hw⟩
  · exact ⟨fun _ _ _ _ => rfl, rfl⟩

/-- Answers one after the other. -/
theorem CellsAnswered.append {c : Core} {l r : List CellWrite} {s t u : State} (h : CellsAnswered c l s t)
    (k : CellsAnswered c r t u) : CellsAnswered c (l ++ r) s u := by
  refine ⟨fun d sp j hn => ?_, ?_⟩
  · rw [k.cells d sp j, h.cells d sp j]
    · exact hn.imp_right fun hw w hl => hw w (List.mem_append_left r hl)
    · rw [h.cfg]
      exact hn.imp_right fun hw w hr => hw w (List.mem_append_right l hr)
  · have hk := congrArg (fun x : State => { x with dspGp := s.dspGp, dspEp := s.dspEp }) k.rest
    exact hk.trans h.rest

/-- The cells of an answer, in order. -/
theorem engineCells_answered (c : Core) (l : List CellWrite) (s : State) :
    CellsAnswered c l s (l.foldl (engineCell c) s) := by
  induction l generalizing s with
  | nil => exact ⟨fun _ _ _ _ => rfl, rfl⟩
  | cons w r ih => exact (engineCell_answered c s w).append (ih _)

/-- The two reset registers are accessed alike, each for its core. -/
theorem exec_resetRegister {c : Core} {i : Instr} {v : Word} {s : State}
    (hi : (c = .gp ∧ i = .mmioGprst (.write v)) ∨ (c = .ep ∧ i = .mmioEprst (.write v))) :
    exec i s = runOp (accessRst c (.write v)) s := by
  rcases hi with ⟨rfl, rfl⟩ | ⟨rfl, rfl⟩ <;> rw [exec_eq, opOf]

/-- With both releases held before and after, a write of a reset register stores the value alone (40_mmio_registers R196). -/
theorem accessRst_held {s : State} {c : Core} {v : Word} (hv : released v = true) (hold : released (s.rst c) = true) :
    accessRst c (.write v) s = .ok () (s.setRst c v) := by
  simp [accessRst, hostAccess, hv, hold]

/-- Otherwise the core's engine answers, at a release with its bootstrap, at a reset with its reset, and the value is stored
(40_mmio_registers R196). -/
theorem accessRst_answered {s : State} {c : Core} {v : Word} {answer : List CellWrite}
    (h : (released v = false ∧ answer = Config.dspReset (oracleView c 0 s)) ∨
      (released v = true ∧ released (s.rst c) = false ∧ answer = Config.dspBootstrap (oracleView c 0 s))) :
    accessRst c (.write v) s = .ok () ((answer.foldl (engineCell c) s.bumpOracle).setRst c v) := by
  rcases h with ⟨hv, rfl⟩ | ⟨hv, hold, rfl⟩
  · simp [accessRst, hostAccess, engineCall, hv]
  · simp [accessRst, hostAccess, engineCall, hv, hold]

/-- What the engine's answer and the stored value leave (40_mmio_registers R196, 45_dma_engine R392). -/
theorem setRst_answered {c : Core} {l : List CellWrite} {s u : State} (h : CellsAnswered c l s.bumpOracle u) (v : Word) :
    (u.setRst c v).rst c = v ∧ (∀ d, d ≠ c → (u.setRst c v).rst d = s.rst d) ∧
      (∀ d sp j, dspRead (u.setRst c v) d sp j = dspRead u d sp j) ∧
      { u.setRst c v with gprst := s.gprst, eprst := s.eprst, dspGp := s.dspGp, dspEp := s.dspEp, oracle := s.oracle } = s := by
  have hrest := congrArg (fun x : State => { x with gprst := s.gprst, eprst := s.eprst, oracle := s.oracle }) h.rest
  have hgp : u.gprst = s.gprst := (congrArg State.gprst h.rest :)
  have hep : u.eprst = s.eprst := (congrArg State.eprst h.rest :)
  cases c with
  | gp => exact ⟨rfl, fun d hd => by cases d with | gp => exact absurd rfl hd | ep => exact hep, fun _ _ _ => rfl, hrest⟩
  | ep => exact ⟨rfl, fun d hd => by cases d with | gp => exact hgp | ep => exact absurd rfl hd, fun _ _ _ => rfl, hrest⟩

end Sys2Proof.Machine

namespace Sys2Proof.Proofs

open Sys2Proof Sys2Proof.Machine

/-- Settles O17: each window is a `cellAccess`, whose write is one cell write. -/
theorem window_cell_written : Obligations.window_cell_written := by
  intro s v hs
  refine ⟨?_, ?_, ?_, ?_, ?_, ?_, ?_, ?_, ?_⟩ <;>
  · intro n
    rw [exec_eq, opOf]
    exact runOp_cellAccess_write hs _ _ _ v

/-- Settles O18: each window is a `cellAccess` and the port a register that reads as 0; each read is the `hostAccess` one. -/
theorem window_cell_read : Obligations.window_cell_read := by
  intro s hs
  refine ⟨?_, ?_, ?_, ?_, ?_, ?_, ?_, ?_, ?_, ?_⟩ <;>
  · intro n
    rw [exec_eq, opOf]
    exact runOp_hostAccess_read hs _ _

/-- Settles O19: the write stores the value after the engine's answer, which `CellsAnswered` bounds. -/
theorem reset_register_written : Obligations.reset_register_written := by
  intro s v c i hs hi
  rw [exec_resetRegister hi]
  refine ⟨fun hv hold => runOp_ok hs (accessRst_held hv hold), fun answer h => ?_⟩
  have hanswer := engineCells_answered c answer s.bumpOracle
  obtain ⟨hrst, hother, hcells, hrest⟩ := setRst_answered hanswer v
  exact ⟨_, runOp_ok hs (accessRst_answered h), hrst, hother,
    fun d sp j hn => (hcells d sp j).trans (hanswer.cells d sp j hn), hrest⟩

/-- Settles O20: a read of an unmapped offset is the `hostAccess` one; its write and an unknown method run nothing. -/
theorem unmapped_and_unknown : Obligations.unmapped_and_unknown := by
  intro s idx m v hs
  exact ⟨(exec_eq _ s).trans (runOp_hostAccess_read hs (fun _ => 0) fun _ => pure ()), exec_ok hs rfl, exec_ok hs rfl⟩

end Sys2Proof.Proofs
end


section
/-! The front-end commands on voices, entries and the trap (41_frontend_commands R224 to R250): the operands as the statements
write them, what one field write leaves, and the state each command ends in. -/

namespace Sys2Proof.Machine

/-! ## Operands -/

/-- A zero-extended handle as a number. -/
theorem handleWord_eq (h : Handle) : handleWord h = BitVec.ofNat 32 h.toNat := by
  apply BitVec.eq_of_toNat_eq
  have := h.isLt
  rw [handleWord, BitVec.toNat_setWidth, BitVec.toNat_ofNat]

/-- The action bit of VOICE_PAUSE (30_encoding R153). -/
theorem argAction_eq (arg : Word) : argAction arg = (arg.getLsbD 18).toNat := by
  rw [argAction, field_nat, BitVec.getLsbD, Nat.toNat_testBit, pow_one]

/-- ADDRESS is the argument with its low 12 bits cleared (30_encoding R153). -/
theorem argAddress_eq (arg : Word) : argAddress arg = arg - BitVec.ofNat 32 (arg.toNat % 4096) := by
  have mask : ∀ k < 32, (0xFFFFF000 : Word).getLsbD k = decide (12 ≤ k) := by decide
  have shift : argAddress arg = arg >>> 12 <<< 12 := by
    apply BitVec.eq_of_getLsbD_eq
    intro k hk
    rw [argAddress, BitVec.getLsbD_and, mask k hk, BitVec.getLsbD_shiftLeft, BitVec.getLsbD_ushiftRight]
    by_cases h12 : 12 ≤ k
    · simp [hk, h12, Nat.not_lt.2 h12]
    · simp [h12]
  rw [shift]
  apply BitVec.eq_of_toNat_eq
  simp only [BitVec.toNat_shiftLeft, BitVec.toNat_ushiftRight, Nat.shiftLeft_eq, Nat.shiftRight_eq_div_pow]
  have := arg.isLt
  bv_omega

/-! ## One field write -/

/-- A field of any voice that stands apart from the written field is unchanged. -/
theorem voiceField_setVoiceField_anyVoice (s : State) (h k : Handle) (f g : VField) (v : Nat) (hd : f.apart g)
    (hf : f.off + 4 ≤ 128) (hg : g.off + 4 ≤ 128) : voiceField (s.setVoiceField h f v) k g = voiceField s k g := by
  by_cases hk : k = h
  · rw [hk, voiceField_setVoiceField_apart s h f g v hd]
  · exact voiceField_setVoiceField_voice s hk f g v hg hf

/-- The bits of a field's word outside the field are unchanged by its write. -/
theorem voiceWord_setVoiceField_bit (s : State) (h : Handle) (f : VField) (v : Nat) {k : Nat} (hk : k < 32)
    (ho : k < f.lo ∨ f.lo + f.len ≤ k) :
    (voiceWord (s.setVoiceField h f v) h f.off).getLsbD k = (voiceWord s h f.off).getLsbD k := by
  rw [setVoiceField_eq, voiceWord_setVoiceWord_same, getLsbD_setField _ _ _ _ _ hk, if_neg (by omega)]

/-- The list registers are no part of a voice. -/
@[simp] theorem voiceField_setTvl (s : State) (l : VoiceList) (v : Word) (h : Handle) (f : VField) :
    voiceField (s.setTvl l v) h f = voiceField s h f := by
  cases l <;> rfl

@[simp] theorem voiceWordAddr_setTvl (s : State) (l : VoiceList) (v : Word) (h : Handle) (off : Nat) :
    voiceWordAddr (s.setTvl l v) h off = voiceWordAddr s h off := by
  cases l <;> rfl

/-- Operations that answer alike on a state run alike on it. -/
theorem runOp_congr {m n : Op Unit} {s : State} (h : m s = n s) : runOp m s = runOp n s := by
  rw [runOp, runOp, h]

/-! ## Parameter commands -/

/-- A whole-word parameter command (41_frontend_commands R227). -/
theorem runOp_paramWord {s : State} (hs : s.halt = .running) (h : (currentVoice s).toNat < s.cfg.numVoices) (off : Nat)
    (arg : Word) : ∃ t, runOp (paramWord off arg) s = .next t ∧ voiceWord t (currentVoice s) off = arg ∧ s.OnlyMem t ∧
      ∀ a, outsideWord s (currentVoice s) off a → memByte t.mem a = memByte s.mem a :=
  ⟨_, runOp_ok hs (paramWord_ok h off arg), voiceWord_setVoiceWord_same s _ off arg, onlyMem_setVoiceWord s _ off arg,
    memByte_setVoiceWord s _ off arg⟩

/-- A field parameter command whose value fits the field (41_frontend_commands R227). -/
theorem runOp_paramField {s : State} (hs : s.halt = .running) (h : (currentVoice s).toNat < s.cfg.numVoices) (f : VField)
    (hf : f.lo + f.len ≤ 32) {v : Nat} (hv : v < 2 ^ f.len) :
    ∃ t, runOp (paramField f v) s = .next t ∧ voiceField t (currentVoice s) f = v ∧ s.OnlyMem t ∧
      (∀ k, k < 32 → k < f.lo ∨ f.lo + f.len ≤ k →
        (voiceWord t (currentVoice s) f.off).getLsbD k = (voiceWord s (currentVoice s) f.off).getLsbD k) ∧
      ∀ a, outsideWord s (currentVoice s) f.off a → memByte t.mem a = memByte s.mem a :=
  ⟨_, runOp_ok hs (paramField_ok h f v), by rw [voiceField_setVoiceField_same _ _ _ _ hf, Nat.mod_eq_of_lt hv],
    onlyMem_setVoiceField s _ f v, fun _ hk ho => voiceWord_setVoiceField_bit s _ f v hk ho,
    memByte_setVoiceField s _ f v⟩

/-! ## Voice commands -/

/-- A write of one field of a voice with a handle inside the table, and its frame (10_state R50). -/
theorem runOp_writeV {s : State} (hs : s.halt = .running) {h : Handle} (hh : h.toNat < s.cfg.numVoices) (f : VField)
    (hf : f.lo + f.len ≤ 32) {v : Nat} (hv : v < 2 ^ f.len) :
    ∃ t, runOp (writeV h f v) s = .next t ∧ voiceField t h f = v ∧ s.OnlyMem t ∧
      (∀ g : VField, f.apart g → voiceField t h g = voiceField s h g) ∧
      ∀ a, outsideWord s h f.off a → memByte t.mem a = memByte s.mem a :=
  ⟨_, runOp_ok hs (writeV_ok hh f v), by rw [voiceField_setVoiceField_same _ _ _ _ hf, Nat.mod_eq_of_lt hv],
    onlyMem_setVoiceField s h f v, fun g => voiceField_setVoiceField_apart s h f g v, memByte_setVoiceField s h f v⟩

/-- VOICE_ON with selector 0 (41_frontend_commands R224). -/
theorem feVoiceOn_after {s : State} (hl : argList s.x.feav = 0) (arg : Word) :
    feVoiceOn arg s = (do
      insertAfter (argHandle s.x.feav) (argHandle arg)
      writeV (argHandle arg) vActive 1 : Op Unit) s := by
  rw [feVoiceOn, bind_reads_run, hl] <;> rfl

/-- VOICE_ON with a selector 1 to 3 (41_frontend_commands R224). -/
theorem feVoiceOn_head {s : State} {n : Nat} (hl : argList s.x.feav = n + 1) (arg : Word) :
    feVoiceOn arg s = (do
      insertHead (selectedList (n + 1)) (argHandle arg)
      writeV (argHandle arg) vActive 1 : Op Unit) s := by
  rw [feVoiceOn, bind_reads_run, hl] <;> rfl

/-- VOICE_ON with a handle outside the table writes nothing, whatever the selector (41_frontend_commands R224). -/
theorem feVoiceOn_bad {s : State} {arg : Word} (hh : s.cfg.numVoices ≤ (argHandle arg).toNat) :
    feVoiceOn arg s = .error .voiceBadHandle s := by
  cases hl : argList s.x.feav with
  | zero => rw [feVoiceOn_after hl, bind_error (insert_bad hh .l2d).1]
  | succ n => rw [feVoiceOn_head hl, bind_error (insert_bad (a := 0) hh _).2]

/-- VOICE_ON after an antecedent outside the table writes nothing (41_frontend_commands R224). -/
theorem feVoiceOn_badAntecedent {s : State} (hl : argList s.x.feav = 0)
    (ha : s.cfg.numVoices ≤ (argHandle s.x.feav).toNat) (arg : Word) : feVoiceOn arg s = .error .voiceBadHandle s := by
  rw [feVoiceOn_after hl, bind_error (t := s) (code := .voiceBadHandle)]
  rw [insertAfter, bind_error (readV_bad ha _)]

/-- The state after VOICE_ON at the head of a list. -/
def voiceOnHead (s : State) (l : VoiceList) (h : Handle) : State :=
  ((s.setVoiceField h vLink (field (tvl s l) 0 16)).setTvl l (handleWord h)).setVoiceField h vActive 1

theorem tvl_voiceOnHead (s : State) (l : VoiceList) (h : Handle) : tvl (voiceOnHead s l h) l = handleWord h := by
  cases l <;> rfl

/-- The state after VOICE_ON behind an antecedent. -/
def voiceOnAfter (s : State) (a h : Handle) : State :=
  ((s.setVoiceField h vLink (voiceField s a vLink)).setVoiceField a vLink h.toNat).setVoiceField h vActive 1

/-- VOICE_ON at a head ends in `voiceOnHead` (41_frontend_commands R224). -/
theorem exec_feVoiceOn_head {s : State} (hs : s.halt = .running) {n : Nat} (hl : argList s.x.feav = n + 1) {arg : Word}
    (hh : (argHandle arg).toNat < s.cfg.numVoices) :
    exec (.feVoiceOn arg) s = .next (voiceOnHead s (selectedList (n + 1)) (argHandle arg)) := by
  apply exec_ok hs
  rw [opOf, feVoiceOn_head hl, bind_ok (insertHead_ok hh _)]
  exact writeV_ok (by rwa [setTvl_cfg]) _ _

/-- VOICE_ON behind an antecedent ends in `voiceOnAfter` (41_frontend_commands R224). -/
theorem exec_feVoiceOn_after {s : State} (hs : s.halt = .running) (hl : argList s.x.feav = 0) {arg : Word}
    (ha : (argHandle s.x.feav).toNat < s.cfg.numVoices) (hh : (argHandle arg).toNat < s.cfg.numVoices) :
    exec (.feVoiceOn arg) s = .next (voiceOnAfter s (argHandle s.x.feav) (argHandle arg)) := by
  apply exec_ok hs
  rw [opOf, feVoiceOn_after hl, bind_ok (insertAfter_ok ha hh)]
  exact writeV_ok (s := (s.setVoiceField _ vLink _).setVoiceField _ vLink _) hh _ _

/-- The links and flags of the voice after VOICE_ON at a head. -/
theorem voiceOnHead_fields (s : State) (l : VoiceList) (h : Handle) :
    voiceField (voiceOnHead s l h) h vLink = field (tvl s l) 0 16 ∧ voiceField (voiceOnHead s l h) h vActive = 1 ∧
      ∀ g : VField, vLink.apart g → vActive.apart g → voiceField (voiceOnHead s l h) h g = voiceField s h g := by
  refine ⟨?_, voiceField_setVoiceField_same _ _ _ _ (by decide), fun g hlink hactive => ?_⟩
  · rw [voiceOnHead, voiceField_setVoiceField_apart _ _ _ _ _ (by decide), voiceField_setTvl,
      voiceField_setVoiceField_same _ _ _ _ (by decide)]
    exact Nat.mod_eq_of_lt (field_lt _ _ _)
  · rw [voiceOnHead, voiceField_setVoiceField_apart _ _ _ _ _ hactive, voiceField_setTvl,
      voiceField_setVoiceField_apart _ _ _ _ _ hlink]

/-- The registers and the bytes after VOICE_ON at a head. -/
theorem voiceOnHead_frame (s : State) (l : VoiceList) (h : Handle) :
    { voiceOnHead s l h with mem := s.mem, x := s.x } = s ∧ (voiceOnHead s l h).x = (s.setTvl l (handleWord h)).x ∧
      ∀ a, outsideWord s h 0x54 a → outsideWord s h 0x7C a → memByte (voiceOnHead s l h).mem a = memByte s.mem a := by
  refine ⟨by cases l <;> rfl, by cases l <;> rfl, fun a hactive hlink => ?_⟩
  rw [voiceOnHead, memByte_setVoiceField, setTvl_mem, memByte_setVoiceField]
  · exact hlink
  · rwa [voiceWordAddr_setTvl, voiceWordAddr_setVoiceField]

/-- The links and flags of both voices after VOICE_ON behind an antecedent; the voice may be its own antecedent. -/
theorem voiceOnAfter_fields (s : State) (a h : Handle) :
    voiceField (voiceOnAfter s a h) a vLink = h.toNat ∧
      (h ≠ a → voiceField (voiceOnAfter s a h) h vLink = voiceField s a vLink) ∧
      voiceField (voiceOnAfter s a h) h vActive = 1 ∧
      ∀ (k : Handle) (g : VField), vLink.apart g → vActive.apart g → g.off + 4 ≤ 128 →
        voiceField (voiceOnAfter s a h) k g = voiceField s k g := by
  refine ⟨?_, fun hne => ?_, voiceField_setVoiceField_same _ _ _ _ (by decide), fun k g hlink hactive hg => ?_⟩
  · rw [voiceOnAfter, voiceField_setVoiceField_anyVoice _ _ _ _ _ _ (by decide) (by decide) (by decide),
      voiceField_setVoiceField_same _ _ _ _ (by decide)]
    exact Nat.mod_eq_of_lt h.isLt
  · rw [voiceOnAfter, voiceField_setVoiceField_apart _ _ _ _ _ (by decide),
      voiceField_setVoiceField_voice _ hne _ _ _ (by decide) (by decide),
      voiceField_setVoiceField_same _ _ _ _ (by decide), Nat.mod_eq_of_lt (voiceField_lt s a vLink)]
  · rw [voiceOnAfter, voiceField_setVoiceField_anyVoice _ _ _ _ _ _ hactive (by decide) hg,
      voiceField_setVoiceField_anyVoice _ _ _ _ _ _ hlink (by decide) hg,
      voiceField_setVoiceField_anyVoice _ _ _ _ _ _ hlink (by decide) hg]

/-- The bytes after VOICE_ON behind an antecedent. -/
theorem memByte_voiceOnAfter (s : State) (a h : Handle) (b : Word) (hactive : outsideWord s h 0x54 b)
    (hlink : outsideWord s h 0x7C b) (hante : outsideWord s a 0x7C b) :
    memByte (voiceOnAfter s a h).mem b = memByte s.mem b := by
  rw [voiceOnAfter, memByte_setVoiceField, memByte_setVoiceField, memByte_setVoiceField]
  · exact hlink
  · rwa [voiceWordAddr_setVoiceField]
  · rwa [voiceWordAddr_setVoiceField, voiceWordAddr_setVoiceField]

/-- VOICE_PAUSE writes `paused` by PAUSE_MODE (41_frontend_commands R226). -/
theorem feVoicePause_run {s : State} {arg : Word} (hh : (argHandle arg).toNat < s.cfg.numVoices) :
    feVoicePause arg s = writeV (argHandle arg) vPaused (match s.cfg.pauseMode with
      | .fromAction => argAction arg
      | .invert => 1 - voiceField s (argHandle arg) vPaused) s := by
  rw [feVoicePause, bind_reads_run]
  cases s.cfg.pauseMode with
  | fromAction => rfl
  | invert => exact bind_ok (readV_ok hh _)

/-- VOICE_PAUSE with a handle outside the table writes nothing (41_frontend_commands R226). -/
theorem feVoicePause_bad {s : State} {arg : Word} (hh : s.cfg.numVoices ≤ (argHandle arg).toNat) :
    feVoicePause arg s = .error .voiceBadHandle s := by
  rw [feVoicePause, bind_reads_run]
  cases s.cfg.pauseMode with
  | fromAction => exact writeV_bad hh _ _
  | invert => exact bind_error (readV_bad hh _)

/-! ## Entries -/

/-- An offset command stores a page address in the entry of its latch (41_frontend_commands R245). -/
theorem runOp_entryWrite {s : State} (hs : s.halt = .running) (latch : State → BitVec 16) (arg : Word) :
    ∃ t, runOp (entryWrite latch arg) s = .next t ∧ memRead t.mem (voiceEntryAddr s (latch s)) 4 = argAddress arg ∧
      s.OnlyMem t ∧ ∀ a, 4 ≤ (a - voiceEntryAddr s (latch s)).toNat → memByte t.mem a = memByte s.mem a :=
  ⟨_, runOp_ok hs rfl, memRead_memWrite_same _ _ _, rfl, fun _ ha => memByte_memWrite_other _ _ _ _ _ (by decide) ha⟩

/-! ## The trap -/

/-- The bits that trap entry requests in FECTL (60_exceptions R454). -/
theorem getLsbD_takeTrap_fectl (s : State) {k : Nat} (hk : k < 32) :
    (takeTrap s).x.fectl.getLsbD k = (s.x.fectl.getLsbD k || decide (5 ≤ k ∧ k < 12)) := by
  show (setField (setField s.x.fectl 5 3 7) 8 4 0xF).getLsbD k = _
  have seven : ∀ j < 3, Nat.testBit 7 j = true := by decide
  have fifteen : ∀ j < 4, Nat.testBit 15 j = true := by decide
  rw [getLsbD_setField _ _ _ _ _ hk, getLsbD_setField _ _ _ _ _ hk]
  split_ifs with hreason hmode
  · rw [fifteen _ (by omega), decide_eq_true (by omega), Bool.or_true]
  · rw [seven _ (by omega), decide_eq_true (by omega), Bool.or_true]
  · rw [decide_eq_false (by omega), Bool.or_false]

/-- The cause that trap entry makes pending (60_exceptions R454). -/
theorem getLsbD_takeTrap_ists (s : State) {k : Nat} (h1 : 1 ≤ k) (hk : k < 32) :
    (takeTrap s).x.ists.getLsbD k = (s.x.ists.getLsbD k || decide (k = 4)) := by
  rw [takeTrap, getLsbD_updateIrq_ists _ h1 hk]
  show (setField s.x.ists 4 1 1).getLsbD k = _
  rw [getLsbD_setField _ _ _ _ _ hk]
  split_ifs with h4
  · obtain rfl : k = 4 := by omega
    simp
  · rw [decide_eq_false (by omega), Bool.or_false]

/-- The idle notification, from the Host or for a voice inside the table, is one armed trap entry or nothing
(41_frontend_commands R250). -/
theorem exec_idleNotification {s : State} (hs : s.halt = .running) {i : Instr}
    (hi : (∃ arg, i = .feSe2feIdleVoice arg) ∨ (∃ h : Handle, h.toNat < s.cfg.numVoices ∧ i = .voiceIdle h)) :
    exec i s = .next (if trapArmed s then takeTrap s else s) := by
  rcases hi with ⟨arg, rfl⟩ | ⟨h, hh, rfl⟩
  · exact exec_ok hs rfl
  · exact exec_ok hs (bind_ok (checkHandle_ok hh))

end Sys2Proof.Machine

namespace Sys2Proof.Proofs

open Sys2Proof Sys2Proof.Machine

/-- Settles O22: each command is a `paramWord` at its offset. -/
theorem voice_word_written : Obligations.voice_word_written := by
  intro s arg cv hs hcv hn
  rw [← argHandle_eq] at hcv
  subst hcv
  simp only [List.forall_mem_cons, List.not_mem_nil, false_imp_iff, implies_true, and_true]
  and_intros <;>
  · rw [exec_eq, opOf]
    exact runOp_paramWord hs hn _ arg

/-- Settles O23: each command is a `paramField` of its field, the value a field of the argument that fits. -/
theorem voice_field_written : Obligations.voice_field_written := by
  intro s arg cv hs hcv hn
  rw [← argHandle_eq] at hcv
  subst hcv
  have low (len : Nat) : field arg 0 len = arg.toNat % 2 ^ len := by rw [field_nat, pow_zero, Nat.div_one]
  have hstep : argStep arg = arg.toNat / 65536 := by
    have := arg.isLt
    rw [argStep, field_nat]
    omega
  have hparam (f : VField) (v : Nat) (hf : f.lo + f.len ≤ 32) (hv : v < 2 ^ f.len) := runOp_paramField hs hn f hf hv
  simp only [List.forall_mem_cons, List.not_mem_nil, false_imp_iff, implies_true, and_true, exec_eq, opOf, argOffset, low,
    hstep]
  have hmod (len : Nat) : arg.toNat % 2 ^ len < 2 ^ len := Nat.mod_lt _ (Nat.two_pow_pos len)
  have hdiv : arg.toNat / 65536 < 2 ^ 16 := by
    have := arg.isLt
    omega
  exact ⟨hparam (vRelease .f) _ (by decide) (hmod 12), hparam (vRelease .a) _ (by decide) (hmod 12),
    hparam vPitch _ (by decide) hdiv, hparam vBa _ (by decide) (hmod 24), hparam vLbo _ (by decide) (hmod 24),
    hparam vCbo _ (by decide) (hmod 24), hparam vEbo _ (by decide) (hmod 24)⟩

/-- Settles O24: every command tests its handles before it writes. -/
theorem bad_handle_taken : Obligations.bad_handle_taken := by
  intro s arg hs
  have hnat (w : Word) : (argHandle w).toNat = w.toNat % 65536 := by rw [argHandle_eq, BitVec.toNat_ofNat]
  refine ⟨fun h => ?_, fun h => ?_, fun hl h => ?_⟩
  · rw [← hnat] at h
    have hword (off : Nat) : runOp (paramWord off arg) s = .next (takeFatal .voiceBadHandle s) :=
      runOp_error hs (paramWord_bad h off arg)
    have hfield (f : VField) (v : Nat) : runOp (paramField f v) s = .next (takeFatal .voiceBadHandle s) :=
      runOp_error hs (paramField_bad h f v)
    simp only [List.forall_mem_cons, List.not_mem_nil, false_imp_iff, implies_true, and_true, exec_eq, opOf, hword, hfield]
    and_intros <;> rfl
  · rw [← hnat] at h
    simp only [List.forall_mem_cons, List.not_mem_nil, false_imp_iff, implies_true, and_true]
    exact ⟨exec_error hs (feVoiceOn_bad h), exec_error hs (writeV_bad h _ _), exec_error hs (feVoicePause_bad h)⟩
  · rw [← hnat] at h
    exact exec_error hs (feVoiceOn_badAntecedent (by rwa [argList, field_nat]) h arg)

/-- Settles O25: the command ends in `voiceOnHead`, whose fields and frame the rules above give. -/
theorem voice_on_at_head : Obligations.voice_on_at_head := by
  intro s arg h l hs hh hn hl
  rw [← argHandle_eq] at hh
  subst hh
  obtain ⟨n, hsel, rfl⟩ : ∃ n, argList s.x.feav = n + 1 ∧ selectedList (n + 1) = l := by
    have hfield : argList s.x.feav = s.x.feav.toNat / 65536 % 4 := field_nat _ _ _
    rw [hfield, hl]
    cases l with
    | l2d => exact ⟨0, rfl, rfl⟩
    | l3d => exact ⟨1, rfl, rfl⟩
    | lmp => exact ⟨2, rfl, rfl⟩
  obtain ⟨hlink, hactive, hfields⟩ := voiceOnHead_fields s (selectedList (n + 1)) (argHandle arg)
  obtain ⟨hrest, hx, hmem⟩ := voiceOnHead_frame s (selectedList (n + 1)) (argHandle arg)
  refine ⟨_, exec_feVoiceOn_head hs hsel hn, ?_, ?_, hactive, hrest, ?_, hfields, hmem⟩
  · rw [tvl_voiceOnHead, handleWord_eq]
  · rw [hlink, field_nat, pow_zero, Nat.div_one] <;> rfl
  · rw [hx, handleWord_eq]

/-- Settles O26: the command ends in `voiceOnAfter`, whose fields and frame the rules above give. -/
theorem voice_on_after_antecedent : Obligations.voice_on_after_antecedent := by
  intro s arg h a hs hh ha hn han hl
  rw [← argHandle_eq] at hh ha
  subst hh ha
  obtain ⟨hlink, hnew, hactive, hfields⟩ := voiceOnAfter_fields s (argHandle s.x.feav) (argHandle arg)
  exact ⟨_, exec_feVoiceOn_after hs (by rwa [argList, field_nat]) han hn, hlink, hnew, hactive, rfl,
    fun g h1 h2 hg => ⟨hfields _ g h1 h2 hg, hfields _ g h1 h2 hg⟩, memByte_voiceOnAfter s _ _⟩

/-- Settles O27: each command is one write of one flag. -/
theorem voice_off_and_pause : Obligations.voice_off_and_pause := by
  intro s arg h hs hh hn
  rw [← argHandle_eq] at hh
  subst hh
  refine ⟨runOp_writeV hs hn vActive (by decide) (by decide), ?_⟩
  have hbit : argAction arg < 2 := field_lt _ _ _
  obtain ⟨t, ht, hpaused, hrest⟩ := runOp_writeV hs hn vPaused (by decide) (v := match s.cfg.pauseMode with
    | .fromAction => argAction arg
    | .invert => 1 - voiceField s (argHandle arg) vPaused) (by
      show _ < 2
      split <;> omega)
  refine ⟨t, ?_, fun hm => ?_, fun hm => ?_, hrest⟩
  · rw [exec_eq, opOf, runOp_congr (feVoicePause_run hn), ht]
  · rw [hpaused, hm, ← argAction_eq]
  · rw [hpaused, hm]

/-- Settles O28: each command is an `entryWrite` through its latch. -/
theorem entry_address_written : Obligations.entry_address_written := by
  intro s arg hs
  rw [← argAddress_eq]
  simp only [List.forall_mem_cons, List.not_mem_nil, false_imp_iff, implies_true, and_true]
  exact ⟨runOp_entryWrite hs State.inbufSge arg, runOp_entryWrite hs State.outbufSge arg⟩

/-- Settles O29: both notifications are one armed trap entry or nothing. -/
theorem idle_trap_taken : Obligations.idle_trap_taken := by
  intro s i hs hi
  rw [exec_idleNotification hs hi]
  refine ⟨fun h => by rw [trapArmed, h]; rfl, fun h => ?_⟩
  obtain ⟨hline, hbit⟩ := updateIrq_irqOk (s.setX { s.x with
    fectl := setField (setField s.x.fectl 5 3 7) 8 4 0xF, ists := setField s.x.ists 4 1 1 })
  exact ⟨takeTrap s, by rw [trapArmed, h]; rfl, fun _ => getLsbD_takeTrap_fectl s, fun _ => getLsbD_takeTrap_ists s, hbit,
    hline, rfl⟩

end Sys2Proof.Proofs
end


section
/-! The translator run alone (20_memory R95) and the envelope rows (42_envelope R281 to R293): each rule's result as the
statements write it, the row of a rule, and runs of one row. -/

namespace Sys2Proof.Machine

/-! ## The translator -/

/-- A translation inside the table: the entry's address plus the offset (20_memory R95). -/
theorem translate_inside {s : State} {t : SgTable} {lin : Word} (h : lin.toNat / s.cfg.pageSize ≤ (sgTable s t).2) :
    translate s t lin =
      .ok (memRead s.mem ((sgTable s t).1 + BitVec.ofNat 32 (lin.toNat / s.cfg.pageSize * Config.sgeBytes)) 4 +
        BitVec.ofNat 32 (lin.toNat % s.cfg.pageSize)) := by
  rw [translate_run, if_neg (Nat.not_lt.2 h)]

/-- A translation past the table (20_memory R95). -/
theorem translate_outside {s : State} {t : SgTable} {lin : Word} (h : (sgTable s t).2 < lin.toNat / s.cfg.pageSize) :
    translate s t lin = .error .sgeRange := by
  rw [translate_run, if_pos h]

/-- The translator's row keeps the address or takes the fatal (log 2). -/
theorem exec_sgTranslate {s : State} (hs : s.halt = .running) (t : SgTable) (lin : Word) :
    (lin.toNat / s.cfg.pageSize ≤ (sgTable s t).2 → exec (.sgTranslate t lin) s = .next (s.setSub { s.sub with
      paddr := memRead s.mem ((sgTable s t).1 + BitVec.ofNat 32 (lin.toNat / s.cfg.pageSize * 8)) 4 +
        BitVec.ofNat 32 (lin.toNat % s.cfg.pageSize) })) ∧
    ((sgTable s t).2 < lin.toNat / s.cfg.pageSize → exec (.sgTranslate t lin) s = .next (takeFatal .sgeRange s)) :=
  ⟨fun h => exec_ok hs (bind_ok (readsOrRaise_ok (translate_inside h))),
    fun h => exec_error hs (bind_error (readsOrRaise_error (translate_outside h)))⟩

/-! ## The rules -/

/-- The fields an envelope's step reads fit their widths (42_envelope R298). -/
structure EnvIn.Bounded (i : EnvIn) : Prop where
  count : i.count < 65536
  level : i.level < 256
  hold : i.hold < 4096
  decay : i.decay < 4096
  sustain : i.sustain < 256

theorem envIn_bounded (s : State) (h : Handle) (e : Env) : (envIn s h e).Bounded := by
  cases e <;>
  exact ⟨voiceField_lt s h _, voiceField_lt s h _, voiceField_lt s h _, voiceField_lt s h _, voiceField_lt s h _⟩

/-- What a step writes fits the fields it is written to. -/
structure EnvOut.Bounded (o : EnvOut) : Prop where
  count : o.count < 65536
  level : o.level < 256
  state : o.state < 16

theorem delayStep_eq (i : EnvIn) :
    delayStep i = ⟨i.count - 1, 0, if i.count - 1 = 0 then 2 else 1, false⟩ := by
  unfold delayStep envDec
  split_ifs with h
  · simp only [h, if_true]
  · simp only [h, if_false]

theorem attackStep_eq (i : EnvIn) :
    attackStep i = ⟨if (i.count + 1) % 65536 = 16 * i.attack then 16 * i.hold else (i.count + 1) % 65536,
      attackLevel i.attack ((i.count + 1) % 65536), if (i.count + 1) % 65536 = 16 * i.attack then 3 else 2, false⟩ := by
  unfold attackStep
  split_ifs with h
  · simp only [h, if_true]
  · simp only [h, if_false]

theorem holdStep_eq (i : EnvIn) :
    holdStep i = ⟨if i.count - 1 = 0 then 16 * i.decay else i.count - 1, 255, if i.count - 1 = 0 then 4 else 3, false⟩ := by
  unfold holdStep envDec
  split_ifs with h
  · simp only [h, if_true]
  · simp only [h, if_false]

/-- The level of Attack is at most 255 (42_envelope R289). -/
theorem attackLevel_lt (attack count : Nat) : attackLevel attack count < 256 := by
  unfold attackLevel
  split_ifs <;> omega

/-- The level of Release is at most 255 (42_envelope R293). -/
theorem releaseLevel_lt (release count prev : Nat) : releaseLevel release count prev < 256 := by
  unfold releaseLevel
  split_ifs <;> omega

/-- The Decay curve starts at 255 and does not rise above it (42_envelope R291). -/
theorem decayLevel_lt (x : Nat) : decayLevel x < 256 := by
  have hle : decayNum ^ x ≤ decayDen ^ x := Nat.pow_le_pow_left (by decide) x
  have h255 : decayLevel x ≤ 255 := Nat.div_le_of_le_mul (by rw [Nat.mul_comm]; exact Nat.mul_le_mul_right 255 hle)
  omega

theorem offStep_bounded (i : EnvIn) : (offStep i).Bounded :=
  ⟨(by decide : 0 < 65536), (by decide : 255 < 256), (by decide : 0 < 16)⟩

theorem delayStep_bounded {i : EnvIn} (h : i.Bounded) : (delayStep i).Bounded := by
  have := h.count
  rw [delayStep_eq]
  exact ⟨by show _ - 1 < _; omega, (by decide : 0 < 256), by dsimp only; split_ifs <;> decide⟩

theorem attackStep_bounded {i : EnvIn} (h : i.Bounded) : (attackStep i).Bounded := by
  have := h.hold
  rw [attackStep_eq]
  exact ⟨by dsimp only; split_ifs <;> omega, attackLevel_lt _ _, by dsimp only; split_ifs <;> decide⟩

theorem holdStep_bounded {i : EnvIn} (h : i.Bounded) : (holdStep i).Bounded := by
  have := h.count
  have := h.decay
  rw [holdStep_eq]
  exact ⟨by dsimp only; split_ifs <;> omega, (by decide : 255 < 256), by dsimp only; split_ifs <;> decide⟩

theorem sustainStep_bounded {i : EnvIn} (h : i.Bounded) : (sustainStep i).Bounded :=
  ⟨(by decide : 0 < 65536), h.sustain, (by decide : 5 < 16)⟩

theorem releaseStep_bounded {i : EnvIn} (h : i.Bounded) : (releaseStep i).Bounded := by
  have := h.count
  exact ⟨by show _ - 1 < _; omega, releaseLevel_lt _ _ _, (by decide : 6 < 16)⟩

/-- Decay without a rate goes to the sustain level at once (42_envelope R291). -/
theorem decayStep_noRate {i : EnvIn} (h : i.decay = 0) : decayStep i = ⟨i.count - 1, i.sustain, 5, false⟩ := if_pos h

/-- Decay with a counter above 16 times the rate keeps the full level (42_envelope R291). -/
theorem decayStep_past {i : EnvIn} (h : i.decay ≠ 0) (hlt : 16 * i.decay < i.count - 1) :
    decayStep i = ⟨i.count - 1, 255, 5, false⟩ := by
  rw [decayStep, if_neg h]
  exact if_pos hlt

/-- Decay on its curve (42_envelope R291). -/
theorem decayStep_curve {i : EnvIn} (h : i.decay ≠ 0) (hle : i.count - 1 ≤ 16 * i.decay) :
    decayStep i = ⟨i.count - 1, decayLevel (decayExponent i.decay (i.count - 1)),
      if decayDone i.sustain (decayExponent i.decay (i.count - 1)) then 5 else 4, false⟩ := by
  rw [decayStep, if_neg h]
  exact if_neg (Nat.not_lt.2 hle)

theorem decayStep_bounded {i : EnvIn} (h : i.Bounded) : (decayStep i).Bounded := by
  have hc : i.count - 1 < 65536 := Nat.lt_of_le_of_lt (Nat.sub_le _ _) h.count
  by_cases hD : i.decay = 0
  · rw [decayStep_noRate hD]
    exact ⟨hc, h.sustain, (by decide : 5 < 16)⟩
  · by_cases hlt : 16 * i.decay < i.count - 1
    · rw [decayStep_past hD hlt]
      exact ⟨hc, (by decide : 255 < 256), (by decide : 5 < 16)⟩
    · rw [decayStep_curve hD (Nat.not_lt.1 hlt)]
      exact ⟨hc, decayLevel_lt _, by dsimp only; split_ifs <;> decide⟩

/-! ## One row -/

/-- The row of a rule writes back what the rule gives, and nothing else (42_envelope R281). -/
theorem exec_envRule {s : State} {h : Handle} {e : Env} (hs : s.halt = .running) (hh : h.toNat < s.cfg.numVoices)
    {i : Instr} {f : EnvIn → EnvOut} (hi : opOf i = envAlone (envRule f h e)) (hb : (f (envIn s h e)).Bounded) :
    ∃ t, exec i s = .next t ∧ EnvWritten s t h e (f (envIn s h e)).count (f (envIn s h e)).level (f (envIn s h e)).state
      (f (envIn s h e)).ends :=
  ⟨_, exec_ok hs (by rw [hi, envAlone_ok (envRule_ok hh f e)]), envAlone_written s h e _ hb.count hb.level hb.state⟩

/-- A row leaves the halt record, the parameters and every field apart from the written ones. -/
structure EnvKept (h : Handle) (e : Env) (s t : State) : Prop where
  halt : t.halt = s.halt
  cfg : t.cfg = s.cfg
  fields : ∀ g : VField, (vCount e).apart g → (vLevel e).apart g → (vState e).apart g → vActive.apart g →
    voiceField t h g = voiceField s h g

theorem EnvWritten.kept {s t : State} {h : Handle} {e : Env} {count level state : Nat} {ends : Bool}
    (hw : EnvWritten s t h e count level state ends) : EnvKept h e s t := by
  obtain ⟨_, _, _, _, _, honly, hfields, _⟩ := hw
  exact ⟨(congrArg State.halt honly :), (congrArg State.cfg honly :), hfields⟩

theorem EnvKept.refl (h : Handle) (e : Env) (s : State) : EnvKept h e s s := ⟨rfl, rfl, fun _ _ _ _ _ => rfl⟩

theorem EnvKept.trans {h : Handle} {e : Env} {s t u : State} (k : EnvKept h e s t) (l : EnvKept h e t u) :
    EnvKept h e s u :=
  ⟨l.halt.trans k.halt, l.cfg.trans k.cfg, fun g h1 h2 h3 h4 => (l.fields g h1 h2 h3 h4).trans (k.fields g h1 h2 h3 h4)⟩

/-- The rates of an envelope are no field its step writes (42_envelope R298). -/
theorem EnvKept.rates {h : Handle} {e : Env} {s t : State} (k : EnvKept h e s t) :
    voiceField t h (vAttack e) = voiceField s h (vAttack e) ∧ voiceField t h (vHold e) = voiceField s h (vHold e) := by
  cases e <;> exact ⟨k.fields _ (by decide) (by decide) (by decide) (by decide),
    k.fields _ (by decide) (by decide) (by decide) (by decide)⟩

/-! ## Runs of a row -/

/-- One more run after `n`. -/
theorem execTimes_succ {i : Instr} {n : Nat} {s t : State} (h : execTimes i n s = .next t) :
    execTimes i (n + 1) s = exec i t := by
  induction n generalizing s with
  | zero =>
    cases h
    rw [execTimes]
    cases exec i t <;> simp only [execTimes]
  | succ n ih =>
    rw [execTimes] at h ⊢
    cases hu : exec i s with
    | next u =>
      rw [hu] at h
      exact ih h
    | fault r =>
      rw [hu] at h
      cases h
    | refused r =>
      rw [hu] at h
      cases h

/-- The state after `n` steps of an Attack that began at counter 0, before it ends (42_envelope R289). -/
structure AttackRun (h : Handle) (e : Env) (A n : Nat) (s t : State) : Prop where
  run : execTimes (.envAttack h e) n s = .next t
  kept : EnvKept h e s t
  count : voiceField t h (vCount e) = n
  state : voiceField t h (vState e) = 2
  level : 0 < n → voiceField t h (vLevel e) = min (n * 255 / A) 255

/-- What the next step of a running Attack writes: the ramp's level, and Hold's counter and state at the end. -/
theorem AttackRun.next {h : Handle} {e : Env} {A n : Nat} {s t : State} (r : AttackRun h e A n s t)
    (hs : s.halt = .running) (hh : h.toNat < s.cfg.numVoices) (hA : voiceField s h (vAttack e) = A) (hn : n < 16 * A) :
    ∃ u, execTimes (.envAttack h e) (n + 1) s = .next u ∧ EnvKept h e s u ∧
      voiceField u h (vLevel e) = min ((n + 1) * 255 / A) 255 ∧
      voiceField u h (vCount e) = (if n + 1 = 16 * A then 16 * voiceField s h (vHold e) else n + 1) ∧
      voiceField u h (vState e) = (if n + 1 = 16 * A then 3 else 2) := by
  have hA4096 : A < 4096 := by
    rw [← hA]
    cases e <;> exact voiceField_lt s h _
  obtain ⟨hattack, hhold⟩ := r.kept.rates
  obtain ⟨u, hu, hw⟩ := exec_envRule (r.kept.halt.trans hs) (r.kept.cfg ▸ hh) (i := .envAttack h e) rfl
    (attackStep_bounded (envIn_bounded t h e))
  have hkept := hw.kept
  obtain ⟨hcount, hlevel, hstate, _⟩ := hw
  rw [attackStep_eq] at hcount hlevel hstate
  have hc : ((envIn t h e).count + 1) % 65536 = n + 1 := by
    show (voiceField t h (vCount e) + 1) % 65536 = n + 1
    rw [r.count]
    omega
  have ha : (envIn t h e).attack = A := hattack.trans hA
  dsimp only at hcount hlevel hstate
  rw [hc, ha] at hcount hlevel hstate
  refine ⟨u, (execTimes_succ r.run).trans hu, r.kept.trans hkept, ?_, ?_, hstate⟩
  · rw [hlevel, attackLevel, if_neg (by omega)]
  · rw [hcount, ← hhold]
    rfl

/-- An Attack that began at counter 0 runs on before its last step (42_envelope R289). -/
theorem attackRun {h : Handle} {e : Env} {A : Nat} {s : State} (hs : s.halt = .running) (hh : h.toNat < s.cfg.numVoices)
    (hA : voiceField s h (vAttack e) = A) (hc : voiceField s h (vCount e) = 0) (hst : voiceField s h (vState e) = 2)
    (n : Nat) (hn : n < 16 * A) : ∃ t, AttackRun h e A n s t := by
  induction n with
  | zero => exact ⟨s, rfl, .refl h e s, hc, hst, fun h0 => absurd h0 (Nat.lt_irrefl 0)⟩
  | succ n ih =>
    obtain ⟨t, r⟩ := ih (by omega)
    obtain ⟨u, hu, hk, hlevel, hcount, hstate⟩ := r.next hs hh hA (by omega)
    rw [if_neg (by omega)] at hcount hstate
    exact ⟨u, hu, hk, hcount, hstate, fun _ => hlevel⟩

/-- The state after `n` steps of a Release that began at counter `16 * R` (42_envelope R293). -/
structure ReleaseRun (h : Handle) (e : Env) (R n : Nat) (s t : State) : Prop where
  run : execTimes (.envRelease h e) n s = .next t
  kept : EnvKept h e s t
  count : voiceField t h (vCount e) = 16 * R - n
  active : voiceField t h vActive = if n = 16 * R then 0 else 1

/-- A Release clears `active` on the step that brings its counter to 0 and on no earlier one (42_envelope R293). -/
theorem releaseRun {h : Handle} {e : Env} {R : Nat} {s : State} (hs : s.halt = .running) (hh : h.toNat < s.cfg.numVoices)
    (hR : 0 < R) (hc : voiceField s h (vCount e) = 16 * R) (ha : voiceField s h vActive = 1)
    (n : Nat) (hn : n ≤ 16 * R) : ∃ t, ReleaseRun h e R n s t := by
  induction n with
  | zero => exact ⟨s, rfl, .refl h e s, hc, by rw [ha, if_neg (by omega)]⟩
  | succ n ih =>
    obtain ⟨t, r⟩ := ih (by omega)
    obtain ⟨u, hu, hw⟩ := exec_envRule (r.kept.halt.trans hs) (r.kept.cfg ▸ hh) (i := .envRelease h e) rfl
      (releaseStep_bounded (envIn_bounded t h e))
    have hkept := hw.kept
    obtain ⟨hcount, _, _, hactive, _⟩ := hw
    have hdec : envDec (envIn t h e).count = 16 * R - (n + 1) := by
      show voiceField t h (vCount e) - 1 = _
      rw [r.count]
      omega
    have hends : (releaseStep (envIn t h e)).ends = decide (n + 1 = 16 * R) := by
      show decide (envDec (envIn t h e).count = 0) = _
      rw [hdec]
      exact decide_eq_decide.2 (by omega)
    have hbefore : voiceField t h vActive = 1 := r.active.trans (if_neg (by omega))
    refine ⟨u, (execTimes_succ r.run).trans hu, r.kept.trans hkept, hcount.trans hdec, ?_⟩
    rw [hactive, hends, hbefore]
    simp only [decide_eq_true_eq]

/-! ## The end of a Decay -/

/-- After 16 times its rate the exact curve is below a fifth of one level step: 65536 factors, as 256 times 256
(42_envelope R291). -/
theorem decayDone_end (sustain : Nat) : decayDone sustain 65536 = true := by
  have hround : 10286 * decayNum ^ 256 ≤ 10000 * decayDen ^ 256 := by norm_num [decayNum, decayDen]
  have hrounds : 1275 * 10000 ^ 256 ≤ 10286 ^ 256 := by norm_num
  have hpow : 10000 ^ 256 * (5 * 255 * decayNum ^ 65536) ≤ 10000 ^ 256 * decayDen ^ 65536 := by
    have hexp : (65536 : Nat) = 256 * 256 := rfl
    rw [hexp, pow_mul, pow_mul]
    calc 10000 ^ 256 * (5 * 255 * (decayNum ^ 256) ^ 256)
        = 1275 * 10000 ^ 256 * (decayNum ^ 256) ^ 256 := by ring
      _ ≤ 10286 ^ 256 * (decayNum ^ 256) ^ 256 := Nat.mul_le_mul_right _ hrounds
      _ = (10286 * decayNum ^ 256) ^ 256 := (mul_pow _ _ _).symm
      _ ≤ (10000 * decayDen ^ 256) ^ 256 := Nat.pow_le_pow_left hround 256
      _ = 10000 ^ 256 * (decayDen ^ 256) ^ 256 := mul_pow _ _ _
  have hone : 5 * 255 * decayNum ^ 65536 ≤ decayDen ^ 65536 := Nat.le_of_mul_le_mul_left hpow (by positivity)
  rw [decayDone, decide_eq_true_iff]
  exact hone.trans (Nat.le_mul_of_pos_left _ (Nat.succ_pos _))

/-- At counter 0 or 1 a step of Decay enters Sustain (42_envelope R291). -/
theorem decayStep_ends {i : EnvIn} (h : i.count ≤ 1) : (decayStep i).state = 5 := by
  have h0 : i.count - 1 = 0 := by omega
  by_cases hD : i.decay = 0
  · rw [decayStep_noRate hD]
  · have hx : decayExponent i.decay 0 = 65536 := by
      rw [decayExponent, Nat.sub_zero, Nat.mul_right_comm]
      exact Nat.mul_div_cancel _ (Nat.pos_of_ne_zero hD)
    rw [decayStep_curve hD (by omega), h0, hx, decayDone_end, if_pos rfl]

end Sys2Proof.Machine

namespace Sys2Proof.Proofs

open Sys2Proof Sys2Proof.Machine

/-- Settles O30: the three tables are those of `sgTable`, through which the row translates. -/
theorem translation : Obligations.translation := by
  intro s lin hs
  simp only [List.forall_mem_cons, List.not_mem_nil, false_imp_iff, implies_true, and_true]
  exact ⟨exec_sgTranslate hs .voice lin, exec_sgTranslate hs .gpScratch lin, exec_sgTranslate hs .epScratch lin⟩

/-- Settles O31: page `k`'s offset `j` has quotient `k` and remainder `j` by the page size. -/
theorem translation_round_trip : Obligations.translation_round_trip := by
  intro s t k j hk hj hlt
  have hnat : (BitVec.ofNat 32 (k * s.cfg.pageSize + j)).toNat = k * s.cfg.pageSize + j := by
    rw [BitVec.toNat_ofNat, Nat.mod_eq_of_lt hlt]
  have hdiv : (k * s.cfg.pageSize + j) / s.cfg.pageSize = k := by
    rw [Nat.mul_comm, Nat.mul_add_div (by omega), Nat.div_eq_of_lt hj, Nat.add_zero]
  have hmod : (k * s.cfg.pageSize + j) % s.cfg.pageSize = j := by
    rw [Nat.mul_comm, Nat.mul_add_mod, Nat.mod_eq_of_lt hj]
  rw [translate_inside (by rw [hnat, hdiv]; exact hk), hnat, hdiv, hmod, Nat.mul_comm k, Config.sgeBytes]

/-- Settles O32: each row runs its rule, whose result fits the fields. -/
theorem envelope_stepped : Obligations.envelope_stepped := by
  rintro s h e C L A H D S R hs hh rfl rfl rfl rfl rfl rfl rfl
  have hb := envIn_bounded s h e
  refine ⟨exec_envRule hs hh rfl (offStep_bounded _), ?_, ?_, ?_, exec_envRule hs hh rfl (sustainStep_bounded hb),
    exec_envRule hs hh rfl (releaseStep_bounded hb)⟩
  · have := exec_envRule hs hh (i := .envDelay h e) rfl (delayStep_bounded hb)
    rwa [delayStep_eq] at this
  · have := exec_envRule hs hh (i := .envAttack h e) rfl (attackStep_bounded hb)
    rwa [attackStep_eq] at this
  · have := exec_envRule hs hh (i := .envHold h e) rfl (holdStep_bounded hb)
    rwa [holdStep_eq] at this

/-- Settles O33: the row runs `decayStep`, whose three branches are the three cases. -/
theorem decay_stepped : Obligations.decay_stepped := by
  rintro s h e C D S x hs hh rfl rfl rfl rfl
  have hrow := exec_envRule hs hh (i := .envDecay h e) rfl (decayStep_bounded (envIn_bounded s h e))
  refine ⟨fun hD => ?_, fun hD hlt => ?_, fun hD hle => ?_⟩
  · rwa [decayStep_noRate hD] at hrow
  · rwa [decayStep_past hD.ne' hlt] at hrow
  · rw [decayStep_curve hD.ne' hle] at hrow
    simp only [decayDone, decide_eq_true_eq, Nat.mul_assoc] at hrow
    exact hrow

/-- Settles O34: with at most one step left the rule enters Sustain. -/
theorem decay_ends : Obligations.decay_ends := by
  intro s h e hs hh hc
  obtain ⟨t, ht, hw⟩ := exec_envRule hs hh (i := .envDecay h e) rfl (decayStep_bounded (envIn_bounded s h e))
  obtain ⟨_, _, hstate, _⟩ := hw
  exact ⟨t, ht, hstate.trans (decayStep_ends hc)⟩

/-- Settles O35: `attackRun` reaches every step before the last, and one more step ends the Attack. -/
theorem attack_lasts : Obligations.attack_lasts := by
  intro s h e A hs hh hA hpos hc hst
  refine ⟨fun n hn hlt => ?_, ?_⟩
  · obtain ⟨t, r⟩ := attackRun hs hh hA hc hst n hlt
    exact ⟨t, r.run, r.kept.halt.trans hs, r.state, r.count, r.level hn⟩
  · obtain ⟨t, r⟩ := attackRun hs hh hA hc hst (16 * A - 1) (by omega)
    obtain ⟨u, hu, hk, hlevel, hcount, hstate⟩ := r.next hs hh hA (by omega)
    have hend : 16 * A - 1 + 1 = 16 * A := by omega
    rw [hend] at hu hlevel hcount hstate
    rw [if_pos rfl] at hcount hstate
    have hfull : 16 * A * 255 / A = 4080 := by
      rw [show 16 * A * 255 = 4080 * A by ring, Nat.mul_div_cancel _ hpos]
    exact ⟨u, hu, hk.halt.trans hs, hstate, hcount, by rw [hlevel, hfull]; rfl⟩

/-- Settles O36: `releaseRun` gives every step, `active` by whether it is the last. -/
theorem release_lasts : Obligations.release_lasts := by
  intro s h e R hs hh _ hpos hc ha
  refine ⟨fun n hn => ?_, ?_⟩
  · obtain ⟨t, r⟩ := releaseRun hs hh hpos hc ha n hn.le
    exact ⟨t, r.run, r.kept.halt.trans hs, r.active.trans (if_neg hn.ne), r.count⟩
  · obtain ⟨t, r⟩ := releaseRun hs hh hpos hc ha (16 * R) le_rfl
    exact ⟨t, r.run, r.kept.halt.trans hs, r.active.trans (if_pos rfl), r.count.trans (Nat.sub_self _)⟩

end Sys2Proof.Proofs
end


section
/-! Sample positions (43_sample_fetch_decode R311, R313): what one position becomes, and the step offset at every rate. -/

namespace Sys2Proof.Machine

/-! ## One position -/

/-- A position up to the end is itself (43_sample_fetch_decode R313). -/
theorem resolvePos_inside (loop : Bool) (lbo : Nat) {ebo p : Nat} (h : p ≤ ebo) :
    resolvePos loop lbo ebo p = .ok (some p) := if_pos h

/-- A position past the end of a voice that does not loop (43_sample_fetch_decode R313). -/
theorem resolvePos_oneshot (lbo : Nat) {ebo p : Nat} (h : ebo < p) : resolvePos false lbo ebo p = .ok none := by
  rw [resolvePos, if_neg (Nat.not_le.2 h)]
  rfl

/-- A position past the end is wrapped into a loop that does not end before it begins (43_sample_fetch_decode R313). -/
theorem resolvePos_wrap {lbo ebo p : Nat} (h : ebo < p) (hl : lbo ≤ ebo) :
    resolvePos true lbo ebo p = .ok (some (lbo + (p - lbo) % (ebo - lbo + 1))) := by
  rw [resolvePos, if_neg (Nat.not_le.2 h), if_pos rfl, loopPos_ok hl, wrapPos_past hl h]
  rfl

/-- A position past the end of a loop that ends before it begins is fatal (43_sample_fetch_decode R313). -/
theorem resolvePos_badLoop {lbo ebo p : Nat} (h : ebo < p) (hl : ebo < lbo) :
    resolvePos true lbo ebo p = .error .voiceBadLoop := by
  rw [resolvePos, if_neg (Nat.not_le.2 h), if_pos rfl, loopPos, if_pos hl]
  rfl

section

variable {s : State} {h : Handle} {loop : Bool} {p : Word}

/-- A resolved position is kept and nothing else changes (log 2). -/
theorem resolveAlone_some (hh : h.toNat < s.cfg.numVoices) {q : Nat}
    (hr : resolvePos loop (voiceField s h vLbo) (voiceField s h vEbo) p.toNat = .ok (some q)) :
    resolveAlone loop h p s = .ok () (s.setSub { s.sub with pos := some q }) := by
  rw [resolveAlone, bind_ok (checkHandle_ok hh), bind_ok (readsOrRaise_ok hr), if_neg (by simp)]
  rfl

/-- The end of a voice clears `active` (43_sample_fetch_decode R313). -/
theorem resolveAlone_none (hh : h.toNat < s.cfg.numVoices)
    (hr : resolvePos loop (voiceField s h vLbo) (voiceField s h vEbo) p.toNat = .ok none) :
    resolveAlone loop h p s = .ok () ((s.setVoiceField h vActive 0).setSub { s.sub with pos := none }) := by
  rw [resolveAlone, bind_ok (checkHandle_ok hh), bind_ok (readsOrRaise_ok hr), if_pos rfl]
  rfl

theorem resolveAlone_error (hh : h.toNat < s.cfg.numVoices) {code : FatalCode}
    (hr : resolvePos loop (voiceField s h vLbo) (voiceField s h vEbo) p.toNat = .error code) :
    resolveAlone loop h p s = .error code s := by
  rw [resolveAlone, bind_ok (checkHandle_ok hh), bind_error (readsOrRaise_error hr)]

end

/-! ## The step offset -/

/-- The exponent of one octave, `255 * 4096` (43_sample_fetch_decode R311). -/
def octave : Int := 255 * 4096

theorem stepOffset_exact {pitch ps : Int} {f : Nat} {k : Int} (h : rateExponent pitch ps f = k * octave) (i : Nat) :
    stepOffset pitch ps f i = scalePow k i := by
  unfold octave at h
  have hmod : rateExponent pitch ps f % (255 * 4096) = 0 := by omega
  have hdiv : rateExponent pitch ps f / (255 * 4096) = k := by omega
  rw [stepOffset]
  simp only [hmod, hdiv, if_true]

theorem stepOffset_free {pitch ps : Int} {f : Nat} (h : rateExponent pitch ps f % octave ≠ 0) (i : Nat) :
    stepOffset pitch ps f i = freeOffset pitch ps f i := if_neg h

theorem scalePow_zero (k : Int) : scalePow k 0 = 0 := by
  rw [scalePow]
  split_ifs
  · exact Nat.zero_mul _
  · exact Nat.zero_div _

/-- An exact scaling does not fall (43_sample_fetch_decode R311 (b)). -/
theorem scalePow_mono (k : Int) (i : Nat) : scalePow k i ≤ scalePow k (i + 1) := by
  rw [scalePow, scalePow]
  split_ifs
  · exact Nat.mul_le_mul_right _ (Nat.le_succ i)
  · exact Nat.div_le_div_right (Nat.le_succ i)

/-- An exact scaling by at most nine octaves is at most 512 times the position (43_sample_fetch_decode R311 (e)). -/
theorem scalePow_le {k : Int} (hk : k ≤ 9) (i : Nat) : scalePow k i ≤ 512 * i := by
  rw [scalePow]
  split_ifs with h0
  · have hpow : 2 ^ k.toNat ≤ 2 ^ 9 := Nat.pow_le_pow_right (by decide) (by omega)
    rw [Nat.mul_comm]
    exact Nat.mul_le_mul_right i hpow
  · exact (Nat.div_le_self _ _).trans (Nat.le_mul_of_pos_left i (by decide))

theorem freeOffset_le (pitch ps : Int) (f i : Nat) : freeOffset pitch ps f i ≤ 512 * i := by
  cases i with
  | zero => exact le_rfl
  | succ i => exact Nat.min_le_left _ _

/-- The free offset does not fall (43_sample_fetch_decode R311 (b)). -/
theorem freeOffset_mono (pitch ps : Int) (f i : Nat) : freeOffset pitch ps f i ≤ freeOffset pitch ps f (i + 1) :=
  Nat.le_min.2 ⟨(freeOffset_le pitch ps f i).trans (by omega), Nat.le_add_right _ _⟩

/-- No pitch and filter level raise the rate by more than nine octaves (43_sample_fetch_decode R311 (e)). -/
theorem rateExponent_le {pitch ps : Int} {f : Nat} (hp : pitch ≤ 32767) (hs : ps ≤ 127) (hf : f ≤ 255) :
    rateExponent pitch ps f ≤ 9 * octave := by
  have h1 : ps * 32 * f ≤ 127 * 32 * f := by
    apply Int.mul_le_mul_of_nonneg_right <;> omega
  unfold rateExponent octave
  omega

end Sys2Proof.Machine

namespace Sys2Proof.Proofs

open Sys2Proof Sys2Proof.Machine

/-- Settles O37: both rows resolve as `resolvePos` does, and keep the position or end the voice. -/
theorem position_resolved : Obligations.position_resolved := by
  rintro s h p lbo ebo hs hh rfl rfl
  refine ⟨fun hle => ?_, fun hlt hl => ?_, fun hlt hl => ?_, fun hlt => ?_⟩
  · simp only [List.forall_mem_cons, List.not_mem_nil, false_imp_iff, implies_true, and_true]
    exact ⟨exec_ok hs (resolveAlone_some hh (resolvePos_inside true _ hle)),
      exec_ok hs (resolveAlone_some hh (resolvePos_inside false _ hle))⟩
  · refine ⟨exec_ok hs (resolveAlone_some hh (resolvePos_wrap hlt hl)), ?_⟩
    rw [← wrapPos_past hl hlt]
    exact (wrapPos_bounds hl).2
  · exact exec_error hs (resolveAlone_error hh (resolvePos_badLoop hlt hl))
  · refine ⟨_, exec_ok hs (resolveAlone_none hh (resolvePos_oneshot _ hlt)),
      voiceField_setVoiceField_same s h vActive 0 (by decide), rfl, rfl,
      fun g => voiceField_setVoiceField_apart s h vActive g 0, memByte_setVoiceField s h vActive 0⟩

/-- Settles O38: at a whole number of octaves the offset is the exact scaling, elsewhere the free function. -/
theorem step_offset_properties : Obligations.step_offset_properties := by
  intro pitch ps f i _ hp _ hps hf
  have hexact (k : Int) (h : pitch * 255 + ps * 32 * f = k * (255 * 4096)) := stepOffset_exact (f := f) h
  refine ⟨?start, ?mono, fun h => ?_, fun k h => ?_, fun k h => ?_, ?bound⟩
  case start =>
    by_cases h : rateExponent pitch ps f % octave = 0
    · rw [stepOffset_exact (Int.ediv_mul_cancel (Int.dvd_of_emod_eq_zero h)).symm, scalePow_zero]
    · rw [stepOffset_free h, freeOffset]
  case mono =>
    by_cases h : rateExponent pitch ps f % octave = 0
    · have he := (Int.ediv_mul_cancel (Int.dvd_of_emod_eq_zero h)).symm
      rw [stepOffset_exact he, stepOffset_exact he]
      exact scalePow_mono _ i
    · rw [stepOffset_free h, stepOffset_free h]
      exact freeOffset_mono pitch ps f i
  case bound =>
    by_cases h : rateExponent pitch ps f % octave = 0
    · rw [stepOffset_exact (Int.ediv_mul_cancel (Int.dvd_of_emod_eq_zero h)).symm]
      refine scalePow_le ?_ i
      have := rateExponent_le hp hps hf
      unfold octave at this ⊢
      omega
    · rw [stepOffset_free h]
      exact freeOffset_le pitch ps f i
  · rw [hexact 0 (by omega), scalePow, if_pos le_rfl]
    exact Nat.mul_one i
  · rw [hexact k h, scalePow, if_pos (Int.natCast_nonneg k), Int.toNat_natCast]
  · rw [hexact (-k) (by omega), scalePow]
    split_ifs with h0
    · obtain rfl : k = 0 := by omega
      simp
    · rw [Int.neg_neg, Int.toNat_natCast]

end Sys2Proof.Proofs
end


section
/-! The actions of the DMA engine and its chain walk (45_dma_engine R397 to R406): an action is a status change, then the walk
when CONTROL runs; and the DESC rows that move nothing. -/

namespace Sys2Proof.Machine

/-! ## Actions -/

/-- An instruction that changes core `c`'s CONTROL by `f`, then walks if the engine runs (45_dma_engine R398 to R402). -/
def ActsBy (i : Instr) (c : Core) (f : Word → Word) : Prop :=
  ∀ s, opOf i s = runChain c (s.setDma c { s.dma c with control := f (s.dma c).control })

theorem actsBy_nop (c : Core) (rest : BitVec 29) : ActsBy (.dmaActNop c rest) c id := fun s => by
  cases c <;> rfl

theorem actsBy_start (c : Core) (rest : BitVec 29) : ActsBy (.dmaActStart c rest) c statusStart := fun _ => rfl

theorem actsBy_stop (c : Core) (rest : BitVec 29) : ActsBy (.dmaActStop c rest) c statusStop := fun _ => rfl

theorem actsBy_freeze (c : Core) (rest : BitVec 29) : ActsBy (.dmaActFreeze c rest) c statusFreeze := fun _ => rfl

theorem actsBy_unfreeze (c : Core) (rest : BitVec 29) : ActsBy (.dmaActUnfreeze c rest) c statusUnfreeze := fun _ => rfl

/-- An engine that is stopped or frozen does not walk (45_dma_engine R405). -/
theorem runChain_idle {c : Core} {s : State} (h : walks (s.dma c).control = false) : runChain c s = .ok () s := by
  rw [runChain, bind_reads_run, h]
  rfl

/-- An engine that runs walks (45_dma_engine R404). -/
theorem runChain_walks {c : Core} {s : State} (h : walks (s.dma c).control = true) :
    runChain c s = chainLoop c (Config.chainBound + 1) s := by
  rw [runChain, bind_reads_run, if_pos h]

section
variable {i : Instr} {c : Core} {f : Word → Word} {s : State} {old new : Word}

theorem ActsBy.exec_eq (A : ActsBy i c f) (hf : f old = new) (h : (s.dma c).control = old) :
    exec i s = runOp (runChain c) (s.setDma c { s.dma c with control := new }) := by
  have hop : opOf i s = runChain c (s.setDma c { s.dma c with control := new }) := by rw [A s, h, hf]
  rw [Machine.exec_eq]
  unfold runOp
  rw [hop]
  cases c <;> rfl

/-- An action after which the engine does not walk is its status change alone. -/
theorem ActsBy.idle (A : ActsBy i c f) (hs : s.halt = .running) (hf : f old = new ∧ walks new = false)
    (h : (s.dma c).control = old) : exec i s = .next (s.setDma c { s.dma c with control := new }) := by
  rw [A.exec_eq hf.1 h]
  exact runOp_ok (a := ()) (by simpa using hs) (runChain_idle (by simpa using hf.2))

/-- An action after which the engine runs on is the loop of the walk from there. -/
theorem ActsBy.loop (A : ActsBy i c f) (hf : f old = 0x10) (h : (s.dma c).control = old) :
    exec i s = runOp (chainLoop c (Config.chainBound + 1)) (s.setDma c { s.dma c with control := 0x10 }) := by
  rw [A.exec_eq hf h]
  have hw : walks 0x10 = true := by decide
  exact runOp_congr (runChain_walks (by rw [setDma_dma_same]; exact hw))

end

/-- The five entries of the table of actions that walk (45_dma_engine R397). -/
def walkingActions (c : Core) (rest : BitVec 29) : List (Instr × Word) :=
  [(.dmaActNop c rest, 0x10), (.dmaActStart c rest, 0x20), (.dmaActStart c rest, 0x10), (.dmaActUnfreeze c rest, 0x10),
    (.dmaActUnfreeze c rest, 0x18)]

/-- Each of them leaves the engine running and is the loop of the walk. -/
theorem exec_walkingAction {c : Core} {rest : BitVec 29} {p : Instr × Word} (hp : p ∈ walkingActions c rest) {s : State}
    (h : (s.dma c).control = p.2) :
    exec p.1 s = runOp (chainLoop c (Config.chainBound + 1)) (s.setDma c { s.dma c with control := 0x10 }) := by
  have all : ∀ q ∈ walkingActions c rest, ∃ f : Word → Word, ActsBy q.1 c f ∧ f q.2 = 0x10 := by
    simp only [walkingActions, List.forall_mem_cons, List.not_mem_nil, false_imp_iff, implies_true, and_true]
    exact ⟨⟨id, actsBy_nop c rest, by decide⟩, ⟨_, actsBy_start c rest, by decide⟩, ⟨_, actsBy_start c rest, by decide⟩,
      ⟨_, actsBy_unfreeze c rest, by decide⟩, ⟨_, actsBy_unfreeze c rest, by decide⟩⟩
  obtain ⟨f, hA, hf⟩ := all p hp
  exact hA.loop hf h

/-! ## The loop of a walk -/

/-- At an end-of-list pointer the walk returns (45_dma_engine R406). -/
theorem chainLoop_eol {c : Core} (m : Nat) {s : State} (h : ptrEol (s.dma c).nextBlock = true) :
    chainLoop c (m + 1) s = .ok () (s.setDma c { s.dma c with eol := true }) := by
  rw [chainLoop, bind_reads_run, if_pos h, chainEnd, dmaUpdate, update_run]

/-- At a descriptor whose body takes a fatal the walk stops (45_dma_engine R423). -/
theorem chainLoop_fatal {c : Core} (m : Nat) {s t : State} {code : FatalCode} (h : ptrEol (s.dma c).nextBlock = false)
    (hb : chainBody c (s.dma c).nextBlock s = .error code t) : chainLoop c (m + 1) s = .error code t := by
  rw [chainLoop, bind_reads_run, h]
  exact bind_error hb

/-- A descriptor whose rows halt the block is a body that takes the fatal, in which the engine stays. -/
theorem chainBody_of_rows {c : Core} {u v : State} {code : FatalCode} (hr : u.halt = .running)
    (hv : descriptorRows c u = .next v) (hh : v.halt = .halted code) (b : SubOp) :
    ∃ t, chainBody c (u.dma c).nextBlock (u.setSub b) = .error code t ∧ takeFatal code t = { v with sub := b } ∧
      v.dma c = u.dma c := by
  obtain ⟨b', hb⟩ := descriptorRows_body (c := c) hr
  rw [hv] at hb
  cases e : chainBody c (u.dma c).nextBlock u with
  | ok a t =>
    rw [e] at hb
    cases hb
    have ht := (congrArg State.halt (chainBody_ok e) :)
    rw [setDma_halt] at ht
    have : t.halt = .running := ht.trans hr
    rw [setSub_halt, this] at hh
    cases hh
  | error code' t =>
    rw [e] at hb
    cases hb
    cases hh
    refine ⟨t.setSub b, by rw [chainBody_setSub, e], rfl, ?_⟩
    rw [takeFatal_dma, setSub_dma, chainBody_error e]
    cases c <;> rfl

/-- A status change leaves a chain, the scratch table and everything that no engine holds (45_dma_engine R397). -/
theorem chainTo_setDma {s : State} {c d : Core} {r : DmaRegs} {last ptr : Word} {l : List Descriptor}
    (h : ChainTo s c last ptr l) : ChainTo (s.setDma d r) c last ptr l :=
  chainTo_congr (setDma_cfg s d r) (fun _ _ _ _ _ => by cases d <;> rfl) h

theorem sgTable_setDma (s : State) (c : Core) (r : DmaRegs) (t : SgTable) : sgTable (s.setDma c r) t = sgTable s t := by
  cases c <;> rfl

section
variable {c : Core} {rest : BitVec 29} {p : Instr × Word} {s u : State} {n : Nat}

/-- What the loop of an action's walk is, once the rows of `n` descriptors have led to `u` (45_dma_engine R404). -/
theorem exec_walked (hs : s.halt = .running) (hp : p ∈ walkingActions c rest) (hc : (s.dma c).control = p.2)
    (hw : WalksTo c n (s.setDma c { s.dma c with control := 0x10 }) u) :
    u.halt = .running ∧ u.dma c = { s.dma c with control := 0x10, nextBlock := (u.dma c).nextBlock } ∧
    (∀ m t, n + m = Config.chainBound + 1 → chainLoop c m (u.setSub s.sub) = .ok () t → exec p.1 s = .next t) ∧
    (∀ m code t, n + m = Config.chainBound + 1 → chainLoop c m (u.setSub s.sub) = .error code t →
      exec p.1 s = .next (takeFatal code t)) := by
  have hz : (s.setDma c { s.dma c with control := 0x10 }).halt = .running := by rw [setDma_halt, hs]
  have hsub : (s.setDma c { s.dma c with control := 0x10 }).sub = s.sub := setDma_sub s c _
  obtain ⟨hu, hd, hloop⟩ := chainLoop_walks (s := s.setDma c { s.dma c with control := 0x10 }) n hz rfl hw
  rw [setDma_dma_same] at hd
  rw [hsub] at hloop
  rw [exec_walkingAction hp hc]
  refine ⟨hu, hd, fun m t hm h => ?_, fun m code t hm h => ?_⟩
  · rw [← hm]
    exact runOp_ok (a := ()) hz ((hloop m).trans h)
  · rw [← hm]
    exact runOp_error hz ((hloop m).trans h)

/-- It returns at an end-of-list pointer, with `eol` set (45_dma_engine R406). -/
theorem exec_walked_eol (hs : s.halt = .running) (hp : p ∈ walkingActions c rest) (hc : (s.dma c).control = p.2)
    (hw : WalksTo c n (s.setDma c { s.dma c with control := 0x10 }) u) (hn : n ≤ 16384)
    (he : ptrEol (u.dma c).nextBlock = true) :
    exec p.1 s = .next { u.setDma c { u.dma c with eol := true } with sub := s.sub } := by
  obtain ⟨-, -, hok, -⟩ := exec_walked hs hp hc hw
  refine hok (16384 - n + 1) _ (by rw [Config.chainBound]; omega)
    ((chainLoop_eol (c := c) (s := u.setSub s.sub) (16384 - n) (by rw [setSub_dma]; exact he)).trans ?_)
  cases c <;> rfl

/-- It stops at a descriptor whose rows take a fatal, with all that they wrote kept (45_dma_engine R423). -/
theorem exec_walked_fatal (hs : s.halt = .running) (hp : p ∈ walkingActions c rest) (hc : (s.dma c).control = p.2)
    (hw : WalksTo c n (s.setDma c { s.dma c with control := 0x10 }) u) (hn : n ≤ 16384)
    (he : ptrEol (u.dma c).nextBlock = false) {v : State} {code : FatalCode} (hv : descriptorRows c u = .next v)
    (hh : v.halt = .halted code) : exec p.1 s = .next { v with sub := s.sub } ∧ v.dma c = u.dma c := by
  obtain ⟨hu, -, -, herr⟩ := exec_walked hs hp hc hw
  obtain ⟨t, ht, htv, hd⟩ := chainBody_of_rows hu hv hh s.sub
  refine ⟨?_, hd⟩
  rw [← htv]
  exact herr (16384 - n + 1) code t (by rw [Config.chainBound]; omega)
    (chainLoop_fatal (c := c) (s := u.setSub s.sub) (16384 - n) (by rw [setSub_dma]; exact he) (by rw [setSub_dma]; exact ht))

/-- Past the bound it takes CHAIN_CYCLE (45_dma_engine R421; log 13). -/
theorem exec_walked_cycle (hs : s.halt = .running) (hp : p ∈ walkingActions c rest) (hc : (s.dma c).control = p.2)
    (hw : WalksTo c n (s.setDma c { s.dma c with control := 0x10 }) u) (hn : n = 16385) :
    exec p.1 s = .next { u with sub := s.sub, halt := .halted .chainCycle } := by
  obtain ⟨-, -, -, herr⟩ := exec_walked hs hp hc hw
  exact herr 0 .chainCycle (u.setSub s.sub) (by rw [Config.chainBound, hn]) (by rw [chainLoop, raise_run])

end

/-! ## The rows that move nothing -/

/-- The class rows of a format code (45_dma_engine R412). -/
theorem runOp_formatAlone {s : State} (hs : s.halt = .running) (c : Core) {k n : Nat} (h : itemSize k = pure n) :
    runOp (formatAlone c k) s = .next (s.setWalk c { s.walk c with itemSize := n }) :=
  runOp_ok (a := ()) hs (by rw [formatAlone, h, bind_pure_run, walkUpdate, update_run])

theorem runOp_formatAlone_bad {s : State} (hs : s.halt = .running) (c : Core) {k : Nat}
    (h : itemSize k = raise .dmaBadFormat) : runOp (formatAlone c k) s = .next { s with halt := .halted .dmaBadFormat } :=
  runOp_error hs (by rw [formatAlone, h, bind_raise_run])

/-- The direction row of a skipped body, of a transfer that completes and of one that stops (45_dma_engine R404, R415,
R423). -/
theorem directionAlone_skip {s : State} {c : Core} (out : Bool) (h : (s.walk c).skip = true) :
    directionAlone c out s = .ok () (s.setDma c { s.dma c with nextBlock := (s.walk c).desc.next }) := by
  rw [directionAlone, bind_reads_run, h]
  rfl

theorem directionAlone_ok {s t : State} {c : Core} {out : Bool} (h : (s.walk c).skip = false)
    (ht : transfer c out (s.walk c).itemSize (s.walk c).desc (s.walk c).target s = .ok () t) :
    directionAlone c out s = .ok () (t.setDma c { t.dma c with nextBlock := (s.walk c).desc.next }) := by
  rw [directionAlone, bind_reads_run, h]
  exact bind_ok ht

theorem directionAlone_error {s t : State} {c : Core} {out : Bool} {code : FatalCode} (h : (s.walk c).skip = false)
    (ht : transfer c out (s.walk c).itemSize (s.walk c).desc (s.walk c).target s = .error code t) :
    directionAlone c out s = .error code t := by
  rw [directionAlone, bind_reads_run, h]
  exact bind_error ht

/-- A DSP side that lies in none of the windows fails the window check (45_dma_engine R417). -/
theorem checkWindow_outside {offset count : Nat}
    (h : ∀ lo hi, (lo, hi) ∈ [(0, 0x1800), (0x1800, 0x2000), (0x2800, 0x3800)] →
      ¬ (lo ≤ offset ∧ offset < hi ∧ offset + count ≤ hi)) : checkWindow offset count = .error .dmaBounds := by
  have hx := h 0 0x1800 (by simp)
  have hy := h 0x1800 0x2000 (by simp)
  have hp := h 0x2800 0x3800 (by simp)
  have last : ∀ lo hi sp idx, lo ≤ offset → offset < hi → ¬ (lo ≤ offset ∧ offset < hi ∧ offset + count ≤ hi) →
      (∀ k, hi ≤ k → (dspWindow k).map Prod.fst ≠ some sp) → dspWindow offset = some (sp, idx) →
      checkWindow offset count = .error .dmaBounds := fun lo hi sp idx hlo hhi hn hend hwin => by
    unfold checkWindow
    rw [hwin]
    refine if_neg ?_
    rintro (h0 | hlast)
    · omega
    · exact hend _ (by omega) hlast
  by_cases hox : offset < 0x1800
  · refine last 0 0x1800 .x offset (by omega) hox hx (fun k hk => ?_) (if_pos hox)
    unfold dspWindow
    rw [if_neg (by omega)]
    split
    · simp
    · split <;> simp
  by_cases hoy : offset < 0x2000
  · refine last 0x1800 0x2000 .y (offset - 0x1800) (by omega) hoy hy (fun k hk => ?_) ?_
    · unfold dspWindow
      rw [if_neg (by omega), if_neg (by omega)]
      split <;> simp
    · unfold dspWindow
      rw [if_neg hox, if_pos hoy]
  by_cases hop : 0x2800 ≤ offset ∧ offset < 0x3800
  · refine last 0x2800 0x3800 .p (offset - 0x2800) hop.1 hop.2 hp (fun k hk => ?_) ?_
    · unfold dspWindow
      rw [if_neg (by omega), if_neg (by omega), if_neg (by omega)]
      simp
    · unfold dspWindow
      rw [if_neg hox, if_neg hoy, if_pos hop]
  · unfold checkWindow dspWindow
    rw [if_neg hox, if_neg hoy, if_neg hop]

end Sys2Proof.Machine

namespace Sys2Proof.Proofs
open Sys2Proof Sys2Proof.Machine

/-- Settles O54: the loop of the walk is its descriptors' rows, and a finite steady chain leads to its EOL pointer. -/
theorem chain_terminates : Obligations.chain_terminates := by
  intro s z c rest hs hz p hp hc
  subst hz
  refine ⟨fun n u hw => ?_, fun chain last hf hchain hlen hruns hsteady => ?_⟩
  · obtain ⟨hu, hd, -, -⟩ := exec_walked hs hp hc hw
    exact ⟨hu, hd, exec_walked_eol hs hp hc hw, fun hn he _ _ => exec_walked_fatal hs hp hc hw hn he,
      exec_walked_cycle hs hp hc hw⟩
  · have hnb : ((s.setDma c { s.dma c with control := 0x10 }).dma c).nextBlock = (s.dma c).nextBlock := by
      rw [setDma_dma_same]
    obtain ⟨u, hw, hd, he, hother, hcells, hdsp, hmem, hframe⟩ := chain_walks (c := c) (last := last) chain
      (s := s.setDma c { s.dma c with control := 0x10 }) (by rw [setDma_halt, hs])
      (by rw [hnb]; exact chainTo_setDma hchain) hruns (by rw [hnb]; exact hsteady)
      (by unfold fullTable; rw [sgTable_setDma]; exact hf)
    rw [setDma_dma_same] at hd
    have hlast : (u.dma c).nextBlock = last := by rw [hd]
    obtain ⟨hu, -, -, -⟩ := exec_walked hs hp hc hw
    refine ⟨u, _, hw, hlast, exec_walked_eol hs hp hc hw hlen (by rw [hlast]; exact he), rfl, ?_, ?_, fun e hne => ?_,
      fun e sp j hn => ?_, fun h => ?_, fun h => ?_, ?_⟩
    · show (u.setDma c _).halt = _
      rw [setDma_halt, hu]
    · show (u.setDma c _).dma c = _
      rw [setDma_dma_same, hd]
    · show (u.setDma c _).dma e = _
      rw [setDma_dma_other _ hne, hother e hne, setDma_dma_other _ hne]
    · have := hcells e sp j hn
      cases c <;> cases e <;> exact this
    · have := hdsp h
      cases c <;> exact this
    · have := hmem h
      cases c <;> exact this
    · have := congrArg (fun a : State => { a with dmaGp := s.dmaGp, dmaEp := s.dmaEp, sub := s.sub }) hframe
      cases c <;> exact this

/-- Settles O52: the walk returns at its first pointer. -/
theorem action_at_end_of_list : Obligations.action_at_end_of_list := by
  intro s c rest hs he p hp hc
  rw [exec_walked_eol (n := 0) hs hp hc rfl (Nat.zero_le _) (by rw [setDma_dma_same]; exact he)]
  cases c <;> rfl

/-- Settles O51: each entry's new CONTROL is stopped or frozen. -/
theorem action_without_walk : Obligations.action_without_walk := by
  intro s c rest hs
  simp only [List.forall_mem_cons, List.not_mem_nil, false_imp_iff, implies_true, and_true]
  have nop := actsBy_nop c rest
  have start := actsBy_start c rest
  have stop := actsBy_stop c rest
  have freeze := actsBy_freeze c rest
  have unfreeze := actsBy_unfreeze c rest
  exact ⟨nop.idle hs (by decide), nop.idle hs (by decide), nop.idle hs (by decide), start.idle hs (by decide),
    start.idle hs (by decide), stop.idle hs (by decide), stop.idle hs (by decide), stop.idle hs (by decide),
    stop.idle hs (by decide), freeze.idle hs (by decide), freeze.idle hs (by decide), freeze.idle hs (by decide),
    freeze.idle hs (by decide), unfreeze.idle hs (by decide), unfreeze.idle hs (by decide)⟩

/-- Settles O53: the operation of each raises its code at once, after the handle check where there is a voice. -/
theorem fatal_operations_taken : Obligations.fatal_operations_taken := by
  intro s c rest h e low p hs
  refine ⟨?_, fun hh => ⟨?_, ?_, ?_⟩⟩
  · simp only [List.forall_mem_cons, List.not_mem_nil, false_imp_iff, implies_true, and_true]
    exact ⟨exec_error hs rfl, exec_error hs rfl, exec_error hs rfl⟩
  · exact exec_error hs (bind_error (bind_ok (checkHandle_ok hh)))
  · exact exec_error hs (bind_error (bind_ok (checkHandle_ok hh)))
  · have run : runOp (fetchAlone .illegal h p) s = .next { s with halt := .halted .voiceBadFormat } :=
      runOp_error hs (bind_ok (checkHandle_ok hh))
    simp only [List.forall_mem_cons, List.not_mem_nil, false_imp_iff, implies_true, and_true, exec_eq, opOf, run]

/-- Settles O55, by the item size of each format code. -/
theorem format_classified : Obligations.format_classified := by
  intro s c hs
  simp only [List.forall_mem_cons, List.not_mem_nil, false_imp_iff, implies_true, and_true, exec_eq, opOf]
  exact ⟨⟨runOp_formatAlone hs c rfl, runOp_formatAlone hs c rfl, runOp_formatAlone hs c rfl⟩,
    runOp_formatAlone_bad hs c rfl, runOp_formatAlone_bad hs c rfl, runOp_formatAlone_bad hs c rfl,
    runOp_formatAlone_bad hs c rfl, runOp_formatAlone_bad hs c rfl⟩

/-- Settles O56: the circular class skips where the items do not fit strictly. -/
theorem buffer_selected : Obligations.buffer_selected := by
  intro s c bufId w hs hw
  subst hw
  have fits : ∀ (d : Descriptor) (size : Nat), (!circularFits d size) =
      decide (d.scratchSizeM1.toNat + 1 ≤ d.scratchOffset.toNat + d.count.toNat * size) := fun d size => by
    unfold circularFits
    rw [← decide_not]
    exact decide_eq_decide.2 Nat.not_lt
  refine ⟨?_, exec_ok hs rfl⟩
  rw [← fits]
  exact exec_ok hs rfl

/-- Settles O57: the seven cells are read where the last of them is an X cell. -/
theorem pointer_followed : Obligations.pointer_followed := by
  intro s c addr hs
  exact ⟨exec_ok hs rfl, fun hx => exec_ok hs (bind_ok (readDescriptor_ok hx c)),
    fun hx => exec_error hs (bind_error (readDescriptor_bad hx c))⟩

/-- Settles O58: a skipped body has no transfer, and the window check comes before the first item. -/
theorem direction_skipped_or_bounded : Obligations.direction_skipped_or_bounded := by
  intro s c w hs hw
  subst hw
  have out : ∀ d, (s.walk c).skip = false → (∀ lo hi, (lo, hi) ∈ [(0, 0x1800), (0x1800, 0x2000), (0x2800, 0x3800)] →
      ¬ (lo ≤ (s.walk c).desc.dspOffset.toNat ∧ (s.walk c).desc.dspOffset.toNat < hi ∧
        (s.walk c).desc.dspOffset.toNat + (s.walk c).desc.count.toNat ≤ hi)) →
      directionAlone c d s = .error .dmaBounds s := fun d h hn =>
    directionAlone_error h (transfer_bounds c d _ _ _ (checkWindow_outside hn))
  simp only [List.forall_mem_cons, List.not_mem_nil, false_imp_iff, implies_true, and_true, exec_eq, opOf]
  exact ⟨⟨fun h => runOp_ok hs (directionAlone_skip true h), fun h hn => runOp_error hs (out true h hn)⟩,
    fun h => runOp_ok hs (directionAlone_skip false h), fun h hn => runOp_error hs (out false h hn)⟩

end Sys2Proof.Proofs
end


section
/-! The transfers between DSP memory and scratch (45_dma_engine R416 to R418, R423): the items as the statements write them, and
the direction rows they complete or stop. -/

namespace Sys2Proof.Machine

/-- Item `k` begins `k * size` bytes after the target. -/
theorem item_lin (lin : Word) (a j : Nat) : lin + BitVec.ofNat 32 a + BitVec.ofNat 32 j = lin + BitVec.ofNat 32 (a + j) := by
  rw [BitVec.add_assoc, ← BitVec.ofNat_add]

/-- Byte `b` of item `k` is one of the first `m` items'. -/
theorem item_byte_lt {k m size b : Nat} (hk : k < m) (hb : b < size) : k * size + b < m * size :=
  calc k * size + b < k * size + size := by omega
    _ = (k + 1) * size := (Nat.succ_mul k size).symm
    _ ≤ m * size := Nat.mul_le_mul_right size hk

/-- A window of the DSP side that holds the cells of a body names them (45_dma_engine R417). -/
theorem names_window {d : Descriptor} {sp : Space} {lo hi idx : Nat}
    (hw : (sp, lo, hi) ∈ [(Space.x, 0, 0x1800), (.y, 0x1800, 0x2000), (.p, 0x2800, 0x3800)])
    (ho : d.dspOffset.toNat = lo + idx) (hi1 : lo + idx < hi) (hi2 : lo + idx + d.count.toNat ≤ hi) : d.names sp idx :=
  ⟨(sp, lo, hi), hw, rfl, ho, hi1, hi2⟩

/-- The value of an item in a cell: its little-endian number cut to the item's bits, then to the cell's (45_dma_engine R418,
20_memory R87). -/
theorem cellValue_item (bits v size : Nat) : cellValue bits (BitVec.ofNat 32 (v % itemMask size)) =
    BitVec.ofNat 32 (v % (if size = 2 then 2 ^ 16 else 2 ^ 24) % 2 ^ bits) := by
  have hm : itemMask size = if size = 2 then 2 ^ 16 else 2 ^ 24 := rfl
  have hlt : v % itemMask size < 2 ^ 32 := by
    have h1 : v % 0x10000 < 0x10000 := Nat.mod_lt _ (by omega)
    have h2 : v % 0x1000000 < 0x1000000 := Nat.mod_lt _ (by omega)
    unfold itemMask
    split <;> omega
  rw [cellValue, BitVec.toNat_ofNat, Nat.mod_eq_of_lt hlt, hm]

/-- What moving the first `m` items from scratch leaves: their cells written, and nothing else (45_dma_engine R418). -/
structure ItemsMovedIn (c : Core) (sp : Space) (size idx m : Nat) (addr : Nat → Word) (s t : State) : Prop where
  cells : ∀ k, k < m → dspRead t c sp (idx + k) = BitVec.ofNat 32
    (littleEndian size (fun b => memByte s.mem (addr (k * size + b))) % (if size = 2 then 2 ^ 16 else 2 ^ 24) %
      2 ^ s.cfg.cellBits)
  others : ∀ d sq j, ¬ (d = c ∧ sq = sp ∧ idx ≤ j ∧ j < idx + m) → dspRead t d sq j = dspRead s d sq j
  frame : { t with dspGp := s.dspGp, dspEp := s.dspEp } = s

theorem ItemsMovedIn.dma {c : Core} {sp : Space} {size idx m : Nat} {addr : Nat → Word} {s t : State}
    (h : ItemsMovedIn c sp size idx m addr s t) (d : Core) : t.dma d = s.dma d := by
  have := congrArg (fun a : State => a.dma d) h.frame
  cases d <;> exact this

/-- The items whose bytes translate are moved; where all do, the move completes, and where a byte of the next does not, it stops
there (45_dma_engine R418, R423). -/
theorem moveItems_in_known {s : State} {c : Core} (sp : Space) (size idx : Nat) (lin : Word) (m n : Nat) (addr : Nat → Word)
    (ha : ∀ j, j < m * size → translate s (scratchTable c) (lin + BitVec.ofNat 32 j) = .ok (addr j)) :
    ∃ t, ItemsMovedIn c sp size idx m addr s t ∧
      (m = n → moveItems (itemIn c sp size) size idx lin n s = .ok () t) ∧
      (m < n → (∃ j, m * size ≤ j ∧ j < (m + 1) * size ∧
          translate s (scratchTable c) (lin + BitVec.ofNat 32 j) = .error .sgeRange) →
        moveItems (itemIn c sp size) size idx lin n s = .error .sgeRange t) := by
  have item : ∀ k, k < m → sgRead s (scratchTable c) (lin + BitVec.ofNat 32 (k * size)) size =
      .ok (littleEndian size fun b => memByte s.mem (addr (k * size + b))) := fun k hk =>
    sgRead_known fun b hb => by rw [item_lin, ha _ (item_byte_lt hk hb)]
  have known : ∀ t : State, (∀ k, k < m → ∃ v, sgRead s (scratchTable c) (lin + BitVec.ofNat 32 (k * size)) size = .ok v ∧
      dspRead t c sp (idx + k) = cellValue s.cfg.cellBits (BitVec.ofNat 32 (v % itemMask size))) →
      ∀ k, k < m → dspRead t c sp (idx + k) = BitVec.ofNat 32
        (littleEndian size (fun b => memByte s.mem (addr (k * size + b))) % (if size = 2 then 2 ^ 16 else 2 ^ 24) %
          2 ^ s.cfg.cellBits) := fun t h k hk => by
    obtain ⟨v, hv, hd⟩ := h k hk
    rw [item k hk] at hv
    cases hv
    rw [hd, cellValue_item]
  by_cases hstop : m < n ∧ ∃ j, m * size ≤ j ∧ j < (m + 1) * size ∧
      translate s (scratchTable c) (lin + BitVec.ofNat 32 j) = .error .sgeRange
  · obtain ⟨hm, j, hj1, hj2, he⟩ := hstop
    obtain ⟨t, ht, hcells, hothers, hframe⟩ := moveItems_in_stops (s := s) (c := c) sp size idx lin n m hm
      (fun k hk => ⟨_, item k hk⟩) (sgRead_range ⟨j - m * size, by rw [Nat.succ_mul] at hj2; omega, by
        rw [item_lin, Nat.add_sub_cancel' hj1, he]⟩)
    exact ⟨t, ⟨known t hcells, hothers, hframe⟩, fun h => absurd h (Nat.ne_of_lt hm), fun _ _ => ht⟩
  · obtain ⟨t, ht, hcells, hothers, hframe⟩ := moveItems_in (s := s) (c := c) sp size idx lin m fun k hk => ⟨_, item k hk⟩
    exact ⟨t, ⟨known t hcells, hothers, hframe⟩, fun h => h ▸ ht, fun hm he => absurd ⟨hm, he⟩ hstop⟩

/-- Guest memory once `j` bytes are stored, each at its address, in order. -/
def storedBytes (m : Store 8) (addr : Nat → Word) (byte : Nat → Byte) : Nat → Store 8
  | 0 => m
  | j + 1 => (storedBytes m addr byte j).set (addr j).toNat (byte j)

/-- A guest byte that no stored byte was put at is as before. -/
theorem memByte_storedBytes_other {m : Store 8} {addr : Nat → Word} {byte : Nat → Byte} {a : Word} (n : Nat)
    (h : ∀ j, j < n → a ≠ addr j) : memByte (storedBytes m addr byte n) a = memByte m a := by
  induction n with
  | zero => rfl
  | succ n ih =>
    rw [storedBytes, memByte_set, if_neg (h n (by omega)), ih fun j hj => h j (by omega)]

/-- Bytes put at different addresses all stay stored. -/
theorem memByte_storedBytes {m : Store 8} {addr : Nat → Word} {byte : Nat → Byte} (n : Nat)
    (hd : ∀ j k, j < n → k < n → addr j = addr k → j = k) {j : Nat} (hj : j < n) :
    memByte (storedBytes m addr byte n) (addr j) = byte j := by
  induction n with
  | zero => exact absurd hj (Nat.not_lt_zero j)
  | succ n ih =>
    rw [storedBytes, memByte_set]
    by_cases hjn : j = n
    · rw [if_pos (by rw [hjn]), hjn]
    · rw [if_neg fun h => hjn (hd j n hj (by omega) h)]
      exact ih (fun j k hj hk => hd j k (by omega) (by omega)) (by omega)

/-- A linear address whose entry no stored byte touches translates as before (20_memory R95). -/
theorem translate_storedBytes {s : State} {t : SgTable} {lin : Word} {addr : Nat → Word} {byte : Nat → Byte} (n : Nat)
    (h : ∀ k, k < n → 4 ≤ (addr k - ((sgTable s t).1 + BitVec.ofNat 32 (lin.toNat / s.cfg.pageSize * 8))).toNat) :
    translate (s.setMem (storedBytes s.mem addr byte n)) t lin = translate s t lin := by
  induction n with
  | zero => rfl
  | succ n ih =>
    have hbase : sgTable (s.setMem (storedBytes s.mem addr byte n)) t = sgTable s t := by cases t <;> rfl
    have step := translate_setMem (s.setMem (storedBytes s.mem addr byte n)) t lin (addr n) (byte n)
      (by rw [hbase]; exact h n (by omega))
    exact step.trans (ih fun k hk => h k (by omega))

/-- The row from DSP memory to scratch, byte by byte: `mem j` is guest memory once `j` bytes are stored (45_dma_engine R418,
R423). -/
theorem exec_dspToScratch {s : State} {c : Core} {sp : Space} {idx n : Nat} {addr : Nat → Word} {byte : Nat → Byte}
    {mem : Nat → Store 8} (hs : s.halt = .running) (hskip : (s.walk c).skip = false) (hnames : (s.walk c).desc.names sp idx)
    (hsz : 0 < (s.walk c).itemSize)
    (hbyte : ∀ j, byte j = BitVec.ofNat 8 (((dspRead s c sp (idx + j / (s.walk c).itemSize)).toNat %
      if (s.walk c).itemSize = 2 then 2 ^ 16 else 2 ^ 24) / 256 ^ (j % (s.walk c).itemSize)))
    (h0 : mem 0 = s.mem)
    (hmem : ∀ j, j < n → translate (s.setMem (mem j)) (scratchTable c) ((s.walk c).target + BitVec.ofNat 32 j) =
      .ok (addr j) ∧ mem (j + 1) = (mem j).set (addr j).toNat (byte j)) :
    (n = (s.walk c).desc.count.toNat * (s.walk c).itemSize → exec (.descDirDspToScratch c) s =
      .next (State.setDma (s.setMem (mem n)) c { s.dma c with nextBlock := (s.walk c).desc.next })) ∧
    (n < (s.walk c).desc.count.toNat * (s.walk c).itemSize →
      translate (s.setMem (mem n)) (scratchTable c) ((s.walk c).target + BitVec.ofNat 32 n) = .error .sgeRange →
      exec (.descDirDspToScratch c) s = .next (takeFatal .sgeRange (s.setMem (mem n)))) := by
  have htransfer : transfer c true (s.walk c).itemSize (s.walk c).desc (s.walk c).target s =
      moveItems (itemOut c sp (s.walk c).itemSize) (s.walk c).itemSize idx (s.walk c).target (s.walk c).desc.count.toNat s := by
    rw [transfer, bind_ok (readsOrRaise_ok (checkWindow_names hnames))]
    rfl
  have htr := fun j hj => (hmem j hj).1
  have hset : ∀ j, j < n → mem (j + 1) = (mem j).set (addr j).toNat (BitVec.ofNat 8
      ((dspRead s c sp (idx + j / (s.walk c).itemSize)).toNat % itemMask (s.walk c).itemSize /
        256 ^ (j % (s.walk c).itemSize))) := fun j hj => by
    rw [(hmem j hj).2, hbyte]
    rfl
  refine ⟨fun hn => ?_, fun hlt he => ?_⟩
  · subst hn
    have hrun := exec_ok (i := .descDirDspToScratch c) hs (directionAlone_ok hskip
      (htransfer.trans (moveItems_out_bytes sp hsz idx _ _ addr mem h0 htr hset)))
    rw [setMem_dma] at hrun
    exact hrun
  · exact exec_error (i := .descDirDspToScratch c) hs (directionAlone_error hskip
      (htransfer.trans (moveItems_out_stops sp hsz idx _ _ n hlt addr mem h0 htr hset he)))

end Sys2Proof.Machine

namespace Sys2Proof.Proofs
open Sys2Proof Sys2Proof.Machine

/-- Settles O59: the items from scratch, up to the one with a byte that does not translate. -/
theorem scratch_to_dsp_moved : Obligations.scratch_to_dsp_moved := by
  intro s c w sp lo hi idx m addr hs hw hskip _ hwin hoff hlt hle _ ha
  subst hw
  refine ⟨fun hf a => translate_ok s (scratchTable c) a hf, fun hm => ?_⟩
  obtain ⟨t, hmoved, hok, hstop⟩ :=
    moveItems_in_known (s := s) (c := c) sp (s.walk c).itemSize idx (s.walk c).target m (s.walk c).desc.count.toNat addr ha
  have htransfer : transfer c false (s.walk c).itemSize (s.walk c).desc (s.walk c).target s =
      moveItems (itemIn c sp (s.walk c).itemSize) (s.walk c).itemSize idx (s.walk c).target (s.walk c).desc.count.toNat s := by
    rw [transfer, bind_ok (readsOrRaise_ok (checkWindow_names (names_window hwin hoff hlt hle)))]
    rfl
  have hhalt : t.halt = .running := (congrArg State.halt hmoved.frame :).trans hs
  rcases hm with hm | ⟨hm, he⟩
  · refine ⟨_, exec_ok hs (directionAlone_ok hskip (htransfer.trans (hok hm))), fun k hk => ?_, fun d sq j hn => ?_,
      fun _ => ⟨?_, ?_⟩, fun h => absurd hm (Nat.ne_of_lt h), fun d hd => ?_, ?_⟩
    · rw [← hmoved.cells k hk]
      cases c <;> rfl
    · rw [← hmoved.others d sq j hn]
      cases c <;> cases d <;> rfl
    · rw [setDma_halt, hhalt]
    · rw [setDma_dma_same, hmoved.dma]
    · rw [setDma_dma_other _ hd, hmoved.dma]
    · have := congrArg (fun a : State => { a with halt := s.halt, dmaGp := s.dmaGp, dmaEp := s.dmaEp }) hmoved.frame
      cases c <;> exact this
  · refine ⟨_, exec_error hs (directionAlone_error hskip (htransfer.trans (hstop hm he))), hmoved.cells, hmoved.others,
      fun h => absurd h (Nat.ne_of_lt hm), fun _ => ⟨rfl, ?_⟩, fun d _ => ?_, ?_⟩
    · rw [takeFatal_dma, hmoved.dma]
    · rw [takeFatal_dma, hmoved.dma]
    · exact congrArg (fun a : State => { a with halt := s.halt, dmaGp := s.dmaGp, dmaEp := s.dmaEp }) hmoved.frame

/-- Settles O60: the bytes in the memory each finds; where none touches an entry of the transfer, each finds its own
translation. -/
theorem dsp_to_scratch_moved : Obligations.dsp_to_scratch_moved := by
  intro s c w sp lo hi idx n addr byte hs hw hskip hsize hwin hoff hlt hle hn hbyte
  subst hw
  have hsz : 0 < (s.walk c).itemSize := by omega
  have bytes := fun mem => exec_dspToScratch (mem := mem) (n := n) (addr := addr) hs hskip
    (names_window hwin hoff hlt hle) hsz hbyte
  refine ⟨bytes, fun ha hd hend => ?_⟩
  have htr : ∀ k j, k ≤ n → j < (s.walk c).desc.count.toNat * (s.walk c).itemSize →
      translate (s.setMem (storedBytes s.mem addr byte k)) (scratchTable c) ((s.walk c).target + BitVec.ofNat 32 j) =
        translate s (scratchTable c) ((s.walk c).target + BitVec.ofNat 32 j) := fun k j hk hj =>
    translate_storedBytes k fun i hi => hd j i hj (by omega)
  obtain ⟨hdone, hstop⟩ := bytes (storedBytes s.mem addr byte) rfl fun j hj =>
    ⟨by rw [htr j j (by omega) (by omega), ha j hj], rfl⟩
  rcases hend with hend | ⟨hend, he⟩
  · refine ⟨_, hdone hend, fun hinj j hj => ?_, fun a hne => ?_, fun _ => ⟨?_, ?_⟩, fun h => absurd hend (Nat.ne_of_lt h),
      fun d hne => ?_, ?_⟩
    · rw [setDma_mem]
      exact memByte_storedBytes n hinj hj
    · rw [setDma_mem]
      exact memByte_storedBytes_other n hne
    · rw [setDma_halt, setMem_halt, hs]
    · rw [setDma_dma_same]
    · rw [setDma_dma_other _ hne]
      cases d <;> rfl
    · cases c <;> rfl
  · refine ⟨_, hstop hend (by rw [htr n n (Nat.le_refl n) hend, he]), fun hinj j hj => ?_, fun a hne => ?_,
      fun h => absurd h (Nat.ne_of_lt hend), fun _ => ⟨rfl, ?_⟩, fun d _ => ?_, rfl⟩
    · exact memByte_storedBytes n hinj hj
    · exact memByte_storedBytes_other n hne
    · cases c <;> rfl
    · cases d <;> rfl

end Sys2Proof.Proofs
end


section
/-! Sample fetch and decode (43_sample_fetch_decode R319 to R334), the contributions and the lanes of the mixer
(44_voice_walker_mixer R369 to R371). -/

namespace Sys2Proof.Machine

/-! ## The fetch -/

theorem channels_cases (b : Bool) : channels b = 1 ∨ channels b = 2 := by cases b <;> simp [channels]

/-- A frame is its channels' samples, in order. -/
theorem framed_all {nch : Nat} (hn : nch = 1 ∨ nch = 2) {f : Nat → Except FatalCode Int} {x : Nat → Int}
    (h : ∀ ch, ch < nch → f ch = .ok (x ch)) : framed nch f = .ok ((List.range nch).map x) := by
  rcases hn with rfl | rfl
  · simp [framed, h 0]
  · simp [framed, h 0, h 1, List.range_succ]

/-- A frame takes the fatal of a channel, where no channel takes another. -/
theorem framed_fatal {nch : Nat} (hn : nch = 1 ∨ nch = 2) {f : Nat → Except FatalCode Int} {code : FatalCode}
    (h : ∃ ch, ch < nch ∧ f ch = .error code) (only : ∀ ch other, f ch = .error other → other = code) :
    framed nch f = .error code := by
  obtain ⟨ch, hch, he⟩ := h
  unfold framed
  cases h0 : f 0 with
  | error other => rw [only 0 other h0]
  | ok x =>
    have hch1 : ch = 1 ∧ nch = 2 := by
      have : ch ≠ 0 := fun h => by simp [h, h0] at he
      omega
    rw [hch1.1] at he
    simp [hch1.2, he]

section
variable {s : State} {h : Handle} {k : SampleKind} {p : Word}

/-- The fetch row keeps the frame fetched (43_sample_fetch_decode R333). -/
theorem runOp_fetchAlone (hs : s.halt = .running) (hh : h.toNat < s.cfg.numVoices) {frame : List Int}
    (hf : fetchFrame s k (voiceField s h vBa) (channels (voiceField s h vStereo = 1)) p.toNat = .ok frame) :
    runOp (fetchAlone k h p) s = .next { s with sub := { s.sub with frame := frame } } :=
  runOp_ok (a := ()) hs (by rw [fetchAlone, bind_ok (checkHandle_ok hh), bind_ok (readsOrRaise_ok hf), update_run]; rfl)

/-- The fetch row takes the fatal of the fetch, the frame kept before. -/
theorem runOp_fetchAlone_fatal (hs : s.halt = .running) (hh : h.toNat < s.cfg.numVoices) {code : FatalCode}
    (hf : fetchFrame s k (voiceField s h vBa) (channels (voiceField s h vStereo = 1)) p.toNat = .error code) :
    runOp (fetchAlone k h p) s = .next { s with halt := .halted code } :=
  runOp_error hs (by rw [fetchAlone, bind_ok (checkHandle_ok hh), bind_error (readsOrRaise_error hf)])

end

/-- A sample is its container converted (43_sample_fetch_decode R320 to R322). -/
theorem pcmSample_ok {s : State} {container width ba nch p ch raw : Nat}
    (h : sgRead s .voice (pcmAddr ba container nch p ch) container = .ok raw) :
    pcmSample s container width ba nch p ch = .ok (pcmValue width raw) := by
  rw [pcmSample, h]
  rfl

theorem pcmSample_fatal {s : State} {container width ba nch p ch : Nat} {code : FatalCode}
    (h : sgRead s .voice (pcmAddr ba container nch p ch) container = .error code) :
    pcmSample s container width ba nch p ch = .error code := by
  rw [pcmSample, h]
  rfl

/-- The one fatal of a sample is SGE_RANGE (43_sample_fetch_decode R334). -/
theorem pcmSample_error {s : State} {container width ba nch p ch : Nat} {code : FatalCode}
    (h : pcmSample s container width ba nch p ch = .error code) : code = .sgeRange := by
  cases hr : sgRead s .voice (pcmAddr ba container nch p ch) container with
  | ok raw =>
    rw [pcmSample_ok hr] at h
    cases h
  | error other =>
    rw [pcmSample_fatal hr] at h
    cases h
    exact sgRead_error hr

/-! ## ADPCM -/

/-- The bits of a code are its quotients. -/
theorem testBit_iff (c k : Nat) : c.testBit k = true ↔ c / 2 ^ k % 2 = 1 := by
  rw [Nat.testBit_eq_decide_div_mod_eq, decide_eq_true_iff]

/-- The index step of a code (43_sample_fetch_decode R329). -/
theorem indexTable_eq {k : Nat} (hk : k < 8) : indexTable k = if k < 4 then -1 else 2 * (k : Int) - 6 := by
  interval_cases k <;> rfl

/-- The predictor after a code, by the quotients of the code (43_sample_fetch_decode R328). -/
theorem adpcmCode_pred {st : Int × Nat} {c : Nat} (hc : c < 16) : (adpcmCode st c).1 =
    max (-32768) (min (st.1 + if c / 8 = 1 then -(adpcmDelta (stepTable.getD st.2 0) c : Int)
      else adpcmDelta (stepTable.getD st.2 0) c) 32767) := by
  have h3 : c.testBit 3 = true ↔ c / 8 = 1 := (testBit_iff c 3).trans (by omega)
  simp only [adpcmCode, h3]

/-- The step index after a code (43_sample_fetch_decode R328, R329). -/
theorem adpcmCode_index (st : Int × Nat) (c : Nat) : ((adpcmCode st c).2 : Int) =
    max 0 (min (st.2 + if c % 8 < 4 then -1 else 2 * (c % 8 : Int) - 6) 88) := by
  have h8 := indexTable_eq (Nat.mod_lt c (by omega : 8 > 0))
  have hcast : ((c % 8 : Nat) : Int) = (c : Int) % 8 := by omega
  rw [hcast] at h8
  simp only [adpcmCode, h8]
  exact Int.toNat_of_nonneg (le_max_left _ _)

/-- A byte of a block is a byte. -/
theorem blockByte_lt (bytes : List Byte) (n : Nat) : blockByte bytes n < 256 := (bytes.getD n 0).isLt

/-- A code is a nibble of its byte (43_sample_fetch_decode R327). -/
theorem blockCode_eq (bytes : List Byte) (nch ch n : Nat) :
    blockCode bytes nch ch n = adpcmNibble (fun j => (bytes.getD j 0).toNat) nch ch n := by
  have hoff : blockByte bytes (codeOffset nch ch n) = if nch = 1 then (bytes.getD (4 + n / 2) 0).toNat
      else (bytes.getD (8 + n / 8 * 8 + ch * 4 + n % 8 / 2) 0).toNat := by
    unfold blockByte codeOffset
    split <;> rfl
  have hlt := blockByte_lt bytes (codeOffset nch ch n)
  unfold blockCode adpcmNibble
  rw [← hoff]
  dsimp only
  split
  · rw [Nat.div_one]
  · exact (Nat.mod_eq_of_lt (by omega)).symm

theorem adpcmNibble_lt (b : Nat → Nat) (nch ch n : Nat) : adpcmNibble b nch ch n < 16 := Nat.mod_lt _ (by omega)

/-- The states of a block are states of the rules (43_sample_fetch_decode R326 to R331). -/
theorem adpcmState_channel (bytes : List Byte) (nch ch : Nat) :
    AdpcmChannel (fun j => (bytes.getD j 0).toNat) nch ch (fun n => (adpcmState bytes nch ch n).1)
      (fun n => (adpcmState bytes nch ch n).2) := by
  refine ⟨?_, rfl, ?_⟩
  · have h0 := blockByte_lt bytes (4 * ch)
    have h1 := blockByte_lt bytes (4 * ch + 1)
    show sext 16 (blockByte bytes (4 * ch) + 256 * blockByte bytes (4 * ch + 1)) =
      if blockByte bytes (4 * ch + 1) < 128 then _ else _
    unfold sext
    rw [Nat.mod_eq_of_lt (by omega)]
    by_cases hneg : blockByte bytes (4 * ch + 1) < 128
    · rw [if_pos (by omega), if_pos hneg]
      push_cast
      rfl
    · rw [if_neg (by omega), if_neg hneg]
      push_cast
      rfl
  · rintro n - _ _ delta rfl rfl hdelta
    have hd : delta = adpcmDelta (stepTable.getD (adpcmState bytes nch ch n).2 0) (blockCode bytes nch ch n) := by
      simp only [hdelta, adpcmDelta, testBit_iff, blockCode_eq, Int.toNat_natCast, pow_zero, Nat.div_one, pow_one]
      rfl
    rw [hd, ← blockCode_eq]
    exact ⟨adpcmCode_pred (by rw [blockCode_eq]; exact adpcmNibble_lt _ _ _ _), adpcmCode_index _ _⟩

/-- The rules give one value to each state of a block. -/
theorem AdpcmChannel.unique {b : Nat → Nat} {nch ch : Nat} {pred index pred' index' : Nat → Int}
    (h : AdpcmChannel b nch ch pred index) (h' : AdpcmChannel b nch ch pred' index') {w : Nat} (hw : w < 65) :
    pred w = pred' w ∧ index w = index' w := by
  obtain ⟨hp, hi, hstep⟩ := h
  obtain ⟨hp', hi', hstep'⟩ := h'
  induction w with
  | zero => exact ⟨hp.trans hp'.symm, hi.trans hi'.symm⟩
  | succ n ih =>
    obtain ⟨ihp, ihi⟩ := ih (by omega)
    obtain ⟨g1, g2⟩ := hstep n (by omega) _ _ _ rfl rfl rfl
    obtain ⟨g1', g2'⟩ := hstep' n (by omega) _ _ _ rfl rfl rfl
    rw [g1, g2, g1', g2', ihp, ihi]
    exact ⟨rfl, rfl⟩

/-- The rules look at the bytes of the block only (43_sample_fetch_decode R324). -/
theorem AdpcmChannel.congr {b b' : Nat → Nat} {nch ch : Nat} (hch : ch < nch)
    (hb : ∀ j, j < 36 * nch → b j = b' j) {pred index : Nat → Int} (h : AdpcmChannel b nch ch pred index) :
    AdpcmChannel b' nch ch pred index := by
  obtain ⟨hp, hi, hstep⟩ := h
  rw [hb _ (by omega), hb _ (by omega)] at hp
  rw [hb _ (by omega)] at hi
  refine ⟨hp, hi, fun n hlt => ?_⟩
  have hbyte : (if nch = 1 then b (4 + n / 2) else b (8 + n / 8 * 8 + ch * 4 + n % 8 / 2)) =
      if nch = 1 then b' (4 + n / 2) else b' (8 + n / 8 * 8 + ch * 4 + n % 8 / 2) := by
    split
    · exact hb _ (by omega)
    · exact hb _ (by omega)
  have hnib : adpcmNibble b nch ch n = adpcmNibble b' nch ch n := by rw [adpcmNibble, adpcmNibble, hbyte]
  rw [← hnib]
  exact hstep n hlt

/-- A decoded sample is 16 bits signed and a step index is in its table (43_sample_fetch_decode R326, R328). -/
theorem adpcmState_range (bytes : List Byte) (nch ch w : Nat) :
    -32768 ≤ (adpcmState bytes nch ch w).1 ∧ (adpcmState bytes nch ch w).1 ≤ 32767 ∧ (adpcmState bytes nch ch w).2 ≤ 88 := by
  cases w with
  | zero =>
    refine ⟨?_, ?_, Nat.min_le_right _ _⟩ <;>
    · show _ ≤ _
      simp only [adpcmState, adpcmHeader, sext]
      split <;> omega
  | succ n =>
    simp only [adpcmState, adpcmCode]
    omega

/-! ## Contributions -/

theorem contrib_neg (x : Int) (la v : Nat) : contrib (-x) la v = -contrib x la v := by
  rw [contrib, contrib, Int.neg_mul, Int.neg_mul, Int.neg_tdiv]

/-- The division of a product that is not negative (44_voice_walker_mixer R370). -/
theorem contrib_nonneg {x : Int} (hx : 0 ≤ x) (la : Nat) {v : Nat} (hv : v ≤ 4095) :
    contrib x la v = (x * la * (4095 - v)) / (255 * 4095) :=
  Int.tdiv_eq_ediv_of_nonneg (Int.mul_nonneg (Int.mul_nonneg hx (Int.natCast_nonneg la)) (by omega))

/-- A contribution is never larger than its sample (44_voice_walker_mixer R370). -/
theorem contrib_natAbs_le (x : Int) {la v : Nat} (hla : la ≤ 255) (hv : v ≤ 4095) : (contrib x la v).natAbs ≤ x.natAbs := by
  have hvol : ((4095 : Int) - v).natAbs = 4095 - v := by omega
  rw [contrib, Int.natAbs_tdiv, Int.natAbs_mul, Int.natAbs_mul, Int.natAbs_natCast, hvol]
  refine Nat.div_le_of_le_mul ?_
  rw [Nat.mul_assoc, Nat.mul_comm x.natAbs]
  exact Nat.mul_le_mul_right _ (Nat.mul_le_mul hla (Nat.sub_le 4095 v))

/-- Wrap-around accumulation is addition of words (44_voice_walker_mixer R371). -/
theorem acc_wrap (m : Word) (c : Int) : acc .wrap m c = m + BitVec.ofInt 32 c := by
  rw [acc, BitVec.ofInt_add, BitVec.ofInt_toInt]

/-- A clamped accumulation is the clamped sum (44_voice_walker_mixer R371). -/
theorem acc_saturate (m : Word) (c : Int) :
    (acc .saturate m c).toInt = max (-2 ^ 31) (min (m.toInt + c) (2 ^ 31 - 1)) :=
  BitVec.toInt_ofInt_eq_self (w := 32) (by omega) (le_max_left _ _) (by omega)

/-- The slots of a bin, wrapped: the sum of their contributions is added. -/
theorem foldl_acc_wrap (named : Nat → Prop) [DecidablePred named] (c : Nat → Int) (l : List Nat) (m : Word) :
    l.foldl (fun m j => if named j then acc .wrap m (c j) else m) m =
      m + BitVec.ofInt 32 (l.map fun j => if named j then c j else 0).sum := by
  induction l generalizing m with
  | nil => simp
  | cons j l ih =>
    rw [List.foldl_cons, ih, List.map_cons, List.sum_cons, BitVec.ofInt_add, ← BitVec.add_assoc]
    congr 1
    split
    · exact acc_wrap m (c j)
    · simp

/-- The slots of a bin, clamped: each contribution is added and clamped in turn. -/
theorem foldl_acc_saturate (named : Nat → Prop) [DecidablePred named] (c : Nat → Int) (l : List Nat) (m : Word) :
    (l.foldl (fun m j => if named j then acc .saturate m (c j) else m) m).toInt =
      l.foldl (fun m j => if named j then max (-2 ^ 31) (min (m + c j) (2 ^ 31 - 1)) else m) m.toInt := by
  induction l generalizing m with
  | nil => rfl
  | cons j l ih =>
    rw [List.foldl_cons, ih, List.foldl_cons]
    congr 1
    split
    · exact acc_saturate m (c j)
    · rfl

/-! ## The lane row -/

/-- The mixing row: every bin of the lane takes its slots' value, and nothing else changes (44_voice_walker_mixer R357). -/
theorem runOp_mixAlone {s : State} {h : Handle} (hs : s.halt = .running) (hh : h.toNat < s.cfg.numVoices) (stereo : Bool)
    {i : Nat} (hi : i < 32) : ∃ t, runOp (mixAlone stereo h i) s = .next t ∧
      (∀ b k, k < 32 → t.sub.mix.get (b * 32 + k) = if k = i then
        laneBin s h (voiceField s h (vLevel .a)) s.sub.frame (channels stereo) b (s.sub.mix.get (b * 32 + k))
        else s.sub.mix.get (b * 32 + k)) ∧
      { t with sub := { t.sub with mix := s.sub.mix } } = s :=
  ⟨s.setSub { s.sub with mix := mixedLane stereo h i s },
    runOp_ok (a := ()) hs (by rw [mixAlone, bind_ok (checkHandle_ok hh), update_run]),
    fun b k hk => mixSlots_get s.cfg.mixOverflow s.sub.frame _ _ b hi hk _ _ _, rfl⟩

end Sys2Proof.Machine

namespace Sys2Proof.Proofs
open Sys2Proof Sys2Proof.Machine

/-- Settles O39: each container is read byte by byte, and a channel's is the first to fail. -/
theorem pcm_fetched : Obligations.pcm_fetched := by
  intro s h p i C W nch lin conv hs hh hi hn hlin hconv
  have rows : ∀ q ∈ [(Instr.fmtPcmB8U8 h p, 1, 8), (.fmtPcmB16U8 h p, 2, 8), (.fmtPcmB16S16 h p, 2, 16),
      (.fmtPcmB32U8 h p, 4, 8), (.fmtPcmB32S16 h p, 4, 16), (.fmtPcmB32S24 h p, 4, 24), (.fmtPcmB32S32 h p, 4, 32)],
      exec q.1 s = runOp (fetchAlone (.pcm q.2.1 q.2.2) h p) s := by
    simp only [List.forall_mem_cons, List.not_mem_nil, false_imp_iff, implies_true, and_true, exec_eq, opOf]
  have hrow : exec i s = runOp (fetchAlone (.pcm C W) h p) s := rows _ hi
  have hch : channels (voiceField s h vStereo = 1) = nch := by rw [hn, channels]; simp
  have hnch := channels_cases (voiceField s h vStereo = 1)
  rw [hch] at hnch
  have hval : ∀ r, pcmValue W r = conv r := fun r => (hconv r).symm
  refine ⟨fun hf a => translate_ok s .voice a hf, fun addr raw frame ha hraw hframe => ?_, fun ⟨ch, j, hlt, hj, he⟩ => ?_⟩
  · have hsample : ∀ ch, ch < nch → pcmSample s C W (voiceField s h vBa) nch p.toNat ch = .ok (conv (raw ch)) :=
      fun ch hlt => by
        rw [hraw, ← hval]
        exact pcmSample_ok (sgRead_known fun j hj => by rw [pcmAddr, ← hlin]; exact ha ch j hlt hj)
    have hall : frame = (List.range nch).map fun ch => conv (raw ch) := by
      rw [hframe]
      rcases hnch with hn1 | hn2
      · rw [hn1]
        rfl
      · rw [hn2]
        rfl
    rw [hrow]
    refine runOp_fetchAlone hs hh ?_
    rw [hch, hall]
    exact framed_all hnch hsample
  · rw [hrow]
    refine runOp_fetchAlone_fatal hs hh ?_
    rw [hch]
    exact framed_fatal hnch ⟨ch, hlt, pcmSample_fatal (sgRead_range ⟨j, hj, by rw [pcmAddr, ← hlin]; exact he⟩)⟩
      fun _ _ => pcmSample_error

/-- Settles O40: the block is read byte by byte, and its states are the only ones of the rules. -/
theorem adpcm_fetched : Obligations.adpcm_fetched := by
  intro s h p ss nch lin hs hh hn hlin
  have hch : channels (voiceField s h vStereo = 1) = nch := by rw [hn, channels]; simp
  have hnch := channels_cases (voiceField s h vStereo = 1)
  rw [hch] at hnch
  have hblock : adpcmBlock s (voiceField s h vBa) nch p.toNat = sgReadBytes s .voice lin (36 * nch) := by
    rw [hlin]
    rfl
  refine ⟨fun hf a => translate_ok s .voice a hf, fun addr pred index ha hrules => ?_, fun hrange => ?_⟩
  · have hbytes := sgReadBytes_known (36 * nch) lin addr ha
    generalize hb : ((List.range (36 * nch)).map fun j => memByte s.mem (addr j)) = bytes at hbytes
    have hget : ∀ j, j < 36 * nch → (memByte s.mem (addr j)).toNat = (bytes.getD j 0).toNat := fun j hj => by
      rw [← hb, List.getD_eq_getElem _ _ (by simpa using hj)]
      simp
    have hsample : ∀ ch, ch < nch → adpcmSample bytes nch (p.toNat % 65) ch = pred ch (p.toNat % 65) := fun ch hlt =>
      ((adpcmState_channel bytes nch ch).unique ((hrules ch hlt).congr hlt hget)
        (Nat.mod_lt _ (by omega))).1
    rw [exec_eq]
    refine runOp_fetchAlone hs hh ?_
    rw [hch]
    simp only [fetchFrame, hblock, hbytes]
    exact framed_all hnch fun ch hlt => congrArg Except.ok (hsample ch hlt)
  · rw [exec_eq]
    refine runOp_fetchAlone_fatal hs hh ?_
    rw [hch]
    simp only [fetchFrame, hblock, sgReadBytes_range hrange]

/-- Settles O41: the table is the model's, and each state follows from the one before. -/
theorem adpcm_in_range : Obligations.adpcm_in_range :=
  ⟨rfl, fun bytes nch ch => ⟨adpcmState_channel bytes nch ch,
    fun _ _ h _ hw => h.unique (adpcmState_channel bytes nch ch) hw, adpcmState_range bytes nch ch⟩⟩

/-- Settles O42, from the one division of a contribution and the two modes of an accumulation. -/
theorem contribution_bounds : Obligations.contribution_bounds := by
  refine ⟨fun x la v hla hv => ⟨?_, contrib_natAbs_le x hla hv, ?_, ?_, ?_, contrib_neg x la v⟩, fun m c => ⟨?_, ?_⟩⟩
  · by_cases hx : 0 ≤ x
    · rw [if_pos hx, contrib_nonneg hx la hv]
    · rw [if_neg hx, ← contrib_nonneg (by omega) la hv, contrib_neg, Int.neg_neg]
  · rw [contrib, Int.mul_assoc]
    exact Int.mul_tdiv_cancel x (by omega)
  · simp [contrib]
  · simp [contrib]
  · obtain ⟨k, hk⟩ := Int.dvd_bmod_sub_self (x := m.toInt + c) (m := 2 ^ 32)
    refine ⟨k, ?_⟩
    rw [acc, BitVec.toInt_ofInt]
    omega
  · rw [acc_saturate]
    split
    · omega
    · split <;> omega

/-- Settles O43: a bin of the lane folds the slots that name it. -/
theorem lane_mixed : Obligations.lane_mixed := by
  intro s h i hs hh
  have lane : ∀ stereo : Bool, ∃ t, runOp (mixAlone stereo h i.toNat) s = .next t ∧
      (s.cfg.mixOverflow = .wrap → ∀ b, b < 32 →
        t.sub.mix.get (b * 32 + i.toNat) = s.sub.mix.get (b * 32 + i.toNat) + BitVec.ofInt 32
          ((List.range 8).map fun j => if voiceField s h (vBin j) = b then
            contrib (s.sub.frame.getD (j % channels stereo) 0) (voiceField s h (vLevel .a)) (voiceVolume s h j) else 0).sum) ∧
      (s.cfg.mixOverflow = .saturate → ∀ b, b < 32 →
        (t.sub.mix.get (b * 32 + i.toNat)).toInt =
          (List.range 8).foldl (fun m j => if voiceField s h (vBin j) = b then
            max (-2 ^ 31) (min (m + contrib (s.sub.frame.getD (j % channels stereo) 0) (voiceField s h (vLevel .a))
              (voiceVolume s h j)) (2 ^ 31 - 1)) else m) (s.sub.mix.get (b * 32 + i.toNat)).toInt) ∧
      (∀ b, b < 32 → t.sub.mix.get (b * 32 + i.toNat) = laneBin s h (voiceField s h (vLevel .a)) s.sub.frame
        (channels stereo) b (s.sub.mix.get (b * 32 + i.toNat))) ∧
      (∀ b k, k < 32 → k ≠ i.toNat → t.sub.mix.get (b * 32 + k) = s.sub.mix.get (b * 32 + k)) ∧
      { t with sub := { t.sub with mix := s.sub.mix } } = s := fun stereo => by
    obtain ⟨t, ht, hmix, hframe⟩ := runOp_mixAlone hs hh stereo i.isLt
    have hbin : ∀ b, t.sub.mix.get (b * 32 + i.toNat) = laneBin s h (voiceField s h (vLevel .a)) s.sub.frame
        (channels stereo) b (s.sub.mix.get (b * 32 + i.toNat)) := fun b => (hmix b _ i.isLt).trans (if_pos rfl)
    refine ⟨t, ht, fun hm b _ => ?_, fun hm b _ => ?_, fun b _ => hbin b,
      fun b k hk hne => (hmix b k hk).trans (if_neg hne), hframe⟩
    · rw [hbin, laneBin, hm, foldl_acc_wrap]
    · rw [hbin, laneBin, hm, foldl_acc_saturate]
  simp only [List.forall_mem_cons, List.not_mem_nil, false_imp_iff, implies_true, and_true, exec_eq, opOf]
  exact ⟨lane false, lane true⟩

end Sys2Proof.Proofs
end


section
/-! The visits of a voice (44_voice_walker_mixer R353 to R357): where the envelope steps stop one, and what the frame of an
unpaused voice ends in. -/

namespace Sys2Proof.Machine

/-! ## Visits that the envelopes stop -/

section
variable {s t : State} {h : Handle}

theorem envStep_badHandle (hh : s.cfg.numVoices ≤ h.toNat) (e : Env) : envStep h e s = .error .voiceBadHandle s := by
  rw [envStep, bind_error (readV_bad hh _)]

/-- A fatal of the envelope steps is a fatal of every visit that begins with them (44_voice_walker_mixer R355). -/
theorem activeAlone_stopped {code : FatalCode} (e : pausedAlone h s = .error code t) :
    activeAlone h s = .error code t := by
  have visit : visitActive h s.sub.mix s = .error code t := by
    unfold pausedAlone at e
    unfold visitActive
    cases ea : envStep h .a s with
    | error code' u =>
      rw [bind_error ea] at e ⊢
      cases e
      rfl
    | ok la u =>
      rw [bind_ok ea] at e ⊢
      cases ef : envStep h .f u with
      | error code' w =>
        rw [bind_error ef] at e ⊢
        cases e
        rfl
      | ok lf w =>
        rw [bind_ok ef] at e
        cases e
  rw [activeAlone, bind_reads_run, bind_error visit]

/-- Both rows of an active voice take that fatal. -/
theorem exec_stopped (hs : s.halt = .running) {code : FatalCode} (e : pausedAlone h s = .error code t) :
    ∀ i ∈ [Instr.voiceActive h, .voicePaused h], exec i s = .next (takeFatal code t) := by
  simp only [List.forall_mem_cons, List.not_mem_nil, false_imp_iff, implies_true, and_true, exec_eq, opOf]
  exact ⟨runOp_error hs (activeAlone_stopped e), runOp_error hs e⟩

/-- The step of envelope A alone: a visit of the record that leaves F's state (44_voice_walker_mixer R355). -/
theorem envStepA_ok (hh : h.toNat < s.cfg.numVoices) (ha : voiceField s h (vState .a) < 7) : ∃ level t,
    envStep h .a s = .ok level t ∧ Visited s t ∧ voiceField t h (vState .f) = voiceField s h (vState .f) :=
  ⟨_, _, envStep_ok hh .a ha, visited_envWriteBack s h .a _ (envRuleOf_state _ _),
    envWriteBack_apart h .a _ s (vState .f) (by decide) (by decide) (by decide) (by decide)⟩

end

/-! ## The frame of an unpaused voice -/

/-- `w` is `s` after both envelope steps of voice `h`, which returned the levels they stored (44_voice_walker_mixer R355). -/
structure Stepped (s w : State) (h : Handle) : Prop where
  steps : ∃ t, envStep h .a s = .ok (voiceField w h (vLevel .a)) t ∧ envStep h .f t = .ok (voiceField w h (vLevel .f)) w
  visited : Visited s w
  cbo : voiceField w h vCbo = voiceField s h vCbo

namespace Stepped
variable {s w : State} {h : Handle}

/-- A paused visit ends where the envelope steps end (44_voice_walker_mixer R356). -/
theorem paused (k : Stepped s w h) (hs : s.halt = .running) (hh : h.toNat < s.cfg.numVoices)
    (hp : voiceField s h vPaused = 1) : exec (.voiceActive h) s = .next w := by
  obtain ⟨t, e1, e2⟩ := k.steps
  have hsub : w.sub = s.sub := onlyMem_sub k.visited.only
  refine exec_ok hs ?_
  show activeAlone h s = _
  rw [activeAlone, bind_reads_run, bind_ok (t := w) (a := s.sub.mix), update_run, ← hsub]
  · rfl
  · rw [visitActive_run hh e1 e2 k.visited, if_neg (by omega)]
    rfl

/-- An unpaused visit does what the frame does, from `w` on (44_voice_walker_mixer R357). -/
theorem frame_ok (k : Stepped s w h) (hs : s.halt = .running) (hh : h.toNat < s.cfg.numVoices)
    (hp : voiceField s h vPaused = 0) {out : Store 32} {t : State}
    (e : voiceFrame h (voiceField w h (vLevel .a)) (voiceField w h (vLevel .f)) s.sub.mix w = .ok out t) :
    exec (.voiceActive h) s = .next (t.setSub { t.sub with mix := out }) := by
  obtain ⟨u, e1, e2⟩ := k.steps
  refine exec_ok hs ?_
  show activeAlone h s = _
  rw [activeAlone, bind_reads_run, bind_ok (t := t) (a := out), update_run]
  rw [visitActive_run hh e1 e2 k.visited, if_pos hp, e]

theorem frame_error (k : Stepped s w h) (hs : s.halt = .running) (hh : h.toNat < s.cfg.numVoices)
    (hp : voiceField s h vPaused = 0) {code : FatalCode} {t : State}
    (e : voiceFrame h (voiceField w h (vLevel .a)) (voiceField w h (vLevel .f)) s.sub.mix w = .error code t) :
    exec (.voiceActive h) s = .next (takeFatal code t) := by
  obtain ⟨u, e1, e2⟩ := k.steps
  refine exec_error hs ?_
  show activeAlone h s = _
  rw [activeAlone, bind_reads_run, bind_error (t := t) (code := code)]
  rw [visitActive_run hh e1 e2 k.visited, if_pos hp, e]

end Stepped

/-- The loop flag of a voice's configuration. -/
theorem voiceCfg_loop (s : State) (h : Handle) : (voiceCfg s h).loop = decide (voiceField s h vLoop = 1) := rfl

/-- In a loop that does not end before it begins, or without a loop, there is a new `cbo` (43_sample_fetch_decode R318). -/
theorem exists_newCbo {s w : State} {h : Handle}
    (hl : voiceField s h vLoop = 0 ∨ voiceField s h vLbo ≤ voiceField s h vEbo) : ∃ q, NewCbo s w h q := by
  by_cases h0 : voiceField s h vLoop = 0
  · exact ⟨_, by rw [NewCbo, if_pos h0]⟩
  · have h1 : voiceField s h vLoop = 1 := (voiceField_bit s h vLoop rfl).resolve_left h0
    simp only [NewCbo, if_neg h0]
    by_cases he : framePosition s h (voiceField w h (vLevel .f)) 32 ≤ voiceField s h vEbo
    · exact ⟨_, .inl ⟨he, rfl⟩⟩
    · exact ⟨_, .inr ⟨by omega, h1, hl.resolve_left h0, rfl⟩⟩

section
variable {s w : State} {h : Handle} {d : SubOp}

/-- The lanes that a ready voice's frame fetches are fetched by their rows, and after them the frame ends (44_voice_walker_mixer
R357). -/
theorem exists_lanesFetched (k : Stepped s w h) (hr : w.halt = .running) (hh : h.toNat < s.cfg.numVoices)
    (hf : fullTable s .voice) (hl : legalFormat s h)
    (hp : voiceField s h vLoop = 0 ∨ voiceField s h vLbo ≤ voiceField s h vEbo) :
    ∃ n frame, LanesFetched s (w.setSub d) h n frame ∧ LanesEnd s (w.setSub d) h n := by
  obtain ⟨hcfg, hpos, -, -⟩ := k.visited.frame h k.cbo
  have hready : FrameReady (voiceCfg w h) := hcfg ▸ frameReady_of hl hp
  obtain ⟨out, u, new, n, pos, frame, -, hn, hend, hlanes, -, -⟩ := voiceFrame_ok hready (k.visited.fullTable hf)
    (voiceField w h (vLevel .a)) (voiceField w h (vLevel .f)) s.sub.mix
  refine ⟨n, frame, ⟨hn, fun i hi => ?_⟩, hend.imp (·.1) fun ⟨hlt, hloop, hpast, _⟩ => ⟨hlt, ?_, ?_⟩⟩
  · obtain ⟨hq, hfetch⟩ := hlanes i hi
    rw [hcfg, hpos] at hq
    rw [hcfg] at hfetch
    have hres : Resolves s h (framePosition s h (voiceField w h (vLevel .f)) i) (pos i) := resolvePos_iff.mp hq
    refine ⟨pos i, w.setSub { d with frame := frame i }, hres, ?_, hr, rfl⟩
    rw [exec_fetchRow hr hh k.visited hres.lt]
    have hfetch' : fetchFrame w (sampleKind (voiceField s h vContainerSize) (voiceField s h vSampleSize)) (voiceField s h vBa)
        (channels (voiceField s h vStereo = 1)) (pos i) = .ok (frame i) := hfetch
    rw [hfetch']
  · rw [k.visited.steady h vLoop (by decide)] at hloop
    exact (voiceField_bit s h vLoop rfl).resolve_right hloop
  · rw [k.visited.steady h vEbo (by decide), hpos] at hpast
    exact hpast

/-- What an unpaused visit ends in, once its first `n` lanes are fetched (44_voice_walker_mixer R357, 43_sample_fetch_decode
R313, R318, 60_exceptions R444). -/
theorem exec_frame (k : Stepped s w h) (hs : s.halt = .running) (hr : w.halt = .running) (hh : h.toNat < s.cfg.numVoices)
    (hp : voiceField s h vPaused = 0) {n : Nat} {frame : Nat → List Int} (hl : LanesFetched s (w.setSub d) h n frame) :
    (LanesEnd s (w.setSub d) h n → ∀ q, NewCbo s (w.setSub d) h q →
      ∃ t, exec (.voiceActive h) s = .next t ∧ FrameEnded s (w.setSub d) t h n q frame) ∧
    (voiceField s h vLoop = 1 → voiceField s h vEbo < voiceField s h vLbo →
      voiceField s h vEbo < framePosition s h (voiceField w h (vLevel .f)) n →
      exec (.voiceActive h) s = .next (takeFatal .voiceBadLoop w)) ∧
    (n < 32 → ∀ q, Resolves s h (framePosition s h (voiceField w h (vLevel .f)) n) q →
      (¬ legalFormat s h → exec (.voiceActive h) s = .next (takeFatal .voiceBadFormat w)) ∧
      ∀ v code, exec (fetchRow s h q) (w.setSub d) = .next v → v.halt = .halted code →
        exec (.voiceActive h) s = .next (takeFatal code w)) := by
  obtain ⟨hcfg, hpos, -, hlane⟩ := k.visited.frame h k.cbo
  obtain ⟨out, hout, hdone, hend, hres, hfetch⟩ := voiceFrame_fetched (voiceField w h (vLevel .a))
    (voiceField w h (vLevel .f)) s.sub.mix hl.1 fun i hi => laneFetched_of hr hh k.visited k.cbo hl hi
  simp only [hcfg, hpos, hlane] at hout hdone hend hres hfetch
  have hloop := voiceCfg_loop s h
  refine ⟨fun hle q hq => ?_, fun hl1 hbad hpast => ?_, fun hlt q hq => ⟨fun hill => ?_, fun v code hv hc => ?_⟩⟩
  · obtain ⟨hfull, hpart⟩ := hdone q (endCbo_newCbo hq)
    have hframe : voiceFrame h (voiceField w h (vLevel .a)) (voiceField w h (vLevel .f)) s.sub.mix w =
        .ok out (frameMemory w h n q) := by
      unfold frameMemory
      rcases hle with h32 | ⟨hlt, hl0, hpast⟩
      · rw [if_pos h32]
        exact hfull h32
      · rw [if_neg (Nat.ne_of_lt hlt)]
        refine hpart hlt ?_
        rw [hloop, show decide (voiceField s h vLoop = 1) = false by simp [hl0]]
        exact resolvePos_oneshot _ hpast
    refine ⟨_, k.frame_ok hs hh hp hframe, ?_⟩
    have hsub : (frameMemory w h n q).sub = s.sub :=
      onlyMem_sub (k.visited.trans (visited_frameMemory w h n q)).only
    rw [hsub]
    exact frameEnded_of d k.visited hl.1 hout
  · refine k.frame_error hs hh hp ?_
    rw [hloop, hl1] at hend hres
    by_cases h32 : n = 32
    · subst h32
      exact hend _ rfl ((if_pos ⟨by decide, hpast⟩).trans (if_pos hbad))
    · exact hres _ (Nat.lt_of_le_of_ne hl.1 h32) (resolvePos_badLoop hpast hbad)
  · refine k.frame_error hs hh hp (hfetch q _ hlt (resolvePos_iff.mpr hq) ?_)
    have hkind : sampleKind (voiceCfg s h).container (voiceCfg s h).sampleSize = .illegal := not_not.mp hill
    rw [hkind]
    rfl
  · rw [exec_fetchRow hr hh k.visited hq.lt] at hv
    split at hv
    · cases hv
      rw [setSub_halt, hr] at hc
      cases hc
    · rename_i code' he
      cases hv
      cases hc
      exact k.frame_error hs hh hp (hfetch q _ hlt (resolvePos_iff.mpr hq) he)

end

end Sys2Proof.Machine

namespace Sys2Proof.Proofs
open Sys2Proof Sys2Proof.Machine

/-- Settles O44: the rows of an active voice begin with its envelope steps, each of which can stop them. -/
theorem paused_visit : Obligations.paused_visit := by
  intro s h hs
  refine ⟨fun hh => ?_, fun hh => ⟨fun hsteps => ?_, fun i hi => ⟨fun h7 => ?_, fun h8 => ?_, fun ha => ?_⟩⟩⟩
  · have hpaused : pausedAlone h s = .error .voiceBadHandle s := by
      rw [pausedAlone, bind_error (envStep_badHandle hh .a)]
    simp only [List.forall_mem_cons, List.not_mem_nil, false_imp_iff, implies_true, and_true, exec_eq, opOf]
    exact ⟨runOp_error hs (activeAlone_stopped hpaused), runOp_error hs hpaused,
      runOp_error hs (bind_error (checkHandle_bad hh))⟩
  · obtain ⟨t, w, b, d, e1, e2, vt, vw, -, first, second⟩ := envRows_ok hs hh hsteps
    refine ⟨_, _, first, (onlyMem_halt vt.only).trans hs, second, (onlyMem_halt vw.only).trans hs, ?_⟩
    rw [vw.keeps_sub d]
    exact exec_ok hs (bind_ok e1 |>.trans (bind_ok e2))
  · exact exec_stopped hs (bind_error ((envStep_bad hh .a).1 h7)) i hi
  · exact exec_stopped hs (bind_error ((envStep_bad hh .a).2 h8)) i hi
  · obtain ⟨level, t, e1, vt, hf⟩ := envStepA_ok hh ha
    have hht : h.toNat < t.cfg.numVoices := by
      rw [onlyMem_cfg vt.only]
      exact hh
    have row := exec_envRow hs hh ha e1
    generalize { t.sub with level := level } = b at row
    have stop : ∀ code, envStep h .f t = .error code t → exec i s = .next (takeFatal code { t.setSub b with sub := s.sub }) :=
      fun code e2 => by
        rw [vt.keeps_sub b]
        exact exec_stopped hs (bind_ok e1 |>.trans (bind_error e2)) i hi
    refine ⟨t.setSub b, row, (onlyMem_halt vt.only).trans hs, fun h7 => ?_, fun h8 => ?_⟩
    · exact stop _ ((envStep_bad hht .f).1 (hf.trans h7))
    · exact stop _ ((envStep_bad hht .f).2 (by rw [hf]; exact h8))

/-- Settles O45: after the envelope rows the visit is its frame, lane by lane. -/
theorem active_visit_completes : Obligations.active_visit_completes := by
  intro s h hs hh hsteps
  obtain ⟨t, w, b, d, e1, e2, vt, vw, cw, first, second⟩ := envRows_ok hs hh hsteps
  have k : Stepped s w h := ⟨⟨t, e1, e2⟩, vw, cw⟩
  have hrw : w.halt = .running := (onlyMem_halt vw.only).trans hs
  have keep := vw.keeps_sub d
  refine ⟨_, _, first, (onlyMem_halt vt.only).trans hs, second, hrw, fun hp => ?_, fun hp hf hl hloop => ?_,
    fun hp n frame hlanes => ?_⟩
  · rw [keep]
    exact k.paused hs hh hp
  · obtain ⟨n, frame, hlanes, hend⟩ := exists_lanesFetched (d := d) k hrw hh hf hl hloop
    obtain ⟨q, hq⟩ := exists_newCbo (w := w.setSub d) hloop
    obtain ⟨v, hv, hframe⟩ := (exec_frame k hs hrw hh hp hlanes).1 hend q hq
    exact ⟨n, q, frame, v, hlanes, hend, hq, hv, hframe⟩
  · have fatal : ∀ code, takeFatal code w = { w.setSub d with sub := s.sub, halt := .halted code } := fun code =>
      congrArg (takeFatal code) keep.symm
    obtain ⟨hdone, hloop, hfetch⟩ := exec_frame k hs hrw hh hp hlanes
    refine ⟨hdone, fun h1 h2 h3 => ?_, fun hlt q hq => ⟨fun hill => ?_, fun v code hv hc => ?_⟩⟩
    · rw [hloop h1 h2 h3, fatal]
    · rw [(hfetch hlt q hq).1 hill, fatal]
    · rw [(hfetch hlt q hq).2 v code hv hc, fatal]

end Sys2Proof.Proofs
end


section
/-! The frame tick (44_voice_walker_mixer R350 to R380): a tick while it is off, over empty lists, over finite lists of ready
voices, and one that its walk stops. -/

namespace Sys2Proof.Machine

/-- Whether the tick is on, by the two bits of SECTL (10_state R24). -/
theorem frameEnabled_iff (s : State) : frameEnabled s = true ↔ s.x.sectl.toNat / 8 % 4 ≠ 0 := by
  rw [frameEnabled, field_nat, bne_iff_ne]
  rfl

/-- A pass over an empty list names the terminator and does nothing else (44_voice_walker_mixer R352). -/
theorem listPass_empty {l : VoiceList} {s : State} (h : argHandle (tvl s l) = Config.handleNil) (mix : Store 32) :
    listPass l mix s = .ok mix (s.setCvl l 0xFFFF) := by
  rw [listPass, bind_update_run, bind_reads_run, h]
  exact listLoop_end (setCvl_cvl_same s l _) _ mix

/-- The state after three empty passes: each list's current voice is the terminator (44_voice_walker_mixer R352). -/
def State.walkedEmpty (s : State) : State := { s with x := { s.x with cvl2d := 0xFFFF, cvl3d := 0xFFFF, cvlmp := 0xFFFF } }

theorem setCvl_walkedEmpty (s : State) :
    ((s.setCvl .l2d 0xFFFF).setCvl .l3d 0xFFFF).setCvl .lmp 0xFFFF = s.walkedEmpty := rfl

/-- The walk begins where no row has run, on bins that are 0 (44_voice_walker_mixer R368). -/
theorem Follows.start {s : State} (hs : s.halt = .running) : Follows s { s with sub := { s.sub with mix := [] } } [] :=
  ⟨rfl, rfl, hs⟩

/-- A cell of a core is a cell of that core's memory. -/
theorem dspRead_of_dsp {s t : State} {d : Core} (h : t.dsp d = s.dsp d) (sp : Space) (j : Nat) :
    dspRead t d sp j = dspRead s d sp j := by
  unfold dspRead
  rw [h]

section
variable {mix : Store 32} {s m : State}

theorem MixWritten.eq (h : MixWritten mix s m) : m = { s with dspGp := m.dspGp } :=
  congrArg (fun a : State => { a with dspGp := m.dspGp }) h.rest

theorem MixWritten.dma (h : MixWritten mix s m) (d : Core) : m.dma d = s.dma d := by
  have := congrArg (fun a : State => a.dma d) h.rest
  cases d <;> exact this

/-- A core's cells after a tick that leaves the core to itself. -/
theorem MixWritten.held {t : State} {held : Core → Prop} (h : MixWritten mix s m) (k : EngineKeeps held m t) {d : Core}
    (hd : held d) : t.dma d = s.dma d ∧ ∀ sp j, dspRead t d sp j =
      if d = .gp ∧ sp = .x ∧ s.cfg.mixbufBase ≤ j ∧ j < s.cfg.mixbufBase + 1024 then
        BitVec.ofNat 32 ((mix.get (j - s.cfg.mixbufBase)).toNat % 2 ^ s.cfg.cellBits) else dspRead s d sp j := by
  obtain ⟨hdma, hdsp⟩ := k.core d hd
  exact ⟨hdma.trans (h.dma d), fun sp j => (dspRead_of_dsp hdsp sp j).trans (h.cells d sp j)⟩

/-- From the walk's last state to the tick's: only what the quanta can reach. -/
theorem MixWritten.engines {t : State} {held : Core → Prop} (h : MixWritten mix s m) (k : EngineKeeps held m t) :
    s.OnlyEngines t := by
  have hrest := congrArg (fun a : State => { a with
    halt := s.halt, mem := s.mem, dspGp := s.dspGp, dspEp := s.dspEp, dmaGp := s.dmaGp, dmaEp := s.dmaEp,
    dspData := s.dspData, oracle := s.oracle }) k.rest
  exact hrest.trans (congrArg (fun a : State => { a with
    halt := s.halt, mem := s.mem, dspEp := s.dspEp, dmaGp := s.dmaGp, dmaEp := s.dmaEp, dspData := s.dspData,
    oracle := s.oracle }) h.rest)

end

namespace PassKeeps
variable {s t : State}

theorem sub (h : PassKeeps s t) : t.sub = s.sub := congrArg (·.sub) h.rest
theorem dspGp (h : PassKeeps s t) : t.dspGp = s.dspGp := congrArg (·.dspGp) h.rest
theorem dspEp (h : PassKeeps s t) : t.dspEp = s.dspEp := congrArg (·.dspEp) h.rest
theorem dspData (h : PassKeeps s t) : t.dspData = s.dspData := congrArg (·.dspData) h.rest
theorem oracle (h : PassKeeps s t) : t.oracle = s.oracle := congrArg (·.oracle) h.rest

theorem dma (h : PassKeeps s t) (d : Core) : t.dma d = s.dma d := by
  have := congrArg (fun a : State => a.dma d) h.rest
  cases d <;> exact this

theorem rst (h : PassKeeps s t) (d : Core) : t.rst d = s.rst d := by
  have := congrArg (fun a : State => a.rst d) h.rest
  cases d <;> exact this

theorem dspRead (h : PassKeeps s t) (d : Core) (sp : Space) (j : Nat) :
    Machine.dspRead t d sp j = Machine.dspRead s d sp j := by
  have := congrArg (fun a : State => Machine.dspRead a d sp j) h.rest
  cases d <;> exact this

end PassKeeps

/-- A tick's list registers, kept values and the rest of the walk's state are those the walk left. -/
theorem onlyEngines_x {s t : State} (h : s.OnlyEngines t) : t.x = s.x ∧ t.sub = s.sub :=
  ⟨(congrArg State.x h :), (congrArg State.sub h :)⟩

/-- Registers as a whole give the list registers. -/
theorem lists_of_x {s t : State} (h : t.x = s.x) (l : VoiceList) :
    tvl t l = tvl s l ∧ cvl t l = cvl s l ∧ nvl t l = nvl s l := by
  cases l <;> simp only [tvl, cvl, nvl, h, and_self]

/-- A state that the quanta can reach is the one before them with its own engines. -/
theorem onlyEngines_eq {s t : State} (h : s.OnlyEngines t) : t = { s with
    halt := t.halt, mem := t.mem, dspGp := t.dspGp, dspEp := t.dspEp, dmaGp := t.dmaGp, dmaEp := t.dmaEp,
    dspData := t.dspData, oracle := t.oracle } :=
  congrArg (fun a : State => { a with
    halt := t.halt, mem := t.mem, dspGp := t.dspGp, dspEp := t.dspEp, dmaGp := t.dmaGp, dmaEp := t.dmaEp,
    dspData := t.dspData, oracle := t.oracle }) h

/-- A state that a pass can reach is the one before it with its own memory, line and registers of the walk and the trap. -/
theorem passKeeps_eq {s t : State} (h : PassKeeps s t) : t = { s with
    mem := t.mem, irq := t.irq, x := { s.x with
      ists := t.x.ists, fectl := t.x.fectl, cvl2d := t.x.cvl2d, nvl2d := t.x.nvl2d, cvl3d := t.x.cvl3d,
      nvl3d := t.x.nvl3d, cvlmp := t.x.cvlmp, nvlmp := t.x.nvlmp } } :=
  congrArg (fun a : State => { a with
    mem := t.mem, irq := t.irq, x := { a.x with
      ists := t.x.ists, fectl := t.x.fectl, cvl2d := t.x.cvl2d, nvl2d := t.x.nvl2d, cvl3d := t.x.cvl3d,
      nvl3d := t.x.nvl3d, cvlmp := t.x.cvlmp, nvlmp := t.x.nvlmp } }) h.rest

/-- What the rows of the visits left is the tick's own state, but for the walk's registers and what the quanta reach. -/
theorem Follows.engines {s u t : State} {mix : Store 32} (f : Follows s u mix) (h : s.OnlyEngines t) :
    (u.asWalked t).OnlyEngines t := by
  rw [onlyEngines_eq h, f.same]
  rfl

/-! ## The lists before a list -/

/-- What `voices` is for list `k` of a state: the list's voices in order, as many as the bound allows, each ready. -/
abbrev ReadyList (s : State) (voices : VoiceList → List Handle) (last : Handle) (k : VoiceList) : Prop :=
  LinkedTo s (argHandle (tvl s k)) last (voices k) ∧ (voices k).length ≤ s.cfg.numVoices ∧ ∀ h ∈ voices k, VoiceReady s h

/-- The passes before list `l` end, where the rows of their voices stand, and the tick goes on with the pass over `l`
(44_voice_walker_mixer R350). -/
theorem passes_before {s : State} {voices : VoiceList → List Handle} (l : VoiceList) (hs : s.halt = .running)
    (hf : fullTable s .voice) (h : ∀ k ∈ listsBefore l, ReadyList s voices Config.handleNil k) :
    ∃ t u, visits ((listsBefore l).flatMap voices) { s with sub := { s.sub with mix := [] } } = .next u ∧
      Follows t u u.sub.mix ∧ PassKeeps s t ∧ (∀ k, k ∉ listsBefore l → cvl t k = cvl s k ∧ nvl t k = nvl s k) ∧
      ∀ code v, listPass l u.sub.mix t = .error code v → tickBody s = .error code v := by
  have f0 := Follows.start hs
  cases l with
  | l2d => exact ⟨s, _, rfl, f0, .refl s, fun _ _ => ⟨rfl, rfl⟩, fun _ _ e => bind_error e⟩
  | l3d =>
    obtain ⟨hl, hn, hv⟩ := h .l2d (by simp [listsBefore])
    obtain ⟨t, u, hu, ft, pt, -, -, ho, ht⟩ := listPass_ok .l2d (voices .l2d) hn hf hl hv f0
    refine ⟨t, u, ?_, ft, pt, fun k hk => ho k (by simpa [listsBefore] using hk), fun code v e => ?_⟩
    · rw [show (listsBefore .l3d).flatMap voices = voices .l2d by simp [listsBefore], hu]
    · rw [tickBody, bind_ok ht, bind_error e]
  | lmp =>
    obtain ⟨hl, hn, hv⟩ := h .l2d (by simp [listsBefore])
    obtain ⟨t1, u1, hu1, ft1, pt1, -, -, ho1, ht1⟩ := listPass_ok .l2d (voices .l2d) hn hf hl hv f0
    obtain ⟨hl2, hn2, hv2⟩ := pt1.list (h .l3d (by simp [listsBefore]))
    obtain ⟨t, u, hu, ft, pt, -, -, ho, ht⟩ := listPass_ok .l3d (voices .l3d) hn2 (pt1.full hf) hl2 hv2 ft1
    refine ⟨t, u, ?_, ft, pt1.trans pt, fun k hk => ?_, fun code v e => ?_⟩
    · rw [show (listsBefore .lmp).flatMap voices = voices .l2d ++ voices .l3d by simp [listsBefore],
        visits_append _ _ hu1, hu]
    · have hk' : k ≠ .l2d ∧ k ≠ .l3d := by simpa [listsBefore] using hk
      rw [(ho k hk'.2).1, (ho k hk'.2).2]
      exact ho1 k hk'.1
    · rw [tickBody, bind_ok ht1, bind_ok ht, bind_error e]

end Sys2Proof.Machine

namespace Sys2Proof.Proofs
open Sys2Proof Sys2Proof.Machine

/-- Settles O46: the tick's body is behind the enable bits. -/
theorem tick_while_disabled : Obligations.tick_while_disabled := by
  intro s hs hoff
  have hdis : frameEnabled s = false := Bool.eq_false_iff.mpr fun hon => (frameEnabled_iff s).mp hon hoff
  refine exec_ok hs ?_
  show frameTick s = _
  rw [frameTick, bind_reads_run, hdis]
  rfl

/-- Settles O47: each pass names the terminator, the mix buffer takes bins that are 0, and held cores have no quantum. -/
theorem empty_tick : Obligations.empty_tick := by
  intro s hs hon hnil
  have h2 := listPass_empty (s := s) (hnil .l2d) []
  have h3 := listPass_empty (s := s.setCvl .l2d 0xFFFF) (l := .l3d) (hnil .l3d) []
  have hm := listPass_empty (s := (s.setCvl .l2d 0xFFFF).setCvl .l3d 0xFFFF) (l := .lmp) (hnil .lmp) []
  rw [setCvl_walkedEmpty] at hm
  obtain ⟨t, m, ht, hw, hk, hheld⟩ := tick_ok hs ((frameEnabled_iff s).mpr hon) h2 h3 hm
  have hengines := hw.engines hk
  have hrst : ∀ d, s.walkedEmpty.rst d = s.rst d := fun d => by cases d <;> rfl
  have hdma : ∀ d, s.walkedEmpty.dma d = s.dma d := fun d => by cases d <;> rfl
  have hread : ∀ d sp j, dspRead s.walkedEmpty d sp j = dspRead s d sp j := fun d _ _ => by cases d <;> rfl
  have hzero : ∀ k, (Store.get ([] : Store 32) k).toNat % 2 ^ s.cfg.cellBits = 0 := fun _ => Nat.zero_mod _
  have hcfg : s.walkedEmpty.cfg = s.cfg := rfl
  simp only [hrst] at hk hheld
  refine ⟨t, ht, fun l => ?_, ?_, fun d hd => ?_, fun hd => ?_⟩
  · rw [(lists_of_x (onlyEngines_x hengines).1 l).2.1]
    cases l <;> rfl
  · rw [onlyEngines_eq hengines]
    rfl
  · obtain ⟨hd1, hd2⟩ := hw.held hk hd
    refine ⟨hd1.trans (hdma d), fun sp j => ?_⟩
    rw [hd2, hcfg, hread, hzero] <;> rfl
  · rw [hheld hd]
    refine ⟨hw.y, hw.p, ?_⟩
    rw [hw.eq]
    rfl

/-- Settles O48: three passes, each standing where its voices' rows stand, then the mix-buffer write and the quanta. -/
theorem tick_completes : Obligations.tick_completes := by
  intro s voices hs hon hf hlists
  obtain ⟨hl, hn, hv⟩ := hlists .l2d
  obtain ⟨s1, u1, hu1, f1, p1, c1, n1, o1, e1⟩ := listPass_ok .l2d (voices .l2d) hn hf hl hv (Follows.start hs)
  obtain ⟨hl2, hn2, hv2⟩ := p1.list (hlists .l3d)
  obtain ⟨s2, u2, hu2, f2, p2, c2, n2, o2, e2⟩ := listPass_ok .l3d (voices .l3d) hn2 (p1.full hf) hl2 hv2 f1
  have p12 := p1.trans p2
  obtain ⟨hl3, hn3, hv3⟩ := p12.list (hlists .lmp)
  obtain ⟨s3, u3, hu3, f3, p3, c3, n3, o3, e3⟩ := listPass_ok .lmp (voices .lmp) hn3 (p12.full hf) hl3 hv3 f2
  have p := p12.trans p3
  obtain ⟨t, m, ht, hw, hk, hheld⟩ := tick_ok hs ((frameEnabled_iff s).mpr hon) e1 e2 e3
  have hengines := hw.engines hk
  obtain ⟨hx, hsub⟩ := onlyEngines_x hengines
  simp only [p.rst] at hk hheld
  refine ⟨t, u3, ht, ?_, f3.running, f3.engines hengines, hsub.trans p.sub, fun l => ?_, ?_, fun d hd => ?_, fun hd => ?_⟩
  · rw [List.append_assoc, visits_append _ _ hu1, visits_append _ _ hu2, hu3]
  · obtain ⟨ht1, ht2, ht3⟩ := lists_of_x hx l
    refine ⟨ht1.trans (p.tvl l), ?_⟩
    rw [ht2, ht3]
    cases l with
    | l2d =>
      rw [(o3 .l2d (by decide)).1, (o3 .l2d (by decide)).2, (o2 .l2d (by decide)).1, (o2 .l2d (by decide)).2]
      exact ⟨c1, n1⟩
    | l3d =>
      rw [(o3 .l3d (by decide)).1, (o3 .l3d (by decide)).2, ← (o1 .l3d (by decide)).2]
      exact ⟨c2, n2⟩
    | lmp =>
      rw [← (o1 .lmp (by decide)).2, ← (o2 .lmp (by decide)).2]
      exact ⟨c3, n3⟩
  · rw [onlyEngines_eq hengines, passKeeps_eq p]
    rfl
  · obtain ⟨hdma, hcells⟩ := hw.held hk hd
    refine ⟨hdma.trans (p.dma d), fun sp j => ?_⟩
    rw [hcells, p.cfg, p.dspRead]
  · have htm := hheld hd
    have hmrest := hw.rest
    have hmem : s3.mem = u3.mem := (congrArg State.mem f3.same :)
    rw [htm]
    refine ⟨((congrArg State.halt hmrest :).trans p.halt).trans hs, (congrArg State.mem hmrest :).trans hmem,
      (congrArg State.oracle hmrest :).trans p.oracle, (congrArg State.dspData hmrest :).trans p.dspData, ?_, ?_,
      (congrArg State.dspEp hmrest :).trans p.dspEp⟩
    · rw [hw.y, p.dspGp]
    · rw [hw.p, p.dspGp]

/-- Settles O49: the passes before list `l` end, and the pass over `l` stops at `last`. -/
theorem tick_stopped : Obligations.tick_stopped := by
  intro s l last voices hs hon hf hlast hlists
  have hene := (frameEnabled_iff s).mpr hon
  have hnot : l ∉ listsBefore l := by cases l <;> simp [listsBefore]
  obtain ⟨s1, u1, hu1, f1, p1, o1, herr⟩ := passes_before l hs hf fun k hk => by
    have hkl : k ≠ l := fun e => hnot (e ▸ hk)
    simpa only [if_neg hkl] using hlists k (.inl hk)
  have hlist := hlists l (.inr rfl)
  rw [if_pos rfl] at hlist
  obtain ⟨hl, hn, hv⟩ := p1.list hlist
  obtain ⟨t, u, n, hu, ft, pt, hc, hnv, ho, hpass⟩ := listPass_visits l (voices l) hn (p1.full hf) hl hv f1
  have p := p1.trans pt
  have hothers : ∀ k, k ∉ listsBefore l → k ≠ l → cvl t k = cvl s k ∧ nvl t k = nvl s k := fun k hk hkl => by
    rw [(ho k hkl).1, (ho k hkl).2]
    exact o1 k hk
  have hcfg : t.cfg = s.cfg := p.cfg
  refine ⟨u, by rw [visits_append _ _ hu1, hu], ft.running, fun hbad => ?_, fun w code hlt hrow hw => ?_⟩
  · have hstop := listLoop_bad hc hlast (by rw [hcfg]; exact hbad) n u.sub.mix
    have htick := tick_error hs hene (herr _ _ (hpass.trans hstop))
    have hnext : nvl t l = if voices l = [] then nvl s l else BitVec.ofNat 32 last.toNat := by
      rw [hnv, (o1 l hnot).2, handleWord_eq]
    refine ⟨_, htick, rfl, ?_, p.sub, p.dspGp, p.dspEp, ?_, ?_, fun k hk hkl => ?_⟩
    · exact (congrArg (fun a : State => a.asWalked u) ft.same :)
    · rw [← handleWord_eq, ← hc]
      cases l <;> rfl
    · rw [← hnext]
      cases l <;> rfl
    · rw [← (hothers k hk hkl).1, ← (hothers k hk hkl).2]
      cases k <;> exact ⟨rfl, rfl⟩
  · have f2 := ft.setNvl l (BitVec.ofNat 32 (voiceField t last vLink))
    generalize hz : t.setNvl l (BitVec.ofNat 32 (voiceField t last vLink)) = z at f2
    have hzt : PassKeeps t z := hz ▸ PassKeeps.setNvl t l _
    have pz := p.trans hzt
    obtain ⟨hvisit, hgp, hep⟩ := f2.visit_fatal (k := last) (by rw [pz.cfg]; exact hlt) hrow hw
    have hstop := listLoop_fatal hc hlast (by rw [hcfg]; exact hlt) n (by rw [hz]; exact hvisit)
    have htick := tick_error hs hene (herr _ _ (hpass.trans hstop))
    have hzl : cvl z l = cvl t l ∧ nvl z l = BitVec.ofNat 32 (voiceField u last vLink) := by
      rw [← hz, ← ft.field last vLink]
      exact ⟨setNvl_cvl t l l _, setNvl_nvl_same t l _⟩
    refine ⟨_, htick, rfl, ?_, pz.sub, hgp.trans pz.dspGp, hep.trans pz.dspEp, ?_, ?_, fun k hk hkl => ?_⟩
    · show { w with halt := w.halt } = w
      rfl
    · rw [← handleWord_eq, ← hc, ← hzl.1]
      cases l <;> rfl
    · rw [← hzl.2]
      cases l <;> rfl
    · have hzk : cvl z k = cvl t k ∧ nvl z k = nvl t k := by
        rw [← hz]
        exact ⟨setNvl_cvl t l k _, setNvl_nvl_other t hkl _⟩
      rw [← (hothers k hk hkl).1, ← (hothers k hk hkl).2, ← hzk.1, ← hzk.2]
      cases k <;> exact ⟨rfl, rfl⟩

end Sys2Proof.Proofs
end
